-- ==== Sys2Proof/Word.lean ====
section
/-! DEFINITION. The words of the machine, the sparse tables that hold them, and the fixed sets of names that the
fields of an instruction word take (spec/02, spec/03). Operations on them stand in Machine/. -/

namespace Sys2Proof

/-- A byte: one location of memory (R296). -/
abbrev Byte := BitVec 8
/-- A register, k register or memory word of 64 bits (R40). -/
abbrev Word := BitVec 64
/-- An instruction word (R65). -/
abbrev IWord := BitVec 32
/-- An address register: span [79:64], offset [63:0] (R129). -/
abbrev Addr := BitVec 80
/-- One bit for each of the 32 slots of a train. -/
abbrev Mask := BitVec 32
/-- A PC offset (R184). -/
abbrev Pc := BitVec 40
/-- A 7-bit register field (R67). -/
abbrev Reg := BitVec 7
/-- A 3-bit field naming an address register or a predicate (R70). -/
abbrev R3 := BitVec 3

/-- A sparse table: keys strictly rising, no entry equal to the zero that an unlisted key reads as. -/
abbrev Cells (n : Nat) := List (Nat × BitVec n)

/-- Sub-element widths 8, 16, 32 and 64 (R40, R82). -/
inductive Width where
  | w8 | w16 | w32 | w64
  deriving DecidableEq, Repr

/-- Float formats (R43, R51). -/
inductive Fmt where
  | f16 | bf16 | f32 | f64
  deriving DecidableEq, Repr

/-- Rounding modes (R51). -/
inductive Rm where
  | rn | rz | ru | rd | rna
  deriving DecidableEq, Repr

/-- Type codes of cvt and of xl red and scan (R88). -/
inductive Ty where
  | i (w : Width) | n (w : Width) | f (fmt : Fmt) | bx4 | bx6 | bx9
  deriving DecidableEq, Repr

/-- BX formats by their mantissa width 2, 4 and 7 (R53). -/
inductive Bx where
  | bx4 | bx6 | bx9
  deriving DecidableEq, Repr

/-- Scopes (R297). -/
inductive Scope where
  | thr | trn | core | die | dev | sys
  deriving DecidableEq, Repr

/-- Fence kinds (R80). -/
inductive FenceKind where
  | acq | rel | full
  deriving DecidableEq, Repr

/-- Integer and float conditions of cmp (R85). -/
inductive Cond where
  | eq | ne | ltI | leI | gtI | geI | ltN | leN | gtN | geN | test
  | feq | fne | flt | fle | fgt | fge | fun_ | ford
  deriving DecidableEq, Repr

/-- Type of a cmp: an integer width or a float format (R85). -/
inductive CmpTy where
  | int (w : Width) | flt (f : Fmt)
  deriving DecidableEq, Repr

/-- Combine of a cmp (R85). -/
inductive Combine where
  | set | and | or | xor | andn
  deriving DecidableEq, Repr

/-- Conditions of adr.cmpa (R92). -/
inductive ACond where
  | eq | ne | lt | le
  deriving DecidableEq, Repr

/-- Access types of ld and ldx (R91). -/
inductive LdTy where
  | b8 | b16 | b32 | b64 | b128 | i8 | i16 | i32
  deriving DecidableEq, Repr

/-- Access types of st and stx, poison apart (R91). -/
inductive StTy where
  | b8 | b16 | b32 | b64 | b128
  deriving DecidableEq, Repr

/-- Ordering class of a load or store (R233). -/
inductive Ord where
  | plain | strong (s : Scope) | ordered (s : Scope)
  deriving DecidableEq, Repr

/-- Widths of an atom: 32, 64 and 128 bits (R91). -/
inductive AWidth where
  | a32 | a64 | a128
  deriving DecidableEq, Repr

/-- The place an atom acts at: device memory at a scope, or team scratch (R91). -/
inductive ASpace where
  | dev (s : Scope) | scratch
  deriving DecidableEq, Repr

/-- Operations of xl red and scan (R90). -/
inductive RedOp where
  | add | min | max | and | or | xor
  deriving DecidableEq, Repr

/-- Exchange patterns of xl.qx (R90). -/
inductive Qx where
  | xor1 | xor2 | xor3 | b0 | b1 | b2 | b3
  deriving DecidableEq, Repr

/-- Allocation kinds of ctl.osalloc (R217). -/
inductive AllocKind where
  | reg | scr | bobj | qst
  deriving DecidableEq, Repr

/-- Retention classes with the lifetime code of LAPSE and STRICT, 0 to 4 (R223, R224). -/
inductive Retain where
  | keep | lapse (life : Fin 5) | strict (life : Fin 5)
  deriving DecidableEq, Repr

end Sys2Proof
end

