-- ==== Sys2Proof/Machine/Types.lean ====
section
/-! DEFINITION. The plain data that the events of spec/opcode_table.json carry: what the host, the policy core and the
environment hand to the device (spec/17, spec/19, spec/23, spec/24). -/

namespace Sys2Proof

/-- A budget record (R384): the fields that software or policy writes. -/
structure Budget where
  bw    : BitVec 32
  pwr   : BitVec 32
  store : BitVec 16
  slots : BitVec 16
  dprio : BitVec 3
  yth   : BitVec 16
  lwt   : BitVec 16
  debug : Bool
  deriving DecidableEq, Repr

/-- The budget that the firmware's reset gives a context: the whole die in every budget (R384): 3,584 train slots, 56 cores of
7 MiB in units of 64 KiB, and 9.84 TB/s in lines of 64 bytes each microsecond. DESIGN CHOICE (log 57): its activity tokens are
the field's greatest value and its dispatch priority 0; the spec gives no number for them. -/
def Budget.whole : Budget := ⟨153750#32, 0xFFFFFFFF#32, 6272#16, 3584#16, 0#3, 0x14#16, 0x28#16, false⟩
/-- A record as the register holds it: at most 3,584 slots, and a yield and a long-wait threshold of at least 1, the reset value else
(R205, R384). -/
def Budget.fit (b : Budget) : Budget :=
  { b with slots := if 3584 < b.slots.toNat then 3584#16 else b.slots, yth := if b.yth = 0#16 then 0x14#16 else b.yth
           lwt := if b.lwt = 0#16 then 0x28#16 else b.lwt }

/-- What the policy core fixes when it creates a context (R31, R384, R398, R419, R426, R439, R447). Without a budget the
firmware's reset stands. The node table is mapped at the span-0 offset `nodeOff`, under the key of slot `nodeKey`; `tabs` are the pages
of the translation tables that are still to be made for it (R398, R427). -/
structure CtxSpec where
  num      : Nat
  budget   : Option Budget
  oskey    : BitVec 32
  thand    : Word
  spanPa   : Nat
  spanLen  : Nat
  nmax     : Nat
  nodePa   : Nat
  nodeOff  : Nat
  nodeKey  : Nat
  tabs     : List Nat
  owner    : Word
  ringOff  : Word
  ringRecs : Nat
  deriving DecidableEq, Repr

/-- A key message of the mailbox (R439, R442): its header (the context whose owner signed it, the slot, the sequence number), the
ML-KEM-768 ciphertext, the AES-256-GCM nonce, the sealed XTS key with its tag, and the ML-DSA-65 signature. -/
structure KeyMsg where
  ctx   : Nat
  slot  : Nat
  seq   : Nat
  ct    : List Byte
  nonce : BitVec 96
  sealedKey : BitVec 512
  tag   : BitVec 128
  sig   : List Byte
  deriving DecidableEq, Repr

/-- Operation of an atom at its home port (R240). -/
inductive AtomOp where
  | add | minI | minN | maxI | maxN | and | or | xor | swap | cas | fadd
  deriving DecidableEq, Repr

/-- What a host or peer access does (R435): a store, a load, an atomic of any op and width, or a load from a wake register. -/
inductive HostOp where
  | read | write (data : List Byte) | atom (op : AtomOp) (w : AWidth) (v c : BitVec 128)
  | wakeRead
  deriving DecidableEq, Repr

/-- A host or peer access (R435, R436). `own` is set when the far side acts on its own memory behind `port`; otherwise the
access reaches device memory through the span-0 tables of `ctx`, as the policy core grants. -/
structure HostAcc where
  port : Nat
  own  : Bool
  ctx  : Nat
  off  : Word
  size : Nat
  op   : HostOp
  deriving DecidableEq, Repr

/-- A unit that self-test and retirement act on (R450, R451). -/
inductive HwUnit where
  | bank (core n : Nat) | bus (core g : Nat) | lane (core i : Nat) | engine (core e : Nat) | copy (core : Nat)
  | link (port : Nat)
  deriving DecidableEq, Repr

/-- Where a bit error appears (R444): a half-sector of device memory by its number, of a team's scratch, of the registers
of a slot (four registers make one), of a reservation in the operand buffer, of the team record and PC tables of a spill image, or
of the flit that carries a write over a link. -/
inductive HalfPlace where
  | dev (h : Nat) | scr (team h : Nat) | reg (tr slot h : Nat) | buf (team res h : Nat)
  | img (team h : Nat) | flit (req : Nat)
  deriving DecidableEq, Repr

/-- The condition of a half-sector, by its syndrome (R444). -/
inductive HalfCond where
  | clean | single (bit : Nat) | poison | poisonSingle (bit : Nat) | bad
  deriving DecidableEq, Repr

end Sys2Proof
end

