-- ==== Sys2Proof/Config.lean ====
section
/-! DEFINITION. What the spec leaves open: free values (opaque, with no body) and the constants of the part. Each free
value is a function of a plain counter of State or of the operands, so that a claim is true whatever it is. -/

namespace Sys2Proof.Config

/-- FREE (log 4): which of `n` possible next happenings comes first at step `tick` (R7, R21). Read modulo `n`. -/
opaque pick (tick n : Nat) : Nat
/-- FREE (log 5): the cycles that pass before step `tick`. -/
opaque elapse (tick : Nat) : Nat
/-- FREE (log 4): train `tr` can issue in this cycle as far as latencies and pipes go (R21 to R28, R112). -/
opaque timingReady (tick tr : Nat) : Bool
/-- FREE (log 12): a cached line of code that differs from memory is still fetched stale (R348). -/
opaque icacheStale (tick line : Nat) : Bool
/-- FREE (log 13): the translation-buffer entry that a fill replaces when the buffer is full (R242). -/
opaque tlbVictim (tick : Nat) : Nat
/-- FREE (log 14): where the allocator places a grant among the free places (R219). Read modulo their number. -/
opaque placeChoice (tick n : Nat) : Nat
/-- FREE (log 15): the f32 result that the sfu unit proposes for op `op` and input `x`; used where it meets R164. -/
opaque sfuF32 (op : Nat) (x : BitVec 32) : BitVec 32
/-- FREE (log 16): a byte that one command both reads and has written is read with its old value (R256). -/
opaque copyOld (tick a : Nat) : Bool
/-- FREE (log 16): how many elements a copy engine lands in one step, beyond one (R259). -/
opaque copyBurst (tick : Nat) : Nat
/-- FREE (log 17): a read under another key delivers these data bits, or an uncorrectable error (R438). -/
opaque wrongKey (tick a : Nat) : Option (BitVec 8)
/-- FREE (log 17): the data bits of a poisoned half-sector, which no reader is given (R445). -/
opaque poisonBits (tick a : Nat) : BitVec 8
/-- FREE (log 18): the secret that ML-KEM-768 decapsulates from a ciphertext under the device's transport key (R439, R442). -/
opaque kemSecret (ct : List (BitVec 8)) : BitVec 256
/-- FREE (log 18): what AES-256-GCM opens from a sealed key, over the message header as additional data; none for a tag that does
not check (R439, R442). -/
opaque gcmOpen (key : BitVec 256) (nonce : BitVec 96) (header : List (BitVec 8)) (sealedKey : BitVec 512) (tag : BitVec 128) : Option (BitVec 512)
/-- FREE (log 18): an ML-DSA-65 signature over a message verifies under the key that `owner` names (R439, R442). -/
opaque dsaVerify (owner : BitVec 64) (msg sig : List (BitVec 8)) : Bool
/-- FREE (log 18): byte `i` of the transport key's encapsulation key (R442). -/
opaque transportKey (i : Nat) : BitVec 8
/-- FREE (log 18): image `i` of bring-up step 3 verifies (R440). -/
opaque imageValid (i : Nat) : Bool
/-- FREE (log 18): byte `i` of SHAKE256 of a message, with 512 bits of output (R441, R442). -/
opaque shakeByte (msg : List (BitVec 8)) (i : Nat) : BitVec 8
/-- FREE (log 18): the boot ROM's identity, and the images of step 3 in their order (R440, R441). -/
opaque romIdentity : List (BitVec 8)
@[inherit_doc romIdentity] opaque imageBytes (i : Nat) : List (BitVec 8)
/-- FREE (log 18): byte `i` of the firmware versions (R441). -/
opaque firmwareVersion (i : Nat) : BitVec 8
/-- FREE (log 18): byte `i` of the ML-DSA-65 signature of a report under the device identity key (R441). -/
opaque signByte (report : List (BitVec 8)) (i : Nat) : BitVec 8
/-- FREE (log 19): bring-up step 5 succeeds for die `d`, step 4 for its memory (R440). -/
opaque dieTrained (d step : Nat) : Bool
/-- FREE (log 19): the fuse and firmware words that bring-up sets: lane map, ctime and margin of core `c`, and the live
bits of osmap word `i` (R14, R26, R30, R457). Bring-up raises or repairs them to what the rules admit. -/
opaque fuseLanes (c : Nat) : BitVec 32
@[inherit_doc fuseLanes] opaque firmwareCtime (c : Nat) : BitVec 64
@[inherit_doc fuseLanes] opaque firmwareMargin (i : Nat) : BitVec 64
@[inherit_doc fuseLanes] opaque firmwareOsmap (c i : Nat) : BitVec 64
/-- FREE (log 20): a completing task is drawn as an audit sample (R449). -/
opaque sampleDraw (tick : Nat) : Bool
/-- FREE (log 20): the audit region has no room for a snapshot (R449). -/
opaque auditFull (tick : Nat) : Bool
/-- FREE (log 20): the signature of an engine that a lasting or passing fault has disturbed (R449). -/
opaque replaySignature (tick : Nat) (good : BitVec 64) : BitVec 64
/-- FREE (log 33): which of the live banks of its slot's column holds a half-sector of registers (R19, R29). -/
opaque regBank (core resident slot h : Nat) : Nat
/-- FREE (log 23): the plan that firmware puts in force for core `c` at a quiesce: margin word and ctime (R456, R457). -/
opaque planMargin (tick c : Nat) : BitVec 64
@[inherit_doc planMargin] opaque planCtime (tick c : Nat) : BitVec 64
/-- FREE (log 23): the core cannot meet its ctime at the largest offset and is fenced (R456). -/
opaque planFences (tick c : Nat) : Bool
/-- FREE (log 23): the daily tests find that core `c` needs a new plan (R456). -/
opaque dailyFinds (tick c : Nat) : Bool
/-- FREE (log 23): a daily planning brings the next token plan into force (R457). -/
opaque tokenSwitch (tick : Nat) : Bool
/-- FREE (log 20): the self-test of a unit reproduces its fault (R450). -/
opaque faultLasting (tick : Nat) : Bool
/-- FREE (log 25): the number that a new allocation takes among those that are free (R219). -/
opaque allocNumber (tick : Nat) : Nat
/-- FREE (log 25): the info word of a 1:3 from an instruction that names no window register (R194, R218, R418), and the
count that qlen gives where it does not fit its field (R248). -/
opaque openInfo (tick : Nat) : BitVec 64
/-- Cycles of one microsecond (R8). -/
def us : Nat := 2400
/-- Bytes of operand store that one team may hold (R218). -/
def teamStore : Nat := 7340032
/-- Bytes of device memory that a die homes (R428). -/
def dieBytes : Nat := 192 * 2 ^ 30

end Sys2Proof.Config
end

