-- ==== Sys2Proof/Syntax.lean ====
section
/-! DEFINITION. Syntax: one constructor per row of spec/opcode_table.json. 177 are the encoded forms of
spec/03; 95 are the events of the device (spec/95), which no word encodes. Forms without operands and the requests of the
host and the policy core stand last. -/

namespace Sys2Proof

/-- An instruction word of a program, or an event of the device. Each constructor cites the rule of its row. -/
inductive Instr where
  /-- SYS_TRAP (R422). -/
  | sysTrap (n : BitVec 5)
  /-- SYS_SRD (R142). -/
  | sysSrd (d : Reg) (spec : Reg) (a : Reg)
  /-- SYS_SWR (R143). -/
  | sysSwr (spec : Reg) (a : Reg) (b : Reg)
  /-- SYS_FENCE (R145). -/
  | sysFence (kind : FenceKind) (sc : Scope)
  /-- SYS_WAITW (R146). -/
  | sysWaitw (scr : Bool) (an : R3) (b : Reg)
  /-- SYS_DLAUNCH (R148). -/
  | sysDlaunch (a : Reg)
  /-- REP (R135). -/
  | rep (bstep : BitVec 2) (astep : BitVec 2) (dstep : BitVec 2) (ben : Bool) (aen : Bool) (den : Bool) (count : BitVec 6)
  /-- GRD (R75). -/
  | grd (count : BitVec 3) (sense : Bool) (p : R3)
  /-- XIM (R76). -/
  | xim (e : BitVec 20)
  /-- CTL_WIN (R194). -/
  | ctlWin (n : BitVec 5)
  /-- CTL_OSALLOC (R218). -/
  | ctlOsalloc (d : Reg) (a : Reg) (kind : AllocKind) (ret : Retain)
  /-- CTL_OSFREE (R221). -/
  | ctlOsfree (a : Reg)
  /-- CTL_BAR (R197). -/
  | ctlBar (h : BitVec 6) (b : Reg)
  /-- CTL_BARR (R197). -/
  | ctlBarr (h : BitVec 6) (b : Reg)
  /-- CTL_BARW (R197). -/
  | ctlBarw (h : BitVec 6)
  /-- CTL_PRIO (R202). -/
  | ctlPrio (n : BitVec 4)
  /-- CTL_MIGR (R209). -/
  | ctlMigr (an : R3)
  /-- CTL_QBIND (R245). -/
  | ctlQbind (q : Reg) (a : Reg)
  /-- CTL_QUNBIND (R247). -/
  | ctlQunbind (q : Reg)
  /-- CTL_QLEN (R248). -/
  | ctlQlen (d : Reg) (q : Reg)
  /-- BRA (R131). -/
  | bra (p : R3) (sense : Bool) (off : BitVec 43)
  /-- JMP_JMP (R131). -/
  | jmpJmp (off : BitVec 37)
  /-- JMP_CALL (R131). -/
  | jmpCall (d : Reg) (off : BitVec 37)
  /-- JMP_RET (R131). -/
  | jmpRet (a : Reg)
  /-- JMP_JMPR (R131). -/
  | jmpJmpr (a : Reg)
  /-- JMP_CALLR (R131). -/
  | jmpCallr (d : Reg) (a : Reg)
  /-- IOP_ADD (R115). -/
  | iopAdd (w : Width) (d : Reg) (a : Reg) (b : Reg)
  /-- IOP_SUB (R115). -/
  | iopSub (w : Width) (d : Reg) (a : Reg) (b : Reg)
  /-- IOP_MUL (R115). -/
  | iopMul (w : Width) (d : Reg) (a : Reg) (b : Reg)
  /-- IOP_MIN_I (R115). -/
  | iopMinI (w : Width) (d : Reg) (a : Reg) (b : Reg)
  /-- IOP_MIN_N (R115). -/
  | iopMinN (w : Width) (d : Reg) (a : Reg) (b : Reg)
  /-- IOP_MAX_I (R115). -/
  | iopMaxI (w : Width) (d : Reg) (a : Reg) (b : Reg)
  /-- IOP_MAX_N (R115). -/
  | iopMaxN (w : Width) (d : Reg) (a : Reg) (b : Reg)
  /-- IOP_ADDS_I (R115). -/
  | iopAddsI (w : Width) (d : Reg) (a : Reg) (b : Reg)
  /-- IOP_ADDS_N (R115). -/
  | iopAddsN (w : Width) (d : Reg) (a : Reg) (b : Reg)
  /-- IOP_SUBS_I (R115). -/
  | iopSubsI (w : Width) (d : Reg) (a : Reg) (b : Reg)
  /-- IOP_SUBS_N (R115). -/
  | iopSubsN (w : Width) (d : Reg) (a : Reg) (b : Reg)
  /-- IOP_SHL (R115). -/
  | iopShl (w : Width) (d : Reg) (a : Reg) (b : Reg)
  /-- IOP_SHR (R115). -/
  | iopShr (w : Width) (d : Reg) (a : Reg) (b : Reg)
  /-- IOP_SAR (R115). -/
  | iopSar (w : Width) (d : Reg) (a : Reg) (b : Reg)
  /-- IOP_MULH_I (R115). -/
  | iopMulhI (w : Width) (d : Reg) (a : Reg) (b : Reg)
  /-- IOP_MULH_N (R115). -/
  | iopMulhN (w : Width) (d : Reg) (a : Reg) (b : Reg)
  /-- IOP_ROL (R115). -/
  | iopRol (w : Width) (d : Reg) (a : Reg) (b : Reg)
  /-- IOP_ROR (R115). -/
  | iopRor (w : Width) (d : Reg) (a : Reg) (b : Reg)
  /-- IOP_AVG_N (R115). -/
  | iopAvgN (w : Width) (d : Reg) (a : Reg) (b : Reg)
  /-- IOP_ABS (R115). -/
  | iopAbs (w : Width) (d : Reg) (a : Reg)
  /-- IOP_AND (R115). -/
  | iopAnd (d : Reg) (a : Reg) (b : Reg)
  /-- IOP_OR (R115). -/
  | iopOr (d : Reg) (a : Reg) (b : Reg)
  /-- IOP_XOR (R115). -/
  | iopXor (d : Reg) (a : Reg) (b : Reg)
  /-- IOP_ANDN (R115). -/
  | iopAndn (d : Reg) (a : Reg) (b : Reg)
  /-- IOPI_ADDI (R118). -/
  | iopiAddi (d : Reg) (a : Reg) (imm : BitVec 31)
  /-- IOPI_ANDI (R118). -/
  | iopiAndi (d : Reg) (a : Reg) (imm : BitVec 31)
  /-- IOPI_ORI (R118). -/
  | iopiOri (d : Reg) (a : Reg) (imm : BitVec 31)
  /-- IOPI_XORI (R118). -/
  | iopiXori (d : Reg) (a : Reg) (imm : BitVec 31)
  /-- SHI_SHLI (R119). -/
  | shiShli (w : Width) (d : Reg) (a : Reg) (n : BitVec 8)
  /-- SHI_SHRI (R119). -/
  | shiShri (w : Width) (d : Reg) (a : Reg) (n : BitVec 8)
  /-- SHI_SARI (R119). -/
  | shiSari (w : Width) (d : Reg) (a : Reg) (n : BitVec 8)
  /-- SHI_ROLI (R119). -/
  | shiRoli (w : Width) (d : Reg) (a : Reg) (n : BitVec 8)
  /-- SHI_RORI (R119). -/
  | shiRori (w : Width) (d : Reg) (a : Reg) (n : BitVec 8)
  /-- LIMM_INS (R120). -/
  | limmIns (d : Reg) (c : BitVec 2) (imm : BitVec 16)
  /-- LIMM_SET (R120). -/
  | limmSet (d : Reg) (c : BitVec 2) (imm : BitVec 16)
  /-- LIMM_SETS (R120). -/
  | limmSets (d : Reg) (c : BitVec 2) (imm : BitVec 16)
  /-- BIT_BEXT_I (R122). -/
  | bitBextI (w : Width) (d : Reg) (a : Reg) (b : Reg)
  /-- BIT_BEXT_N (R122). -/
  | bitBextN (w : Width) (d : Reg) (a : Reg) (b : Reg)
  /-- BIT_BINS (R122). -/
  | bitBins (w : Width) (d : Reg) (a : Reg) (b : Reg)
  /-- BIT_POPC (R122). -/
  | bitPopc (w : Width) (d : Reg) (a : Reg)
  /-- BIT_CLZ (R122). -/
  | bitClz (w : Width) (d : Reg) (a : Reg)
  /-- BIT_CTZ (R122). -/
  | bitCtz (w : Width) (d : Reg) (a : Reg)
  /-- BIT_BREV (R122). -/
  | bitBrev (w : Width) (d : Reg) (a : Reg)
  /-- BIT_BPERM (R123). -/
  | bitBperm (d : Reg) (a : Reg) (b : Reg)
  /-- CMP (R124). -/
  | cmp (p : R3) (cond : Cond) (ty : CmpTy) (comb : Combine) (a : Reg) (b : Reg)
  /-- SCAL_ADD (R126). -/
  | scalAdd (d : Reg) (a : Reg) (b : Reg)
  /-- SCAL_SUB (R126). -/
  | scalSub (d : Reg) (a : Reg) (b : Reg)
  /-- SCAL_MUL (R126). -/
  | scalMul (d : Reg) (a : Reg) (b : Reg)
  /-- SCAL_AND (R126). -/
  | scalAnd (d : Reg) (a : Reg) (b : Reg)
  /-- SCAL_OR (R126). -/
  | scalOr (d : Reg) (a : Reg) (b : Reg)
  /-- SCAL_XOR (R126). -/
  | scalXor (d : Reg) (a : Reg) (b : Reg)
  /-- SCAL_SHL (R126). -/
  | scalShl (d : Reg) (a : Reg) (b : Reg)
  /-- SCAL_SHR (R126). -/
  | scalShr (d : Reg) (a : Reg) (b : Reg)
  /-- SCAL_SAR (R126). -/
  | scalSar (d : Reg) (a : Reg) (b : Reg)
  /-- SCAL_MIN_I (R126). -/
  | scalMinI (d : Reg) (a : Reg) (b : Reg)
  /-- SCAL_MIN_N (R126). -/
  | scalMinN (d : Reg) (a : Reg) (b : Reg)
  /-- SCAL_MAX_I (R126). -/
  | scalMaxI (d : Reg) (a : Reg) (b : Reg)
  /-- SCAL_MAX_N (R126). -/
  | scalMaxN (d : Reg) (a : Reg) (b : Reg)
  /-- SCAL_RDLANE (R127). -/
  | scalRdlane (d : Reg) (a : Reg) (b : Reg)
  /-- SCAL_BCAST (R128). -/
  | scalBcast (d : Reg) (a : Reg)
  /-- FOP_ADD (R153). -/
  | fopAdd (f : Fmt) (rm : Rm) (d : Reg) (a : Reg) (b : Reg)
  /-- FOP_SUB (R153). -/
  | fopSub (f : Fmt) (rm : Rm) (d : Reg) (a : Reg) (b : Reg)
  /-- FOP_MUL (R153). -/
  | fopMul (f : Fmt) (rm : Rm) (d : Reg) (a : Reg) (b : Reg)
  /-- FOP_DIV (R153). -/
  | fopDiv (f : Fmt) (rm : Rm) (d : Reg) (a : Reg) (b : Reg)
  /-- FOP_SQRT (R153). -/
  | fopSqrt (f : Fmt) (rm : Rm) (d : Reg) (a : Reg)
  /-- FOP_MIN (R154). -/
  | fopMin (f : Fmt) (d : Reg) (a : Reg) (b : Reg)
  /-- FOP_MAX (R154). -/
  | fopMax (f : Fmt) (d : Reg) (a : Reg) (b : Reg)
  /-- FOP_ABS (R155). -/
  | fopAbs (f : Fmt) (d : Reg) (a : Reg)
  /-- FOP_NEG (R155). -/
  | fopNeg (f : Fmt) (d : Reg) (a : Reg)
  /-- FOP_COPYSIGN (R155). -/
  | fopCopysign (f : Fmt) (d : Reg) (a : Reg) (b : Reg)
  /-- FMA_FMA (R157). -/
  | fmaFma (f : Fmt) (rm : Rm) (d : Reg) (a : Reg) (b : Reg)
  /-- FMA_FMS (R157). -/
  | fmaFms (f : Fmt) (rm : Rm) (d : Reg) (a : Reg) (b : Reg)
  /-- FMA_FNMA (R157). -/
  | fmaFnma (f : Fmt) (rm : Rm) (d : Reg) (a : Reg) (b : Reg)
  /-- FMA_FNMS (R157). -/
  | fmaFnms (f : Fmt) (rm : Rm) (d : Reg) (a : Reg) (b : Reg)
  /-- CVT_FLOAT_FLOAT (R160). -/
  | cvtFloatFloat (dst : Fmt) (src : Fmt) (rm : Rm) (d : Reg) (a : Reg)
  /-- CVT_INT_FLOAT (R160). -/
  | cvtIntFloat (dst : Fmt) (sgn : Bool) (w : Width) (rm : Rm) (d : Reg) (a : Reg)
  /-- CVT_FLOAT_INT (R160). -/
  | cvtFloatInt (sgn : Bool) (w : Width) (src : Fmt) (rm : Rm) (d : Reg) (a : Reg)
  /-- CVT_BX_PACK (R161). -/
  | cvtBxPack (x : Bx) (d : Reg) (a : Reg)
  /-- CVT_BX_UNPACK (R161). -/
  | cvtBxUnpack (x : Bx) (d : Reg) (a : Reg)
  /-- SFU_RCP (R164). -/
  | sfuRcp (f : Fmt) (d : Reg) (a : Reg)
  /-- SFU_RSQRT (R164). -/
  | sfuRsqrt (f : Fmt) (d : Reg) (a : Reg)
  /-- SFU_SQRT (R164). -/
  | sfuSqrt (f : Fmt) (d : Reg) (a : Reg)
  /-- SFU_EXP2 (R164). -/
  | sfuExp2 (f : Fmt) (d : Reg) (a : Reg)
  /-- SFU_LOG2 (R164). -/
  | sfuLog2 (f : Fmt) (d : Reg) (a : Reg)
  /-- SFU_SINPI (R164). -/
  | sfuSinpi (f : Fmt) (d : Reg) (a : Reg)
  /-- SFU_COSPI (R164). -/
  | sfuCospi (f : Fmt) (d : Reg) (a : Reg)
  /-- SFU_TWD (R165). -/
  | sfuTwd (d : Reg) (a : Reg) (b : Reg)
  /-- XL_SHFL (R173). -/
  | xlShfl (w : Width) (d : Reg) (a : Reg) (b : Reg) (mk : Option (BitVec 5))
  /-- XL_SHFLX (R173). -/
  | xlShflx (w : Width) (d : Reg) (a : Reg) (b : Reg) (mk : Option (BitVec 5))
  /-- XL_SHFLU (R173). -/
  | xlShflu (w : Width) (d : Reg) (a : Reg) (b : Reg) (mk : Option (BitVec 5))
  /-- XL_SHFLD (R173). -/
  | xlShfld (w : Width) (d : Reg) (a : Reg) (b : Reg) (mk : Option (BitVec 5))
  /-- XL_BAL (R175). -/
  | xlBal (d : Reg) (p : R3) (mk : Option (BitVec 5))
  /-- XL_VOTE_ANY (R175). -/
  | xlVoteAny (d : Reg) (p : R3) (mk : Option (BitVec 5))
  /-- XL_VOTE_ALL (R175). -/
  | xlVoteAll (d : Reg) (p : R3) (mk : Option (BitVec 5))
  /-- XL_VOTE_EQ (R175). -/
  | xlVoteEq (w : Width) (d : Reg) (a : Reg) (mk : Option (BitVec 5))
  /-- XL_QX (R176). -/
  | xlQx (d : Reg) (a : Reg) (c : Qx) (mk : Option (BitVec 5))
  /-- XL_RED (R177). -/
  | xlRed (d : Reg) (a : Reg) (op : RedOp) (ty : Ty) (mk : Option (BitVec 5))
  /-- XL_SCAN (R177). -/
  | xlScan (excl : Bool) (d : Reg) (a : Reg) (op : RedOp) (ty : Ty) (mk : Option (BitVec 5))
  /-- LD (R230). -/
  | ld (ty : LdTy) (scr : Bool) (ord : Ord) (d : Reg) (an : R3) (off : BitVec 28)
  /-- LDX (R230). -/
  | ldx (ty : LdTy) (scr : Bool) (ord : Ord) (d : Reg) (an : R3) (x : Reg) (off : BitVec 7)
  /-- ST (R231). -/
  | st (ty : StTy) (scr : Bool) (ord : Ord) (d : Reg) (an : R3) (off : BitVec 28)
  /-- ST_POISON (R235). -/
  | stPoison (scr : Bool) (ord : Ord) (an : R3) (off : BitVec 28)
  /-- STX (R231). -/
  | stx (ty : StTy) (scr : Bool) (ord : Ord) (d : Reg) (an : R3) (x : Reg) (off : BitVec 7)
  /-- ATOM_ADD (R240). -/
  | atomAdd (w : AWidth) (sp : ASpace) (ret : Bool) (d : Reg) (an : R3) (src : Reg)
  /-- ATOM_MIN_I (R240). -/
  | atomMinI (w : AWidth) (sp : ASpace) (ret : Bool) (d : Reg) (an : R3) (src : Reg)
  /-- ATOM_MIN_N (R240). -/
  | atomMinN (w : AWidth) (sp : ASpace) (ret : Bool) (d : Reg) (an : R3) (src : Reg)
  /-- ATOM_MAX_I (R240). -/
  | atomMaxI (w : AWidth) (sp : ASpace) (ret : Bool) (d : Reg) (an : R3) (src : Reg)
  /-- ATOM_MAX_N (R240). -/
  | atomMaxN (w : AWidth) (sp : ASpace) (ret : Bool) (d : Reg) (an : R3) (src : Reg)
  /-- ATOM_AND (R240). -/
  | atomAnd (w : AWidth) (sp : ASpace) (ret : Bool) (d : Reg) (an : R3) (src : Reg)
  /-- ATOM_OR (R240). -/
  | atomOr (w : AWidth) (sp : ASpace) (ret : Bool) (d : Reg) (an : R3) (src : Reg)
  /-- ATOM_XOR (R240). -/
  | atomXor (w : AWidth) (sp : ASpace) (ret : Bool) (d : Reg) (an : R3) (src : Reg)
  /-- ATOM_SWAP (R240). -/
  | atomSwap (w : AWidth) (sp : ASpace) (ret : Bool) (d : Reg) (an : R3) (src : Reg)
  /-- ATOM_CAS (R240). -/
  | atomCas (w : AWidth) (sp : ASpace) (ret : Bool) (d : Reg) (an : R3) (src : Reg)
  /-- ATOM_FADD (R240). -/
  | atomFadd (w : AWidth) (sp : ASpace) (ret : Bool) (d : Reg) (an : R3) (src : Reg)
  /-- ADR_ADDA (R130). -/
  | adrAdda (ad : R3) (as_ : R3) (sh : Fin 5) (b : Reg)
  /-- ADR_ADDAI (R130). -/
  | adrAddai (ad : R3) (as_ : R3) (imm : BitVec 38)
  /-- ADR_MOVAW_REG (R130). -/
  | adrMovawReg (ad : R3) (a : Reg) (b : Reg)
  /-- ADR_MOVAW_IMM (R130). -/
  | adrMovawImm (ad : R3) (a : Reg) (span : BitVec 13)
  /-- ADR_MOVWA (R130). -/
  | adrMovwa (d : Reg) (as_ : R3) (part : Bool)
  /-- ADR_SPNA (R130). -/
  | adrSpna (ad : R3) (b : Reg)
  /-- ADR_CMPA (R130). -/
  | adrCmpa (p : R3) (as1 : R3) (as2 : R3) (cond : ACond)
  /-- ACP_COPY (R256). -/
  | acpCopy (a : Reg) (b : Reg)
  /-- ACP_FILL (R256). -/
  | acpFill (a : Reg) (b : Reg)
  /-- ACP_RING (R258). -/
  | acpRing (a : Reg) (b : Reg)
  /-- ACP_PFILL (R257). -/
  | acpPfill (a : Reg) (b : Reg)
  /-- MX_RES (R272). -/
  | mxRes (d : Reg) (a : Reg)
  /-- MX_REL (R273). -/
  | mxRel (a : Reg)
  /-- MX_WLD (R276). -/
  | mxWld (a : Reg) (b : Reg)
  /-- MX_TASK (R285). -/
  | mxTask (an : R3)
  /-- MX_DEP (R285). -/
  | mxDep (an : R3) (b : Reg)
  /-- BO_INIT (R251). -/
  | boInit (a : Reg) (b : Reg)
  /-- BO_EXPECT (R251). -/
  | boExpect (a : Reg) (b : Reg)
  /-- BO_ARRIVE (R250). -/
  | boArrive (a : Reg) (b : Reg)
  /-- BO_WAIT (R251). -/
  | boWait (a : Reg) (b : Reg)
  /-- BO_TEST (R251). -/
  | boTest (d : Reg) (a : Reg)
  /-- BO_ERR (R251). -/
  | boErr (d : Reg) (a : Reg)
  /-- BT_ENROLL (R406). -/
  | btEnroll (d : Reg) (an : R3) (b : Reg)
  /-- BT_UNENROLL (R407). -/
  | btUnenroll (a : Reg)
  /-- BT_REPARENT (R408). -/
  | btReparent (a : Reg) (b : Reg)
  /-- BT_SETTLE (R409). -/
  | btSettle (d : Reg) (a : Reg)
  /-- BT_READ (R409). -/
  | btRead (d : Reg) (a : Reg)
  /-- BT_CMP (R409). -/
  | btCmp (d : Reg) (a : Reg) (b : Reg)
  /-- BT_REPLY (R405). -/
  | btReply (id : Nat)
  /-- SPECIAL_REG_WRITE (R143). -/
  | specialRegWrite (tr : Nat) (spec : Reg) (idx : Nat) (v : Word)
  /-- PHOLD_WRITE (R320). -/
  | pholdWrite (v : Word)
  /-- PHOLD_EXPIRE (R320). -/
  | pholdExpire (due : Nat)
  /-- LOAD_REPLY (R230). -/
  | loadReply (id : Nat)
  /-- WRITE_HOME_APPLY (R314). -/
  | writeHomeApply (id : Nat)
  /-- CROSSING_DELIVER (R319). -/
  | crossingDeliver (src : Nat) (dst : Nat)
  /-- WRITE_ACK (R301). -/
  | writeAck (id : Nat)
  /-- FENCE_RESUME (R301). -/
  | fenceResume (tr : Nat)
  /-- SPIN_WAKE (R147). -/
  | spinWake (tr : Nat) (m : Mask) (due : Nat)
  /-- YIELD_WINDOW_END (R139). -/
  | yieldWindowEnd (tr : Nat) (due : Nat)
  /-- WAITW_WAKE (R146). -/
  | waitwWake (tr : Nat) (slot : Nat)
  /-- WAITW_POLL (R146). -/
  | waitwPoll (tr : Nat) (slot : Nat) (due : Nat)
  /-- PRESENCE_WAKE (R238). -/
  | presenceWake (team : Nat) (line : Nat)
  /-- QUEUE_PORT_WAKE (R68). -/
  | queuePortWake (tr : Nat) (slot : Nat)
  /-- ESCAPE_ISSUE (R187). -/
  | escapeIssue (tr : Nat)
  /-- AGING_STEP (R190). -/
  | agingStep (tr : Nat)
  /-- TRANSLATION_WALK_DONE (R429). -/
  | translationWalkDone (id : Nat)
  /-- TRANSLATION_WALK_FAIL (R430). -/
  | translationWalkFail (id : Nat)
  /-- TRAP_ENTRY (R420). -/
  | trapEntry (tr : Nat)
  /-- COPY_START (R259). -/
  | copyStart (core : Nat)
  /-- COPY_SETASIDE_RESUME (R237). -/
  | copySetasideResume (core : Nat)
  /-- COPY_COMPLETE (R256). -/
  | copyComplete (id : Nat)
  /-- PFILL_LINE_LAND (R257). -/
  | pfillLineLand (id : Nat)
  /-- PFILL_COMPLETE (R257). -/
  | pfillComplete (id : Nat)
  /-- RING_ROTATION_START (R258). -/
  | ringRotationStart (id : Nat)
  /-- RING_ROTATION_COMPLETE (R258). -/
  | ringRotationComplete (id : Nat)
  /-- WLD_COMPLETE (R276). -/
  | wldComplete (id : Nat)
  /-- COMMAND_FAIL (R261). -/
  | commandFail (id : Nat) (code : Nat)
  /-- TASK_HELD_ENQUEUE (R284). -/
  | taskHeldEnqueue (core : Nat)
  /-- TASK_START (R283). -/
  | taskStart (core : Nat)
  /-- TILE_DRAIN (R288). -/
  | tileDrain (id : Nat)
  /-- ADD_ON_STORE_UNIT (R289). -/
  | addOnStoreUnit (id : Nat)
  /-- TASK_COMPLETE (R290). -/
  | taskComplete (id : Nat)
  /-- TASK_FAIL (R291). -/
  | taskFail (id : Nat) (code : Nat)
  /-- RETENTION_REFRESH (R38). -/
  | retentionRefresh (team : Nat) (granule : Nat)
  /-- RETENTION_MARK_EXPIRED (R224). -/
  | retentionMarkExpired (team : Nat) (granule : Nat)
  /-- BRIDLE_ROLLUP (R403). -/
  | bridleRollup (ctx : Nat) (node : Nat)
  /-- MIGR_GRANT (R209). -/
  | migrGrant (tr : Nat)
  /-- MIGR_WAIT_TIMEOUT (R209). -/
  | migrWaitTimeout (tr : Nat) (due : Nat)
  /-- MIGR_LAND (R211). -/
  | migrLand (tr : Nat)
  /-- TEAM_RETIRE (R213). -/
  | teamRetire (team : Nat)
  /-- LAUNCH_COMPLETE (R360). -/
  | launchComplete (launch : Nat)
  /-- ADMISSION_DECISION (R386). -/
  | admissionDecision (die : Nat)
  /-- TEAM_BLOCKING (R386). -/
  | teamBlocking (id : Nat) (due : Nat)
  /-- TEAM_YIELD (R381). -/
  | teamYield (team : Nat)
  /-- PREEMPT_REQUEST (R387). -/
  | preemptRequest (team : Nat)
  /-- EVICT_SPILL (R390). -/
  | evictSpill (team : Nat)
  /-- SPILL_DONE (R390). -/
  | spillDone (team : Nat)
  /-- READMIT (R392). -/
  | readmit (team : Nat) (core : Nat)
  /-- REDIRECT_COUNT (R391). -/
  | redirectCount (team : Nat) (obj : Nat) (bytes : Nat) (tag : Bool) (code : Nat)
  /-- PACKET_WINDOW_FETCH (R365). -/
  | packetWindowFetch (slot : Nat)
  /-- PACKET_NOP (R358). -/
  | packetNop (slot : Nat)
  /-- PACKET_LAUNCH (R360). -/
  | packetLaunch (slot : Nat)
  /-- PACKET_LAUNCH2 (R361). -/
  | packetLaunch2 (slot : Nat)
  /-- PACKET_IB (R363). -/
  | packetIb (slot : Nat)
  /-- PACKET_PRED (R363). -/
  | packetPred (slot : Nat)
  /-- PACKET_LOOP (R363). -/
  | packetLoop (slot : Nat)
  /-- PACKET_FFENCE (R366). -/
  | packetFfence (slot : Nat)
  /-- PACKET_WAITMEM (R364). -/
  | packetWaitmem (slot : Nat)
  /-- WAITMEM_RECHECK (R364). -/
  | waitmemRecheck (slot : Nat) (due : Nat)
  /-- PACKET_WRITE (R364). -/
  | packetWrite (slot : Nat)
  /-- PACKET_SIGNAL_BOBJ (R364). -/
  | packetSignalBobj (slot : Nat)
  /-- PACKET_SIGNAL_WAKE (R364). -/
  | packetSignalWake (slot : Nat)
  /-- PROLOGUE_RUNAWAY (R369). -/
  | prologueRunaway (unit : Nat)
  /-- DLAUNCH_PROCESS (R372). -/
  | dlaunchProcess (ctx : Nat)
  /-- CORRECTED_RECORD_FLUSH (R447). -/
  | correctedRecordFlush (unit : Nat) (due : Nat)
  /-- AUDIT_REPLAY (R449). -/
  | auditReplay (id : Nat)
  /-- SELF_TEST (R450). -/
  | selfTest (u : HwUnit)
  /-- UNIT_RETIRE (R451). -/
  | unitRetire (u : HwUnit)
  /-- REMAP_STEP (R452). -/
  | remapStep (core : Nat)
  /-- CORE_QUIESCE (R456). -/
  | coreQuiesce (core : Nat)
  /-- SHARED_TRANSLATION_HIT (R429). -/
  | sharedTranslationHit (id : Nat)
  /-- SELF_TEST_COMPLETE (R450). -/
  | selfTestComplete (u : HwUnit) (lasting : Bool)
  /-- HOST_ACCESS (R435). -/
  | hostAccess (acc : HostAcc)
  /-- KEY_SLOT_LOAD (R439). -/
  | keySlotLoad (msg : KeyMsg)
  /-- TRANSLATION_INVALIDATE (R431). -/
  | translationInvalidate (ctx : Nat) (pa : Nat) (entry : Word)
  /-- CONTEXT_CREATE (R31). -/
  | contextCreate (c : CtxSpec)
  /-- BUDGET_WRITE (R384). -/
  | budgetWrite (ctx : Nat) (b : Budget)
  /-- ATTESTATION_REPORT (R441). -/
  | attestationReport (nonce : BitVec 256)
  /-- AUDIT_SET (R448). -/
  | auditSet (ctx : Nat) (on : Bool) (n : BitVec 5)
  /-- BIT_ERROR (R444). -/
  | bitError (place : HalfPlace) (bit : Nat)
  /-- QUEUE_MAP (R354). -/
  | queueMap (ctx : Nat) (desc : Word) (slot : Nat)
  /-- QUEUE_UNMAP (R373). -/
  | queueUnmap (slot : Nat)
  /-- QUEUE_REMAP (R374). -/
  | queueRemap (ctx : Nat) (desc : Word) (slot : Nat)
  /-- WAKE_WRITE (R355). -/
  | wakeWrite (ctx : Nat) (slot : Nat) (v : Word)
  /-- CONTEXT_STOP (R393). -/
  | contextStop (ctx : Nat)
  /-- CONTEXT_SUSPEND (R393). -/
  | contextSuspend (ctx : Nat)
  /-- CONTEXT_RESUME (R393). -/
  | contextResume (ctx : Nat)
  /-- CONTEXT_TEARDOWN (R394). -/
  | contextTeardown (ctx : Nat)
  /-- FAULT_SERVICE_REPLY (R430). -/
  | faultServiceReply (id : Nat) (pa : Nat) (entry : Option Word)
  /-- REMOTE_ACCESS_TIMEOUT (R437). -/
  | remoteAccessTimeout (id : Nat)
  /-- SYS_NOP (R139). -/
  | sysNop
  /-- SYS_EXIT (R140). -/
  | sysExit
  /-- SYS_ERET (R423). -/
  | sysEret
  /-- SYS_BRK (R141). -/
  | sysBrk
  /-- SYS_SPIN (R147). -/
  | sysSpin
  /-- SYS_YIELD (R139). -/
  | sysYield
  /-- SYS_LCOMMIT (R370). -/
  | sysLcommit
  /-- SYS_LCANCEL (R370). -/
  | sysLcancel
  /-- SYS_LREPEAT (R370). -/
  | sysLrepeat
  /-- DEVICE_BOOT (R440). -/
  | deviceBoot
  /-- ERROR_RECORD_POST (R447). -/
  | errorRecordPost
  /-- DAILY_REPLAN (R456). -/
  | dailyReplan
  deriving DecidableEq, Repr

end Sys2Proof
end

