-- ==== Sys2Proof/Machine/State.lean ====
section
/-! DEFINITION. The state of one GV9 device, as plain data: what spec/ names for slots, trains, teams, cores, launches,
contexts, the front end, memory, engines and the policy core, and the model's own counters. -/

namespace Sys2Proof.Machine

/-- State of a slot in the PC table, codes 0 to 11 (R184). -/
inductive SState where
  | ready | presence | qport | member | barrier | miss | wait | exited | absent | helper | bowait | migr
  deriving DecidableEq, Repr

/-- A guard: covered instructions still to come, sense and predicate (R75, R137). -/
structure Guard where
  cnt   : Nat
  sense : Bool
  pred  : R3
  deriving DecidableEq, Repr

/-- What a parked slot waits for (R184, R461). -/
inductive Wait where
  | none
  /-- Lines of team scratch that are not present (R238). -/
  | presence (lines : List Nat)
  /-- A queue port: 120 to 126 by number 0 to 6 (R68). -/
  | port (q : Nat)
  /-- Members of an xl instruction whose word stands at `pc`, with the slot's guard of that instruction; `expl` when a k
  register named them (R169, R170). -/
  | member (expl : Bool) (m : Mask) (pc : Pc) (g : Guard)
  /-- A phase of a named barrier (R197). -/
  | barrier (h : Nat) (phase : Bool)
  /-- A walk by its number, with the access kind; `resolved` once it has failed for this slot (R243, R430). -/
  | miss (id acc : Nat) (resolved : Bool)
  /-- The release part of a release store (R301). -/
  | rel (sc : Scope)
  /-- A fence by the active slots `m` (R301, R302). -/
  | fence (kind : FenceKind) (sc : Scope) (m : Mask)
  /-- sys.spin, until a time (R147). -/
  | spin (due : Nat)
  /-- sys.waitw on 8 bytes at these keys, with its comparand; `scr` for team scratch; `polled` the number of the access that
  polls far memory (R146, R437). -/
  | watch (scr : Bool) (keys : List Nat) (va : Addr) (cmp : Word) (polled : Option Nat)
  /-- Room in the device-launch queue, with the descriptor (R148). -/
  | dlaunch
  /-- bo.wait on the object at an offset, until its phase differs from `phase` (R251); `ports` when its fields name ports,
  whose items it takes as it ends. -/
  | obj (off : Nat) (phase ports : Bool)
  /-- ctl.migr: the mooring wait toward a die, or in transit to a core (R209). -/
  | mooring (die : Nat)
  | transit (core : Nat)
  deriving DecidableEq, Repr

/-- What a release has covered, for the clocks of R315: the scope, and the writes that come before (by request number). -/
structure Release where
  sc  : Scope
  ids : List Nat
  deriving DecidableEq, Repr

/-- One slot of a train (R181, R184). -/
structure Slot where
  pc     : Pc
  st     : SState
  guard  : Guard
  rcount : Nat
  regs   : Cells 64
  rcond  : List (Nat × HalfCond)
  /-- The registers of the trap frame while the handler runs, with the bits of each that a write may change (R11, R418). -/
  frame  : List (Nat × Word)
  areg   : Cells 80
  pred   : BitVec 8
  skip   : Nat
  qpart  : List (Nat × List Word)
  wait   : Wait
  npc    : Pc
  nguard : Guard
  walked : Bool
  /-- The number of the instruction at which the slot has parked and that it is still to make, 0 for none: its slots report their
  faults together (R416). -/
  again  : Nat
  hb     : List Nat
  rel    : List Release
  acq    : List Release
  /-- Writes of another die that the slot may have seen before its train moved: what it reads or writes there comes after them
  (R303). -/
  seen   : List Nat
  deriving DecidableEq, Repr

/-- Target of a queue-port binding (R244). -/
inductive QTarget where
  | copyCmd | tileTask | completions (base depth : Nat) | stageIn | stageOut
  deriving DecidableEq, Repr

/-- A trap decided and not yet entered (R416, R418). -/
structure PTrap where
  cause : BitVec 9
  fpc   : Pc
  tmask : Mask
  pmask : Mask
  info  : Word
  faddr : Cells 80
  deriving DecidableEq, Repr

/-- Migration of a train (R209, R211). -/
inductive Migr where
  | none | waiting (die : Nat) | transit (core upTo : Nat)
  deriving DecidableEq, Repr

/-- An instruction under single step that has issued (R424): its run, the slots that have not completed it, and the PC at which
they stand. -/
structure Stepped where
  run  : Mask
  left : Mask
  pc   : Pc
  deriving DecidableEq, Repr

/-- A train, or the run of a prologue unit, which uses slot 0 alone (R181, R368). -/
structure Train where
  uid      : Nat
  team     : Nat
  idx      : Nat
  core     : Nat
  resident : Nat
  A        : Nat
  B        : Nat
  cbase    : Nat
  k        : Cells 64
  fflags   : BitVec 5
  lapsed   : Bool
  prio     : Nat
  aging    : Nat
  canSince : Option Nat
  yieldTo  : Nat
  thand    : Word
  inHand   : Bool
  sstep    : Bool
  step     : Option Stepped
  trap     : Option PTrap
  /-- The requests of the instruction whose trap is still to be entered (R416), and the faulting PC of the trap whose handler
  runs: the pend mask's slots make the instruction there again (R423). -/
  tgrp     : Nat
  fpc      : Pc
  slots    : List Slot
  ports    : List (Nat × QTarget)
  compl    : List Word
  lastBar  : List (Nat × Bool × Bool)
  declared : Option Nat
  lastIss  : Nat
  escape   : Option Nat
  migr     : Migr
  halted   : Bool
  retired  : Bool
  /-- For a prologue run: its front-end queue slot, entry, commits made and instructions issued (R368 to R370). -/
  prol     : Option (Nat × Nat × Nat × Nat)
  deriving DecidableEq, Repr

/-- A live allocation of kind 1 to 3 (R217, R219). -/
structure Alloc where
  num  : Nat
  kind : AllocKind
  ret  : Retain
  base : Nat
  size : Nat
  granted : Nat
  deriving DecidableEq, Repr

/-- A barrier object (R249); its owner fields are the team's. -/
structure BObj where
  expected : Nat
  arrived  : Nat
  err      : Nat
  phase    : Bool
  deriving DecidableEq, Repr

/-- A named barrier (R196): `expected` is none, a count, or the team (0). -/
structure NBar where
  phase    : Bool
  arrived  : Nat
  expected : Option Nat
  deriving DecidableEq, Repr

/-- A matrix reservation (R268, R272). -/
structure Resv where
  num   : Nat
  kind  : Nat
  fmt   : Nat
  sadj  : Int
  pitch : Nat
  len   : Nat
  base  : Nat
  bytes : Cells 8
  cond  : List (Nat × HalfCond)
  deriving DecidableEq, Repr

/-- Life of a team on the machine: a halt asked for, its store on the way out, in its image, and on its way back (R387 to R392);
killed, while engine work that had started still ends, with its store held on its core or not (R214, R293). -/
inductive Life where
  | resident | halting | spilling | spilled | restoring | dying (held : Bool)
  deriving DecidableEq, Repr

/-- A team; what a spill image holds of it stays here while it is spilled (R204, R390). -/
structure Team where
  id       : Nat
  ctx      : Nat
  launch   : Nat
  stage    : Nat
  num      : Nat
  fpos     : Nat
  form     : Option Nat
  core     : Nat
  home     : Nat
  tslot    : Nat
  life     : Life
  dprio    : Nat
  yielded  : Bool
  yieldFor : List Nat
  preempt  : Bool
  victimOf : Option Nat
  waitFrom : Nat
  /-- Since when no core of its die has held the waiting team (R392). -/
  noneFrom : Nat
  stallAt  : Nat
  allocs   : List Alloc
  scratch  : Cells 8
  scond    : List (Nat × HalfCond)
  absent   : List (Nat × List Nat)
  wrote    : List (Nat × Nat)
  marked   : List Nat
  bobjs    : List (Nat × BObj)
  nb       : Nat
  bars     : List (Nat × NBar)
  resv     : List Resv
  rings    : Nat
  draining : List Alloc
  /-- Conditions of the half-sectors of its spill image that hold the team record and the PC tables (R415, R458). -/
  img      : List (Nat × HalfCond)
  /-- Of a killed team whose engine work still ends: the resident slot and the window registers of each of its trains, which are
  freed with everything else of it (R214). -/
  ghosts   : List (Nat × Nat)
  deriving DecidableEq, Repr

/-- A redirect entry of a die for an evicted team (R391): without `work` while the team is away, then the commands and tasks that the
entry still waits for. -/
structure Redirect where
  die  : Nat
  team : Nat
  work : Option (List Nat)
  deriving DecidableEq, Repr

/-- An entry of a translation buffer or shared cache: context, span, first page (64 KiB units), level and leaf (R242). -/
structure TlbE where
  ctx   : Nat
  span  : Nat
  page  : Nat
  level : Nat
  leaf  : Word
  port  : Nat
  kind  : Nat
  deriving DecidableEq, Repr

/-- A line of an instruction cache (R348): the context that it was fetched for, its place, the key version that it was read under, its
bytes as they were delivered, and what its two half-sectors met, 0 where they were sound (R438, R445, R455). -/
structure ILine where
  ctx   : Nat
  line  : Nat
  ver   : Nat
  bytes : BitVec 512
  bad   : Nat × Nat
  deriving DecidableEq, Repr

/-- A logical core (spec/01, spec/19, spec/24). `retire` are banks that the next remap step marks dead, `drain` the time since
when the core waits to quiesce (R452, R456). -/
structure Core where
  lanes   : BitVec 32
  ctime   : Word
  dead    : List Nat
  fuse    : BitVec 32
  fenced  : Bool
  plan    : Option (Word × Word)
  stopped : Bool
  retire  : List Nat
  drain   : Option Nat
  lasts   : List (Nat × Nat)
  preTime : List (Nat × Nat)
  tlb     : List TlbE
  /-- The translation buffer of its copy engine and matrix engines (R243). -/
  etlb    : List TlbE
  icache  : List ILine
  testing : List Nat
  errors  : List (Nat × Nat)
  deriving DecidableEq, Repr

/-- A bridle node (R399). -/
structure Node where
  count  : Nat
  pend   : Nat
  parent : Nat
  nchild : Nat
  depth  : Nat
  state  : Nat
  size   : Nat
  base   : Nat
  deriving DecidableEq, Repr

/-- A context (R31, R384, R389, R398, R419, R426, R439, R447, R448). -/
structure Ctx where
  num     : Nat
  budget  : Budget
  oskey   : BitVec 32
  thand   : Word
  spanPa  : Nat
  spanLen : Nat
  nmax    : Nat
  nodePa  : Nat
  nodes   : List (Nat × Node)
  owner   : Word
  lastSeq : Nat
  ringOff : Word
  ringRecs : Nat
  audOn   : Bool
  audN    : BitVec 5
  checked : Nat
  skipped : Nat
  stall   : Nat
  stopped : Bool
  suspended : Bool
  /-- Its tear-down has begun (R394). -/
  closing : Bool
  dlq     : List (Word × Nat)
  deriving DecidableEq, Repr

/-- A stage descriptor (R343). -/
structure StageD where
  entry   : Nat
  teams   : Nat
  threads : Nat
  regs    : Nat
  prio    : Nat
  form    : Nat
  nb      : Nat
  scr     : Nat
  deriving DecidableEq, Repr

/-- A stage queue (R206, R208): item words, depth, marks, items, closed. -/
structure SQueue where
  item   : Nat
  depth  : Nat
  low    : Nat
  high   : Nat
  items  : List (List Word)
  closed : Bool
  deriving DecidableEq, Repr

/-- A launch (R342, R360). For each stage: its team count, the next team number, teams retired, and for the team that waits
next the time since when and the time of its last counted stall (R386, R388). -/
structure Launch where
  id      : Nat
  ctx     : Nat
  cbase   : Nat
  stages  : List StageD
  queues  : List SQueue
  args    : List Word
  counts  : List Nat
  nexts   : List Nat
  retired : List Nat
  since   : List Nat
  stalls  : List Nat
  done    : Bool
  dadr    : Word
  dval    : Word
  prio    : Nat
  deriving DecidableEq, Repr

/-- Stage of a device-memory request on its way (R314). -/
inductive ReqStage where
  | fresh | crossing | home | applied
  deriving DecidableEq, Repr

/-- The bt request of one slot (R405 to R409). -/
inductive BtOp where
  | enroll (va : Addr) (v : Word) | unenroll (n : Nat) | reparent (n : Nat) (p : Word)
  | settle (n : Nat) | read (n : Nat) | cmp (n : Nat) (v : Word)
  deriving DecidableEq, Repr

/-- Kind of a request in flight. A load that touches two lines is one request for each, `lo` the place of its bytes in the
access and `got` what it has read while the other part is still out (R232). -/
inductive ReqKind where
  | load (ty : LdTy) (lo : Nat) (got : Option (List Byte)) | store (data : List Byte) | poison
  | atom (op : AtomOp) (w : AWidth) (v c : BitVec 128) (ret : Bool) (old : BitVec 128) | bt (op : BtOp)
  deriving DecidableEq, Repr

/-- Where the reply of a request goes: a register of the slot or of the train, a port, or nowhere. -/
inductive Dst where
  | none | w (n : Nat) (pair : Bool) | k (n : Nat) (pair : Bool) | q (n : Nat)
  deriving DecidableEq, Repr

/-- A request in flight: one access of one slot (R295, R314), of the instruction `grp`. `keys` are the physical bytes,
`keyIds` their encryption keys, `sects` the enrolled sectors written (context and virtual sector), `entry` the order of
entry to a die stage, `after` the writes that come before it, `cover` the half-sectors that the slots of its store write whole
together (R234), `flt` a fault found at home (cause value, 0 for none), `ctx` its context, `blk` the
acquire that its slot's later accesses wait for it under (R301), `link` the condition of the flit that carries it (R444). -/
structure Req where
  id     : Nat
  tr     : Nat
  slot   : Nat
  core   : Nat
  kind   : ReqKind
  ord    : Ord
  dst    : Dst
  va     : Addr
  keys   : List Nat
  keyIds : List Nat
  sects  : List (Nat × Nat)
  stage  : ReqStage
  entry  : Nat
  acked  : Bool
  replied : Bool
  after  : List Nat
  rel    : List Release
  pc     : Pc
  guard  : Guard
  rcount : Nat
  grp    : Nat
  flt    : Nat
  cover  : List Nat
  blk    : Option Scope
  link   : HalfCond
  ctx    : Nat
  deriving DecidableEq, Repr

/-- A walk in flight (R429); `eng` the command or task whose failed walk it is, of which the fault service has been asked while it is
`offered` (R430). -/
structure Walk where
  id     : Nat
  ctx    : Nat
  span   : Nat
  page   : Nat
  die    : Nat
  core   : Nat
  offered : Bool
  eng    : Option Nat
  deriving DecidableEq, Repr

/-- An entry of a crossing queue (R319). -/
inductive Xing where
  | write (id : Nat) | ack (id : Nat)
  deriving DecidableEq, Repr

/-- Functions of the copy engine (R254, R276). -/
inductive CmdFn where
  | copy | fill | ring | pfill | wld
  deriving DecidableEq, Repr

/-- Where an engine command stands (R237, R259). -/
inductive CmdStage where
  | queued | aside | running | landed
  deriving DecidableEq, Repr

/-- A copy-engine command (R254). `need` are the issuer's writes that must be performed first, `desc` the descriptor
once read, `pos` the elements, lines or rows landed, `wrote` and `olds` the bytes it has written and what stood there, `oldx` those
of them whose granule had expired, with whether it is STRICT, `oldk` the key versions that the old bytes of device memory were
written under (R223, R256, R438). -/
structure Cmd where
  id    : Nat
  fn    : CmdFn
  team  : Nat
  tr    : Nat
  core  : Nat
  loc   : Word
  desc  : Option (List Byte)
  obj   : Option Nat
  tag   : Bool
  lines : List Nat
  stage : CmdStage
  pos   : Nat
  need  : List Nat
  sects : List Nat
  olds  : Cells 8
  oldx  : List (Nat × Bool)
  oldk  : List (Nat × Nat)
  lapse : Bool
  rot   : Nat
  wrote : List Nat
  deriving DecidableEq, Repr

/-- A tile task from its enqueue to its end (R281, R283). -/
inductive TaskStage where
  | held | queued | running
  deriving DecidableEq, Repr

/-- An element of an add-on-store unit (R289): its locations, their key version, the value, and the span-0 sectors. -/
structure UElem where
  keys  : List Nat
  ver   : Nat
  v     : BitVec 32
  sects : List Nat
  deriving DecidableEq, Repr

/-- What a sampled task starts from: its record and the reservations that it reads, as stored (R449). -/
structure Shot where
  snap : List Byte
  a    : Resv
  b    : Resv
  c    : Option Resv
  deriving DecidableEq, Repr

/-- A tile task (R277 to R291). `under` marks an underflow during the run, `tile` counts rows of tiles drained and
`cols` the elements drained of the next row, `units` are the add-on-store units still to apply. -/
structure Task where
  id    : Nat
  core  : Nat
  team  : Nat
  armTr : Nat
  loc   : Word
  snap  : List Byte
  obj   : Option Nat
  tag   : Bool
  lines : List Nat
  stage : TaskStage
  eng   : Nat
  tile  : Nat
  cols  : Nat
  units : List (List UElem)
  sects : List Nat
  under : Bool
  sig   : Word
  samp  : Option Shot
  deriving DecidableEq, Repr

/-- A decrement held by the completion unit until the ready queue has room (R284). With `c` 0 it marks an armed record, and
`core` is the train that armed it (R246). -/
structure HeldDec where
  core : Nat
  team : Nat
  loc  : Word
  c    : Nat
  deriving DecidableEq, Repr

/-- A place in the stream (R363): the level; for a part of it, its start and end and the place of the next packet, in 8-byte
units; the passes left of a LOOP body, 0 for what is none; and the PRED arms that it lies in. The last frame of a stack is the
ring itself, which has no end. -/
structure Frame where
  level : Nat
  start : Nat
  stop  : Nat
  pos   : Nat
  loop  : Nat
  arms  : List Nat
  deriving DecidableEq, Repr

/-- A fetched packet (R365): its header and body as the fetcher read them; `err` a packet exception with its cause, found on
the way; the arms it lies in and those that it begins; the ring position that is reached once it completes, where it ends a
level-0 packet; and the places before it. -/
structure WPkt where
  hdr    : Nat
  body   : List Word
  err    : Nat
  cause  : Nat
  arms   : List Nat
  thenA  : Nat
  elseA  : Nat
  close  : Option Nat
  before : List Frame
  deriving DecidableEq, Repr

/-- State of a hardware queue slot (R354, R373). `stack` is where the fetcher stands, `window` what it has fetched, `dead`
the arms not taken, `stuck` that nothing can be fetched past a packet at fault; `busy` that a packet is in progress; `launches`
those not yet complete; `watch` the word of a WAITMEM in progress. -/
structure QSlot where
  slot   : Nat
  ctx    : Nat
  desc   : Word
  base   : Word
  span   : Nat
  z      : Nat
  prio   : Nat
  rptr   : Nat
  wptr   : Nat
  state  : Nat
  fault  : Nat
  pend   : Bool
  rpub   : Word
  stack  : List Frame
  window : List WPkt
  dead   : List Nat
  stuck  : Bool
  frozen : Bool
  heldWakes : List Nat
  busy   : Bool
  launches : List Nat
  watch  : Option (List Nat)
  deriving DecidableEq, Repr

/-- An error record (R446) before the policy core has written it. -/
structure ErrRec where
  kind   : Nat
  sev    : Nat
  socket : Nat
  core   : Nat
  ctx    : Nat
  cause  : Nat
  addr   : Word
  span   : Nat
  unit   : Nat
  code   : Nat
  time   : Nat
  detail : List Word
  deriving DecidableEq, Repr

/-- A held kind 1 record: unit, context, first error's time, count (R447). -/
structure HeldRec where
  unit  : Nat
  body  : ErrRec
  count : Nat
  due   : Nat
  deriving DecidableEq, Repr

/-- An audit sample: context, core, engine, record place, the signature as drained, and the snapshot (R449). -/
structure Sample where
  id   : Nat
  ctx  : Nat
  core : Nat
  eng  : Nat
  loc  : Word
  sig  : Word
  shot : Shot
  deriving DecidableEq, Repr

/-- Pages of HBM, by the context that they were last mapped for: 128 for one that is gone (R455). -/
structure Owned where
  first : Nat
  pages : Nat
  ctx   : Nat
  deriving DecidableEq, Repr

/-- A release recorded at bytes of memory whose covered writes are not all applied (R310, R315): for the readers of a die
while the write `wr` waits in its crossing queue, else for all. -/
structure Clock where
  die  : Option Nat
  wr   : Nat
  keys : List Nat
  core : Nat
  tr   : Nat
  rel  : Release
  deriving DecidableEq, Repr

/-- The hold of phold: pairs, end time (R320). -/
structure Hold where
  pairs : BitVec 16
  until_ : Nat
  deriving DecidableEq, Repr

/-- The word now issuing: its train, run, place, and the prefixes read before it (R77, R135); `bad` are the slots whose
register reads meet poison or an uncorrectable error, with the cause (R445). -/
structure Issue where
  tr    : Nat
  slots : Mask
  start : Pc
  wpc   : Pc
  kinds : List Nat
  rep   : Option Instr
  grd   : Option Guard
  ext   : Option (BitVec 20)
  bad   : List (Nat × Nat)
  deriving DecidableEq, Repr

/-- Tokens of a context on a die at a time (R384, R385): 64-byte lines of HBM at the die's controllers; and of activity on its cores,
vector instruction passes, matrix block steps, 64-byte scratch lines and copy-engine bytes (R457). -/
structure Tok where
  time  : Nat
  ctx   : Nat
  team  : Nat
  die   : Nat
  hbm   : Nat
  vec   : Nat
  steps : Nat
  lines : Nat
  bytes : Nat
  deriving DecidableEq, Repr

/-- The device. -/
structure State where
  now      : Nat
  tick     : Nat
  nextId   : Nat
  booted   : Bool
  measure  : List Byte
  /-- The encapsulation key of the transport key pair, as the policy core publishes it (R442). -/
  encKey   : List Byte
  memAlive : BitVec 4
  corAlive : BitVec 4
  margin   : List (Nat × Word)
  tokenWait : List Nat
  hold     : Hold
  keys     : List (Nat × Nat)
  /-- The context whose owner loaded the key of a slot (R4, R439). -/
  keyCtx   : List (Nat × Nat)
  mem      : List Host.Cell
  mcond    : List (Nat × HalfCond)
  mkey     : List (Nat × Nat)
  clocks   : List Clock
  reqs     : List Req
  xings    : List ((Nat × Nat) × List Xing)
  walks    : List Walk
  shared   : List (Nat × List TlbE)
  cores    : List (Nat × Core)
  ctxs     : List Ctx
  owned    : List Owned
  /-- Steps of width that retired lanes have cost a link port (R451). -/
  links    : List (Nat × Nat)
  launches : List Launch
  teams    : List Team
  trains   : List Train
  queues   : List QSlot
  cmds     : List Cmd
  tasks    : List Task
  heldDecs : List HeldDec
  errs     : List ErrRec
  held     : List HeldRec
  samples  : List Sample
  seq      : Nat
  /-- The tokens of the last 8 us, that budgets are held against (R385). -/
  toks     : List Tok
  reports  : List (List Byte)
  redirects : List Redirect
  lastAdmit : List (Nat × Nat)
  served   : List Nat
  lastServed : List (Nat × Nat)
  inputs   : List Instr
  agenda   : List Instr
  iss      : Option Issue
  deriving DecidableEq, Repr

/-- A guard that covers nothing. -/
def Guard.none : Guard := ⟨0, false, 0⟩

/-- A core as it stands before bring-up sets it (log 1): 32 good lanes, the reference ctime of R26, every bank live. -/
def Core.reset : Core :=
  ⟨0xFFFFFFFF#32, 0x2021136118100604#64, [], 0#32, false, none, false, [], none, [], [], [], [], [], [], []⟩

/-- The device at power-on (R440): nothing is created, and bring-up is the one thing that is due (log 1, log 3). -/
def State.reset : State :=
  { now := 0, tick := 0, nextId := 1, booted := false, measure := [], encKey := [], memAlive := 0#4, corAlive := 0#4, margin := [],
    tokenWait := [], hold := ⟨0#16, 0⟩, keys := [], keyCtx := [], mem := [], mcond := [], mkey := [], clocks := [], reqs := [], xings := [],
    walks := [], shared := [], cores := [], ctxs := [], owned := [], links := [], launches := [], teams := [], trains := [], queues := [],
    cmds := [], tasks := [], heldDecs := [], errs := [], held := [], samples := [], seq := 0, toks := [], reports := [],
    redirects := [], lastAdmit := [], served := [], lastServed := [], inputs := [], agenda := [.deviceBoot], iss := none }

/-- Faults of the model. -/
inductive Fault where
  /-- Raised by every encoded instruction that is executed while no run is issuing (`iss` holds none), a state that no
  step of the machine reaches: safe. -/
  | noRun
  deriving DecidableEq, Repr

/-- Refusals of the model. -/
inductive Refusal where
  /-- Raised by an arm of `exec` whose instruction has no meaning yet: safe. -/
  | notModelled (mnemonic : String)
  deriving DecidableEq, Repr

end Sys2Proof.Machine
end

