-- ==== Sys2Proof/Machine/Cells.lean ====
section
/-! DEFINITION. Sparse tables in one canonical form (keys rising, no zero entry), lists keyed by a number, and the
numbers that the words of the machine hold. -/

namespace Sys2Proof.Machine

/-- Reads key `k`: zero where nothing is listed. -/
def cget {n : Nat} : Cells n → Nat → BitVec n
  | [], _ => 0#n
  | (k', v) :: t, k => if k' = k then v else cget t k

/-- Writes key `k`: a value stands in rising order, and a zero is not listed. -/
def cset {n : Nat} : Cells n → Nat → BitVec n → Cells n
  | [], k, v => if v = 0#n then [] else [(k, v)]
  | (k', v') :: t, k, v =>
    if k = k' then (if v = 0#n then cset t k v else (k, v) :: t)
    else if k < k' ∧ v ≠ 0#n then (k, v) :: (k', v') :: t
    else (k', v') :: cset t k v

/-- The canonical form of a sparse table. -/
def cwf {n : Nat} : Cells n → Bool
  | [] => true
  | (k, v) :: t => decide (v ≠ 0#n) && t.all (fun e => decide (k < e.1)) && cwf t

/-- Writes consecutive keys from `k`. -/
def csetAll {n : Nat} (c : Cells n) (k : Nat) : List (BitVec n) → Cells n
  | [] => c
  | v :: vs => csetAll (cset c k v) (k + 1) vs

/-- Writes each listed key. -/
def csetAt {n : Nat} (c : Cells n) : List (Nat × BitVec n) → Cells n
  | [] => c
  | (k, v) :: t => csetAt (cset c k v) t

/-- Reads `m` consecutive keys from `k`. -/
def cgetAll {n : Nat} (c : Cells n) (k m : Nat) : List (BitVec n) := (List.range m).map (fun i => cget c (k + i))

/-- Zeroes the keys from `lo` up to but not including `hi`. -/
def cclear {n : Nat} (c : Cells n) (lo hi : Nat) : Cells n := c.filter (fun e => e.1 < lo || hi ≤ e.1)

/-- Reads a keyed list with a default. -/
def aget {α : Type} (d : α) : List (Nat × α) → Nat → α
  | [], _ => d
  | (k', v) :: t, k => if k' = k then v else aget d t k

/-- Reads a keyed list, if the key is there. -/
def afind {α : Type} : List (Nat × α) → Nat → Option α
  | [], _ => none
  | (k', v) :: t, k => if k' = k then some v else afind t k

/-- Sets a key of a keyed list: replaced where it stands, else added in rising order. -/
def aset {α : Type} : List (Nat × α) → Nat → α → List (Nat × α)
  | [], k, v => [(k, v)]
  | (k', v') :: t, k, v =>
    if k < k' then (k, v) :: (k', v') :: t else if k = k' then (k, v) :: t else (k', v') :: aset t k v

/-- Drops a key of a keyed list. -/
def adel {α : Type} (l : List (Nat × α)) (k : Nat) : List (Nat × α) := l.filter (fun e => decide (e.1 ≠ k))

/-- Bits [lo + n - 1 : lo] of a number. -/
def bitsN (x lo n : Nat) : Nat := (x >>> lo) % 2 ^ n

/-- Bits [lo + n - 1 : lo] of a word, as a number. -/
def fld {m : Nat} (x : BitVec m) (lo n : Nat) : Nat := bitsN x.toNat lo n

/-- `x` of `w` bits read as two's complement. -/
def sInt (w x : Nat) : Int := if x < 2 ^ (w - 1) then (x : Int) else (x : Int) - 2 ^ w

/-- An integer taken modulo 2^w. -/
def wrapN (w : Nat) (x : Int) : Nat := (x % (2 ^ w : Nat)).toNat

/-- Bits of a width (R40). -/
def wbits : Width → Nat
  | .w8 => 8 | .w16 => 16 | .w32 => 32 | .w64 => 64

/-- Bits of a float format (R43). -/
def fbits : Fmt → Nat
  | .f16 => 16 | .bf16 => 16 | .f32 => 32 | .f64 => 64

/-- Sub-element `i` of width `w`, as a number (R40). -/
def subN (x : Word) (w i : Nat) : Nat := bitsN x.toNat (w * i) w

/-- The number whose sub-elements 0 to n - 1 of width `w` are given, modulo 2^w each. -/
def packNat (w : Nat) (g : Nat → Nat) : Nat → Nat
  | 0 => 0
  | n + 1 => packNat w g n + (g n % 2 ^ w) * 2 ^ (w * n)

/-- The word whose sub-elements of width `w` are given (R40). -/
def packW (w : Nat) (g : Nat → Nat) : Word := BitVec.ofNat 64 (packNat w g (64 / w))

/-- The little-endian number of a list of bytes (R9). -/
def leN : List Byte → Nat
  | [] => 0
  | b :: t => b.toNat + 256 * leN t

/-- `n` little-endian bytes of a number (R9). -/
def bytesN : Nat → Nat → List Byte
  | 0, _ => []
  | n + 1, x => BitVec.ofNat 8 x :: bytesN n (x / 256)

/-- Sets element `i` of a list. -/
def lset {α : Type} : List α → Nat → α → List α
  | [], _, _ => []
  | _ :: t, 0, v => v :: t
  | h :: t, i + 1, v => h :: lset t i v

/-- Applies a function to element `i` of a list. -/
def lmod {α : Type} : List α → Nat → (α → α) → List α
  | [], _, _ => []
  | h :: t, 0, f => f h :: t
  | h :: t, i + 1, f => h :: lmod t i f

/-- The distinct elements of a list of numbers, first occurrences. -/
def nub : List Nat → List Nat
  | [] => []
  | h :: t => h :: (nub t).filter (fun x => decide (x ≠ h))

/-- The sum of a list of numbers. -/
def sumN (l : List Nat) : Nat := l.foldl (· + ·) 0

/-- The lowest of the numbers below `n` that meet `p`. -/
def findBelow (n : Nat) (p : Nat → Bool) : Option Nat := (List.range n).find? p

/-- Slot `i` is in a mask. -/
def inMask (m : Mask) (i : Nat) : Bool := m.getLsbD i

/-- The mask of the slots that meet `p`. -/
def maskOf (p : Nat → Bool) : Mask := BitVec.ofNat 32 (packNat 1 (fun i => if p i then 1 else 0) 32)

/-- The slots of a mask, ascending. -/
def slotsOf (m : Mask) : List Nat := (List.range 32).filter (inMask m)

end Sys2Proof.Machine
end

