-- ==== Sys2Proof/Machine/IntNum.lean ====
section
/-! DEFINITION. Integer and bit-field functions of one sub-element (R115, R121 to R123), over naturals below 2^w. -/

namespace Sys2Proof.Machine

/-- Saturation to signed and to natural width w (R42). -/
def satI (w : Nat) (x : Int) : Nat :=
  if x < -(2 ^ (w - 1) : Nat) then 2 ^ (w - 1) else if (2 ^ (w - 1) : Nat) ≤ x then 2 ^ (w - 1) - 1 else wrapN w x
def satN (w : Nat) (x : Int) : Nat := if x < 0 then 0 else if (2 ^ w : Nat) ≤ x then 2 ^ w - 1 else x.toNat

def addF (w u v : Nat) : Nat := (u + v) % 2 ^ w
def subF (w u v : Nat) : Nat := (u + 2 ^ w - v % 2 ^ w) % 2 ^ w
def mulF (w u v : Nat) : Nat := u * v % 2 ^ w
def minI (w u v : Nat) : Nat := if sInt w u ≤ sInt w v then u else v
def minN (_w u v : Nat) : Nat := min u v
def maxI (w u v : Nat) : Nat := if sInt w u ≤ sInt w v then v else u
def maxN (_w u v : Nat) : Nat := max u v
def addsI (w u v : Nat) : Nat := satI w (sInt w u + sInt w v)
def addsN (w u v : Nat) : Nat := satN w ((u : Int) + v)
def subsI (w u v : Nat) : Nat := satI w (sInt w u - sInt w v)
def subsN (w u v : Nat) : Nat := satN w ((u : Int) - v)
/-- Shifts by the low 8 bits of the sub-element, taken whole (R115). -/
def shlF (w u v : Nat) : Nat := if w ≤ v % 256 then 0 else u * 2 ^ (v % 256) % 2 ^ w
def shrF (w u v : Nat) : Nat := if w ≤ v % 256 then 0 else u / 2 ^ (v % 256)
def sarF (w u v : Nat) : Nat := wrapN w (sInt w u / (2 ^ min (v % 256) (w - 1) : Nat))
def mulhI (w u v : Nat) : Nat := wrapN w (sInt w u * sInt w v / (2 ^ w : Nat))
def mulhN (w u v : Nat) : Nat := u * v / 2 ^ w % 2 ^ w
def rolF (w u v : Nat) : Nat := u * 2 ^ (v % 256 % w) % 2 ^ w + u / 2 ^ (w - v % 256 % w)
def rorF (w u v : Nat) : Nat := u / 2 ^ (v % 256 % w) + u * 2 ^ (w - v % 256 % w) % 2 ^ w
def avgN (_w u v : Nat) : Nat := (u + v + 1) / 2
def absF (w u : Nat) : Nat := wrapN w (sInt w u).natAbs

/-- A field descriptor at width w (R121): position and length, cut at the top. -/
def fieldPos (w v : Nat) : Nat := v % w
def fieldLen (w v : Nat) : Nat := min (v / w % (2 * w)) (w - fieldPos w v)
def bextN (w u v : Nat) : Nat := u / 2 ^ fieldPos w v % 2 ^ fieldLen w v
def bextI (w u v : Nat) : Nat := if fieldLen w v = 0 then 0 else wrapN w (sInt (fieldLen w v) (bextN w u v))
/-- bins: `o` with the field replaced by the low bits of `u` (R122). -/
def binsF (w o u v : Nat) : Nat :=
  let p := fieldPos w v
  let l := fieldLen w v
  o % 2 ^ p + u % 2 ^ l * 2 ^ p + o / 2 ^ (p + l) * 2 ^ (p + l)
/-- Bit `j` of a number. -/
def bitN (u j : Nat) : Nat := u / 2 ^ j % 2
def popcF (w u : Nat) : Nat := sumN ((List.range w).map (bitN u))
def clzF (w u : Nat) : Nat := ((List.range w).find? (fun j => bitN u (w - 1 - j) == 1)).getD w
def ctzF (w u : Nat) : Nat := ((List.range w).find? (fun j => bitN u j == 1)).getD w
def brevF (w u : Nat) : Nat := sumN ((List.range w).map (fun j => bitN u j * 2 ^ (w - 1 - j)))
/-- Byte `i` of bperm: selectors of b over a and the old d (R123). -/
def bpermF (x o y : Word) (i : Nat) : Nat :=
  let c := subN y 8 i
  if 128 ≤ c then 0 else if c % 16 < 8 then subN x 8 (c % 16) else subN o 8 (c % 16 - 8)

/-- Applies a function of width w to each sub-element of two words, or of one (R111). -/
def map2 (w : Width) (f : Nat → Nat → Nat → Nat) (x y : Word) : Word :=
  packW (wbits w) (fun i => f (wbits w) (subN x (wbits w) i) (subN y (wbits w) i))
def map1 (w : Width) (f : Nat → Nat → Nat) (x : Word) : Word := packW (wbits w) (fun i => f (wbits w) (subN x (wbits w) i))
def map3 (w : Width) (f : Nat → Nat → Nat → Nat → Nat) (o x y : Word) : Word :=
  packW (wbits w) (fun i => f (wbits w) (subN o (wbits w) i) (subN x (wbits w) i) (subN y (wbits w) i))

end Sys2Proof.Machine
end

