-- ==== Sys2Proof/WellFormed.lean ====
section
/-! DEFINITION. Which instructions a word can encode (spec/03): the checks on registers, pairs, groups and field values
that the decoder makes, over the syntax alone. Events are never encoded. -/

namespace Sys2Proof

open Sys2Proof.Machine

/-- A pair field names w0 to w94, k0 to k22 or zr (R71). -/
def pairOk (r : Reg) : Bool := !(r.toNat == 95 || r.toNat == 119 || (120 ≤ r.toNat && r.toNat ≤ 126))

/-- A group of `n` registers starts at w0 to w(96 - n) (R150). -/
def groupOk (n : Nat) (r : Reg) : Bool := decide (r.toNat + n ≤ 96)

/-- Registers that hold a block of a BX format (R161). -/
def bxRegs : Bx → Nat
  | .bx4 => 1 | .bx6 => 2 | .bx9 => 3

/-- Rounding modes of a two-bit rm field (R51). -/
def rm2Ok : Rm → Bool
  | .rna => false
  | _ => true

/-- Conditions that a cmp has for its type (R85). -/
def condOk : CmpTy → Cond → Bool
  | .int _, .eq | .int _, .ne | .int _, .ltI | .int _, .leI | .int _, .gtI | .int _, .geI => true
  | .int _, .ltN | .int _, .leN | .int _, .gtN | .int _, .geN | .int _, .test => true
  | .flt _, .feq | .flt _, .fne | .flt _, .flt | .flt _, .fle | .flt _, .fgt | .flt _, .fge => true
  | .flt _, .fun_ | .flt _, .ford => true
  | _, _ => false

/-- Types and operations of red and scan (R90, R168). -/
def redOk : RedOp → Ty → Bool
  | _, .i _ | _, .n _ => true
  | .add, .f _ | .min, .f _ | .max, .f _ => true
  | _, _ => false

/-- The formats of sfu ops 0 to 6 (R89). -/
def sfuOk : Fmt → Bool
  | .f64 => false
  | _ => true

/-- Special-register numbers that the spec assigns (R81, R419, R434, R448, R457). -/
def specOk (r : Reg) : Bool := decide (r.toNat ≤ 19)

/-- A member-mask register k0 to k23 (R76). -/
def maskOk : Option (BitVec 5) → Bool
  | none => true
  | some k => decide (k.toNat ≤ 23)

/-- Data operand of a load or store of type b128 (R71). -/
def ldPair : LdTy → Reg → Bool
  | .b128, r => pairOk r
  | _, _ => true

@[inherit_doc ldPair] def stPair : StTy → Reg → Bool
  | .b128, r => pairOk r
  | _, _ => true

/-- Operands of an atom (R91, R239, R241); `sc` for swap and cas. -/
def atomOk (sc : Bool) (w : AWidth) (ret : Bool) (d src : Reg) : Bool :=
  match w with
  | .a128 => sc && pairOk src && (if ret then pairOk d else d.toNat == 0)
  | _ => ret || d.toNat == 0

/-- An allocation request that ctl.osalloc can encode (R93). -/
def allocOk : AllocKind → Retain → Bool
  | .reg, .keep => true
  | .reg, _ => false
  | _, _ => true

/-- The instruction is one that words encode. -/
def Instr.wf : Instr → Bool
  | .rep _ _ _ _ _ _ _ | .grd _ _ _ | .xim _ => true
  | .sysSrd _ s _ => specOk s
  | .sysSwr s _ _ => specOk s
  | .ctlOsalloc _ _ k r => allocOk k r
  | .bra p s _ => !(p.toNat == 0 && s)
  | .cmp p c t _ _ _ => decide (p.toNat ≠ 0) && condOk t c
  | .fopAdd _ r _ _ _ | .fopSub _ r _ _ _ | .fopMul _ r _ _ _ | .fopDiv _ r _ _ _ | .fopSqrt _ r _ _ => rm2Ok r
  | .fmaFma _ r _ _ _ | .fmaFms _ r _ _ _ | .fmaFnma _ r _ _ _ | .fmaFnms _ r _ _ _ => rm2Ok r
  | .cvtFloatFloat a b _ _ _ => decide (a ≠ b)
  | .cvtBxPack x d a => groupOk (bxRegs x) d && groupOk 8 a
  | .cvtBxUnpack x d a => groupOk 8 d && groupOk (bxRegs x) a
  | .sfuRcp f _ _ | .sfuRsqrt f _ _ | .sfuSqrt f _ _ | .sfuExp2 f _ _ | .sfuLog2 f _ _ | .sfuSinpi f _ _
  | .sfuCospi f _ _ => sfuOk f
  | .xlShfl _ _ _ _ m | .xlShflx _ _ _ _ m | .xlShflu _ _ _ _ m | .xlShfld _ _ _ _ m => maskOk m
  | .xlBal _ _ m | .xlVoteAny _ _ m | .xlVoteAll _ _ m => maskOk m
  | .xlVoteEq _ _ _ m => maskOk m
  | .xlQx _ _ _ m => maskOk m
  | .xlRed _ _ o t m => redOk o t && maskOk m
  | .xlScan _ _ _ o t m => redOk o t && maskOk m
  | .ld t _ _ d _ _ => ldPair t d
  | .ldx t _ _ d _ _ _ => ldPair t d
  | .st t _ _ d _ _ => stPair t d
  | .stx t _ _ d _ _ _ => stPair t d
  | .atomAdd w _ r d _ b | .atomMinI w _ r d _ b | .atomMinN w _ r d _ b | .atomMaxI w _ r d _ b
  | .atomMaxN w _ r d _ b | .atomAnd w _ r d _ b | .atomOr w _ r d _ b | .atomXor w _ r d _ b
  | .atomFadd w _ r d _ b => atomOk false w r d b
  | .atomSwap w _ r d _ b => atomOk true w r d b
  | .atomCas w _ _ d _ b => if w = .a128 then pairOk d && pairOk b else true
  | .adrCmpa p _ _ _ => decide (p.toNat ≠ 0)
  | .btReply _ | .specialRegWrite _ _ _ _ | .pholdWrite _ | .pholdExpire _ | .loadReply _ | .writeHomeApply _
  | .crossingDeliver _ _ | .writeAck _ | .fenceResume _ | .spinWake _ _ _ | .yieldWindowEnd _ _ | .waitwWake _ _
  | .waitwPoll _ _ _ | .presenceWake _ _ | .queuePortWake _ _ | .escapeIssue _ | .agingStep _ | .translationWalkDone _
  | .translationWalkFail _ | .faultServiceReply _ _ _ | .translationInvalidate _ _ _ | .trapEntry _ | .copyStart _
  | .copySetasideResume _ | .copyComplete _ | .pfillLineLand _ | .pfillComplete _ | .ringRotationStart _
  | .ringRotationComplete _ | .wldComplete _ | .commandFail _ _ | .taskHeldEnqueue _ | .taskStart _ | .tileDrain _
  | .addOnStoreUnit _ | .taskComplete _ | .taskFail _ _ | .retentionRefresh _ _ | .retentionMarkExpired _ _
  | .bridleRollup _ _ | .migrGrant _ | .migrWaitTimeout _ _ | .migrLand _ | .teamRetire _ | .launchComplete _
  | .admissionDecision _ | .teamBlocking _ _ | .teamYield _ | .preemptRequest _ | .evictSpill _ | .spillDone _
  | .readmit _ _ | .redirectCount _ _ _ _ _ | .contextStop _ | .contextSuspend _ | .contextResume _
  | .contextTeardown _ | .budgetWrite _ _ | .queueMap _ _ _ | .queueUnmap _ | .queueRemap _ _ _ | .wakeWrite _ _ _
  | .packetWindowFetch _ | .packetNop _ | .packetLaunch _ | .packetLaunch2 _ | .packetIb _ | .packetPred _
  | .packetLoop _ | .packetFfence _ | .packetWaitmem _ | .waitmemRecheck _ _ | .packetWrite _ | .packetSignalBobj _
  | .packetSignalWake _ | .prologueRunaway _ | .dlaunchProcess _ | .keySlotLoad _ | .attestationReport _ | .deviceBoot
  | .hostAccess _ | .remoteAccessTimeout _ | .errorRecordPost | .correctedRecordFlush _ _ | .auditReplay _
  | .selfTest _ | .unitRetire _ | .remapStep _ | .dailyReplan | .coreQuiesce _ | .contextCreate _
  | .sharedTranslationHit _ | .bitError _ _ | .auditSet _ _ _ | .selfTestComplete _ _ => false
  | .sysNop | .sysExit | .sysTrap _ | .sysEret | .sysBrk | .sysFence _ _ | .sysSpin | .sysWaitw _ _ _ | .sysYield
  | .sysDlaunch _ | .sysLcommit | .sysLcancel | .sysLrepeat | .ctlWin _ | .ctlOsfree _ | .ctlBar _ _ | .ctlBarr _ _
  | .ctlBarw _ | .ctlPrio _ | .ctlMigr _ | .ctlQbind _ _ | .ctlQunbind _ | .ctlQlen _ _ | .jmpJmp _ | .jmpCall _ _
  | .jmpRet _ | .jmpJmpr _ | .jmpCallr _ _ => true
  | .iopAdd _ _ _ _ | .iopSub _ _ _ _ | .iopMul _ _ _ _ | .iopMinI _ _ _ _ | .iopMinN _ _ _ _ | .iopMaxI _ _ _ _
  | .iopMaxN _ _ _ _ | .iopAddsI _ _ _ _ | .iopAddsN _ _ _ _ | .iopSubsI _ _ _ _ | .iopSubsN _ _ _ _
  | .iopShl _ _ _ _ | .iopShr _ _ _ _ | .iopSar _ _ _ _ | .iopMulhI _ _ _ _ | .iopMulhN _ _ _ _ | .iopRol _ _ _ _
  | .iopRor _ _ _ _ | .iopAvgN _ _ _ _ | .iopAbs _ _ _ | .iopAnd _ _ _ | .iopOr _ _ _ | .iopXor _ _ _
  | .iopAndn _ _ _ | .iopiAddi _ _ _ | .iopiAndi _ _ _ | .iopiOri _ _ _ | .iopiXori _ _ _ | .shiShli _ _ _ _
  | .shiShri _ _ _ _ | .shiSari _ _ _ _ | .shiRoli _ _ _ _ | .shiRori _ _ _ _ | .limmIns _ _ _ | .limmSet _ _ _
  | .limmSets _ _ _ | .bitBextI _ _ _ _ | .bitBextN _ _ _ _ | .bitBins _ _ _ _ | .bitPopc _ _ _ | .bitClz _ _ _
  | .bitCtz _ _ _ | .bitBrev _ _ _ | .bitBperm _ _ _ => true
  | .scalAdd _ _ _ | .scalSub _ _ _ | .scalMul _ _ _ | .scalAnd _ _ _ | .scalOr _ _ _ | .scalXor _ _ _
  | .scalShl _ _ _ | .scalShr _ _ _ | .scalSar _ _ _ | .scalMinI _ _ _ | .scalMinN _ _ _ | .scalMaxI _ _ _
  | .scalMaxN _ _ _ | .scalRdlane _ _ _ | .scalBcast _ _ | .fopMin _ _ _ _ | .fopMax _ _ _ _ | .fopAbs _ _ _
  | .fopNeg _ _ _ | .fopCopysign _ _ _ _ | .cvtIntFloat _ _ _ _ _ _ | .cvtFloatInt _ _ _ _ _ _ | .sfuTwd _ _ _
  | .stPoison _ _ _ _ | .adrAdda _ _ _ _ | .adrAddai _ _ _ | .adrMovawReg _ _ _ | .adrMovawImm _ _ _
  | .adrMovwa _ _ _ | .adrSpna _ _ | .acpCopy _ _ | .acpFill _ _ | .acpRing _ _ | .acpPfill _ _ | .mxRes _ _
  | .mxRel _ | .mxWld _ _ | .mxTask _ | .mxDep _ _ | .boInit _ _ | .boExpect _ _ | .boArrive _ _ | .boWait _ _
  | .boTest _ _ | .boErr _ _ | .btEnroll _ _ _ | .btUnenroll _ | .btReparent _ _ | .btSettle _ _ | .btRead _ _
  | .btCmp _ _ _ => true

end Sys2Proof
end

