-- ==== Sys2Proof/Decode.lean ====
section
/-! DEFINITION. Decoding of an instruction word with its extension word, total on every word, a fault being the lowest
detail of the encoding class (R65 to R97); and the encoder, written from the same tables. -/

namespace Sys2Proof

open Sys2Proof.Machine

/-- Field of `n` bits at bit `lo` of a word, as a number. -/
def wf_ (w lo n : Nat) : Nat := w / 2 ^ lo % 2 ^ n
/-- The same field as a register. -/
def rfl_ (w lo : Nat) : Reg := BitVec.ofNat 7 (w / 2 ^ lo)
/-- A 3-bit address-register or predicate field. -/
def r3_ (w lo : Nat) : R3 := BitVec.ofNat 3 (w / 2 ^ lo)
/-- A one-bit field. -/
def bit_ (w lo : Nat) : Bool := decide (w / 2 ^ lo % 2 = 1)

/-- The lowest detail among the checks that fail (R94), listed in ascending order, or the instruction. -/
def check (i : Instr) : List (Nat × Bool) → Except Nat Instr
  | [] => .ok i
  | (d, bad) :: t => if bad then .error d else check i t

def widthOf : Nat → Width
  | 0 => .w8 | 1 => .w16 | 2 => .w32 | _ => .w64
def widthCode : Width → Nat
  | .w8 => 0 | .w16 => 1 | .w32 => 2 | .w64 => 3
def fmtOf : Nat → Fmt
  | 0 => .f16 | 1 => .bf16 | 2 => .f32 | _ => .f64
def fmtCode : Fmt → Nat
  | .f16 => 0 | .bf16 => 1 | .f32 => 2 | .f64 => 3
def rmOf : Nat → Rm
  | 0 => .rn | 1 => .rz | 2 => .ru | 3 => .rd | _ => .rna
def rmCode : Rm → Nat
  | .rn => 0 | .rz => 1 | .ru => 2 | .rd => 3 | .rna => 4
/-- Scopes 0 to 5 of fences and atoms (R80). -/
def scopeOf : Nat → Scope
  | 0 => .thr | 1 => .trn | 2 => .core | 3 => .die | 4 => .dev | _ => .sys
def scopeCode : Scope → Nat
  | .thr => 0 | .trn => 1 | .core => 2 | .die => 3 | .dev => 4 | .sys => 5
/-- Scope codes of loads and stores (R76). -/
def ldScopeOf : Nat → Scope
  | 0 => .dev | 1 => .thr | 2 => .trn | 3 => .core | 4 => .die | _ => .sys
def ldScopeCode : Scope → Nat
  | .dev => 0 | .thr => 1 | .trn => 2 | .core => 3 | .die => 4 | .sys => 5
def fenceOf : Nat → FenceKind
  | 0 => .acq | 1 => .rel | _ => .full
def fenceCode : FenceKind → Nat
  | .acq => 0 | .rel => 1 | .full => 2
/-- Type codes 0 to 14 (R88). -/
def tyOf : Nat → Ty
  | 0 => .i .w8 | 1 => .i .w16 | 2 => .i .w32 | 3 => .i .w64 | 4 => .n .w8 | 5 => .n .w16 | 6 => .n .w32 | 7 => .n .w64
  | 8 => .f .f16 | 9 => .f .bf16 | 10 => .f .f32 | 11 => .f .f64 | 12 => .bx4 | 13 => .bx6 | _ => .bx9
def tyCode : Ty → Nat
  | .i w => widthCode w | .n w => 4 + widthCode w | .f f => 8 + fmtCode f | .bx4 => 12 | .bx6 => 13 | .bx9 => 14
def bxOf : Nat → Bx
  | 12 => .bx4 | 13 => .bx6 | _ => .bx9
def bxCode : Bx → Nat
  | .bx4 => 12 | .bx6 => 13 | .bx9 => 14
def ldTyOf : Nat → LdTy
  | 0 => .b8 | 1 => .b16 | 2 => .b32 | 3 => .b64 | 4 => .b128 | 5 => .i8 | 6 => .i16 | _ => .i32
def ldTyCode : LdTy → Nat
  | .b8 => 0 | .b16 => 1 | .b32 => 2 | .b64 => 3 | .b128 => 4 | .i8 => 5 | .i16 => 6 | .i32 => 7
def stTyOf : Nat → StTy
  | 0 => .b8 | 1 => .b16 | 2 => .b32 | 3 => .b64 | _ => .b128
def stTyCode : StTy → Nat
  | .b8 => 0 | .b16 => 1 | .b32 => 2 | .b64 => 3 | .b128 => 4
def combOf : Nat → Combine
  | 0 => .set | 1 => .and | 2 => .or | 3 => .xor | _ => .andn
def combCode : Combine → Nat
  | .set => 0 | .and => 1 | .or => 2 | .xor => 3 | .andn => 4
def condOf (int : Bool) : Nat → Cond
  | 0 => if int then .eq else .feq
  | 1 => if int then .ne else .fne
  | 2 => if int then .ltI else .flt
  | 3 => if int then .leI else .fle
  | 4 => if int then .gtI else .fgt
  | 5 => if int then .geI else .fge
  | 6 => if int then .ltN else .fun_
  | 7 => if int then .leN else .ford
  | 8 => .gtN | 9 => .geN | _ => .test
def condCode : Cond → Nat
  | .eq | .feq => 0 | .ne | .fne => 1 | .ltI | .flt => 2 | .leI | .fle => 3 | .gtI | .fgt => 4 | .geI | .fge => 5
  | .ltN | .fun_ => 6 | .leN | .ford => 7 | .gtN => 8 | .geN => 9 | .test => 10
def cmpTyOf (t : Nat) : CmpTy := if t < 4 then .int (widthOf t) else .flt (fmtOf (t - 4))
def cmpTyCode : CmpTy → Nat
  | .int w => widthCode w | .flt f => 4 + fmtCode f
def acondOf : Nat → ACond
  | 0 => .eq | 1 => .ne | 2 => .lt | _ => .le
def acondCode : ACond → Nat
  | .eq => 0 | .ne => 1 | .lt => 2 | .le => 3
def qxOf : Nat → Qx
  | 0 => .xor1 | 1 => .xor2 | 2 => .xor3 | 4 => .b0 | 5 => .b1 | 6 => .b2 | _ => .b3
def qxCode : Qx → Nat
  | .xor1 => 0 | .xor2 => 1 | .xor3 => 2 | .b0 => 4 | .b1 => 5 | .b2 => 6 | .b3 => 7
def redOf : Nat → RedOp
  | 0 => .add | 1 => .min | 2 => .max | 3 => .and | 4 => .or | _ => .xor
def redCode : RedOp → Nat
  | .add => 0 | .min => 1 | .max => 2 | .and => 3 | .or => 4 | .xor => 5
def awidthOf : Nat → AWidth
  | 0 => .a32 | 1 => .a64 | _ => .a128
def awidthCode : AWidth → Nat
  | .a32 => 0 | .a64 => 1 | .a128 => 2
def aspaceOf (s : Nat) : ASpace := if s = 6 then .scratch else .dev (scopeOf s)
def aspaceCode : ASpace → Nat
  | .scratch => 6 | .dev s => scopeCode s
def kindOf : Nat → AllocKind
  | 0 => .reg | 1 => .scr | 2 => .bobj | _ => .qst
def kindCode : AllocKind → Nat
  | .reg => 0 | .scr => 1 | .bobj => 2 | .qst => 3
def retainOf (cls life : Nat) : Retain :=
  if cls = 0 then .keep else if cls = 1 then .lapse (Fin.ofNat 5 life) else .strict (Fin.ofNat 5 life)
def retainClass : Retain → Nat
  | .keep => 0 | .lapse _ => 1 | .strict _ => 2
def retainLife : Retain → Nat
  | .keep => 0 | .lapse l => l.val | .strict l => l.val

/-- A signed field of `n` bits, in `m` bits. -/
def sext_ (n m w : Nat) : BitVec m := (BitVec.ofNat n w).signExtend m

/-- An immediate whose low `n` bits stand in the word and whose higher bits the extension word supplies (R76). -/
def extImm (n m : Nat) (x : Option Nat) (low : Nat) : BitVec m :=
  match x with
  | none => sext_ n m low
  | some e => BitVec.ofNat m (e * 2 ^ n + low % 2 ^ n)

/-- T-format fields (R66). -/
def dT (w : Nat) : Reg := rfl_ w 14
@[inherit_doc dT] def aT (w : Nat) : Reg := rfl_ w 7
@[inherit_doc dT] def bT (w : Nat) : Reg := rfl_ w 0

/-- sys (R80). -/
def decSys (x : Option Nat) (w : Nat) : Except Nat Instr :=
  let d := wf_ w 14 7; let a := wf_ w 7 7; let b := wf_ w 0 7
  let plain (i : Instr) := check i [(2, d != 0), (3, a != 0), (4, b != 0), (21, x.isSome)]
  match wf_ w 21 6 with
  | 1 => plain .sysNop
  | 2 => plain .sysExit
  | 3 => check (.sysTrap (BitVec.ofNat 5 a)) [(2, d != 0), (3, decide (a ≥ 32)), (4, b != 0), (21, x.isSome)]
  | 4 => plain .sysEret
  | 5 => plain .sysBrk
  | 6 => check (.sysSrd (dT w) (bT w) (aT w)) [(4, !specOk (bT w)), (21, x.isSome)]
  | 7 => check (.sysSwr (dT w) (aT w) (bT w)) [(2, !specOk (dT w)), (21, x.isSome)]
  | 8 => check (.sysFence (fenceOf (wf_ w 10 2)) (scopeOf (wf_ w 7 3)))
      [(2, d != 0), (3, decide (a ≥ 32) || wf_ w 10 2 == 3 || decide (wf_ w 7 3 ≥ 6)), (4, b != 0), (21, x.isSome)]
  | 9 => plain .sysSpin
  | 10 => check (.sysWaitw (bit_ w 10) (r3_ w 7) (bT w)) [(2, d != 0), (3, decide (a ≥ 16)), (21, x.isSome)]
  | 11 => plain .sysYield
  | 12 => check (.sysDlaunch (aT w)) [(2, d != 0), (4, b != 0), (21, x.isSome)]
  | 13 => plain .sysLcommit
  | 14 => plain .sysLcancel
  | 15 => plain .sysLrepeat
  | _ => .error 1

/-- Prefixes (R72, R73, R75, R76). -/
def decPfx (w : Nat) : Except Nat Instr :=
  match wf_ w 24 3 with
  | 0 => check (.rep (BitVec.ofNat 2 (w / 2 ^ 13)) (BitVec.ofNat 2 (w / 2 ^ 11)) (BitVec.ofNat 2 (w / 2 ^ 9)) (bit_ w 8)
      (bit_ w 7) (bit_ w 6) (BitVec.ofNat 6 w)) [(20, wf_ w 15 9 != 0)]
  | 1 => check (.grd (BitVec.ofNat 3 (w / 2 ^ 4)) (bit_ w 3) (r3_ w 0)) [(20, wf_ w 7 17 != 0)]
  | 2 => check (.xim (BitVec.ofNat 20 w)) [(20, wf_ w 20 4 != 0)]
  | _ => .error 16

/-- ctl (R93, R194, R199, R202, R211, R216). -/
def decCtl (x : Option Nat) (w : Nat) : Except Nat Instr :=
  let d := wf_ w 14 7; let a := wf_ w 7 7; let b := wf_ w 0 7
  match wf_ w 21 6 with
  | 0 => check (.ctlWin (BitVec.ofNat 5 a)) [(2, d != 0), (3, decide (a ≥ 32)), (4, b != 0), (21, x.isSome)]
  | 1 =>
    let k := wf_ w 5 2; let l := wf_ w 2 3; let c := wf_ w 0 2
    check (.ctlOsalloc (dT w) (aT w) (kindOf k) (retainOf c l))
      [(4, c == 3 || decide (l ≥ 5) || (c == 0 && l != 0) || (k == 0 && c != 0)), (21, x.isSome)]
  | 2 => check (.ctlOsfree (aT w)) [(2, d != 0), (4, b != 0), (21, x.isSome)]
  | 3 => check (.ctlBar (BitVec.ofNat 6 a) (bT w)) [(2, d != 0), (3, decide (a ≥ 64)), (21, x.isSome)]
  | 4 => check (.ctlBarr (BitVec.ofNat 6 a) (bT w)) [(2, d != 0), (3, decide (a ≥ 64)), (21, x.isSome)]
  | 5 => check (.ctlBarw (BitVec.ofNat 6 a)) [(2, d != 0), (3, decide (a ≥ 64)), (4, b != 127), (21, x.isSome)]
  | 6 => check (.ctlPrio (BitVec.ofNat 4 a)) [(2, d != 0), (3, decide (a ≥ 16)), (4, b != 0), (21, x.isSome)]
  | 7 => check (.ctlMigr (r3_ w 7)) [(2, d != 0), (3, decide (a ≥ 8)), (4, b != 0), (21, x.isSome)]
  | 8 => check (.ctlQbind (dT w) (aT w)) [(4, b != 0), (21, x.isSome)]
  | 9 => check (.ctlQunbind (dT w)) [(3, a != 0), (4, b != 0), (21, x.isSome)]
  | 10 => check (.ctlQlen (dT w) (aT w)) [(4, b != 0), (21, x.isSome)]
  | _ => .error 1

/-- jmp (R97, R132). -/
def decJmp (x : Option Nat) (w : Nat) : Except Nat Instr :=
  let d := wf_ w 17 7; let o := extImm 17 37 x (wf_ w 0 17); let a := rfl_ w 10
  match wf_ w 24 3 with
  | 0 => check (.jmpJmp o) [(2, d != 0)]
  | 1 => .ok (.jmpCall (rfl_ w 17) o)
  | 2 => check (.jmpRet a) [(2, d != 0), (21, x.isSome), (22, wf_ w 0 10 != 0)]
  | 3 => check (.jmpJmpr a) [(2, d != 0), (21, x.isSome), (22, wf_ w 0 10 != 0)]
  | 4 => check (.jmpCallr (rfl_ w 17) a) [(21, x.isSome), (22, wf_ w 0 10 != 0)]
  | _ => .error 1

/-- iop (R82, R117). -/
def decIop (x : Option Nat) (w : Nat) : Except Nat Instr :=
  let t := widthOf (wf_ w 21 2); let d := dT w; let a := aT w; let b := bT w
  let plain (i : Instr) := check i [(21, x.isSome)]
  match wf_ w 23 4 with
  | 0 => plain (.iopAdd t d a b) | 1 => plain (.iopSub t d a b) | 2 => plain (.iopMul t d a b)
  | 3 => plain (.iopMinI t d a b) | 4 => plain (.iopMinN t d a b) | 5 => plain (.iopMaxI t d a b)
  | 6 => plain (.iopMaxN t d a b) | 7 => plain (.iopAddsI t d a b) | 8 => plain (.iopAddsN t d a b)
  | 9 => plain (.iopSubsI t d a b) | 10 => plain (.iopSubsN t d a b) | 11 => plain (.iopShl t d a b)
  | 12 => plain (.iopShr t d a b) | 13 => plain (.iopSar t d a b)
  | 14 =>
    match x.getD 0 with
    | 0 => .ok (.iopMulhI t d a b) | 1 => .ok (.iopMulhN t d a b) | 2 => .ok (.iopRol t d a b)
    | 3 => .ok (.iopRor t d a b) | 4 => .ok (.iopAvgN t d a b)
    | 5 => check (.iopAbs t d a) [(4, wf_ w 0 7 != 0)]
    | e => if e % 8 = 5 ∧ wf_ w 0 7 ≠ 0 then .error 4 else .error 21
  | _ =>
    match wf_ w 21 2 with
    | 0 => plain (.iopAnd d a b) | 1 => plain (.iopOr d a b) | 2 => plain (.iopXor d a b) | _ => plain (.iopAndn d a b)

/-- iopi, shi and limm (R83, R118 to R120). -/
def decImm (x : Option Nat) (w : Nat) : Except Nat Instr :=
  let d := rfl_ w 20; let a := rfl_ w 13
  match wf_ w 27 5 with
  | 6 =>
    let m := extImm 11 31 x (wf_ w 0 11)
    match wf_ w 11 2 with
    | 0 => .ok (.iopiAddi d a m) | 1 => .ok (.iopiAndi d a m) | 2 => .ok (.iopiOri d a m) | _ => .ok (.iopiXori d a m)
  | 7 =>
    let t := widthOf (wf_ w 8 2); let n := BitVec.ofNat 8 w
    match wf_ w 10 3 with
    | 0 => check (.shiShli t d a n) [(21, x.isSome)] | 1 => check (.shiShri t d a n) [(21, x.isSome)]
    | 2 => check (.shiSari t d a n) [(21, x.isSome)] | 3 => check (.shiRoli t d a n) [(21, x.isSome)]
    | 4 => check (.shiRori t d a n) [(21, x.isSome)] | _ => .error 1
  | _ =>
    let c := BitVec.ofNat 2 (w / 2 ^ 18); let m := BitVec.ofNat 16 w
    match wf_ w 16 2 with
    | 0 => check (.limmIns d c m) [(21, x.isSome)] | 1 => check (.limmSet d c m) [(21, x.isSome)]
    | 2 => check (.limmSets d c m) [(21, x.isSome)] | _ => .error 10

/-- bit and cmp (R84, R85, R122, R123). -/
def decBitCmp (x : Option Nat) (w : Nat) : Except Nat Instr :=
  let t := widthOf (wf_ w 21 2); let d := dT w; let a := aT w; let b := bT w; let bz := wf_ w 0 7 != 0
  if wf_ w 27 5 = 9 then
    match wf_ w 23 4 with
    | 0 => check (.bitBextI t d a b) [(21, x.isSome)] | 1 => check (.bitBextN t d a b) [(21, x.isSome)]
    | 2 => check (.bitBins t d a b) [(21, x.isSome)] | 3 => check (.bitPopc t d a) [(4, bz), (21, x.isSome)]
    | 4 => check (.bitClz t d a) [(4, bz), (21, x.isSome)] | 5 => check (.bitCtz t d a) [(4, bz), (21, x.isSome)]
    | 6 => check (.bitBrev t d a) [(4, bz), (21, x.isSome)]
    | 7 => check (.bitBperm d a b) [(9, wf_ w 21 2 != 0), (21, x.isSome)] | _ => .error 1
  else
    let ty := wf_ w 17 3; let c := wf_ w 20 4; let m := wf_ w 14 3
    check (.cmp (r3_ w 24) (condOf (decide (ty < 4)) c) (cmpTyOf ty) (combOf m) a b)
      [(11, wf_ w 24 3 == 0), (12, decide (c ≥ (if ty < 4 then 11 else 8))), (13, decide (m ≥ 5)), (21, x.isSome)]

/-- scal (R86, R126 to R128). -/
def decScal (x : Option Nat) (w : Nat) : Except Nat Instr :=
  let d := dT w; let a := aT w; let b := bT w
  let plain (i : Instr) := check i [(21, x.isSome)]
  match wf_ w 21 6 with
  | 0 => plain (.scalAdd d a b) | 1 => plain (.scalSub d a b) | 2 => plain (.scalMul d a b) | 3 => plain (.scalAnd d a b)
  | 4 => plain (.scalOr d a b) | 5 => plain (.scalXor d a b) | 6 => plain (.scalShl d a b) | 7 => plain (.scalShr d a b)
  | 8 => plain (.scalSar d a b) | 9 => plain (.scalMinI d a b) | 10 => plain (.scalMinN d a b)
  | 11 => plain (.scalMaxI d a b) | 12 => plain (.scalMaxN d a b) | 13 => plain (.scalRdlane d a b)
  | 14 => check (.scalBcast d a) [(4, wf_ w 0 7 != 0), (21, x.isSome)] | _ => .error 1

/-- fop, fma and sfu (R87, R89, R156, R158, R166). -/
def decFlt (x : Option Nat) (w : Nat) : Except Nat Instr :=
  let d := dT w; let a := aT w; let b := bT w; let bz := wf_ w 0 7 != 0
  match wf_ w 27 5 with
  | 12 =>
    let f := fmtOf (wf_ w 25 2); let r := rmOf (x.getD 0 % 4); let xb := decide (x.getD 0 ≥ 4)
    match wf_ w 21 4 with
    | 0 => check (.fopAdd f r d a b) [(21, xb)] | 1 => check (.fopSub f r d a b) [(21, xb)]
    | 2 => check (.fopMul f r d a b) [(21, xb)] | 3 => check (.fopDiv f r d a b) [(21, xb)]
    | 4 => check (.fopSqrt f r d a) [(4, bz), (21, xb)] | 5 => check (.fopMin f d a b) [(21, x.isSome)]
    | 6 => check (.fopMax f d a b) [(21, x.isSome)] | 7 => check (.fopAbs f d a) [(4, bz), (21, x.isSome)]
    | 8 => check (.fopNeg f d a) [(4, bz), (21, x.isSome)] | 9 => check (.fopCopysign f d a b) [(21, x.isSome)]
    | _ => .error 1
  | 13 =>
    let f := fmtOf (wf_ w 25 2); let r := rmOf (wf_ w 23 2)
    match wf_ w 21 2 with
    | 0 => check (.fmaFma f r d a b) [(21, x.isSome)] | 1 => check (.fmaFms f r d a b) [(21, x.isSome)]
    | 2 => check (.fmaFnma f r d a b) [(21, x.isSome)] | _ => check (.fmaFnms f r d a b) [(21, x.isSome)]
  | _ =>
    let f := fmtOf (wf_ w 22 2)
    let one (i : Instr) := check i [(4, bz), (8, wf_ w 22 2 == 3), (21, x.isSome), (22, bit_ w 21)]
    match wf_ w 24 3 with
    | 0 => one (.sfuRcp f d a) | 1 => one (.sfuRsqrt f d a) | 2 => one (.sfuSqrt f d a) | 3 => one (.sfuExp2 f d a)
    | 4 => one (.sfuLog2 f d a) | 5 => one (.sfuSinpi f d a) | 6 => one (.sfuCospi f d a)
    | _ => check (.sfuTwd d a b) [(8, wf_ w 22 2 != 2), (21, x.isSome), (22, bit_ w 21)]

/-- cvt (R88, R150, R162). -/
def decCvt (x : Option Nat) (w : Nat) : Except Nat Instr :=
  let dt := wf_ w 23 4; let st := wf_ w 0 4; let rm := wf_ w 4 3; let d := dT w; let a := aT w
  let tail := [(21, x.isSome), (22, wf_ w 21 2 != 0)]
  let isI (t : Nat) := decide (t < 8); let isF (t : Nat) := decide (8 ≤ t ∧ t < 12); let isX (t : Nat) := decide (12 ≤ t ∧ t < 15)
  if isF dt && isF st && dt != st then
    check (.cvtFloatFloat (fmtOf (dt - 8)) (fmtOf (st - 8)) (rmOf rm) d a) ((7, decide (rm ≥ 5)) :: tail)
  else if isF dt && isI st then
    check (.cvtIntFloat (fmtOf (dt - 8)) (decide (st < 4)) (widthOf (st % 4)) (rmOf rm) d a) ((7, decide (rm ≥ 5)) :: tail)
  else if isI dt && isF st then
    check (.cvtFloatInt (decide (dt < 4)) (widthOf (dt % 4)) (fmtOf (st - 8)) (rmOf rm) d a) ((7, decide (rm ≥ 5)) :: tail)
  else if isX dt && st == 10 then
    check (.cvtBxPack (bxOf dt) d a)
      ((2, !groupOk (bxRegs (bxOf dt)) d) :: (3, !groupOk 8 a) :: (7, rm != 0) :: tail)
  else if dt == 10 && isX st then
    check (.cvtBxUnpack (bxOf st) d a)
      ((2, !groupOk 8 d) :: (3, !groupOk (bxRegs (bxOf st)) a) :: (7, rm != 0) :: tail)
  else .error 6

/-- Member-mask extension of xl (R76, R168). -/
def mkOf : Option Nat → Option (BitVec 5)
  | none => none
  | some e => if e / 32 % 2 = 1 then some (BitVec.ofNat 5 e) else none
/-- A member-mask extension that traps (R168). -/
def mkBad : Option Nat → Bool
  | none => false
  | some e => decide (e ≥ 64) || (e / 32 % 2 == 1 && decide (e % 32 ≥ 24))

/-- xl (R90, R167, R168). -/
def decXl (x : Option Nat) (w : Nat) : Except Nat Instr :=
  let d := dT w; let a := aT w; let b := bT w; let t := widthOf (wf_ w 21 2); let m := mkOf x; let xb := (21, mkBad x)
  let wz := (9, wf_ w 21 2 != 0); let bz := (4, wf_ w 0 7 != 0); let c := wf_ w 0 7
  let o := wf_ w 4 3; let ty := wf_ w 0 4
  match wf_ w 23 4 with
  | 0 => check (.xlShfl t d a b m) [xb] | 1 => check (.xlShflx t d a b m) [xb] | 2 => check (.xlShflu t d a b m) [xb]
  | 3 => check (.xlShfld t d a b m) [xb]
  | 4 => check (.xlBal d (r3_ w 7) m) [(4, wf_ w 10 4 != 0 || wf_ w 0 7 != 0), wz, xb]
  | 5 => check (.xlVoteAny d (r3_ w 7) m) [(4, wf_ w 10 4 != 0 || wf_ w 0 7 != 0), wz, xb]
  | 6 => check (.xlVoteAll d (r3_ w 7) m) [(4, wf_ w 10 4 != 0 || wf_ w 0 7 != 0), wz, xb]
  | 7 => check (.xlVoteEq t d a m) [bz, xb]
  | 8 => check (.xlQx d a (qxOf (wf_ w 0 3)) m) [(4, c == 3 || decide (c ≥ 8)), wz, xb]
  | 9 => check (.xlRed d a (redOf o) (tyOf ty) m)
      [(4, decide (o ≥ 6) || ty == 15 || !redOk (redOf o) (tyOf ty)), wz, xb]
  | 10 => check (.xlScan (bit_ w 21) d a (redOf o) (tyOf ty) m)
      [(4, decide (o ≥ 6) || ty == 15 || !redOk (redOf o) (tyOf ty)), (9, bit_ w 22), xb]
  | _ => .error 1

/-- Ordering class from the strong and ordered bits and the scope code (R233). -/
def ordOf (strong ordered : Bool) (sc : Nat) : Ord :=
  if strong then .strong (ldScopeOf sc) else if ordered then .ordered (ldScopeOf sc) else .plain
/-- Ordering bits that trap (R76, R233). -/
def ordBad (strong ordered : Bool) (sc : Nat) : Bool :=
  decide (sc ≥ 6) || (strong && ordered) || (!strong && !ordered && sc != 0)

/-- ld, ldx, st, stx (R91, R229 to R235). -/
def decMem (x : Option Nat) (w : Nat) : Except Nat Instr :=
  let d := rfl_ w 20; let n := r3_ w 17; let t := wf_ w 14 3; let e := x.getD 0
  let sc := wf_ e 17 3; let od := bit_ e 16
  let off := extImm 12 28 (x.map (fun e => e % 65536)) (wf_ w 0 12)
  let scr := bit_ w 13; let ord := ordOf (bit_ w 12) od sc; let ob := (21, ordBad (bit_ w 12) od sc)
  let xscr := bit_ e 13; let xord := ordOf (bit_ e 12) od sc
  let xb := (21, ordBad (bit_ e 12) od sc || wf_ e 14 2 != 0 || wf_ e 0 12 != 0)
  let xo := BitVec.ofNat 7 w
  match wf_ w 27 5 with
  | 17 => check (.ld (ldTyOf t) scr ord d n off) [(2, !ldPair (ldTyOf t) d), ob]
  | 18 => check (.ldx (ldTyOf t) xscr xord d n (rfl_ w 7) xo) [(2, !ldPair (ldTyOf t) d), xb]
  | 19 =>
    if t < 5 then check (.st (stTyOf t) scr ord d n off) [(2, !stPair (stTyOf t) d), ob]
    else if t = 5 then check (.stPoison scr ord n off) [(2, wf_ w 20 7 != 0), ob]
    else .error 6
  | _ =>
    if t < 5 then check (.stx (stTyOf t) xscr xord d n (rfl_ w 7) xo) [(2, !stPair (stTyOf t) d), xb] else .error 6

/-- atom (R91, R239, R241). -/
def decAtom (x : Option Nat) (w : Nat) : Except Nat Instr :=
  let d := rfl_ w 20; let n := r3_ w 17; let b := bT w; let wd := wf_ w 11 2; let sc := wf_ w 8 3; let r := bit_ w 7
  let t := awidthOf wd; let s := aspaceOf sc; let dz := !r && wf_ w 20 7 != 0
  let tail (sw : Bool) := [(14, sc == 7), (15, wd == 3 || (wd == 2 && !sw)), (21, x.isSome)]
  let plain (i : Instr) := check i ((2, dz) :: tail false)
  match wf_ w 13 4 with
  | 0 => plain (.atomAdd t s r d n b) | 1 => plain (.atomMinI t s r d n b) | 2 => plain (.atomMinN t s r d n b)
  | 3 => plain (.atomMaxI t s r d n b) | 4 => plain (.atomMaxN t s r d n b) | 5 => plain (.atomAnd t s r d n b)
  | 6 => plain (.atomOr t s r d n b) | 7 => plain (.atomXor t s r d n b)
  | 8 => check (.atomSwap t s r d n b)
      ((2, dz || (wd == 2 && r && !pairOk d)) :: (4, wd == 2 && !pairOk b) :: tail true)
  | 9 => check (.atomCas t s r d n b) ((2, wd == 2 && !pairOk d) :: (4, wd == 2 && !pairOk b) :: tail true)
  | 10 => plain (.atomFadd t s r d n b)
  | _ => .error 1

/-- adr (R92, R130). -/
def decAdr (x : Option Nat) (w : Nat) : Except Nat Instr :=
  let xb := (21, x.isSome)
  match wf_ w 24 3 with
  | 0 => check (.adrAdda (r3_ w 21) (r3_ w 18) (Fin.ofNat 5 (wf_ w 15 3)) (bT w))
      [(5, decide (wf_ w 15 3 ≥ 5)), xb, (22, wf_ w 7 8 != 0)]
  | 1 => .ok (.adrAddai (r3_ w 21) (r3_ w 18) (extImm 18 38 x (wf_ w 0 18)))
  | 2 =>
    if bit_ w 13 then check (.adrMovawImm (r3_ w 21) (dT w) (BitVec.ofNat 13 w)) [xb]
    else check (.adrMovawReg (r3_ w 21) (dT w) (bT w)) [xb, (22, wf_ w 7 6 != 0)]
  | 3 => check (.adrMovwa (dT w) (r3_ w 11) (bit_ w 10)) [xb, (22, wf_ w 21 3 != 0 || wf_ w 0 10 != 0)]
  | 4 => check (.adrSpna (r3_ w 21) (bT w)) [xb, (22, wf_ w 7 14 != 0)]
  | 5 => check (.adrCmpa (r3_ w 21) (r3_ w 18) (r3_ w 15) (acondOf (wf_ w 12 3)))
      [(11, wf_ w 21 3 == 0), (12, decide (wf_ w 12 3 ≥ 4)), xb, (22, wf_ w 0 12 != 0)]
  | _ => .error 1

/-- acp, mx, bo and bt (R93, R252, R286, R405). -/
def decEng (x : Option Nat) (w : Nat) : Except Nat Instr :=
  let d := dT w; let a := aT w; let b := bT w
  let dz := (2, wf_ w 14 7 != 0); let az := (3, wf_ w 7 7 != 0); let bz := (4, wf_ w 0 7 != 0); let xb := (21, x.isSome)
  let an := (3, wf_ w 10 4 != 0)
  let _ := az
  match wf_ w 27 5, wf_ w 21 6 with
  | 23, 0 => check (.acpCopy a b) [dz, xb] | 23, 1 => check (.acpFill a b) [dz, xb]
  | 23, 2 => check (.acpRing a b) [dz, xb] | 23, 3 => check (.acpPfill a b) [dz, xb]
  | 24, 0 => check (.mxRes d a) [bz, xb] | 24, 1 => check (.mxRel a) [dz, bz, xb] | 24, 2 => check (.mxWld a b) [dz, xb]
  | 24, 3 => check (.mxTask (r3_ w 7)) [dz, an, bz, xb] | 24, 4 => check (.mxDep (r3_ w 7) b) [dz, an, xb]
  | 25, 0 => check (.boInit a b) [dz, xb] | 25, 1 => check (.boExpect a b) [dz, xb]
  | 25, 2 => check (.boArrive a b) [dz, xb] | 25, 3 => check (.boWait a b) [dz, xb]
  | 25, 4 => check (.boTest d a) [bz, xb] | 25, 5 => check (.boErr d a) [bz, xb]
  | 26, 0 => check (.btEnroll d (r3_ w 7) b) [an, xb] | 26, 1 => check (.btUnenroll a) [dz, bz, xb]
  | 26, 2 => check (.btReparent a b) [dz, xb] | 26, 3 => check (.btSettle d a) [bz, xb]
  | 26, 4 => check (.btRead d a) [bz, xb] | 26, 5 => check (.btCmp d a b) [xb]
  | _, _ => .error 1

/-- The instruction of a word, with the extension word that an xim before it supplies, or the lowest detail at fault. -/
def decodeN (x : Option Nat) (w : Nat) : Except Nat Instr :=
  match wf_ w 27 5 with
  | 0 => decSys x w
  | 1 => decPfx w
  | 2 => decCtl x w
  | 3 => check (.bra (r3_ w 24) (bit_ w 23) (extImm 23 43 x (wf_ w 0 23))) [(11, wf_ w 24 3 == 0 && bit_ w 23)]
  | 4 => decJmp x w
  | 5 => decIop x w
  | 6 | 7 | 8 => decImm x w
  | 9 | 10 => decBitCmp x w
  | 11 => decScal x w
  | 12 | 13 | 15 => decFlt x w
  | 14 => decCvt x w
  | 16 => decXl x w
  | 17 | 18 | 19 | 20 => decMem x w
  | 21 => decAtom x w
  | 22 => decAdr x w
  | 23 | 24 | 25 | 26 => decEng x w
  | _ => .error 0

/-- Fields of a word that do not bear on its form and its registers, as places and widths: those of detail 22, the rm of cvt
and the scope of atom (R88, R91, R94). -/
def looseBits (w : Nat) : List (Nat × Nat) :=
  match wf_ w 27 5 with
  | 4 => if 2 ≤ wf_ w 24 3 ∧ wf_ w 24 3 ≤ 4 then [(0, 10)] else []
  | 14 => [(21, 2), (4, 3)]
  | 15 => [(21, 1)]
  | 21 => [(8, 3)]
  | 22 =>
    match wf_ w 24 3 with
    | 0 => [(7, 8)]
    | 2 => if bit_ w 13 then [] else [(7, 6)]
    | 3 => [(21, 3), (0, 10)]
    | 4 => [(7, 14)]
    | 5 => [(0, 12)]
    | _ => []
  | _ => []
/-- The word with those fields zero. -/
def clearLoose (w : Nat) : Nat := (looseBits w).foldl (fun v f => v - wf_ v f.1 f.2 * 2 ^ f.1) w
/-- The form of a word with its register fields, whatever extension word, loose field or group of a higher detail is at fault: what
the faults of its place are judged on, so that the lowest of all is reported (R94). -/
def shapeN (w : Nat) : Option Instr :=
  let w := clearLoose w
  match decodeN none w, wf_ w 27 5 with
  | .ok i, _ => some i
  | .error 3, 14 => (decodeN none (w - wf_ w 7 7 * 2 ^ 7)).toOption
  | .error 4, 21 => (decodeN none (w - wf_ w 0 7)).toOption
  | _, _ => none

@[inherit_doc decodeN] def decodeWord (x : Option (BitVec 20)) (w : IWord) : Except Nat Instr :=
  decodeN (x.map (·.toNat)) w.toNat

/-- The 32-bit word of four bytes, the lowest address first (R65). -/
def wordOfBytes : List Byte → Option IWord
  | [a, b, c, d] => some (BitVec.ofNat 32 (leN [a, b, c, d]))
  | _ => none

/-- The instruction of four bytes with no prefix before them. -/
def decodeBytes (bs : List Byte) : Option Instr :=
  match wordOfBytes bs with
  | none => none
  | some w =>
    match decodeWord none w with
    | .ok i => some i
    | .error _ => none

/-- The instruction that the decoder reads from a word numbered as the opcode table numbers it: every row has one word
of 32 bits, stored little-endian. -/
def decodeTableWord (nbits w : Nat) : Option Instr := decodeBytes (bytesN 4 (w % 2 ^ nbits))

/-! The encoder. -/

/-- A T-format word (R66). -/
def encT (major func : Nat) (d a b : Nat) : Nat := major * 2 ^ 27 + func * 2 ^ 21 + d * 2 ^ 14 + a * 2 ^ 7 + b

/-- A bit. -/
def bN (b : Bool) : Nat := if b then 1 else 0

/-- Extension word of an immediate: none where the low `n` bits, sign-extended, give it (R76). -/
def immExt (n : Nat) {m : Nat} (v : BitVec m) : Option Nat :=
  if (BitVec.ofNat n v.toNat).signExtend m = v then none else some (v.toNat / 2 ^ n)

def mkExt : Option (BitVec 5) → Option Nat
  | none => none
  | some k => some (32 + k.toNat)

/-- Strong bit, ordered bit and scope code of an ordering class (R233). -/
def ordBits : Ord → Nat × Nat × Nat
  | .plain => (0, 0, 0) | .strong s => (1, 0, ldScopeCode s) | .ordered s => (0, 1, ldScopeCode s)

/-- An M-format word with its extension (R66, R76). -/
def encM (major d n t : Nat) (scr : Bool) (o : Ord) (off : BitVec 28) : Option Nat × Nat :=
  let b := ordBits o
  let w := major * 2 ^ 27 + d * 2 ^ 20 + n * 2 ^ 17 + t * 2 ^ 14 + bN scr * 2 ^ 13 + b.1 * 2 ^ 12 + off.toNat % 2 ^ 12
  if b.2.1 = 0 ∧ b.2.2 = 0 ∧ (BitVec.ofNat 12 off.toNat).signExtend 28 = off then (none, w)
  else (some (b.2.2 * 2 ^ 17 + b.2.1 * 2 ^ 16 + off.toNat / 2 ^ 12), w)

/-- An M-indexed word with its extension (R66, R76). -/
def encX (major d n t x : Nat) (scr : Bool) (o : Ord) (off : BitVec 7) : Option Nat × Nat :=
  let b := ordBits o
  let w := major * 2 ^ 27 + d * 2 ^ 20 + n * 2 ^ 17 + t * 2 ^ 14 + x * 2 ^ 7 + off.toNat
  let e := b.2.2 * 2 ^ 17 + b.2.1 * 2 ^ 16 + bN scr * 2 ^ 13 + b.1 * 2 ^ 12
  if e = 0 then (none, w) else (some e, w)

/-- An A-format word (R66). -/
def encA (op d n b : Nat) (w : AWidth) (s : ASpace) (r : Bool) : Nat :=
  21 * 2 ^ 27 + d * 2 ^ 20 + n * 2 ^ 17 + op * 2 ^ 13 + awidthCode w * 2 ^ 11 + aspaceCode s * 2 ^ 8 + bN r * 2 ^ 7 + b

/-- A jmp word (R97). -/
def encJ (op d low : Nat) : Nat := 4 * 2 ^ 27 + op * 2 ^ 24 + d * 2 ^ 17 + low

/-- An I-format word (R66). -/
def encI (major d a imm : Nat) : Nat := major * 2 ^ 27 + d * 2 ^ 20 + a * 2 ^ 13 + imm

/-- Extension and word of an instruction; none for an event. -/
def encodeN : Instr → Option (Option Nat × Nat)
  | .sysNop => some (none, encT 0 1 0 0 0) | .sysExit => some (none, encT 0 2 0 0 0)
  | .sysTrap n => some (none, encT 0 3 0 n.toNat 0) | .sysEret => some (none, encT 0 4 0 0 0)
  | .sysBrk => some (none, encT 0 5 0 0 0) | .sysSrd d s a => some (none, encT 0 6 d.toNat a.toNat s.toNat)
  | .sysSwr s a b => some (none, encT 0 7 s.toNat a.toNat b.toNat)
  | .sysFence k s => some (none, encT 0 8 0 (fenceCode k * 8 + scopeCode s) 0)
  | .sysSpin => some (none, encT 0 9 0 0 0)
  | .sysWaitw s n b => some (none, encT 0 10 0 (bN s * 8 + n.toNat) b.toNat)
  | .sysYield => some (none, encT 0 11 0 0 0) | .sysDlaunch a => some (none, encT 0 12 0 a.toNat 0)
  | .sysLcommit => some (none, encT 0 13 0 0 0) | .sysLcancel => some (none, encT 0 14 0 0 0)
  | .sysLrepeat => some (none, encT 0 15 0 0 0)
  | .rep bs as_ ds be ae de c => some (none, 1 * 2 ^ 27 + bs.toNat * 2 ^ 13 + as_.toNat * 2 ^ 11 + ds.toNat * 2 ^ 9
      + bN be * 2 ^ 8 + bN ae * 2 ^ 7 + bN de * 2 ^ 6 + c.toNat)
  | .grd c s p => some (none, 1 * 2 ^ 27 + 1 * 2 ^ 24 + c.toNat * 2 ^ 4 + bN s * 2 ^ 3 + p.toNat)
  | .xim e => some (none, 1 * 2 ^ 27 + 2 * 2 ^ 24 + e.toNat)
  | .ctlWin n => some (none, encT 2 0 0 n.toNat 0)
  | .ctlOsalloc d a k r =>
    some (none, encT 2 1 d.toNat a.toNat (kindCode k * 2 ^ 5 + retainLife r * 2 ^ 2 + retainClass r))
  | .ctlOsfree a => some (none, encT 2 2 0 a.toNat 0)
  | .ctlBar h b => some (none, encT 2 3 0 h.toNat b.toNat) | .ctlBarr h b => some (none, encT 2 4 0 h.toNat b.toNat)
  | .ctlBarw h => some (none, encT 2 5 0 h.toNat 127) | .ctlPrio n => some (none, encT 2 6 0 n.toNat 0)
  | .ctlMigr n => some (none, encT 2 7 0 n.toNat 0) | .ctlQbind q a => some (none, encT 2 8 q.toNat a.toNat 0)
  | .ctlQunbind q => some (none, encT 2 9 q.toNat 0 0) | .ctlQlen d q => some (none, encT 2 10 d.toNat q.toNat 0)
  | .bra p s o => some (immExt 23 o, 3 * 2 ^ 27 + p.toNat * 2 ^ 24 + bN s * 2 ^ 23 + o.toNat % 2 ^ 23)
  | .jmpJmp o => some (immExt 17 o, encJ 0 0 (o.toNat % 2 ^ 17))
  | .jmpCall d o => some (immExt 17 o, encJ 1 d.toNat (o.toNat % 2 ^ 17))
  | .jmpRet a => some (none, encJ 2 0 (a.toNat * 2 ^ 10)) | .jmpJmpr a => some (none, encJ 3 0 (a.toNat * 2 ^ 10))
  | .jmpCallr d a => some (none, encJ 4 d.toNat (a.toNat * 2 ^ 10))
  | .iopAdd w d a b => some (none, encT 5 (0 * 4 + widthCode w) d.toNat a.toNat b.toNat)
  | .iopSub w d a b => some (none, encT 5 (1 * 4 + widthCode w) d.toNat a.toNat b.toNat)
  | .iopMul w d a b => some (none, encT 5 (2 * 4 + widthCode w) d.toNat a.toNat b.toNat)
  | .iopMinI w d a b => some (none, encT 5 (3 * 4 + widthCode w) d.toNat a.toNat b.toNat)
  | .iopMinN w d a b => some (none, encT 5 (4 * 4 + widthCode w) d.toNat a.toNat b.toNat)
  | .iopMaxI w d a b => some (none, encT 5 (5 * 4 + widthCode w) d.toNat a.toNat b.toNat)
  | .iopMaxN w d a b => some (none, encT 5 (6 * 4 + widthCode w) d.toNat a.toNat b.toNat)
  | .iopAddsI w d a b => some (none, encT 5 (7 * 4 + widthCode w) d.toNat a.toNat b.toNat)
  | .iopAddsN w d a b => some (none, encT 5 (8 * 4 + widthCode w) d.toNat a.toNat b.toNat)
  | .iopSubsI w d a b => some (none, encT 5 (9 * 4 + widthCode w) d.toNat a.toNat b.toNat)
  | .iopSubsN w d a b => some (none, encT 5 (10 * 4 + widthCode w) d.toNat a.toNat b.toNat)
  | .iopShl w d a b => some (none, encT 5 (11 * 4 + widthCode w) d.toNat a.toNat b.toNat)
  | .iopShr w d a b => some (none, encT 5 (12 * 4 + widthCode w) d.toNat a.toNat b.toNat)
  | .iopSar w d a b => some (none, encT 5 (13 * 4 + widthCode w) d.toNat a.toNat b.toNat)
  | .iopMulhI w d a b => some (none, encT 5 (14 * 4 + widthCode w) d.toNat a.toNat b.toNat)
  | .iopMulhN w d a b => some (some 1, encT 5 (14 * 4 + widthCode w) d.toNat a.toNat b.toNat)
  | .iopRol w d a b => some (some 2, encT 5 (14 * 4 + widthCode w) d.toNat a.toNat b.toNat)
  | .iopRor w d a b => some (some 3, encT 5 (14 * 4 + widthCode w) d.toNat a.toNat b.toNat)
  | .iopAvgN w d a b => some (some 4, encT 5 (14 * 4 + widthCode w) d.toNat a.toNat b.toNat)
  | .iopAbs w d a => some (some 5, encT 5 (14 * 4 + widthCode w) d.toNat a.toNat 0)
  | .iopAnd d a b => some (none, encT 5 60 d.toNat a.toNat b.toNat)
  | .iopOr d a b => some (none, encT 5 61 d.toNat a.toNat b.toNat)
  | .iopXor d a b => some (none, encT 5 62 d.toNat a.toNat b.toNat)
  | .iopAndn d a b => some (none, encT 5 63 d.toNat a.toNat b.toNat)
  | .iopiAddi d a i => some (immExt 11 i, encI 6 d.toNat a.toNat (0 * 2 ^ 11 + i.toNat % 2 ^ 11))
  | .iopiAndi d a i => some (immExt 11 i, encI 6 d.toNat a.toNat (1 * 2 ^ 11 + i.toNat % 2 ^ 11))
  | .iopiOri d a i => some (immExt 11 i, encI 6 d.toNat a.toNat (2 * 2 ^ 11 + i.toNat % 2 ^ 11))
  | .iopiXori d a i => some (immExt 11 i, encI 6 d.toNat a.toNat (3 * 2 ^ 11 + i.toNat % 2 ^ 11))
  | .shiShli w d a n => some (none, encI 7 d.toNat a.toNat (0 * 2 ^ 10 + widthCode w * 2 ^ 8 + n.toNat))
  | .shiShri w d a n => some (none, encI 7 d.toNat a.toNat (1 * 2 ^ 10 + widthCode w * 2 ^ 8 + n.toNat))
  | .shiSari w d a n => some (none, encI 7 d.toNat a.toNat (2 * 2 ^ 10 + widthCode w * 2 ^ 8 + n.toNat))
  | .shiRoli w d a n => some (none, encI 7 d.toNat a.toNat (3 * 2 ^ 10 + widthCode w * 2 ^ 8 + n.toNat))
  | .shiRori w d a n => some (none, encI 7 d.toNat a.toNat (4 * 2 ^ 10 + widthCode w * 2 ^ 8 + n.toNat))
  | .limmIns d c i => some (none, 8 * 2 ^ 27 + d.toNat * 2 ^ 20 + c.toNat * 2 ^ 18 + 0 * 2 ^ 16 + i.toNat)
  | .limmSet d c i => some (none, 8 * 2 ^ 27 + d.toNat * 2 ^ 20 + c.toNat * 2 ^ 18 + 1 * 2 ^ 16 + i.toNat)
  | .limmSets d c i => some (none, 8 * 2 ^ 27 + d.toNat * 2 ^ 20 + c.toNat * 2 ^ 18 + 2 * 2 ^ 16 + i.toNat)
  | .bitBextI w d a b => some (none, encT 9 (0 * 4 + widthCode w) d.toNat a.toNat b.toNat)
  | .bitBextN w d a b => some (none, encT 9 (1 * 4 + widthCode w) d.toNat a.toNat b.toNat)
  | .bitBins w d a b => some (none, encT 9 (2 * 4 + widthCode w) d.toNat a.toNat b.toNat)
  | .bitPopc w d a => some (none, encT 9 (3 * 4 + widthCode w) d.toNat a.toNat 0)
  | .bitClz w d a => some (none, encT 9 (4 * 4 + widthCode w) d.toNat a.toNat 0)
  | .bitCtz w d a => some (none, encT 9 (5 * 4 + widthCode w) d.toNat a.toNat 0)
  | .bitBrev w d a => some (none, encT 9 (6 * 4 + widthCode w) d.toNat a.toNat 0)
  | .bitBperm d a b => some (none, encT 9 28 d.toNat a.toNat b.toNat)
  | .cmp p c t m a b => some (none, 10 * 2 ^ 27 + p.toNat * 2 ^ 24 + condCode c * 2 ^ 20 + cmpTyCode t * 2 ^ 17
      + combCode m * 2 ^ 14 + a.toNat * 2 ^ 7 + b.toNat)
  | .scalAdd d a b => some (none, encT 11 0 d.toNat a.toNat b.toNat)
  | .scalSub d a b => some (none, encT 11 1 d.toNat a.toNat b.toNat)
  | .scalMul d a b => some (none, encT 11 2 d.toNat a.toNat b.toNat)
  | .scalAnd d a b => some (none, encT 11 3 d.toNat a.toNat b.toNat)
  | .scalOr d a b => some (none, encT 11 4 d.toNat a.toNat b.toNat)
  | .scalXor d a b => some (none, encT 11 5 d.toNat a.toNat b.toNat)
  | .scalShl d a b => some (none, encT 11 6 d.toNat a.toNat b.toNat)
  | .scalShr d a b => some (none, encT 11 7 d.toNat a.toNat b.toNat)
  | .scalSar d a b => some (none, encT 11 8 d.toNat a.toNat b.toNat)
  | .scalMinI d a b => some (none, encT 11 9 d.toNat a.toNat b.toNat)
  | .scalMinN d a b => some (none, encT 11 10 d.toNat a.toNat b.toNat)
  | .scalMaxI d a b => some (none, encT 11 11 d.toNat a.toNat b.toNat)
  | .scalMaxN d a b => some (none, encT 11 12 d.toNat a.toNat b.toNat)
  | .scalRdlane d a b => some (none, encT 11 13 d.toNat a.toNat b.toNat)
  | .scalBcast d a => some (none, encT 11 14 d.toNat a.toNat 0)
  | .fopAdd f r d a b => some (rmExt r, encT 12 (fmtCode f * 16 + 0) d.toNat a.toNat b.toNat)
  | .fopSub f r d a b => some (rmExt r, encT 12 (fmtCode f * 16 + 1) d.toNat a.toNat b.toNat)
  | .fopMul f r d a b => some (rmExt r, encT 12 (fmtCode f * 16 + 2) d.toNat a.toNat b.toNat)
  | .fopDiv f r d a b => some (rmExt r, encT 12 (fmtCode f * 16 + 3) d.toNat a.toNat b.toNat)
  | .fopSqrt f r d a => some (rmExt r, encT 12 (fmtCode f * 16 + 4) d.toNat a.toNat 0)
  | .fopMin f d a b => some (none, encT 12 (fmtCode f * 16 + 5) d.toNat a.toNat b.toNat)
  | .fopMax f d a b => some (none, encT 12 (fmtCode f * 16 + 6) d.toNat a.toNat b.toNat)
  | .fopAbs f d a => some (none, encT 12 (fmtCode f * 16 + 7) d.toNat a.toNat 0)
  | .fopNeg f d a => some (none, encT 12 (fmtCode f * 16 + 8) d.toNat a.toNat 0)
  | .fopCopysign f d a b => some (none, encT 12 (fmtCode f * 16 + 9) d.toNat a.toNat b.toNat)
  | .fmaFma f r d a b => some (none, encT 13 (fmtCode f * 16 + rmCode r * 4 + 0) d.toNat a.toNat b.toNat)
  | .fmaFms f r d a b => some (none, encT 13 (fmtCode f * 16 + rmCode r * 4 + 1) d.toNat a.toNat b.toNat)
  | .fmaFnma f r d a b => some (none, encT 13 (fmtCode f * 16 + rmCode r * 4 + 2) d.toNat a.toNat b.toNat)
  | .fmaFnms f r d a b => some (none, encT 13 (fmtCode f * 16 + rmCode r * 4 + 3) d.toNat a.toNat b.toNat)
  | .cvtFloatFloat t s r d a =>
    some (none, encT 14 ((8 + fmtCode t) * 4) d.toNat a.toNat (rmCode r * 16 + (8 + fmtCode s)))
  | .cvtIntFloat t g w r d a =>
    some (none, encT 14 ((8 + fmtCode t) * 4) d.toNat a.toNat (rmCode r * 16 + ((if g then 0 else 4) + widthCode w)))
  | .cvtFloatInt g w s r d a =>
    some (none, encT 14 (((if g then 0 else 4) + widthCode w) * 4) d.toNat a.toNat (rmCode r * 16 + (8 + fmtCode s)))
  | .cvtBxPack x d a => some (none, encT 14 (bxCode x * 4) d.toNat a.toNat 10)
  | .cvtBxUnpack x d a => some (none, encT 14 40 d.toNat a.toNat (bxCode x))
  | .sfuRcp f d a => some (none, encT 15 (0 * 8 + fmtCode f * 2) d.toNat a.toNat 0)
  | .sfuRsqrt f d a => some (none, encT 15 (1 * 8 + fmtCode f * 2) d.toNat a.toNat 0)
  | .sfuSqrt f d a => some (none, encT 15 (2 * 8 + fmtCode f * 2) d.toNat a.toNat 0)
  | .sfuExp2 f d a => some (none, encT 15 (3 * 8 + fmtCode f * 2) d.toNat a.toNat 0)
  | .sfuLog2 f d a => some (none, encT 15 (4 * 8 + fmtCode f * 2) d.toNat a.toNat 0)
  | .sfuSinpi f d a => some (none, encT 15 (5 * 8 + fmtCode f * 2) d.toNat a.toNat 0)
  | .sfuCospi f d a => some (none, encT 15 (6 * 8 + fmtCode f * 2) d.toNat a.toNat 0)
  | .sfuTwd d a b => some (none, encT 15 60 d.toNat a.toNat b.toNat)
  | .xlShfl w d a b m => some (mkExt m, encT 16 (0 * 4 + widthCode w) d.toNat a.toNat b.toNat)
  | .xlShflx w d a b m => some (mkExt m, encT 16 (1 * 4 + widthCode w) d.toNat a.toNat b.toNat)
  | .xlShflu w d a b m => some (mkExt m, encT 16 (2 * 4 + widthCode w) d.toNat a.toNat b.toNat)
  | .xlShfld w d a b m => some (mkExt m, encT 16 (3 * 4 + widthCode w) d.toNat a.toNat b.toNat)
  | .xlBal d p m => some (mkExt m, encT 16 16 d.toNat p.toNat 0)
  | .xlVoteAny d p m => some (mkExt m, encT 16 20 d.toNat p.toNat 0)
  | .xlVoteAll d p m => some (mkExt m, encT 16 24 d.toNat p.toNat 0)
  | .xlVoteEq w d a m => some (mkExt m, encT 16 (28 + widthCode w) d.toNat a.toNat 0)
  | .xlQx d a c m => some (mkExt m, encT 16 32 d.toNat a.toNat (qxCode c))
  | .xlRed d a o t m => some (mkExt m, encT 16 36 d.toNat a.toNat (redCode o * 16 + tyCode t))
  | .xlScan e d a o t m => some (mkExt m, encT 16 (40 + bN e) d.toNat a.toNat (redCode o * 16 + tyCode t))
  | .ld t s o d n f => some (encM 17 d.toNat n.toNat (ldTyCode t) s o f)
  | .ldx t s o d n x f => some (encX 18 d.toNat n.toNat (ldTyCode t) x.toNat s o f)
  | .st t s o d n f => some (encM 19 d.toNat n.toNat (stTyCode t) s o f)
  | .stPoison s o n f => some (encM 19 0 n.toNat 5 s o f)
  | .stx t s o d n x f => some (encX 20 d.toNat n.toNat (stTyCode t) x.toNat s o f)
  | .atomAdd w s r d n b => some (none, encA 0 d.toNat n.toNat b.toNat w s r)
  | .atomMinI w s r d n b => some (none, encA 1 d.toNat n.toNat b.toNat w s r)
  | .atomMinN w s r d n b => some (none, encA 2 d.toNat n.toNat b.toNat w s r)
  | .atomMaxI w s r d n b => some (none, encA 3 d.toNat n.toNat b.toNat w s r)
  | .atomMaxN w s r d n b => some (none, encA 4 d.toNat n.toNat b.toNat w s r)
  | .atomAnd w s r d n b => some (none, encA 5 d.toNat n.toNat b.toNat w s r)
  | .atomOr w s r d n b => some (none, encA 6 d.toNat n.toNat b.toNat w s r)
  | .atomXor w s r d n b => some (none, encA 7 d.toNat n.toNat b.toNat w s r)
  | .atomSwap w s r d n b => some (none, encA 8 d.toNat n.toNat b.toNat w s r)
  | .atomCas w s r d n b => some (none, encA 9 d.toNat n.toNat b.toNat w s r)
  | .atomFadd w s r d n b => some (none, encA 10 d.toNat n.toNat b.toNat w s r)
  | .adrAdda ad s h b => some (none, 22 * 2 ^ 27 + 0 * 2 ^ 24 + ad.toNat * 2 ^ 21 + s.toNat * 2 ^ 18 + h.val * 2 ^ 15 + b.toNat)
  | .adrAddai ad s i => some (immExt 18 i, 22 * 2 ^ 27 + 1 * 2 ^ 24 + ad.toNat * 2 ^ 21 + s.toNat * 2 ^ 18 + i.toNat % 2 ^ 18)
  | .adrMovawReg ad a b => some (none, 22 * 2 ^ 27 + 2 * 2 ^ 24 + ad.toNat * 2 ^ 21 + a.toNat * 2 ^ 14 + b.toNat)
  | .adrMovawImm ad a s => some (none, 22 * 2 ^ 27 + 2 * 2 ^ 24 + ad.toNat * 2 ^ 21 + a.toNat * 2 ^ 14 + 2 ^ 13 + s.toNat)
  | .adrMovwa d s p => some (none, 22 * 2 ^ 27 + 3 * 2 ^ 24 + d.toNat * 2 ^ 14 + s.toNat * 2 ^ 11 + bN p * 2 ^ 10)
  | .adrSpna ad b => some (none, 22 * 2 ^ 27 + 4 * 2 ^ 24 + ad.toNat * 2 ^ 21 + b.toNat)
  | .adrCmpa p s t c =>
    some (none, 22 * 2 ^ 27 + 5 * 2 ^ 24 + p.toNat * 2 ^ 21 + s.toNat * 2 ^ 18 + t.toNat * 2 ^ 15 + acondCode c * 2 ^ 12)
  | .acpCopy a b => some (none, encT 23 0 0 a.toNat b.toNat) | .acpFill a b => some (none, encT 23 1 0 a.toNat b.toNat)
  | .acpRing a b => some (none, encT 23 2 0 a.toNat b.toNat) | .acpPfill a b => some (none, encT 23 3 0 a.toNat b.toNat)
  | .mxRes d a => some (none, encT 24 0 d.toNat a.toNat 0) | .mxRel a => some (none, encT 24 1 0 a.toNat 0)
  | .mxWld a b => some (none, encT 24 2 0 a.toNat b.toNat) | .mxTask n => some (none, encT 24 3 0 n.toNat 0)
  | .mxDep n b => some (none, encT 24 4 0 n.toNat b.toNat)
  | .boInit a b => some (none, encT 25 0 0 a.toNat b.toNat) | .boExpect a b => some (none, encT 25 1 0 a.toNat b.toNat)
  | .boArrive a b => some (none, encT 25 2 0 a.toNat b.toNat) | .boWait a b => some (none, encT 25 3 0 a.toNat b.toNat)
  | .boTest d a => some (none, encT 25 4 d.toNat a.toNat 0) | .boErr d a => some (none, encT 25 5 d.toNat a.toNat 0)
  | .btEnroll d n b => some (none, encT 26 0 d.toNat n.toNat b.toNat) | .btUnenroll a => some (none, encT 26 1 0 a.toNat 0)
  | .btReparent a b => some (none, encT 26 2 0 a.toNat b.toNat) | .btSettle d a => some (none, encT 26 3 d.toNat a.toNat 0)
  | .btRead d a => some (none, encT 26 4 d.toNat a.toNat 0) | .btCmp d a b => some (none, encT 26 5 d.toNat a.toNat b.toNat)
  | _ => none
where
  /-- Extension of a rounding mode (R76, R87). -/
  rmExt : Rm → Option Nat
    | .rn => none
    | r => some (rmCode r)

/-- The words of an instruction: an xim word where it needs an extension, then its own word. Empty for an event. -/
def encode (i : Instr) : List IWord :=
  match encodeN i with
  | none => []
  | some (none, w) => [BitVec.ofNat 32 w]
  | some (some e, w) => [BitVec.ofNat 32 (1 * 2 ^ 27 + 2 * 2 ^ 24 + e), BitVec.ofNat 32 w]

/-- Decoding of the words that `encode` gives: an optional xim, then the word. -/
def decodeWords : List IWord → Option Instr
  | [w] =>
    match decodeWord none w with
    | .ok i => some i
    | .error _ => none
  | [x, w] =>
    match decodeWord none x with
    | .ok (.xim e) =>
      match decodeWord (some e) w with
      | .ok i => some i
      | .error _ => none
    | _ => none
  | _ => none

end Sys2Proof
end

