-- ==== Sys2Proof/Machine/Acc.lean ====
section
/-! DEFINITION. Accessors: the parts of the state by their numbers, the registers of a slot and of a train, masks and
guards, and the numbers of dies, cores and special registers. -/

namespace Sys2Proof.Machine

/-! Parts by number. -/

def findTrain (s : State) (uid : Nat) : Option Train := s.trains.find? (fun t => t.uid == uid)
def setTrain (s : State) (t : Train) : State :=
  { s with trains := s.trains.map (fun u => if u.uid = t.uid then t else u) }
def modTrain (s : State) (uid : Nat) (f : Train → Train) : State :=
  { s with trains := s.trains.map (fun u => if u.uid = uid then f u else u) }
def findTeam (s : State) (id : Nat) : Option Team := s.teams.find? (fun t => t.id == id)
def setTeam (s : State) (t : Team) : State :=
  { s with teams := s.teams.map (fun u => if u.id = t.id then t else u) }
def modTeam (s : State) (id : Nat) (f : Team → Team) : State :=
  { s with teams := s.teams.map (fun u => if u.id = id then f u else u) }
def findCtx (s : State) (n : Nat) : Option Ctx := s.ctxs.find? (fun c => c.num == n)
def modCtx (s : State) (n : Nat) (f : Ctx → Ctx) : State :=
  { s with ctxs := s.ctxs.map (fun u => if u.num = n then f u else u) }
def findLaunch (s : State) (id : Nat) : Option Launch := s.launches.find? (fun l => l.id == id)
def modLaunch (s : State) (id : Nat) (f : Launch → Launch) : State :=
  { s with launches := s.launches.map (fun u => if u.id = id then f u else u) }
def findQ (s : State) (n : Nat) : Option QSlot := s.queues.find? (fun q => q.slot == n)
def modQ (s : State) (n : Nat) (f : QSlot → QSlot) : State :=
  { s with queues := s.queues.map (fun u => if u.slot = n then f u else u) }
def findCmd (s : State) (id : Nat) : Option Cmd := s.cmds.find? (fun c => c.id == id)
def modCmd (s : State) (id : Nat) (f : Cmd → Cmd) : State :=
  { s with cmds := s.cmds.map (fun u => if u.id = id then f u else u) }
def delCmd (s : State) (id : Nat) : State := { s with cmds := s.cmds.filter (fun c => decide (c.id ≠ id)) }
def findTask (s : State) (id : Nat) : Option Task := s.tasks.find? (fun t => t.id == id)
def modTask (s : State) (id : Nat) (f : Task → Task) : State :=
  { s with tasks := s.tasks.map (fun u => if u.id = id then f u else u) }
def delTask (s : State) (id : Nat) : State := { s with tasks := s.tasks.filter (fun c => decide (c.id ≠ id)) }
def findReq (s : State) (id : Nat) : Option Req := s.reqs.find? (fun r => r.id == id)
def modReq (s : State) (id : Nat) (f : Req → Req) : State :=
  { s with reqs := s.reqs.map (fun u => if u.id = id then f u else u) }
def delReq (s : State) (id : Nat) : State := { s with reqs := s.reqs.filter (fun r => decide (r.id ≠ id)) }
def coreOf (s : State) (c : Nat) : Core := aget Core.reset s.cores c
def modCore (s : State) (c : Nat) (f : Core → Core) : State := { s with cores := aset s.cores c (f (coreOf s c)) }

/-- An event becomes due: it joins the agenda (log 4). -/
def post (s : State) (i : Instr) : State := { s with agenda := s.agenda ++ [i] }
/-- An event becomes due unless it already is. -/
def postOnce (s : State) (i : Instr) : State := if s.agenda.contains i then s else post s i
/-- A fresh number (log 6). -/
def fresh (s : State) : Nat × State := (s.nextId, { s with nextId := s.nextId + 1 })
/-- A timed event has happened: the clock stands at or after its due time (log 5). -/
def atTime (s : State) (due : Nat) : State := { s with now := max s.now due }

/-! Dies and cores (R144, R428, R433). -/

def dieOf (core : Nat) : Nat := core / 56
def ringOf (core : Nat) : Nat := core % 56 / 8
def posOf (core : Nat) : Nat := core % 8
/-- The cores of a die, ascending. -/
def dieCores (d : Nat) : List Nat := (List.range 56).map (fun i => 56 * d + i)
/-- Notes tokens of now (R385); those older than 8 us no longer count. -/
def noteTok (s : State) (k : Tok) : State :=
  { s with toks := s.toks.filter (fun q => decide (s.now < q.time + 8 * Config.us)) ++ [{ k with time := s.now }] }
/-- No tokens of a team on the die of its core. -/
def coreTok (ctx team core : Nat) : Tok := ⟨0, ctx, team, dieOf core, 0, 0, 0, 0, 0⟩
/-- Default margin word: for a core, every matrix engine in service (log 1). -/
def marginOf (s : State) (i : Nat) : Word := aget (if i < 224 then 0xF000#64 else 0#64) s.margin i
def engineUp (s : State) (core e : Nat) : Bool := (marginOf s core).getLsbD (12 + e) && !(coreOf s core).testing.contains e
/-- Live capacity of a core's operand store in bytes (R30). -/
def oscap (c : Core) : Nat := (2048 - c.dead.length) * 4096
/-- Word `i` of osmap (R30). -/
def osmapWord (c : Core) (i : Nat) : Word :=
  packW 1 (fun j => if c.dead.contains (64 * i + j) then 0 else 1)
/-- G, the number of good lanes (R15). -/
def goodLanes (c : Core) : Nat := sumN ((List.range 32).map (fun i => if c.lanes.getLsbD i then 1 else 0))

/-! Conditions of half-sectors, and registers with theirs (R444, R445). -/

/-- Sets the condition of a half-sector; clean ones are not listed. -/
def setCond (l : List (Nat × HalfCond)) (h : Nat) (c : HalfCond) : List (Nat × HalfCond) :=
  if c = .clean then adel l h else aset l h c
/-- The condition after a write of all, or of a part, of a half-sector (R234, R445). -/
def condWrite (c : HalfCond) (whole : Bool) : HalfCond :=
  if whole then .clean else
  match c with
  | .clean | .single _ => .clean
  | .poison | .poisonSingle _ | .bad => .poison
/-- How a reader finds a half-sector: 0 data, 1 poison, 2 uncorrectable (R444). -/
def condRead : HalfCond → Nat
  | .clean | .single _ => 0
  | .poison | .poisonSingle _ => 1
  | .bad => 2
/-- One more bit in error (R444). -/
def condFlip (c : HalfCond) (bit : Nat) : HalfCond :=
  match c with
  | .clean => .single bit
  | .single b => if b = bit then .clean else .bad
  | .poison => .poisonSingle bit
  | .poisonSingle b => if b = bit then .poison else .bad
  | .bad => .bad

/-- The conditions of a slot's registers after a write of a part of a half-sector (log 22). -/
def partWrite (x : Slot) (h : Nat) : List (Nat × HalfCond) :=
  if x.rcond.isEmpty then [] else setCond x.rcond h (condWrite (aget .clean x.rcond h) false)
/-- Half-sectors of address register `n` and of the predicates of a slot, in the column of its lane like its window registers
(R19; log 22). -/
def aregHalf (n : Nat) : Nat := 1024 + n / 3
@[inherit_doc aregHalf] def predHalf : Nat := 1027
/-- What register `r` holds after a write of `v`: in the trap frame, a read-only or reserved bit stands (R11, R418). -/
def putVal (x : Slot) (r : Nat) (v : Word) : Word :=
  match afind x.frame r with
  | none => v
  | some m => (cget x.regs r &&& ~~~m) ||| (v &&& m)
/-- Writes one register of a slot. -/
def putReg (x : Slot) (r : Nat) (v : Word) : Slot := { x with regs := cset x.regs r (putVal x r v), rcond := partWrite x (r / 4) }
/-- Writes consecutive registers. -/
def putRegs (x : Slot) (r : Nat) : List Word → Slot
  | [] => x
  | v :: vs => putRegs (putReg x r v) (r + 1) vs

/-! Slots and registers. -/

def Slot.blank : Slot :=
  ⟨0#40, .absent, Guard.none, 0, [], [], [], [], 0#8, 0, [], .none, 0#40, Guard.none, false, 0, [], [], [], []⟩
def slotAt (t : Train) (i : Nat) : Slot := t.slots.getD i Slot.blank
def modSlot (t : Train) (i : Nat) (f : Slot → Slot) : Train := { t with slots := lmod t.slots i f }
/-- Applies `f` to every slot with its number. -/
def mapSlots (t : Train) (f : Nat → Slot → Slot) : Train :=
  { t with slots := (t.slots.zipIdx).map (fun p => f p.2 p.1) }

/-- The kinds of register that a 7-bit field names (R67). -/
def isW (r : Reg) : Bool := decide (r.toNat < 96)
@[inherit_doc isW] def isK (r : Reg) : Bool := decide (96 ≤ r.toNat ∧ r.toNat < 120)
@[inherit_doc isW] def isQ (r : Reg) : Bool := decide (120 ≤ r.toNat ∧ r.toNat < 127)
@[inherit_doc isW] def isZ (r : Reg) : Bool := decide (r.toNat = 127)
/-- Number of the port that a field names. -/
def portOf (r : Reg) : Nat := r.toNat - 120

/-- Allocation register that window register `r` names (R193). -/
def wIdx (t : Train) (r : Reg) : Nat := t.B + r.toNat
/-- The value that a field reads in slot `i`: w per slot, k for the train, zr zero; a port's item is popped elsewhere (R67). -/
def readReg (t : Train) (i : Nat) (r : Reg) : Word :=
  if isW r then cget (slotAt t i).regs (wIdx t r) else if isK r then cget t.k (r.toNat - 96) else 0#64
/-- Writes window register `r` of slot `i`; k registers are written by uniform instructions alone, and a write of zr is
discarded (R67, R68). -/
def writeW (t : Train) (i : Nat) (r : Reg) (v : Word) : Train :=
  if isW r then modSlot t i (fun x => putReg x (wIdx t r) v) else t
def writeK (t : Train) (r : Reg) (v : Word) : Train :=
  if isK r then { t with k := cset t.k (r.toNat - 96) v } else t
/-- A register pair or a single register, as 128 bits (R71). -/
def readPair (t : Train) (i : Nat) (r : Reg) (pair : Bool) : BitVec 128 :=
  if pair && !isZ r then readReg t i (r + 1) ++ readReg t i r else (0#64) ++ readReg t i r
/-- Address register `n` of slot `i` (R70, R129). -/
def readA (t : Train) (i : Nat) (n : R3) : Addr := cget (slotAt t i).areg n.toNat
def writeA (t : Train) (i : Nat) (n : R3) (v : Addr) : Train :=
  modSlot t i (fun x => { x with areg := cset x.areg n.toNat v, rcond := partWrite x (aregHalf n.toNat) })
/-- Predicate `p`; p0 always reads true (R70). -/
def slotPred (x : Slot) (p : R3) : Bool := if p = 0#3 then true else x.pred.getLsbD p.toNat
/-- Writes predicate `p` (R70). -/
def setPred (x : Slot) (p : R3) (v : Bool) : Slot :=
  { x with pred := BitVec.ofNat 8 (packNat 1 (fun j => if (if j = p.toNat then v else x.pred.getLsbD j) then 1 else 0) 8)
           rcond := partWrite x predHalf }
/-- Offset and span of an address (R129). -/
def aOff (a : Addr) : Word := a.extractLsb' 0 64
def aSpan (a : Addr) : BitVec 16 := a.extractLsb' 64 16
def mkAddr (span : BitVec 16) (off : Word) : Addr := span ++ off

/-! Presence in the train. -/

/-- Neither exited, absent nor a helper. -/
def slotLive (x : Slot) : Bool :=
  match x.st with
  | .exited | .absent | .helper => false
  | _ => true
def liveMask (t : Train) : Mask := maskOf (fun i => slotLive (slotAt t i))
def readyMask (t : Train) : Mask := maskOf (fun i => decide ((slotAt t i).st = .ready))
/-- The trains of a team that have not retired. -/
def teamTrains (s : State) (team : Nat) : List Train := s.trains.filter (fun t => t.team == team && !t.retired)

/-! Guards and repeats (R75, R135, R137). -/

/-- The guard of the word now issuing, for a slot: that of a grd in its chain, else the slot's running guard. -/
def issGuard (iss : Issue) (x : Slot) : Guard := iss.grd.getD x.guard
/-- The slot is not guarded off (R75). -/
def guardPass (g : Guard) (x : Slot) : Bool := g.cnt == 0 || (slotPred x g.pred != g.sense)
/-- The active slots of the run (R13). -/
def activeMask (iss : Issue) (t : Train) : Mask :=
  maskOf (fun i => inMask iss.slots i && guardPass (issGuard iss (slotAt t i)) (slotAt t i) && !iss.bad.any (fun p => p.1 == i))
/-- A guard with one covered instruction fewer. -/
def guardStep (g : Guard) : Guard := if g.cnt ≤ 1 then Guard.none else { g with cnt := g.cnt - 1 }
/-- Repeats that the word makes: 1 without rep (R73). -/
def repCount (iss : Issue) : Nat :=
  match iss.rep with
  | some (.rep _ _ _ _ _ _ c) => c.toNat + 1
  | _ => 1
/-- Repeats still to issue for a slot, this one included. -/
def repLeft (iss : Issue) (x : Slot) : Nat := if x.rcount = 0 then repCount iss else x.rcount
/-- The word after the one now issuing. -/
def nextPc (iss : Issue) : Pc := iss.wpc + 4#40

/-- The slot has completed the word now issuing, or one repeat of it, and stands at `pc` after the last (R135, R136). DESIGN CHOICE
(log 51): R75 does not say what the guard of a chain with its own grd reads as between repeats; the slot keeps the guard that it
had until the last repeat is done. -/
def slotDone (iss : Issue) (pc : Pc) (x : Slot) : Slot :=
  if 1 < repLeft iss x then
    { x with rcount := repLeft iss x - 1, st := .ready, wait := .none, skip := 0, walked := false, again := 0 }
  else
    { x with pc := pc, rcount := 0, guard := guardStep (issGuard iss x), st := .ready, wait := .none, skip := 0,
             walked := false, again := 0 }
/-- The slot parks at the word now issuing; `pc` is where it will stand if its wait completes the word (R136, R184). -/
def slotPark (iss : Issue) (st : SState) (w : Wait) (pc : Pc) (x : Slot) : Slot :=
  { x with st := st, wait := w, rcount := if iss.rep.isSome then repLeft iss x else x.rcount, skip := 0, npc := pc,
           nguard := guardStep (issGuard iss x) }
/-- The slot has not completed the word and stands at it (R416). -/
def slotStay (iss : Issue) (x : Slot) : Slot :=
  { x with rcount := if iss.rep.isSome then repLeft iss x else x.rcount, skip := 0, st := .ready, wait := .none, again := 0 }
/-- A wait that completes its word is over: the slot moves on, or to its next repeat (R197, R251, R301). -/
def waitDone (x : Slot) : Slot :=
  if 1 < x.rcount then { x with rcount := x.rcount - 1, st := .ready, wait := .none, again := 0 }
  else { x with pc := x.npc, rcount := 0, guard := x.nguard, st := .ready, wait := .none, again := 0 }
/-- A wait is over and the slot makes its word again (R184, R238, R429). -/
def waitRetry (x : Slot) : Slot := { x with st := .ready, wait := .none }

/-- The value of repcnt (R137). -/
def repcnt (x : Slot) : Nat :=
  x.guard.cnt * 2 ^ 12 + (if x.guard.sense then 2 ^ 11 else 0) + x.guard.pred.toNat * 2 ^ 8 + x.rcount
/-- The code of a state (R184). -/
def stCode : SState → Nat
  | .ready => 0 | .presence => 1 | .qport => 2 | .member => 3 | .barrier => 4 | .miss => 5 | .wait => 6 | .exited => 7
  | .absent => 8 | .helper => 9 | .bowait => 10 | .migr => 11

/-- A cause of a class and detail (R12). -/
def cause (cls det : Nat) : BitVec 9 := BitVec.ofNat 9 (cls * 32 + det)

/-- An error record of the device, with its time (R446). -/
def addErr (s : State) (e : ErrRec) : State :=
  postOnce { s with errs := s.errs ++ [{ e with time := s.now / Config.us }] } .errorRecordPost
/-- A record that names a context and a core and nothing else. -/
def errRec (kind sev core ctx : Nat) : ErrRec :=
  ⟨kind, sev, if core < 224 then dieOf core else 4, if core < 224 then core else 0xFF, ctx, 0, 0#64, 0, 0, 0, 0, []⟩

/-! The mailbox of the policy core (R440). -/

/-- The image of step 3 that does not verify, if any. -/
def failedImage : Option Nat := [0, 1, 2].find? (fun i => !Config.imageValid i)
/-- A mailbox request: carried out after bring-up; where bring-up stopped at step 3 it is answered with the failed image. -/
def mailbox (s : State) (f : State → State) : State :=
  if s.booted then f s
  else match failedImage with
    | some i => { s with reports := s.reports ++ [[BitVec.ofNat 8 i]] }
    | none => s

end Sys2Proof.Machine
end

