-- ==== Sys2Proof/Machine/Mem.lean ====
section
/-! DEFINITION. Device memory: the bytes with their check conditions and encryption keys, error records of memory, span
and page tables, translation buffers, bridle increments, and the marks that carry happens-before (spec/09, 12, 20, 22 to
24). A location is a number: a physical address of device memory as it stands, host port p at (1 + p) * 2^52, peer port p
at (16 + p) * 2^52, team scratch at 2^60 and named barriers at 2^61. -/

namespace Sys2Proof.Machine

/-! Locations. -/

/-- The die that homes a location: 0 to 3, or 4 for the I/O die, which carries host and peer memory (R314, R428). -/
def homeDie (key : Nat) : Nat := if key < 2 ^ 52 then key / 2 ^ 38 % 4 else 4
/-- The lines of HBM that an access reads or writes are tokens of its context, at the die whose controllers have them (R384). -/
def noteHbm (s : State) (ctx team : Nat) (keys : List Nat) : State :=
  (nub (keys.map (· / 64))).foldl (fun s l =>
    if homeDie (64 * l) < 4 then noteTok s ⟨0, ctx, team, homeDie (64 * l), 1, 0, 0, 0, 0⟩ else s) s
/-- Location of a byte of team scratch, and of a named barrier (R296, R299). -/
def scrKey (team off : Nat) : Nat := 2 ^ 60 + team * 2 ^ 23 + off
def barKey (team h : Nat) : Nat := 2 ^ 61 + team * 64 + h
/-- Two lists of locations share one. -/
def overlap (a b : List Nat) : Bool := a.any (fun k => b.contains k)
/-! Error records of memory (R446, R447). -/

/-- Socket of an HBM stack that holds a physical address (R428, R433). -/
def socketOf (key : Nat) : Nat :=
  if key < 2 ^ 52 then 8 + 3 * (key / 2 ^ 38 % 4) + key % 2 ^ 38 / 4096 % 3 else 4
/-- A kind 1 record is held 1 ms from its first error, and counts the further errors of its unit in that time (R447). -/
def corrected (s : State) (unit : Nat) (e : ErrRec) : State :=
  let open_ := fun (h : HeldRec) => h.unit == unit && decide (s.now < h.due)
  if s.held.any open_ then
    { s with held := s.held.map (fun h => if open_ h then { h with count := h.count + 1 } else h) }
  else
    post { s with held := s.held ++ [⟨unit, { e with kind := 1, sev := 0, time := s.now / Config.us }, 1,
      s.now + 1000 * Config.us⟩] } (.correctedRecordFlush unit (s.now + 1000 * Config.us))
/-- The record of a half-sector of device memory, with the span of the access. -/
def halfRec (kind core ctx span h : Nat) : ErrRec :=
  { errRec kind 1 core ctx with socket := socketOf (32 * h), addr := BitVec.ofNat 64 (32 * h), span := span }
/-- Records made when half-sectors of device memory are read (R444, R446). -/
def noteHalf (s : State) (core ctx span h : Nat) : State :=
  match aget .clean s.mcond h with
  | .clean => s
  | .single _ => corrected s (socketOf (32 * h)) (halfRec 1 core ctx span h)
  | .poison => addErr s { halfRec 3 core ctx span h with cause := 128 }
  | .poisonSingle _ =>
    addErr (corrected s (socketOf (32 * h)) (halfRec 1 core ctx span h)) { halfRec 3 core ctx span h with cause := 128 }
  | .bad => addErr s { halfRec 2 core ctx span h with cause := 129 }
def noteHalves (s : State) (core ctx span : Nat) (hs : List Nat) : State := hs.foldl (fun s h => noteHalf s core ctx span h) s

/-- Whose access it is that records name: its core, context and span (R446). -/
structure Who where
  core : Nat
  ctx  : Nat
  span : Nat
  deriving DecidableEq, Repr
/-- An access of span 0 that no core makes: by the front end, the host or the policy core. -/
def Who.front (ctx : Nat) : Who := ⟨0xFF, ctx, 0⟩

/-! Bytes under keys (R438). -/

/-- Version of the key in a slot: 0 for an empty slot. -/
def keyVersion (s : State) (id : Nat) : Nat := aget 0 s.keys id
/-- The byte that a read under a key version delivers; none for an uncorrectable error. -/
def rawByte (s : State) (key ver : Nat) : Option Byte :=
  if 2 ^ 52 ≤ key then some (cget s.mem key)
  else if aget 0 s.mkey (key / 64) = 0 ∨ aget 0 s.mkey (key / 64) = ver then some (cget s.mem key)
  else Config.wrongKey s.tick key

/-- What a read finds: its bytes, or a fault detail: 0 poison, 1 uncorrectable (R415). -/
inductive Rd where
  | ok (bs : List Byte)
  | bad (detail : Nat)
  deriving DecidableEq, Repr

/-- The worst condition among half-sectors, poison before uncorrectable (the lower cause). -/
def worst (cs : List Nat) : Nat := if cs.contains 1 then 1 else if cs.contains 2 then 2 else 0
/-- Collects bytes that may be missing. -/
def allSome {α : Type} : List (Option α) → Option (List α)
  | [] => some []
  | none :: _ => none
  | some b :: t => match allSome t with
    | some l => some (b :: l)
    | none => none
/-- Reads locations at their home, each under its key version. -/
def readHome (s : State) (kv : List (Nat × Nat)) : Rd :=
  match worst (kv.map (fun p => condRead (aget .clean s.mcond (p.1 / 32)))) with
  | 1 => .bad 0
  | 2 => .bad 1
  | _ => match allSome (kv.map (fun p => rawByte s p.1 p.2)) with
    | some bs => .ok bs
    | none => .bad 1

/-- A sector written before under another key keeps nothing readable outside the bytes now written (R438). -/
def rekey (s : State) (sec ver : Nat) : State :=
  if 2 ^ 46 ≤ sec then s
  else if aget 0 s.mkey sec = 0 ∨ aget 0 s.mkey sec = ver then { s with mkey := if ver = 0 then s.mkey else aset s.mkey sec ver }
  else
    { s with
      mem := csetAll s.mem (64 * sec) ((List.range 64).map (fun i =>
        (Config.wrongKey s.tick (64 * sec + i)).getD (Config.poisonBits s.tick (64 * sec + i))))
      mkey := if ver = 0 then adel s.mkey sec else aset s.mkey sec ver }
/-- Slots and queues that watch a written line read again (R146, R364). -/
def wakeWatch (s : State) (keys : List Nat) : State :=
  let lines := nub (keys.map (· / 64))
  let hit := fun (ks : List Nat) => ks.any (fun k => lines.contains (k / 64))
  let s := s.trains.foldl (fun s t =>
    (List.range 32).foldl (fun s i =>
      match (slotAt t i).wait with
      | .watch _ ks _ _ none => if hit ks then postOnce s (.waitwWake t.uid i) else s
      | _ => s) s) s
  s.queues.foldl (fun s q => if (q.watch.map hit).getD false then postOnce s (.waitmemRecheck q.slot 0) else s) s
/-- The condition of a half-sector of device memory as bytes of it are written by an access, with the records that the write makes
(R444, R446). -/
def condHome (w : Who) (ks full left : List Nat) (s : State) (h : Nat) : State :=
  if left.contains h then s
  else
    let c := aget HalfCond.clean s.mcond h
    let whole := decide ((ks.filter (fun k => k / 32 == h)).length = 32) || full.contains h
    let s := if whole then s else match c with
      | .single _ | .poisonSingle _ => corrected s (socketOf (32 * h)) (halfRec 1 w.core w.ctx w.span h)
      | .bad => addErr s { halfRec 2 w.core w.ctx w.span h with cause := 129 }
      | _ => s
    { s with mcond := setCond s.mcond h (condWrite c whole) }
/-- Writes bytes at their home under a key version (R234, R438, R445). Half-sectors in `full` are made whole by this write, those
in `left` by parts of the same store that are still to come. -/
def writeParts (s : State) (w : Who) (kbs : List (Nat × Byte)) (ver : Nat) (full left : List Nat) : State :=
  let ks := nub (kbs.map (·.1))
  let s := (nub (ks.map (· / 64))).foldl (fun s sec => rekey s sec ver) s
  let s := (nub (ks.map (· / 32))).foldl (condHome w ks full left) s
  wakeWatch { s with mem := csetAt s.mem kbs } ks
/-- The same for a write that stands alone. -/
def writeHome (s : State) (w : Who) (kbs : List (Nat × Byte)) (ver : Nat) : State := writeParts s w kbs ver [] []
/-- Writes located bytes, each under the key version of its own page (R438). -/
def writeKeyed (s : State) (w : Who) (kv : List (Nat × Nat)) (bs : List Byte) : State :=
  (nub (kv.map (·.2))).foldl (fun s v =>
    writeHome s w (((kv.zip bs).filter (fun p => p.1.2 == v)).map (fun p => (p.1.1, p.2))) v) s
/-- Writes bytes of memory that the policy core or a hardware table owns, leaving keys and conditions alone. -/
def poke (s : State) (pa : Nat) (bs : List Byte) : State := { s with mem := csetAll s.mem pa bs }
def peekN (s : State) (pa n : Nat) : Nat := leN (cgetAll s.mem pa n)

/-! Spans and page tables (R426, R427). -/

/-- Type of an access: read, write, atomic, fetch (R415). -/
abbrev accRead : Nat := 0
abbrev accWrite : Nat := 1
abbrev accAtomic : Nat := 2
abbrev accFetch : Nat := 3

/-- A translated page: the leaf with its level, and the span's kind and port. -/
structure Leaf where
  leaf  : Word
  level : Nat
  kind  : Nat
  port  : Nat
  deriving DecidableEq, Repr

/-- What a lookup comes to: a leaf, the wake window, or a fault of a type at a level (R415, R418). -/
inductive Lk where
  | ok (l : Leaf)
  | wake
  | bad (type level : Nat)
  deriving DecidableEq, Repr

/-- Entry `n` of a context's span table. -/
def spanEntry (s : State) (c : Ctx) (n : Nat) : Nat := if n < c.spanLen then peekN s (c.spanPa + 16 * n) 16 else 0
/-- A physical address lies in installed memory of a die that is alive (R427, R428, R434). -/
def installed (s : State) (pa : Nat) : Bool :=
  decide (pa < 2 ^ 40) && decide (pa % 2 ^ 38 < Config.dieBytes) && s.memAlive.getLsbD (pa / 2 ^ 38)
/-- Pages of 64 KiB that a leaf of a level maps. -/
def leafPages (level : Nat) : Nat := 4096 ^ (3 - level)
/-- The walk from a table, over the levels listed (R427). -/
def walkFrom (s : State) (kind port page : Nat) : List Nat → Nat → Lk
  | [], _ => .bad 4 3
  | lv :: rest, tbl =>
    let e := peekN s (tbl + 8 * (page / leafPages lv % 4096)) 8
    let pa := bitsN e 16 36 * 65536
    if bitsN e 0 1 = 0 then .bad 1 lv
    else if bitsN e 52 12 ≠ 0 then .bad 4 lv
    else if bitsN e 1 1 = 1 then
      if lv = 0 ∨ pa / 65536 % leafPages lv ≠ 0 ∨ (lv = 1 ∧ kind = 1) ∨ (kind = 1 ∧ installed s pa = false) then .bad 4 lv
      else .ok ⟨BitVec.ofNat 64 e, lv, kind, port⟩
    else if lv = 3 ∨ installed s pa = false then .bad 4 lv
    else walkFrom s kind port page rest pa
/-- The whole lookup of a page through the tables, permissions apart; the root too lies in installed memory. -/
def walkPage (s : State) (c : Ctx) (span page : Nat) : Lk :=
  let e := spanEntry s c span
  let kind := bitsN e 0 3
  let root := bitsN e 80 36 * 65536
  if kind = 4 then .wake
  else if kind = 0 ∨ 4 < kind then .bad 0 4
  else if installed s root = false then .bad 4 4
  else walkFrom s kind (bitsN e 52 4) page [0, 1, 2, 3] root
/-- Whether the span's failed walks go to the fault service (R430). -/
def spanFwd (s : State) (c : Ctx) (span : Nat) : Bool := bitsN (spanEntry s c span) 7 1 == 1
/-- Permission of a leaf for an access (R427). -/
def leafPerm (e : Word) (acc : Nat) : Bool :=
  if acc = accRead then e.getLsbD 2
  else if acc = accWrite then e.getLsbD 3
  else if acc = accAtomic then e.getLsbD 2 && e.getLsbD 3
  else e.getLsbD 4
def leafKey (e : Word) : Nat := fld e 6 10
/-- Permission and key slot of a leaf, at its level (R427). -/
def leafCheck (s : State) (l : Leaf) (acc : Nat) : Option (Nat × Nat) :=
  if !leafPerm l.leaf acc then some (2, l.level)
  else if keyVersion s (leafKey l.leaf) = 0 then some (5, l.level)
  else none
/-- Location of an offset through a leaf. -/
def leafLoc (l : Leaf) (off : Nat) : Nat :=
  let pa := fld l.leaf 16 36 * 65536 + off % (65536 * leafPages l.level)
  if l.kind = 2 then (1 + l.port) * 2 ^ 52 + pa else if l.kind = 3 then (16 + l.port) * 2 ^ 52 + pa else pa

/-! Pages that pass between contexts (R455). -/

/-- The request writes memory. -/
def isWrite (r : Req) : Bool :=
  match r.kind with
  | .load _ _ _ => false
  | .bt _ => false
  | _ => true
/-- Entries of a table that memory lists, the others being zero. -/
def tableEntries (s : State) (tbl : Nat) : List Nat :=
  (nub ((s.mem.filter (fun e => decide (tbl ≤ e.1 ∧ e.1 < tbl + 32768))).map (fun e => e.1 / 8))).map (fun a => peekN s (8 * a) 8)
/-- A run of pages that a leaf maps, with its key slot. -/
structure Pages where
  first : Nat
  pages : Nat
  key   : Nat
  deriving DecidableEq, Repr

/-- The pages of device memory that the leaves under tables map, over the levels listed (R427). -/
def leavesUnder (s : State) : List Nat → List Nat → List Pages
  | [], _ => []
  | lv :: rest, tbls =>
    let es := (tbls.flatMap (tableEntries s)).filter (fun e => bitsN e 0 1 == 1 && bitsN e 52 12 == 0)
    let leaf := if lv < 2 then [] else es.filter (fun e => bitsN e 1 1 == 1 && bitsN e 16 36 % leafPages lv == 0)
    leaf.map (fun e => ⟨bitsN e 16 36, leafPages lv, bitsN e 6 10⟩) ++
      leavesUnder s rest (nub ((es.filter (fun e => bitsN e 1 1 == 0)).map (fun e => bitsN e 16 36 * 65536)))
/-- The pages of device memory that a context maps, over its spans of kind 1. -/
def ctxPages (s : State) (c : Ctx) : List Pages :=
  let spans := nub ((s.mem.filter (fun e => decide (c.spanPa ≤ e.1 ∧ e.1 < c.spanPa + 16 * c.spanLen))).map (fun e => (e.1 - c.spanPa) / 16))
  let own := (spans.map (spanEntry s c)).filter (fun e => bitsN e 0 3 == 1)
  leavesUnder s [0, 1, 2, 3] (nub (own.map (fun e => bitsN e 80 36 * 65536)))
def hasPage (l : List Pages) (p : Nat) : Bool := l.any (fun r => decide (r.first ≤ p ∧ p < r.first + r.pages))
/-- A page was last mapped for another context, which no longer maps it. -/
def gaveUp (s : State) (ctx p : Nat) : Bool :=
  match s.owned.find? (fun o => decide (o.first ≤ p ∧ p < o.first + o.pages)) with
  | none => false
  | some o => o.ctx != ctx && !((findCtx s o.ctx).map (fun c => hasPage (ctxPages s c) p)).getD false
/-- The context that the policy core makes (R31, R384, R398, R419, R426, R439, R447). -/
def newCtx (c : CtxSpec) : Ctx :=
  { num := c.num, budget := (c.budget.getD Budget.whole).fit, oskey := c.oskey, thand := c.thand &&& 0x1FFFFFFFFFC#64, spanPa := c.spanPa,
    spanLen := min c.spanLen 65536, nmax := min c.nmax 65535, nodePa := c.nodePa / 65536 * 65536, nodes := [], owner := c.owner,
    lastSeq := 0, ringOff := c.ringOff, ringRecs := c.ringRecs, audOn := false, audN := 0#5, checked := 0, skipped := 0,
    stall := 0, stopped := false, suspended := false, closing := false, dlq := [] }
/-- The pages of a context's node table (R398). -/
def nodePages (x : Ctx) : Pages := ⟨x.nodePa / 65536, (32 * x.nmax + 65535) / 65536, 0⟩
/-- A page is handed to a context that is to be created: of its node table, of the tables that are made for it, or one that the tables
at its span table map already and another context had last (R398, R455). -/
def createHit (s : State) (c : CtxSpec) (p : Nat) : Bool :=
  let x := newCtx c
  hasPage [nodePages x] p || c.tabs.any (fun t => t / 65536 == p) || (hasPage (ctxPages s x) p && gaveUp s x.num p)
/-- A write to a page that meets a test is still on its way. -/
def writesTo (s : State) (hit : Nat → Bool) : Bool :=
  s.reqs.any (fun r => isWrite r && r.stage != .applied && r.keys.any (fun k => hit (k / 65536))) ||
    s.tasks.any (fun k => k.units.any (fun u => u.any (fun e => e.keys.any (fun k => hit (k / 65536)))))
/-- Notes whom runs of pages were last mapped for. -/
def setOwned (s : State) (rs : List Pages) (ctx : Nat) : State :=
  { s with owned := rs.map (fun r => ⟨r.first, r.pages, ctx⟩) ++
      s.owned.filter (fun o => !rs.any (fun r => decide (r.first ≤ o.first ∧ o.first + o.pages ≤ r.first + r.pages))) }

/-- The pages that an entry maps for a context, and those that it takes from it. -/
def gained (s : State) (c : Ctx) (pa : Nat) (entry : Word) : List Pages :=
  (ctxPages (poke s pa (bytesN 8 entry.toNat)) c).filter (fun r => !(ctxPages s c).contains r)
@[inherit_doc gained] def lost (s : State) (c : Ctx) (pa : Nat) (entry : Word) : List Pages :=
  (ctxPages s c).filter (fun r => !(ctxPages (poke s pa (bytesN 8 entry.toNat)) c).contains r)
/-- A page passes to a context by an entry: it is new there, and another context had it last (R455). -/
def passesTo (s : State) (c : Ctx) (pa : Nat) (entry : Word) (p : Nat) : Bool := hasPage (gained s c pa entry) p && gaveUp s c.num p
/-- A write to a page that is to pass is still on its way. -/
def passWaits (s : State) (ctx pa : Nat) (entry : Word) : Bool :=
  match findCtx s ctx with
  | none => false
  | some c => writesTo s (passesTo s c pa entry)

/-- Bytes of an access, translated: each location with its key version, or a fault (type, level). -/
abbrev Locs := Except (Nat × Nat) (List (Nat × Nat))

/-- Offsets of the bytes of an access, modulo 2^64 (R228). -/
def byteOffs (off n : Nat) : List Nat := (List.range n).map (fun i => (off + i) % 2 ^ 64)
/-- Locates the bytes of an access by a lookup function, made once for each page. -/
def locate (s : State) (look : Nat → Lk) (off n acc : Nat) : Locs :=
  let ls := (nub ((byteOffs off n).map (· / 65536))).map (fun p => (p, look p))
  let bad := ls.findSome? (fun p => match p.2 with
    | .bad t l => some (t, l)
    | .wake => some (6, 4)
    | .ok l => leafCheck s l acc)
  match bad with
  | some b => .error b
  | none => .ok ((byteOffs off n).map (fun o => match afind ls (o / 65536) with
      | some (.ok l) => (leafLoc l o, keyVersion s (leafKey l.leaf))
      | _ => (0, 0)))
/-- Translation made at once through the tables: by engines, the front end and instruction fetch (log 13). -/
def transNow (s : State) (ctx span off n acc : Nat) : Locs :=
  match findCtx s ctx with
  | none => .error (0, 4)
  | some c => locate s (walkPage s c span) off n acc

/-- The entry of a list of entries that covers a page (R242). -/
def tlbHit (es : List TlbE) (ctx span page : Nat) : Option TlbE :=
  es.find? (fun e => e.ctx == ctx && e.span == span && e.page == page / leafPages e.level * leafPages e.level)
def tlbOf (ctx span page : Nat) (l : Leaf) : TlbE :=
  ⟨ctx, span, page / leafPages l.level * leafPages l.level, l.level, l.leaf, l.port, l.kind⟩
/-- Adds an entry to a cache of `cap` entries; which one makes room is free (R242). -/
def tlbAdd (s : State) (cap : Nat) (es : List TlbE) (e : TlbE) : List TlbE :=
  if es.contains e then es
  else if es.length < cap then es ++ [e]
  else (es.eraseIdx (Config.tlbVictim s.tick % es.length)) ++ [e]
/-- Looks pages up in a core's translation buffer; the first page that misses. -/
def tlbMiss (s : State) (core ctx span off n : Nat) : Option Nat :=
  (nub ((byteOffs off n).map (· / 65536))).find? (fun p => (tlbHit (coreOf s core).tlb ctx span p).isNone)
/-- Locates an access through the translation buffer, all its pages being there. -/
def transTlb (s : State) (core ctx span off n acc : Nat) : Locs :=
  locate s (fun p => match tlbHit (coreOf s core).tlb ctx span p with
    | some e => .ok ⟨e.leaf, e.level, e.kind, e.port⟩
    | none => .bad 1 0) off n acc
/-- Drops the entries of a context that meet a test, in every buffer and shared cache (R406, R431). -/
def tlbPurge (s : State) (p : TlbE → Bool) : State :=
  { s with
    cores := s.cores.map (fun c => (c.1, { c.2 with
      tlb := c.2.tlb.filter (fun e => !p e), etlb := c.2.etlb.filter (fun e => !p e) }))
    shared := s.shared.map (fun c => (c.1, c.2.filter (fun e => !p e))) }

/-- The walk of a page that an access waits for: the one under way on its die, or a new one (R429). -/
def walkFor (s : State) (core ctx span page : Nat) : Nat × State :=
  let d := dieOf core
  match s.walks.find? (fun w => w.ctx == ctx && w.span == span && w.page == page && w.die == d && w.eng.isNone) with
  | some w => (w.id, s)
  | none =>
    let (id, s) := fresh s
    let s := { s with walks := s.walks ++ [⟨id, ctx, span, page, d, core, false, none⟩] }
    (id, post s (if (tlbHit (aget [] s.shared d) ctx span page).isSome then .sharedTranslationHit id else .translationWalkDone id))

/-! The engines' translation (R243, R430). -/

/-- The pages of an access fill an engine's buffer of 64 entries, from the die's shared cache, or by a walk that fills both (R243, R429). -/
def engFill (s : State) (core ctx span off n : Nat) : State :=
  (nub ((byteOffs off n).map (· / 65536))).foldl (fun s p =>
    let take := fun (s : State) (e : TlbE) => modCore s core (fun k => { k with etlb := tlbAdd s 64 k.etlb e })
    if (tlbHit (coreOf s core).etlb ctx span p).isSome then s
    else match tlbHit (aget [] s.shared (dieOf core)) ctx span p with
      | some e => take s e
      | none => match (findCtx s ctx).map (fun c => walkPage s c span p) with
        | some (.ok l) =>
          let e := tlbOf ctx span p l
          take { s with shared := aset s.shared (dieOf core) (tlbAdd s 65536 (aget [] s.shared (dieOf core)) e) } e
        | _ => s) s
/-- Locates an access through an engine's buffer; a page that it does not hold is walked. -/
def engTrans (s : State) (core ctx span off n acc : Nat) : Locs :=
  match findCtx s ctx with
  | none => .error (0, 4)
  | some c => locate s (fun p => match tlbHit (coreOf s core).etlb ctx span p with
      | some e => .ok ⟨e.leaf, e.level, e.kind, e.port⟩
      | none => walkPage s c span p) off n acc
/-- A failed walk of a command or task: its span sends it to the fault service, and the command waits for the answer; it has been
declined; or the failure stands. -/
inductive EngWalk where
  | ask | held | fails
  deriving DecidableEq, Repr
def engWalk (s : State) (id ctx span page type : Nat) : EngWalk :=
  if !((findCtx s ctx).map (fun c => spanFwd s c span)).getD false || type == 0 || type == 3 || type == 6 then .fails
  else match s.walks.find? (fun w => w.eng == some id && w.ctx == ctx && w.span == span && w.page == page) with
    | none => .ask
    | some w => if w.offered then .held else .fails
/-- What an engine's access of device memory finds: its locations, nothing yet, or a fault of a type. -/
inductive EngLook where
  | ok (kv : List (Nat × Nat))
  | wait
  | bad (type : Nat)
def engLook (s : State) (id core ctx span off n acc : Nat) : EngLook × State :=
  let s := engFill s core ctx span off n
  match engTrans s core ctx span off n acc with
  | .ok kv => (.ok kv, s)
  | .error (ty, _) =>
    let page := off / 65536
    match engWalk s id ctx span page ty with
    | .fails => (.bad ty, s)
    | .held => (.wait, s)
    | .ask =>
      let (w, s) := fresh s
      (.wait, { s with walks := s.walks ++ [⟨w, ctx, span, page, dieOf core, core, true, some id⟩] })
/-- An access that is no command's or task's, by its number: it goes on, or waits for the fault service; a walk that has been declined is
forgotten as it goes on (R282, R430). -/
def askLook (s : State) (id core ctx span off n acc : Nat) : Bool × State :=
  match engLook s id core ctx span off n acc with
  | (.wait, s) => (false, s)
  | (_, s) => (true, { s with walks := s.walks.filter (fun w => !(w.eng == some id && w.ctx == ctx && w.page == off / 65536)) })
/-- The walks of a command or task that has ended. -/
def dropEng (s : State) (id : Nat) : State :=
  if s.walks.isEmpty then s else { s with walks := s.walks.filter (fun w => decide (w.eng ≠ some id)) }

/-! The bridle tree's node table and increments (R399 to R403). -/

/-- The 32 bytes of a node record (R399). -/
def nodeBytes (n : Node) : List Byte :=
  bytesN 32 (n.count * 2 ^ 192 + n.pend % 2 ^ 32 * 2 ^ 160 + n.parent * 2 ^ 144 + n.nchild * 2 ^ 128 + n.depth * 2 ^ 124
    + n.state * 2 ^ 122 + n.size * 2 ^ 88 + n.base * 2 ^ 16)
def Node.free : Node := ⟨0, 0, 0xFFFF, 0, 0, 0, 0, 0⟩
def nodeOf (c : Ctx) (n : Nat) : Node := aget Node.free c.nodes n
/-- Sets a node, and its record in device memory. -/
def setNode (s : State) (ctx n : Nat) (v : Node) : State :=
  match findCtx s ctx with
  | none => s
  | some c => poke (modCtx s ctx (fun c => { c with nodes := aset c.nodes n v })) (c.nodePa + 32 * n) (nodeBytes v)
/-- The node whose tile holds a span-0 sector (R400); an engine's increment still finds one that is leaving (R411). -/
def tileNode (c : Ctx) (leaving : Bool) (sec : Nat) : Option Nat :=
  (c.nodes.find? (fun p => (p.2.state == 1 || p.2.state == 2 || (leaving && p.2.state == 3)) && p.2.size != 0 &&
    decide (p.2.base * 1024 ≤ sec ∧ sec < (p.2.base + p.2.size) * 1024))).map (·.1)
/-- Saturating addition to a change count (R399). -/
def satCount (a b : Nat) : Nat := min (a + b) (2 ^ 64 - 1)
/-- One increment at the tile's node (R403); the roll-up is then due. -/
def bridleIncAt (s : State) (leaving : Bool) (ctx sec : Nat) : State :=
  match findCtx s ctx with
  | none => s
  | some c => match tileNode c leaving sec with
    | none => s
    | some n =>
      let v := nodeOf c n
      let s := setNode s ctx n { v with count := satCount v.count 1, pend := v.pend + 1 }
      if v.parent = 0xFFFF then s else postOnce s (.bridleRollup ctx n)
def bridleIncs (s : State) (l : List (Nat × Nat)) : State := l.foldl (fun s p => bridleIncAt s false p.1 p.2) s
/-- The span-0 sectors that the bytes of an access write, each once (R401). -/
def sectorsOf (ctx span off n : Nat) : List (Nat × Nat) :=
  if span = 0 then (nub ((byteOffs off n).map (· / 64))).map (fun x => (ctx, x)) else []

/-! Happens-before across homes (R310, R315; log 10). -/

/-- Writes that are not yet applied at their homes, among the numbers given. -/
def unapplied (s : State) (ids : List Nat) : List Nat :=
  ids.filter (fun i => s.reqs.any (fun r => r.id == i && r.stage != .applied))
/-- The narrowest scope that holds two slots: as a number, 0 thread to 4 device (R297). -/
def scopeNum : Scope → Nat
  | .thr => 0 | .trn => 1 | .core => 2 | .die => 3 | .dev => 4 | .sys => 5
def scopeOfNum : Nat → Scope
  | 0 => .thr | 1 => .trn | 2 => .core | 3 => .die | 4 => .dev | _ => .sys
def relation (core tr core' tr' : Nat) : Nat :=
  if tr = tr' then 1 else if core = core' then 2
  else if core < 224 ∧ core' < 224 ∧ dieOf core = dieOf core' then 3 else 4
/-- What a reader takes from a release of another agent: kept for its acquires at the scopes that match (R310). -/
def takeRel (core tr : Nat) (x : Slot) (wcore wtr : Nat) (rels : List Release) : Slot :=
  let n := relation wcore wtr core tr
  let new := (rels.filter (fun r => decide (n ≤ scopeNum r.sc) && !r.ids.isEmpty)).map (fun r => (⟨scopeOfNum n, r.ids⟩ : Release))
  { x with acq := x.acq ++ new.filter (fun r => !x.acq.contains r) }
/-- An acquire at a scope: what was read before now happens before (R310, R311). -/
def acquire (x : Slot) (sc : Scope) : Slot :=
  { x with hb := nub (x.hb ++ (x.acq.filter (fun r => scopeNum r.sc ≤ scopeNum sc)).flatMap (·.ids)) }
/-- Writes of a slot that are not yet applied at their homes. -/
def ownWrites (s : State) (tr slot : Nat) : List Nat :=
  (s.reqs.filter (fun r => r.tr == tr && r.slot == slot && r.stage != .applied && isWrite r)).map (·.id)
/-- A release at a scope by a slot (R301, R310): what its next write of any class then carries, one release for each scope. -/
def release (s : State) (tr slot : Nat) (x : Slot) (sc : Scope) : Slot :=
  { x with rel := ((x.rel.filter (fun r => decide (r.sc ≠ sc))).map (fun r => { r with ids := unapplied s r.ids })) ++
      [⟨sc, unapplied s (nub (ownWrites s tr slot ++ x.hb))⟩] }
/-- The releases that a write with a number carries: it comes itself before what takes them (R310, R311). -/
def relWith (id : Nat) (rels : List Release) : List Release := rels.map (fun r => { r with ids := r.ids ++ [id] })
/-- A release gives way, at the locations that are written, to what is written there. -/
def Clock.without (c : Clock) (keys : List Nat) : Option Clock :=
  let ks := c.keys.filter (fun k => !keys.contains k)
  if ks.isEmpty then none else some { c with keys := ks }
/-- A write becomes visible at locations, to a die or to all, and carries its releases; it takes the place of what stood
there, and at its home of what it showed its die before. -/
def clockPut (s : State) (core tr : Nat) (rels : List Release) (keys : List Nat) (die : Option Nat) (wr : Nat) : State :=
  let live := rels.filter (fun r => !(unapplied s r.ids).isEmpty)
  if s.clocks.isEmpty && live.isEmpty then s else
  { s with clocks := s.clocks.filterMap (fun c =>
        if (unapplied s c.rel.ids).isEmpty then none
        else if c.die == die || (die.isNone && wr != 0 && c.wr == wr) then c.without keys else some c) ++
      live.map (fun r => ⟨die, wr, keys, core, tr, r⟩) }
/-- A write that carries no release takes the place of the releases at its locations (R310). -/
def unclock (s : State) (keys : List Nat) : State :=
  if s.clocks.isEmpty then s
  else { s with clocks := s.clocks.filterMap (fun c => if c.die.isNone then c.without keys else some c) }
/-- What a slot takes when it reads locations. -/
def clockRead (s : State) (core tr : Nat) (x : Slot) (keys : List Nat) : Slot :=
  s.clocks.foldl (fun x c =>
    if overlap c.keys keys && (c.die.map (fun d => d == dieOf core)).getD true then takeRel core tr x c.core c.tr [c.rel]
    else x) x

/-! What a load is served from (R314). -/

/-- The class of a request: visible on its die before its home has applied it (R314). -/
def earlyVisible (r : Req) : Bool :=
  match r.kind, r.ord with
  | .store _, .plain | .poison, .plain => true
  | .store _, .strong sc | .poison, .strong sc | .store _, .ordered sc | .poison, .ordered sc => decide (scopeNum sc ≤ 3)
  | _, _ => false
def onWay (r : Req) : Bool := decide (r.stage = .crossing ∨ r.stage = .home)
/-- The latest queued write of a die to a location. -/
def latestQueued (s : State) (die key : Nat) : Option Req :=
  s.reqs.foldl (fun best r =>
    if earlyVisible r && onWay r && dieOf r.core == die && r.keys.contains key then
      match best with
      | some b => if b.entry < r.entry then some r else best
      | none => some r
    else best) none
/-- The byte that a store request holds for a location, read under a key version: plain only under its own (R438). -/
def reqByte (s : State) (r : Req) (key ver : Nat) : Option Byte :=
  match r.kind with
  | .store d => match (r.keys.zip (r.keyIds.zip d)).find? (fun p => p.1 == key) with
    | some p => if 2 ^ 52 ≤ key ∨ p.2.1 = ver then some p.2.2 else Config.wrongKey s.tick key
    | none => none
  | _ => none
/-- Other parts of a store that write a half-sector whole with this one, and that have not gone before it (R234). -/
def partsLeft (s : State) (r : Req) (h : Nat) (ahead : Req → Bool) : Bool :=
  s.reqs.any (fun q => q.id != r.id && q.tr == r.tr && q.grp == r.grp && q.cover.contains h && q.keys.any (fun k => k / 32 == h) &&
    !ahead q)
/-- Puts a queued write among those before it, by the order in which they entered. -/
def byEntry (r : Req) : List Req → List Req
  | [] => [r]
  | q :: l => if q.entry ≤ r.entry then q :: byEntry r l else r :: q :: l
/-- The condition of a half-sector behind the writes that a die has queued to it: what a read served from them meets (R236). -/
def dieCond (s : State) (die h : Nat) : HalfCond :=
  let q := (s.reqs.filter (fun r => earlyVisible r && onWay r && dieOf r.core == die && r.keys.any (fun k => k / 32 == h))).foldl
    (fun l r => byEntry r l) []
  q.foldl (fun c r => match r.kind with
    | .poison => .poison
    | _ => condWrite c (decide (((nub r.keys).filter (fun k => k / 32 == h)).length = 32) ||
        (r.cover.contains h && !partsLeft s r h (fun p => p.stage == .applied || (onWay p && decide (p.entry < r.entry))))))
    (aget .clean s.mcond h)
/-- Reads locations as a load of a die at die scope or narrower does. -/
def readDie (s : State) (die : Nat) (kv : List (Nat × Nat)) : Rd :=
  match worst (kv.map (fun p => condRead (dieCond s die (p.1 / 32)))) with
  | 1 => .bad 0
  | 2 => .bad 1
  | _ => match allSome (kv.map (fun p => match latestQueued s die p.1 with
      | some r => reqByte s r p.1 p.2
      | none => rawByte s p.1 p.2)) with
    | some bs => .ok bs
    | none => .bad 1
/-- A crossing is held (R320). -/
def heldPair (s : State) (a b : Nat) : Bool :=
  decide (a < 4 ∧ b < 4 ∧ a ≠ b) && s.hold.pairs.getLsbD (4 * a + b) && decide (s.now < s.hold.until_)
/-- Nothing stands in the queue of a crossing. -/
def xingEmpty (s : State) (a b : Nat) : Bool := s.xings.all (fun p => p.1 != (a, b) || p.2.isEmpty)
/-- A write of the I/O die, by the host, a peer or a prologue unit, to some of the locations is queued: a read at system scope comes after
it (R314, R436). -/
def ioBehind (s : State) (keys : List Nat) : Bool := s.reqs.any (fun r => isWrite r && onWay r && dieOf r.core == 4 && overlap r.keys keys)
/-- Nothing is queued from the I/O die: a write of the front end goes behind what is (R303, R319). -/
def ioClear (s : State) : Bool :=
  !s.reqs.any (fun r => isWrite r && onWay r && dieOf r.core == 4) && s.xings.all (fun p => p.1.1 != 4 || p.2.isEmpty)
/-- An engine of a die may apply a write at its home now: the crossing is not held and holds nothing before it (R319, R320). -/
def engineMay (s : State) (die : Nat) (keys : List Nat) : Bool :=
  keys.all (fun k => homeDie k == die || (!heldPair s die (homeDie k) && xingEmpty s die (homeDie k))) &&
  !(s.reqs.any (fun r => isWrite r && onWay r && dieOf r.core == die && overlap r.keys keys))

end Sys2Proof.Machine
end

