-- ==== Sys2Proof/Machine/Store.lean ====
section
/-! DEFINITION. The operand store: team scratch with its allocations, presence, retention and conditions, and the barrier
objects (spec/01, spec/09). -/

namespace Sys2Proof.Machine

/-! Capacity and allocations (R218, R219, R383). -/

/-- Bytes of store that a team holds: its trains' registers and its allocations (R218); those of a killed team until it is freed
(R214). -/
def teamHeld (s : State) (tm : Team) : Nat :=
  sumN ((teamTrains s tm.id).map (fun t => t.A * 256)) + sumN (tm.ghosts.map (fun g => g.2 * 256)) + sumN (tm.allocs.map (·.size))
/-- A team stands on a core: its store is taken there, also while it leaves or comes back. -/
def onCore (tm : Team) (core : Nat) : Bool :=
  tm.core == core && tm.life != .spilled && tm.life != .dying false
/-- Free bytes of a core's store: what no team holds, freed ranges that commands still use included as held (R221). -/
def coreFree (s : State) (core : Nat) : Nat :=
  oscap (coreOf s core) -
    sumN ((s.teams.filter (fun tm => onCore tm core)).map (fun tm => teamHeld s tm + sumN (tm.draining.map (·.size))))
def inAlloc (a : Alloc) (off : Nat) : Bool := decide (a.base ≤ off ∧ off < a.base + a.size)
/-- The live allocation of a kind that holds an offset (R228). -/
def allocAt (tm : Team) (k : AllocKind) (off : Nat) : Option Alloc := tm.allocs.find? (fun a => a.kind == k && inAlloc a off)
/-- Every byte of a range lies in live scratch (R228). -/
def inScratch (tm : Team) (off n : Nat) : Bool := (List.range n).all (fun i => (allocAt tm .scr (off + i)).isSome)
/-- The same for a command: ranges freed after its issue still count (R221). A draining entry's number is the next name
at its free. -/
def inScratchFor (tm : Team) (id off n : Nat) : Bool :=
  (List.range n).all (fun i => (allocAt tm .scr (off + i)).isSome ||
    tm.draining.any (fun a => a.kind == .scr && decide (id < a.num) && inAlloc a (off + i)))
/-- The range [off, off + n) in blocks of 64 bytes lies in scratch: by its line ends (allocations are 256-byte units). -/
def linesIn (tm : Team) (id off n : Nat) : Bool :=
  (List.range ((off + n + 63) / 64 - off / 64)).all (fun i =>
    inScratchFor tm id (if i = 0 then off else 64 * (off / 64 + i)) 1)

/-! Retention (R223, R224). -/

def retainUnit : Retain → Option (Nat × Bool)
  | .keep => none
  | .lapse l => some (150 * 4 ^ l.val, false)
  | .strict l => some (150 * 4 ^ l.val, true)
/-- Allocation of any kind at an offset, for its class. -/
def anyAlloc (tm : Team) (off : Nat) : Option Alloc :=
  match tm.allocs.find? (fun a => inAlloc a off) with
  | some a => some a
  | none => tm.draining.find? (fun a => inAlloc a off)
/-- A granule stands expired: none, or some strict (R224). -/
def expired (now : Nat) (tm : Team) (g : Nat) : Option Bool :=
  match anyAlloc tm (256 * g) with
  | none => none
  | some a => match retainUnit a.ret with
    | none => none
    | some (u, strict) =>
      if tm.marked.contains g || decide (64 ≤ now / u - aget a.granted tm.wrote g / u) then some strict else none

/-- Bank of a scratch line, by the keyed hash (R31). -/
def bankOf (c : Core) (oskey : BitVec 32) (off : Nat) : Nat :=
  let live := (List.range 2048).filter (fun b => !c.dead.contains b)
  let x := (off / 64 ^^^ oskey.toNat) % 2 ^ 32
  let h := x * 0xB5A34C2F % 2 ^ 32
  let h := h ^^^ (h >>> 15)
  live.getD (h * live.length / 2 ^ 32) 0
/-- Unit code of a bank of a core, for records of corrected errors. -/
def bankUnit (core b : Nat) : Nat := 4096 + core * 4096 + b
/-- The number by which a unit's errors are counted; a bank's is that of its corrected errors. -/
def unitNum : HwUnit → Nat
  | .bank c n => bankUnit c n
  | .bus c g => 2 ^ 21 + 32 * c + g
  | .lane c i => 2 ^ 22 + 32 * c + i
  | .engine c e => 2 ^ 23 + 4 * c + e
  | .copy c => 2 ^ 24 + c
  | .link p => 2 ^ 25 + p
/-- The core of a unit, 0xFF for a link. -/
def unitCore : HwUnit → Nat
  | .bank c _ | .bus c _ | .lane c _ | .engine c _ | .copy c => c
  | .link _ => 0xFF
/-- The unit field of a record (R446). -/
def unitField : HwUnit → Nat
  | .bank _ n => n | .bus _ g => g | .lane _ i => i | .engine _ e => e | .copy _ => 0 | .link p => p
/-- An error of a unit is counted and its self-test is due within 10 ms (R450). -/
def unitError (s : State) (core unit : Nat) (u : HwUnit) : State :=
  postOnce (modCore s core (fun c => { c with errors := c.errors ++ [(unit, s.now)] })) (.selfTest u)
/-- Records of a half-sector of scratch that is read (R444, R446). -/
def noteScr (s : State) (tm : Team) (h : Nat) : State :=
  let b := bankOf (coreOf s tm.core) ((findCtx s tm.ctx).map (·.oskey) |>.getD 0#32) (32 * h)
  let e : ErrRec := { errRec 1 1 tm.core tm.ctx with unit := b }
  match aget HalfCond.clean tm.scond h with
  | .clean => s
  | .single _ => unitError (corrected s (bankUnit tm.core b) e) tm.core (bankUnit tm.core b) (.bank tm.core b)
  | .poison => addErr s { e with kind := 3, cause := 128 }
  | .poisonSingle _ =>
    addErr (unitError (corrected s (bankUnit tm.core b) e) tm.core (bankUnit tm.core b) (.bank tm.core b))
      { e with kind := 3, cause := 128 }
  | .bad => addErr (unitError s tm.core (bankUnit tm.core b) (.bank tm.core b)) { e with kind := 2, cause := 129 }

/-- What a scratch read finds, and whether it met an expired LAPSE granule. Detail 2 is an expired STRICT granule. -/
def scrRead (now : Nat) (tm : Team) (off n : Nat) : Rd × Bool :=
  let offs := (List.range n).map (fun i => off + i)
  let ex := offs.map (fun o => expired now tm (o / 256))
  let conds := (offs.zip ex).map (fun p => if p.2.isSome then 0 else condRead (aget .clean tm.scond (p.1 / 32)))
  let lapsed := ex.contains (some false)
  match worst conds with
  | 1 => (.bad 0, lapsed)
  | 2 => (.bad 1, lapsed)
  | _ =>
    if ex.contains (some true) then (.bad 2, lapsed)
    else (.ok ((offs.zip ex).map (fun p => if p.2.isSome then 0#8 else cget tm.scratch p.1)), lapsed)
/-- Records of a scratch read. -/
def noteScrRead (s : State) (tm : Team) (off n : Nat) : State :=
  if tm.scond.isEmpty then s
  else (nub ((List.range n).map (fun i => (off + i) / 32))).foldl (fun s h => noteScr s tm h) s

/-- A write to an expired granule zeroes it, with fresh check bits (R223). -/
def reviveGranule (now : Nat) (tm : Team) (g : Nat) : Team :=
  if (expired now tm g).isSome then
    { tm with
      scratch := cclear tm.scratch (256 * g) (256 * g + 256)
      scond := tm.scond.filter (fun p => decide (p.1 / 8 ≠ g)) }
  else tm
/-- What a write finds once it has revived the expired granules that it touches (R223). -/
def revived (now : Nat) (tm : Team) (offs : List Nat) : Team := (nub (offs.map (· / 256))).foldl (reviveGranule now) tm
/-- Writes bytes of scratch: conditions (R234), stamps (R224). -/
def scrWriteTeam (now : Nat) (tm : Team) (obs : List (Nat × Byte)) : Team :=
  let offs := nub (obs.map (·.1))
  let gs := nub (offs.map (· / 256))
  let tm := gs.foldl (reviveGranule now) tm
  let scond := (nub (offs.map (· / 32))).foldl (fun l h =>
    setCond l h (condWrite (aget HalfCond.clean l h) (decide ((offs.filter (fun k => k / 32 == h)).length = 32)))) tm.scond
  { tm with
    scratch := csetAt tm.scratch obs
    scond := scond
    wrote := gs.foldl (fun l g => aset l g now) tm.wrote
    marked := tm.marked.filter (fun g => !gs.contains g) }
/-- Records of half-sectors of scratch that a write writes in part (R444, R445, R446). -/
def noteScrPart (s : State) (tm : Team) (offs : List Nat) : State :=
  if tm.scond.isEmpty then s
  else
    let now := revived s.now tm offs
    (nub (offs.map (· / 32))).foldl (fun s h =>
      if (offs.filter (fun o => o / 32 == h)).length = 32 then s
      else match aget HalfCond.clean now.scond h with
        | .single b | .poisonSingle b => noteScr s { now with scond := [(h, .single b)] } h
        | .bad => noteScr s now h
        | _ => s) s
/-- Writes scratch and wakes the slots that watch its lines (R146). -/
def scrWrite (s : State) (team : Nat) (obs : List (Nat × Byte)) : State :=
  let s := match findTeam s team with
    | none => s
    | some tm => noteScrPart s tm (nub (obs.map (·.1)))
  wakeWatch (modTeam s team (fun tm => scrWriteTeam s.now tm obs)) (obs.map (fun p => scrKey team p.1))
/-- Marks half-sectors of scratch as poison, and wakes the slots that watch their lines (R146, R235, R261). -/
def scrPoison (s : State) (team : Nat) (hs : List Nat) : State :=
  let s := modTeam s team (fun tm =>
    let gs := nub (hs.map (· / 8))
    let tm := gs.foldl (reviveGranule s.now) tm
    { tm with
      scond := hs.foldl (fun l h => aset l h .poison) tm.scond
      wrote := gs.foldl (fun l g => aset l g s.now) tm.wrote
      marked := tm.marked.filter (fun g => !gs.contains g) })
  wakeWatch s (hs.map (fun h => scrKey team (32 * h)))

/-! Presence (R237, R238). -/

/-- Lines of a byte range. -/
def linesOf (off n : Nat) : List Nat := (List.range ((off + n + 63) / 64 - off / 64)).map (fun i => off / 64 + i)
def lineAbsent (tm : Team) (l : Nat) : Bool := !(aget [] tm.absent l).isEmpty
/-- A command may clear the line: fewer than three commands wait on it. -/
def lineRoom (tm : Team) (l : Nat) : Bool := decide ((aget [] tm.absent l).length < 3)
def clearLines (tm : Team) (id : Nat) (ls : List Nat) : Team :=
  { tm with absent := ls.foldl (fun a l =>
      if (aget [] a l).contains id then a else aset a l (aget [] a l ++ [id])) tm.absent }
/-- Slots parked on a port whose binding meets a test try again. -/
def wakePorts (s : State) (p : Train → QTarget → Bool) : State :=
  s.trains.foldl (fun s t =>
    (List.range 32).foldl (fun s i =>
      match (slotAt t i).wait with
      | .port q => match afind t.ports q with
        | some g => if p t g then postOnce s (.queuePortWake t.uid i) else s
        | none => postOnce s (.queuePortWake t.uid i)
      | _ => s) s) s
/-- A push of a command or a task looks at its lines again (R237, R246). -/
def wakePushes (s : State) (team : Nat) : State :=
  wakePorts s (fun t g => t.team == team && (g == .copyCmd || g == .tileTask))
/-- A command has landed its data in lines: those that no other command holds become present, and wake (R237). -/
def landLines (s : State) (team id : Nat) (ls : List Nat) : State :=
  match findTeam s team with
  | none => s
  | some tm =>
    let absent := ls.foldl (fun a l =>
      let r := (aget [] a l).filter (fun i => decide (i ≠ id))
      if r.isEmpty then adel a l else aset a l r) tm.absent
    let s := setTeam s { tm with absent := absent }
    let s := if ls.isEmpty then s else wakePushes s team
    ls.foldl (fun s l => if (aget [] absent l).isEmpty && lineAbsent tm l then postOnce s (.presenceWake team l) else s) s
/-- A reader numbered `id` must wait for a line: a command issued before it that cleared the line has not landed (R237). -/
def lineHolds (tm : Team) (id l : Nat) : Bool := (aget [] tm.absent l).any (fun i => decide (i < id))

/-! Barrier objects (R249 to R253). -/

/-- Object offset: 16-byte aligned and inside a barrier-object allocation (R252). -/
def isBobj (tm : Team) (off : Nat) : Bool := decide (off % 16 = 0) && (allocAt tm .bobj off).isSome
def BObj.zero : BObj := ⟨0, 0, 0, false⟩
def objOf (tm : Team) (off : Nat) : BObj := aget BObj.zero tm.bobjs off
/-- A slot that leaves bo.wait (R251): it moves on, and takes the releases of the object's arrivals (R324); where it has
ports to pop it makes the instruction again, its wait being met. -/
def wakeObj (s : State) (team off : Nat) (phase : Bool) : State :=
  { s with trains := s.trains.map (fun t =>
      if t.team = team && !t.halted then
        mapSlots t (fun _ x => match x.wait with
          | .obj o p ports =>
            if o = off ∧ phase ≠ p then
              clockRead s t.core t.uid (if ports then { waitRetry x with walked := true } else waitDone x) [scrKey team off]
            else x
          | _ => x)
      else t) }
/-- flip (R250). -/
def objFlip (s : State) (team off err : Nat) : State :=
  match findTeam s team with
  | none => s
  | some tm =>
    let o := objOf tm off
    wakeObj (setTeam s { tm with bobjs := aset tm.bobjs off ⟨0, 0, err, !o.phase⟩ }) team off (!o.phase)
/-- check (R250). -/
def objCheck (s : State) (team off : Nat) : State :=
  match findTeam s team with
  | none => s
  | some tm =>
    let o := objOf tm off
    if 0 < o.expected ∧ o.arrived = o.expected then objFlip s team off 0
    else if 0 < o.expected ∧ o.expected < o.arrived then objFlip s team off 9
    else s
/-- count, at the object or its image (R250): the sum is compared whole, and held in 32 bits; a freed object drops it (R221). -/
def objCountNow (s : State) (team off b : Nat) (tag : Bool) : State :=
  match findTeam s team with
  | none => s
  | some tm =>
    if !isBobj tm off then s
    else
      let o := objOf tm off
      if tag ≠ o.phase then s
      else if 0 < o.expected ∧ o.expected < o.arrived + b then objFlip s team off 9
      else objCheck (setTeam s { tm with bobjs := aset tm.bobjs off { o with arrived := (o.arrived + b) % 2 ^ 32 } }) team off
/-- fail (R250). -/
def objFailNow (s : State) (team off code : Nat) (tag : Bool) : State :=
  match findTeam s team with
  | none => s
  | some tm => if isBobj tm off && tag == (objOf tm off).phase then objFlip s team off code else s
/-- A team's objects stand in its spill image (R391). -/
def teamOut (tm : Team) : Bool := tm.life == .spilling || tm.life == .spilled || tm.life == .restoring
/-- A count from an engine or a SIGNAL: redirected to the image of an evicted team (R391). -/
def objCount (s : State) (team off b : Nat) (tag : Bool) : State :=
  match findTeam s team with
  | none => s
  | some tm => if teamOut tm then post s (.redirectCount team off b tag 0) else objCountNow s team off b tag
def objFail (s : State) (team off code : Nat) (tag : Bool) : State :=
  match findTeam s team with
  | none => s
  | some tm => if teamOut tm then post s (.redirectCount team off 0 tag code) else objFailNow s team off code tag

end Sys2Proof.Machine
end

