-- ==== Sys2Proof/Machine/Tree.lean ====
section
/-! DEFINITION. The bridle tree: the forest of nodes, its checks, its structural changes and its roll-up (spec/20 R398 to
R411). -/

namespace Sys2Proof.Machine

/-! The forest (R400). -/

/-- Number that stands for no node. -/
def noNode : Nat := 0xFFFF
/-- A node is in use, and not leaving: a moving node still holds its place (log 28). -/
def nodeLive (c : Ctx) (n : Nat) : Bool := (nodeOf c n).state == 1 || (nodeOf c n).state == 2
/-- The chain of a node: itself, then its ancestors; depth is at most 15. -/
def chainFrom (c : Ctx) : Nat → Nat → List Nat
  | 0, _ => []
  | fuel + 1, n => if n = noNode then [] else n :: chainFrom c fuel (nodeOf c n).parent
def chainOf (c : Ctx) (n : Nat) : List Nat := chainFrom c 17 n
/-- A node lies in the subtree of another. -/
def inSubtree (c : Ctx) (x n : Nat) : Bool := (chainOf c n).contains x
/-- The nodes of a subtree, the root of it included. -/
def subtree (c : Ctx) (x : Nat) : List Nat := ((c.nodes.filter (fun p => p.2.state != 0)).map (·.1)).filter (inSubtree c x)
/-- Levels below a node. -/
def height (c : Ctx) (x : Nat) : Nat :=
  (subtree c x).foldl (fun h n => max h ((nodeOf c n).depth - (nodeOf c x).depth)) 0
/-- A chain bump (R404). -/
def bump1 (s : State) (ctx : Nat) (ns : List Nat) : State :=
  ns.foldl (fun s n => match findCtx s ctx with
    | none => s
    | some c => setNode s ctx n { nodeOf c n with count := satCount (nodeOf c n).count 1 }) s
/-- roll(m), whatever its state (R403). -/
def rollNode (s : State) (ctx m : Nat) : State :=
  match findCtx s ctx with
  | none => s
  | some c =>
    let v := nodeOf c m
    if v.pend = 0 ∨ v.parent = noNode then s
    else
      let p := nodeOf c v.parent
      let s := setNode (setNode s ctx m { v with pend := 0 }) ctx v.parent
        { p with count := satCount p.count v.pend, pend := p.pend + v.pend }
      if p.parent = noNode then s else postOnce s (.bridleRollup ctx v.parent)
/-- Nodes of a list, deepest first. -/
def deepFirst (c : Ctx) (ns : List Nat) : List Nat :=
  ((List.range 16).reverse).flatMap (fun d => ns.filter (fun n => decide ((nodeOf c n).depth = d)))
/-- Rolls the increments of a subtree up to its root, and out of it when `out` is set. -/
def drainTree (s : State) (ctx x : Nat) (out : Bool) : State :=
  match findCtx s ctx with
  | none => s
  | some c => (deepFirst c (subtree c x)).foldl (fun s n => if n = x ∧ out = false then s else rollNode s ctx n) s

/-! Tiles (R400, R406). -/

/-- Where the leaf of a page stands, and the leaf. -/
def leafAt (s : State) (kind page : Nat) : List Nat → Nat → Option (Nat × Nat × Nat)
  | [], _ => none
  | lv :: rest, tbl =>
    let a := tbl + 8 * (page / leafPages lv % 4096)
    let e := peekN s a 8
    if bitsN e 0 1 = 0 then none
    else if bitsN e 1 1 = 1 then some (a, lv, e)
    else leafAt s kind page rest (bitsN e 16 36 * 65536)
def leafOfPage (s : State) (c : Ctx) (page : Nat) : Option (Nat × Nat × Nat) :=
  match walkPage s c 0 page with
  | .ok _ => leafAt s 1 page [0, 1, 2, 3] (bitsN (spanEntry s c 0) 80 36 * 65536)
  | _ => none
/-- Addresses of the leaves that map a range of pages; none when a page is unmapped or a leaf is cut. -/
def tileLeaves (s : State) (c : Ctx) (lo hi : Nat) : Nat → Nat → Option (List (Nat × Nat))
  | 0, _ => some []
  | fuel + 1, p =>
    if hi ≤ p then some []
    else match leafOfPage s c p with
      | none => none
      | some (a, lv, e) =>
        let start := p / leafPages lv * leafPages lv
        if start < lo ∨ hi < start + leafPages lv then none
        else (tileLeaves s c lo hi fuel (start + leafPages lv)).map (fun l => (a, e) :: l)
def tileOf (s : State) (c : Ctx) (lo units : Nat) : Option (List (Nat × Nat)) := tileLeaves s c lo (lo + units) (units + 1) lo
/-- Sets or clears the enrolled bit of the leaves of a tile, and invalidates its pages (R406, R407). -/
def setEnrolled (s : State) (ctx lo units : Nat) (on : Bool) : State :=
  match findCtx s ctx with
  | none => s
  | some c =>
    let ls := (tileOf s c lo units).getD []
    let s := ls.foldl (fun s l =>
      poke s l.1 (bytesN 8 (if on then (if bitsN l.2 5 1 = 1 then l.2 else l.2 + 32) else (if bitsN l.2 5 1 = 1 then l.2 - 32 else l.2)))) s
    tlbPurge s (fun e => e.ctx == ctx && e.span == 0 && decide (lo < e.page + leafPages e.level ∧ e.page < lo + units))

/-! Checks (R406 to R409): a detail of class 8. -/

def enrollFault (s : State) (c : Ctx) (va : Addr) (v : Word) : Option Nat :=
  let par := fld v 0 16
  let units := fld v 24 25
  if par ≠ noNode ∧ nodeLive c par = false then some 0
  else if par ≠ noNode ∧ 15 ≤ (nodeOf c par).depth then some 3
  else if units = 0 then none
  else if (aSpan va).toNat ≠ 0 ∨ (aOff va).toNat % 65536 ≠ 0 then some 1
  else match tileOf s c ((aOff va).toNat / 65536) units with
    | none => some 2
    | some ls => if ls.any (fun l => bitsN l.2 5 1 == 1) then some 2 else none
def unenrollFault (c : Ctx) (n : Nat) : Option Nat :=
  if !nodeLive c n then some 0 else if (nodeOf c n).nchild ≠ 0 then some 5 else none
def reparentFault (c : Ctx) (x p : Nat) : Option Nat :=
  if nodeLive c x = false ∨ (p ≠ noNode ∧ nodeLive c p = false) then some 0
  else if p ≠ noNode ∧ inSubtree c x p = true then some 4
  else if p ≠ noNode ∧ 15 < (nodeOf c p).depth + 1 + height c x then some 3
  else none
/-- The fault that a bt request would meet now. -/
def btFault (s : State) (ctx : Nat) (op : BtOp) : Option Nat :=
  match findCtx s ctx with
  | none => some 7
  | some c => match op with
    | .enroll va v => enrollFault s c va v
    | .unenroll n => unenrollFault c n
    | .reparent n p => reparentFault c n (fld p 0 16)
    | .settle n | .read n | .cmp n _ => if nodeLive c n then none else some 0

/-! Changes. -/

/-- The lowest free node number. -/
def freeNode (c : Ctx) : Option Nat :=
  -- a free number is at most the number of nodes in use
  (List.range (min c.nmax (c.nodes.length + 1))).find? (fun n => decide ((nodeOf c n).state = 0))
/-- Enrolls: the number of the node, or all ones (R406). -/
def doEnroll (s : State) (ctx : Nat) (va : Addr) (v : Word) : State × Word :=
  match findCtx s ctx with
  | none => (s, 0#64)
  | some c => match freeNode c with
    | none => (s, 0xFFFFFFFFFFFFFFFF#64)
    | some n =>
      let par := fld v 0 16
      let units := fld v 24 25
      let dp := if par = noNode then 0 else (nodeOf c par).depth + 1
      let base := if units = 0 then 0 else (aOff va).toNat / 65536
      let s := setNode s ctx n ⟨0, 0, par, 0, dp, 1, units, base⟩
      let s := if par = noNode then s else
        bump1 (setNode s ctx par { nodeOf c par with nchild := (nodeOf c par).nchild + 1 }) ctx (chainOf c par)
      (if units = 0 then s else setEnrolled s ctx base units true, BitVec.ofNat 64 n)
/-- The first part of an unenroll or a reparent: the state of the node, and for an unenroll its pages. -/
def beginChange (s : State) (ctx n state : Nat) : State :=
  match findCtx s ctx with
  | none => s
  | some c =>
    let v := nodeOf c n
    let s := setNode s ctx n { v with state := state }
    if state = 3 ∧ v.size ≠ 0 then setEnrolled s ctx v.base v.size false else s
/-- The rest of an unenroll (R407). -/
def endUnenroll (s : State) (ctx n : Nat) : State :=
  let s := rollNode s ctx n
  match findCtx s ctx with
  | none => s
  | some c =>
    let par := (nodeOf c n).parent
    let s := if par = noNode then s else
      bump1 (setNode s ctx par { nodeOf c par with nchild := (nodeOf c par).nchild - 1 }) ctx (chainOf c par)
    setNode s ctx n Node.free
/-- The rest of a reparent: the drain point, and the new place (R408). -/
def endReparent (s : State) (ctx x p : Nat) : State :=
  let s := drainTree s ctx x true
  match findCtx s ctx with
  | none => s
  | some c =>
    let v := nodeOf c x
    let sub := subtree c x
    let old := if v.parent = noNode then [] else chainOf c v.parent
    let new := if p = noNode then [] else chainOf c p
    let dp := if p = noNode then 0 else (nodeOf c p).depth + 1
    let s := sub.foldl (fun s n =>
      let w := nodeOf c n
      setNode s ctx n { w with depth := w.depth - v.depth + dp }) s
    let s := match findCtx s ctx with
      | some c => setNode s ctx x { nodeOf c x with parent := p, pend := if v.parent = noNode then 0 else (nodeOf c x).pend, state := 1 }
      | none => s
    let adj := fun (s : State) (n : Nat) (f : Nat → Nat) => match findCtx s ctx with
      | some c => setNode s ctx n { nodeOf c n with nchild := f (nodeOf c n).nchild }
      | none => s
    let s := if v.parent = noNode then s else adj s v.parent (· - 1)
    let s := if p = noNode then s else adj s p (· + 1)
    bump1 s ctx (nub (old ++ new))

end Sys2Proof.Machine
end

