-- ==== Sys2Proof/Machine/Teams.lean ====
section
/-! DEFINITION. Trains and teams as they end: named barriers, retirement, killing, launches and stage queues (spec/08,
spec/17, spec/19), and the packet exception of a queue (R371). -/

namespace Sys2Proof.Machine

/-! Named barriers (R196, R197). -/

def NBar.start : NBar := ⟨false, 0, none⟩
def barOf (tm : Team) (h : Nat) : NBar := aget NBar.start tm.bars h
/-- Trains of the team that have not retired. -/
def trainsLeft (s : State) (team : Nat) : Nat := (teamTrains s team).length
/-- The phase of a train's last arrival has completed, or it never arrived (R197). -/
def barPassed (t : Train) (h : Nat) : Bool :=
  match afind t.lastBar h with
  | none => true
  | some (_, dn) => dn
/-- A slot leaves a barrier wait: an acquire at core scope (R200, R309). -/
def leaveBar (s : State) (t : Train) (h : Nat) (x : Slot) : Slot :=
  acquire (clockRead s t.core t.uid (waitDone x) [barKey t.team h]) .core
/-- complete(h): the phase ends, every arrival on it is marked, and its waiters wake (R197). -/
def barComplete (s : State) (team h : Nat) : State :=
  match findTeam s team with
  | none => s
  | some tm =>
    let b := barOf tm h
    let s := setTeam s { tm with bars := aset tm.bars h ⟨!b.phase, 0, none⟩ }
    { s with trains := s.trains.map (fun t =>
        if t.team = team then
          let t := match afind t.lastBar h with
            | some (p, false) => if p = b.phase then { t with lastBar := aset t.lastBar h (p, true) } else t
            | _ => t
          if t.halted then t
          else mapSlots t (fun _ x => match x.wait with
            | .barrier h' p => if h' = h ∧ p = b.phase then leaveBar s t h x else x
            | _ => x)
        else t) }
/-- need(h), for an expected count (0 for the team). -/
def barNeed (s : State) (team c : Nat) : Nat := if c = 0 then trainsLeft s team else c
/-- A retiring train re-evaluates the phases that wait for the team (R199). -/
def barRecheck (s : State) (team : Nat) : State :=
  match findTeam s team with
  | none => s
  | some tm => (tm.bars.map (·.1)).foldl (fun s h =>
      match findTeam s team with
      | none => s
      | some tm =>
        let b := barOf tm h
        if b.expected = some 0 ∧ 0 < b.arrived ∧ trainsLeft s team ≤ b.arrived then barComplete s team h else s) s

/-! Ports (R68, R208, R244, R246). -/

/-- The launch and stage of a train. -/
def stageOf (s : State) (t : Train) : Nat × Nat :=
  match findTeam s t.team with
  | some tm => (tm.launch, tm.stage)
  | none => (0, 0)
/-- The stage queue that a binding names: stage input is queue s - 1, stage output queue s (R244). -/
def queueIdx (s : State) (t : Train) (g : QTarget) : Option (Nat × Nat) :=
  match g with
  | .stageIn => some ((stageOf s t).1, (stageOf s t).2 - 1)
  | .stageOut => some (stageOf s t)
  | _ => none
/-- Wakes the slots parked on a stage queue. -/
def wakeStage (s : State) (launch q : Nat) : State := wakePorts s (fun t g => queueIdx s t g == some (launch, q))

/-! Launches (R208, R360). -/

/-- A team of a stage has retired or been killed: the stage's queue may close, the launch may complete. -/
def launchTeamGone (s : State) (tm : Team) : State :=
  match findLaunch s tm.launch with
  | none => s
  | some l =>
    let l := { l with retired := lmod l.retired tm.stage (· + 1) }
    let stageDone := decide (l.counts.getD tm.stage 0 ≤ l.retired.getD tm.stage 0)
    let l := if stageDone && decide (tm.stage < l.queues.length) then
      { l with queues := lmod l.queues tm.stage (fun q => { q with closed := true }) } else l
    let s := modLaunch s l.id (fun _ => l)
    let s := if stageDone then wakeStage s l.id tm.stage else s
    if (List.range l.stages.length).all (fun i => decide (l.counts.getD i 0 ≤ l.retired.getD i 0))
    then postOnce s (.launchComplete l.id) else s
/-- Dispatchers look again after a change to a column (R386). -/
def reconsider (s : State) : State := [0, 1, 2, 3].foldl (fun s d => postOnce s (.admissionDecision d)) s

/-! Engine work of a team. -/

def teamCmds (s : State) (team : Nat) : List Cmd := s.cmds.filter (fun c => c.team == team)
def teamTasks (s : State) (team : Nat) : List Task := s.tasks.filter (fun c => c.team == team)
/-- Word 0 of a record takes a state and an error code, at its home (R281). `loc` is as R254 gives. -/
def recordPut (s : State) (team : Nat) (ctx : Nat) (loc : Word) (f : Nat → Nat) : State :=
  let off := fld loc 0 63
  if loc.getLsbD 63 then
    match findTeam s team with
    | none => s
    | some tm => scrWrite s team (((bytesN 8 (f (leN (cgetAll tm.scratch off 8)))).zipIdx).map (fun p => (off + p.2, p.1)))
  else
    match transNow s ctx 0 off 8 accAtomic with
    | .error _ => s
    | .ok kv => match readHome s kv with
      | .bad _ => s
      | .ok bs => bridleIncs (writeHome (unclock s (kv.map (·.1))) (.front ctx) ((kv.map (·.1)).zip (bytesN 8 (f (leN bs)))) ((kv.map (·.2)).headD 0)) (sectorsOf ctx 0 off 8)
/-- Word 0 with a state and an error code set (R277, R281): its reserved bits stand. -/
def recState (w st err : Nat) : Nat :=
  w % 2 ^ 16 + st * 2 ^ 16 + bitsN w 19 5 * 2 ^ 19 + err * 2 ^ 24 + bitsN w 32 32 * 2 ^ 32
/-- Increments of the sectors that a command or task wrote, each once (R401, R402). -/
def sectIncs (s : State) (team : Nat) (l : List Nat) : State :=
  match findTeam s team with
  | none => s
  | some tm => (nub l).foldl (fun s x => bridleIncAt s true tm.ctx x) s
/-- Commands of the partners in rotations that a retired team has not joined fail with code 14 (R258). -/
def ringOrphans (s : State) (tm : Team) : State :=
  match tm.form with
  | none => s
  | some f =>
    (s.cmds.filter (fun c => c.fn == .ring && c.stage == .running && decide (tm.rings ≤ c.rot) &&
        (match findTeam s c.team with
          | some o => o.form == some f
          | none => false))).foldl
      (fun s c => postOnce s (.commandFail c.id 14)) s

/-- Context of a train. -/
def ctxOf (s : State) (t : Train) : Nat :=
  match findTeam s t.team with
  | some tm => tm.ctx
  | none => match t.prol with
    | some p => ((findQ s p.1).map (·.ctx)).getD 0xFF
    | none => 0xFF
/-- Settles and compares of a node that has been unenrolled trap as they end (R409). -/
def voidSettles (s : State) (ctx n : Nat) : State :=
  { s with reqs := s.reqs.map (fun q => match q.kind with
      | .bt (.settle m) => if m = n ∧ q.ctx = ctx ∧ q.replied = false then { q with flt := 256 } else q
      | .bt (.cmp m _) => if m = n ∧ q.ctx = ctx ∧ q.replied = false then { q with flt := 256 } else q
      | _ => q) }
/-- A change of the forest, which the end of its train does not withdraw (R140, R405). -/
def isChange (r : Req) : Bool :=
  match r.kind with
  | .bt (.enroll _ _) | .bt (.unenroll _) | .bt (.reparent _ _) => true
  | _ => false
/-- Changes that trains of a team have asked for and that are still to be made. -/
def changesOf (s : State) (team : Nat) : List Req :=
  s.reqs.filter (fun r => isChange r && s.trains.any (fun t => t.uid == r.tr && t.team == team && t.prol.isNone))
/-- Ends a change that has begun. -/
def endChange (s : State) (ctx : Nat) (r : Req) : State :=
  if r.entry ≠ 1 then s
  else match r.kind with
    | .bt (.unenroll n) => voidSettles (endUnenroll s ctx n) ctx n
    | .bt (.reparent n p) => endReparent s ctx n (fld p 0 16)
    | _ => s

/-- Removes the trains of a team with their loads and bt requests, a change that has begun being ended; stores on their way
land (R140, R214). -/
def dropTrains (s : State) (team : Nat) : State :=
  let ids := (s.trains.filter (fun t => t.team == team && t.prol.isNone)).map (·.uid)
  let s := (changesOf s team).foldl (fun s r => endChange s r.ctx r) s
  { s with
    trains := s.trains.filter (fun t => !(t.team == team && t.prol.isNone))
    reqs := s.reqs.filter (fun r => !(ids.contains r.tr && (match r.kind with
      | .load _ _ _ => true
      | .bt _ => true
      | _ => false))) }

/-- A context that is being torn down goes once nothing of it is left: its tables, what was translated through them, and the keys that
its owner loaded (R4, R394). Its pages are nobody's then (R455). -/
def closeCtx (s : State) (ctx : Nat) : State :=
  if (((findCtx s ctx).map (·.closing)).getD false) && !s.teams.any (fun tm => tm.ctx == ctx) && !s.queues.any (fun q => q.ctx == ctx) then
    let mine := fun (slot : Nat) => afind s.keyCtx slot == some ctx
    let s := setOwned (tlbPurge s (fun e => e.ctx == ctx || mine (leafKey e.leaf))) (((findCtx s ctx).map (ctxPages s)).getD []) 128
    { s with
      owned := s.owned.map (fun o => if o.ctx = ctx then { o with ctx := 128 } else o)
      keys := s.keys.filter (fun k => !mine k.1)
      keyCtx := s.keyCtx.filter (fun k => decide (k.2 ≠ ctx))
      walks := s.walks.filter (fun w => decide (w.ctx ≠ ctx))
      ctxs := s.ctxs.filter (fun c => decide (c.num ≠ ctx)) }
  else s
/-- Everything of a team is free (R213, R214). -/
def freeTeam (s : State) (tm : Team) : State :=
  let s := { s with
    trains := s.trains.filter (fun t => !(t.team == tm.id && t.prol.isNone))
    teams := (s.teams.filter (fun x => decide (x.id ≠ tm.id))).map (fun x => { x with yieldFor := x.yieldFor.filter (· != tm.id) })
    heldDecs := s.heldDecs.filter (fun h => decide (h.team ≠ tm.id))
    redirects := s.redirects.filter (fun p => decide (p.team ≠ tm.id)) }
  closeCtx (reconsider (launchTeamGone s tm)) tm.ctx
/-- A command has started: a rotation that has not is still to be discarded or spilled (R214, R258, R390). -/
def cmdStarted (c : Cmd) : Bool := c.stage == .running && !(c.fn == .ring && c.pos == 0)
/-- The tasks of a killed team (R293): those that have not started are discarded with state 5 and err 37; a running one stops, and
the units that it has sent still land. -/
def killTasks (s : State) (tm : Team) : State :=
  let s := (teamTasks s tm.id).foldl (fun s k =>
    if k.stage = .running then sectIncs s tm.id k.sects
    else landLines (recordPut s tm.id tm.ctx k.loc (fun w => recState w 5 37)) tm.id k.id k.lines) s
  { s with tasks := s.tasks.filterMap (fun k =>
      if k.team ≠ tm.id then some k
      else if k.stage = .running ∧ k.units ≠ [] then some { k with tile := 2 ^ 24, sects := [] } else none) }
/-- Kills a team: its work that has not started is discarded; what has started ends, and everything of the team is then freed at
once (R214, R293). -/
def killTeam (s : State) (team : Nat) : State :=
  match findTeam s team with
  | none => s
  | some tm =>
    let s := killTasks s tm
    let gone := (teamCmds s team).filter (fun c => !cmdStarted c)
    let s := gone.foldl (fun s c => landLines s team c.id c.lines) s
    let s := { s with
      cmds := s.cmds.filter (fun c => decide (c.team ≠ team) || cmdStarted c)
      heldDecs := s.heldDecs.filter (fun h => decide (h.team ≠ team)) }
    let ghosts := (teamTrains s team).map (fun t => (t.resident, t.A))
    let s := ringOrphans (dropTrains s team) tm
    let s := postOnce (postOnce s (.taskStart tm.core)) (.copyStart tm.core)
    if (teamCmds s team).isEmpty && (teamTasks s team).isEmpty then freeTeam s tm
    else postOnce (modTeam s team (fun tm => { tm with life := .dying (onCore tm tm.core), ghosts := ghosts })) (.teamRetire team)

/-- A slot of a retired train: exited, or the helper or absent slot that it was (R182). -/
def goneSlot (x : Slot) : Slot :=
  if x.st = .helper ∨ x.st = .absent then { Slot.blank with st := x.st } else { Slot.blank with st := .exited }
/-- A train retires: what it waits to read is dropped, its registers and slot are free, barriers are looked at again, and the
team may end (R199, R212). -/
def retireTrain (s : State) (uid : Nat) : State :=
  match findTrain s uid with
  | none => s
  | some t =>
    let s := modTrain s uid (fun t => { t with retired := true, A := 0, k := [], slots := t.slots.map goneSlot })
    let s := { s with reqs := s.reqs.filterMap (fun r =>
      if r.tr ≠ uid then some r
      else if isChange r then some { r with dst := .none }
      else match r.kind with
        | .load _ _ _ | .bt _ => none
        | _ => some r) }
    let s := barRecheck s t.team
    let s := if trainsLeft s t.team = 0 then postOnce s (.teamRetire t.team) else s
    reconsider s
/-- After slots have exited: the train retires once none is left (R212). -/
def afterExit (s : State) (uid : Nat) : State :=
  match findTrain s uid with
  | none => s
  | some t => if t.slots.any slotLive then s else retireTrain s uid

/-! Packet exceptions (R371) and traps of the prologue unit (R368, R369). -/

/-- A packet exception stops its queue at the packet. -/
def packetFault (s : State) (slot code : Nat) (cause : Nat) : State :=
  match findQ s slot with
  | none => s
  | some q =>
    let s := modQ s slot (fun q => { q with state := 3, fault := code, busy := false, watch := none })
    let s := { s with trains := s.trains.filter (fun t => match t.prol with
      | some p => decide (p.1 ≠ slot)
      | none => true) }
    let s := addErr s { errRec 4 1 0xFF q.ctx with code := code, cause := cause }
    if q.frozen then post s (.packetWindowFetch slot) else s

/-- The train belongs to a debug context (R425). -/
def debugTrain (s : State) (t : Train) : Bool := ((findCtx s (ctxOf s t)).map (·.budget.debug)).getD false

end Sys2Proof.Machine
end

