-- ==== Sys2Proof/Machine/Cmds.lean ====
section
/-! DEFINITION. Engine commands and tile-task records as data, and their issue: descriptors, checks, tags, presence and
queues (spec/09 R254 to R258, spec/11 R275 to R286). -/

namespace Sys2Proof.Machine

/-! Descriptors. -/

/-- A copy or fill (R255), once well formed. -/
structure CopyD where
  post   : Bool
  dscr   : Bool
  sscr   : Bool
  e      : Nat
  src    : Nat
  dst    : Nat
  dspan  : Nat
  sspan  : Nat
  sizes  : List Nat
  ss     : List Nat
  ds     : List Nat
  deriving DecidableEq, Repr

/-- The fields of a copy or fill descriptor, well formed or not. -/
def copyRaw (fill : Bool) (bs : List Byte) : CopyD :=
  let f := fun lo len => bitsN (leN bs) lo len
  let nd := f 0 3 + 1
  ⟨f 10 1 == 1, f 9 1 == 1, !fill && f 8 1 == 1, 2 ^ f 4 3, f 64 64, f 128 64, f 208 16, f 192 16,
    (List.range nd).map (fun k => f (256 + 32 * k) 32), (List.range nd).map (fun k => f (512 + 64 * k) 64),
    (List.range nd).map (fun k => f (1024 + 64 * k) 64)⟩
/-- Reads a copy or fill descriptor; none when it is malformed (code 6). -/
def copyD (fill : Bool) (bs : List Byte) : Option CopyD :=
  let n := leN bs
  let f := fun lo len => bitsN n lo len
  let nd := f 0 3 + 1
  let sizes := (List.range 8).map (fun k => f (256 + 32 * k) 32)
  let ss := (List.range 8).map (fun k => f (512 + 64 * k) 64)
  let ds := (List.range 8).map (fun k => f (1024 + 64 * k) 64)
  let sscr := !fill && f 8 1 == 1
  let bad := f 11 53 ≠ 0 ∨ f 7 1 ≠ 0 ∨ f 3 1 ≠ 0 ∨ 4 < f 4 3 ∨ f 224 32 ≠ 0 ∨ (f 9 1 = 1 ∧ f 208 16 ≠ 0) ∨
    ((sscr = true ∨ fill = true) ∧ f 192 16 ≠ 0)
  if bad ∨ (sizes.take nd).any (· == 0) ∨ (sizes.drop nd).any (· != 0) ∨ (ss.drop nd).any (· != 0) ∨
      (ds.drop nd).any (· != 0) then none
  else some (copyRaw fill bs)
def prodN (l : List Nat) : Nat := l.foldl (· * ·) 1
def CopyD.count (d : CopyD) : Nat := prodN d.sizes
def CopyD.total (d : CopyD) : Nat := d.e * d.count
/-- Offset of element `k` in index order, dimension 0 innermost, modulo 2^64 (R256). -/
def elemOff (base : Nat) : List Nat → List Nat → Nat → Nat
  | n :: ns, st :: sts, k => elemOff ((base + k % n * st) % 2 ^ 64) ns sts (k / n)
  | _, _, _ => base % 2 ^ 64
def CopyD.dstOff (d : CopyD) (k : Nat) : Nat := elemOff d.dst d.sizes d.ds k
def CopyD.srcOff (d : CopyD) (k : Nat) : Nat := elemOff d.src d.sizes d.ss k
/-- Scratch lines that the elements write. -/
def CopyD.lines (d : CopyD) : List Nat :=
  if d.dscr then nub ((List.range d.count).flatMap (fun k => linesOf (d.dstOff k) d.e)) else []

/-- pfill (R257). -/
structure PfillD where
  src   : Nat
  sspan : Nat
  dst   : Nat
  lines : Nat
  deriving DecidableEq, Repr
/-- Its fields, well formed or not. -/
def pfillRaw (bs : List Byte) : PfillD :=
  let f := fun lo len => bitsN (leN bs) lo len
  ⟨f 0 64, f 64 16, f 128 23, f 192 16 + 1⟩
def pfillD (bs : List Byte) : Option PfillD :=
  let f := fun lo len => bitsN (leN bs) lo len
  if f 0 64 % 64 ≠ 0 ∨ f 80 48 ≠ 0 ∨ f 128 23 % 64 ≠ 0 ∨ f 151 41 ≠ 0 ∨ f 208 48 ≠ 0 then none
  else some (pfillRaw bs)
def PfillD.lineList (d : PfillD) : List Nat := (List.range d.lines).map (fun i => d.dst / 64 + i)

/-- ring (R258). -/
structure RingD where
  post  : Bool
  dir   : Bool
  src   : Nat
  dst   : Nat
  bytes : Nat
  deriving DecidableEq, Repr
/-- Its fields, well formed or not. -/
def ringRaw (bs : List Byte) : RingD :=
  let f := fun lo len => bitsN (leN bs) lo len
  ⟨f 1 1 == 1, f 0 1 == 1, f 64 23, f 128 23, f 192 21⟩
def ringD (bs : List Byte) : Option RingD :=
  let f := fun lo len => bitsN (leN bs) lo len
  if f 2 62 ≠ 0 ∨ f 87 41 ≠ 0 ∨ f 64 23 % 64 ≠ 0 ∨ f 151 41 ≠ 0 ∨ f 128 23 % 64 ≠ 0 ∨ f 213 43 ≠ 0 ∨ f 192 21 % 64 ≠ 0 ∨
      f 192 21 = 0 ∨ 1048576 < f 192 21 then none
  else some (ringRaw bs)
def RingD.lineList (d : RingD) : List Nat := (List.range ((d.bytes + 63) / 64)).map (fun i => d.dst / 64 + i)

/-- mx.wld (R275). -/
structure WldD where
  post  : Bool
  sscr  : Bool
  sspan : Nat
  res   : Nat
  src   : Nat
  rows  : Nat
  rowb  : Nat
  dst   : Nat
  strd  : Nat
  succ  : Nat
  deriving DecidableEq, Repr
/-- A successor field is none or names a record (R280). -/
def succOk (x : Nat) : Bool := decide (bitsN x 46 1 = 1 ∨ x = 0)
/-- mx.wld descriptor (R275). A span other than 0 of a scratch source makes it malformed: DESIGN CHOICE (log 60). -/
def wldD (bs : List Byte) : Option WldD :=
  let f := fun lo len => bitsN (leN bs) lo len
  if f 32 32 ≠ 0 ∨ f 8 8 ≠ 0 ∨ f 185 7 ≠ 0 ∨ f 148 1 ≠ 0 ∨ f 224 32 ≠ 0 ∨ f 304 16 ≠ 0 ∨ f 320 192 ≠ 0 ∨
      (f 6 1 = 1 ∧ f 16 16 ≠ 0) ∨ succOk (f 256 48) = false then none
  else some ⟨f 7 1 == 1, f 6 1 == 1, f 16 16, f 0 6, f 64 64, f 169 16 + 1, f 149 20 + 1, f 128 20,
    (if f 223 1 = 1 then f 192 32 + (2 ^ 64 - 2 ^ 32) else f 192 32), f 256 48⟩

/-- Bytes of a descriptor by function. -/
def descLen : CmdFn → Nat
  | .copy | .fill => 192
  | .ring | .pfill => 32
  | .wld => 64
/-- The post bit of a descriptor that has been read. -/
def postBit (fn : CmdFn) (bs : List Byte) : Bool :=
  let f := fun lo => bitsN (leN bs) lo 1 == 1
  match fn with
  | .copy | .fill => f 10
  | .ring => f 1
  | .wld => f 7
  | .pfill => false
/-- Scratch lines that a command names as its destination, its descriptor well formed or not: one that fails poisons them too (R237,
R261). -/
def destLines (fn : CmdFn) (bs : List Byte) : List Nat :=
  match fn with
  | .copy => (copyRaw false bs).lines
  | .fill => (copyRaw true bs).lines
  | .pfill => (pfillRaw bs).lineList
  | .ring => (ringRaw bs).lineList
  | .wld => []

/-! Issue of a command (R254). -/

/-- Writes of a train that are not yet performed at device scope: their acknowledgement is still due (R301, R322). -/
def unackedWrites (s : State) (tr : Nat) : List Nat :=
  (s.reqs.filter (fun r => r.tr == tr && isWrite r && !r.acked)).map (·.id)
/-- What a command comes after: its train's writes, and what its slots have acquired (R311, R322). -/
def cmdNeed (s : State) (t : Train) : List Nat :=
  nub (unackedWrites s t.uid ++ unapplied s (t.slots.flatMap (·.hb)))
/-- Commands of a core's engine that stand in its queue. -/
def queuedCmds (s : State) (core : Nat) : List Cmd := s.cmds.filter (fun c => c.core == core && c.stage == .queued)

/-- What the issue of a command comes to: a trap, a wait in the uniform pipe, or the command queued. -/
inductive Iss where
  | trap (cls det : Nat)
  | wait
  | go (s : State)

/-- Step 1: location and object (R252, R254); none when both stand. -/
def cmdCheck (tm : Team) (fn : CmdFn) (loc : Word) (obj : Option Nat) : Option (Nat × Nat) :=
  let off := fld loc 0 63
  if off % 64 ≠ 0 ∨ (loc.getLsbD 63 = true ∧ inScratch tm off (descLen fn) = false) then some (7, 0)
  else match obj with
    | some o => if isBobj tm o then none else some (6, 6)
    | none => none
/-- Queues a command with its tag, once its destination lines have room (R237, R254). DESIGN CHOICE (log 60): the read of a
scratch descriptor in an expired LAPSE granule sets lapsed as the command issues, and again when its completion is written (R225). -/
def cmdQueue (s : State) (t : Train) (tm : Team) (fn : CmdFn) (loc : Word) (desc : Option (List Byte)) (obj : Option Nat)
    (lapse : Bool) : Iss :=
  let ls := (desc.map (destLines fn)).getD []
  if 64 ≤ (queuedCmds s t.core).length ∨ !(ls.all (lineRoom tm)) then .wait
  else
    let (id, s) := fresh s
    let tag := match obj with
      | some o => (objOf tm o).phase
      | none => false
    let rot := if fn = .ring then tm.rings else 0
    let s := modTeam s tm.id (fun tm => { clearLines tm id ls with rings := if fn = .ring then tm.rings + 1 else tm.rings })
    let s := { s with cmds := s.cmds ++ [⟨id, fn, tm.id, t.uid, t.core, loc, desc, obj, tag, ls, .queued, 0, cmdNeed s t, [],
      [], [], [], lapse, rot, []⟩] }
    .go (modTrain s t.uid (fun t => { t with declared := none, lapsed := t.lapsed || lapse }))
/-- Teams that a formation was admitted with: as many as its stage takes together, or those that its launch had left (R183). -/
def formSize (s : State) (tm : Team) : Nat :=
  match findLaunch s tm.launch with
  | none => 0
  | some l => min (((l.stages[tm.stage]?).map (·.form)).getD 1) (l.counts.getD tm.stage 0 - (tm.num - tm.fpos))
/-- A ring command needs a formation of eight teams, one on each core of the ring (R258): eight that stand, or eight of which some have
retired, and each that is left on a core of its own. -/
def ringOk (s : State) (tm : Team) : Bool :=
  match tm.form with
  | none => false
  | some f =>
    let l := s.teams.filter (fun o => o.form == some f)
    (decide (l.length = 8) || formSize s tm == 8) && l.all (fun o => o.core / 8 == tm.core / 8) &&
      (nub (l.map (·.core))).length == l.length
/-- Issues a command for a train (R254). DESIGN CHOICE (log 60): one whose scratch descriptor lies in a line that is not present
waits for it. -/
def cmdIssue (s : State) (t : Train) (fn : CmdFn) (loc : Word) (obj : Option Nat) : Iss :=
  match findTeam s t.team with
  | none => .wait
  | some tm =>
    match cmdCheck tm fn loc obj with
    | some (c, d) => .trap c d
    | none =>
      if fn = .ring ∧ ringOk s tm = false then .trap 7 1
      else if loc.getLsbD 63 then
        let off := fld loc 0 63
        let n := descLen fn
        if (linesOf off n).any (lineAbsent tm) then .wait
        else match scrRead s.now tm off n with
          | (.bad d, _) => .trap 4 d
          | (.ok bs, lapsed) => cmdQueue (noteScrRead s tm off n) t tm fn loc (some bs) obj lapsed
      else cmdQueue s t tm fn loc none obj false

/-- Records of a scratch descriptor that the issue of a command has read in error (R444, R446). -/
def descNote (s : State) (t : Train) (fn : CmdFn) (loc : Word) (cls : Nat) : State :=
  if cls = 4 then (match findTeam s t.team with
    | none => s
    | some tm => noteScrRead s tm (fld loc 0 63) (descLen fn)) else s

/-! Error reports of engines (R261, R291). -/

/-- A completion item for a train's completion port: dropped where none is bound, kept in order, or recorded when the port's image
is full (R246, R391). DESIGN CHOICE (log 60): R391 drops an item only where an image is full; one that finds the port of a
resident train full is dropped so too. -/
def postItem (s : State) (tr : Nat) (bytes code off : Nat) : State :=
  match findTrain s tr with
  | none => s
  | some t =>
    match t.ports.findSome? (fun p => match p.2 with
        | .completions _ d => some d
        | _ => none) with
    | none => s
    | some depth =>
      if t.retired then s
      else if depth ≤ t.compl.length then addErr s (errRec 11 1 t.core (ctxOf s t))
      else
        let w : Word := BitVec.ofNat 64 (bytes % 2 ^ 32 * 2 ^ 32 + code * 2 ^ 24 + off % 2 ^ 23)
        wakePorts (modTrain s tr (fun t => { t with compl := t.compl ++ [w] })) (fun u g => u.uid == tr && (match g with
          | .completions _ _ => true
          | _ => false))
/-- The record of a failure that no object reports: kind 6, with no address (R261, R446). -/
def failRecord (s : State) (core ctx code : Nat) : State := addErr s { errRec 6 1 core ctx with code := code }
/-- The record of a successor that could not be decremented: kind 6 with code 12 and its address (R282, R446). -/
def succRecord (s : State) (core ctx : Nat) (loc : Word) : State :=
  addErr s { errRec 6 1 core ctx with code := 12, addr := loc }

/-! Tile-task records (R277 to R284). -/

/-- Fields of a record. -/
def recF (bs : List Byte) (byte lo len : Nat) : Nat := bitsN (leN (bs.drop byte)) lo len
structure Rec where
  count : Nat
  state : Nat
  bres  : Nat
  ares  : Nat
  K     : Nat
  N     : Nat
  M     : Nat
  P     : Nat
  post  : Bool
  drain : Nat
  cp32  : Bool
  op    : Nat
  obj   : Option Nat
  dspan : Nat
  dscr  : Bool
  cres  : Nat
  dst   : Nat
  cs    : Nat
  rs    : Nat
  succ  : List Nat
  deriving DecidableEq, Repr
/-- Sign-extends a field to 64 bits. -/
def sx64 (w x : Nat) : Nat := if 2 ^ (w - 1) ≤ x then x + (2 ^ 64 - 2 ^ w) else x
def recOf (bs : List Byte) : Rec :=
  ⟨recF bs 0 0 16, recF bs 0 16 3, recF bs 8 56 6, recF bs 8 48 6, recF bs 8 32 12 + 1, recF bs 8 24 6 + 1,
   recF bs 8 16 6 + 1, recF bs 8 8 6 + 1, recF bs 8 7 1 == 1, recF bs 8 5 2, recF bs 8 4 1 == 1, recF bs 8 0 4,
   (if recF bs 16 55 1 = 1 then none else some (recF bs 16 32 23)), recF bs 16 16 16, recF bs 16 8 1 == 1, recF bs 16 0 6,
   recF bs 24 0 64, sx64 16 (recF bs 32 32 16), sx64 32 (recF bs 32 0 32),
   (List.range 4).map (fun i => recF bs 40 (48 * i) 48)⟩
/-- The record is well formed (R278). DESIGN CHOICE (log 60): a scratch destination with a span other than 0 makes it malformed. -/
def recOk (bs : List Byte) : Bool :=
  let r := recOf bs
  let f := recF bs
  decide (f 0 32 32 = 0 ∧ f 0 19 5 = 0 ∧ f 8 62 2 = 0 ∧ f 8 54 2 = 0 ∧ f 8 44 4 = 0 ∧ f 8 30 2 = 0 ∧ f 8 22 2 = 0 ∧
    f 8 14 2 = 0 ∧ f 16 56 8 = 0 ∧ f 16 9 7 = 0 ∧ f 16 6 2 = 0 ∧ f 32 48 16 = 0 ∧ r.op ≤ 1 ∧ r.drain ≠ 3 ∧ r.state < 6 ∧
    (r.drain = 2 → r.cp32 = true) ∧ r.cs % (if r.drain = 2 then 8 else 4) = 0 ∧
    r.rs % (if r.drain = 2 then 8 else 4) = 0 ∧ (r.dscr = true → r.dspan = 0)) && r.succ.all succOk

def resvOf (tm : Team) (n : Nat) : Option Resv := tm.resv.find? (fun r => r.num == n)
/-- Stored block size of a reservation (R269). -/
def blockBytes (kind fmt : Nat) : Nat :=
  if kind = 2 then 64
  else if fmt = 12 then (if kind = 0 then 8 else 7)
  else if fmt = 13 then (if kind = 0 then 12 else 9)
  else if fmt = 14 then (if kind = 0 then 18 else 12)
  else (if kind = 0 then 32 else 18)
/-- The check of kinds and formats (R279, R285). -/
def fmtsOk (a b : Resv) (c : Option Resv) : Bool :=
  decide (a.kind = 0 ∧ b.kind ≤ 1 ∧ a.fmt = b.fmt) && (match c with
    | some c => c.kind == 2
    | none => true)
/-- Reservations that a record names, each with whether it is held. -/
def recRes (tm : Team) (r : Rec) : Option (Resv × Resv × Option Resv) :=
  match resvOf tm r.ares, resvOf tm r.bres with
  | some a, some b => if r.op = 1 then (resvOf tm r.cres).map (fun c => (a, b, some c)) else some (a, b, none)
  | _, _ => none
def covers (v : Resv) (rows : Nat) : Bool := decide (rows * v.pitch * blockBytes v.kind v.fmt ≤ v.len)
/-- The check at enqueue: 0, or a failure code (R279). -/
def enqCheck (tm : Team) (bs : List Byte) : Nat :=
  let r := recOf bs
  if !recOk bs then 35 else
  match recRes tm r with
  | none => 32
  | some (a, b, c) =>
    if !fmtsOk a b c then 33
    else if decide (a.pitch < r.K ∨ b.pitch < r.K) || !covers a (64 * r.M) || !covers b (64 * r.N) ||
        (match c with
          | some c => decide (16 * c.pitch < 64 * r.N) || !covers c (64 * r.M)
          | none => false) then 34
    else match r.obj with
      | some o => if isBobj tm o then 0 else 35
      | none => 0
/-- The lines that a task's tiles write (R283). -/
def elemBytes (r : Rec) : Nat := if r.drain = 2 then 8 else 4
def cellOff (r : Rec) (i j : Nat) : Nat := (r.dst + i * r.rs + j * r.cs) % 2 ^ 64
def taskLines (r : Rec) : List Nat :=
  if r.dscr then
    nub ((List.range (64 * r.M)).flatMap (fun i => (List.range (64 * r.N)).flatMap (fun j => linesOf (cellOff r i j) (elemBytes r))))
  else []
/-- The team stands in its spill image, with its tasks that have not started (R274). -/
def teamAway (s : State) (team : Nat) : Bool := ((findTeam s team).map (fun tm => tm.life == .spilled)).getD false
/-- Tasks of a core that stand in its ready queue. -/
def readyTasks (s : State) (core : Nat) : List Task :=
  s.tasks.filter (fun k => k.core == core && k.stage == .queued && !teamAway s k.team)
def readyRoom (s : State) (core : Nat) : Bool := decide ((readyTasks s core).length < 256)

/-- Reads word 0, or the whole record, of a location: bytes or a fault: class 3 with its pair, or class 4. Word 0 is read at the record's
home port (R281), the rest as the core's loads are. -/
inductive RecRd where
  | ok (bs : List Byte)
  | addr (type level : Nat)
  | data (detail : Nat)
def recRead (s : State) (tm : Team) (loc : Word) (n acc : Nat) : RecRd :=
  let off := fld loc 0 63
  if loc.getLsbD 63 then
    match (scrRead s.now tm off n).1 with
    | .ok bs => .ok bs
    | .bad d => .data d
  else match transNow s tm.ctx 0 off n acc with
    | .error (t, l) => .addr t l
    | .ok kv => match readHome s (kv.take 8), readDie s (dieOf tm.core) (kv.drop 8) with
      | .ok w, .ok bs => .ok (w ++ bs)
      | .bad d, _ => .data d
      | _, .bad d => .data d
/-- Records of the half-sectors of a record that are read (R444, R446). -/
def recNote (s : State) (tm : Team) (loc : Word) (n : Nat) : State :=
  let off := fld loc 0 63
  if loc.getLsbD 63 then noteScrRead s tm off n
  else match transNow s tm.ctx 0 off n accRead with
    | .error _ => s
    | .ok kv => noteHalves s tm.core tm.ctx 0 (nub (kv.map (fun p => p.1 / 32)))
/-- Where a record stands: its first byte, whichever team names it (R281). -/
def recKey (s : State) (team : Nat) (loc : Word) : Option Nat :=
  let off := fld loc 0 63
  if loc.getLsbD 63 then some (scrKey team off)
  else (findTeam s team).bind (fun tm => match transNow s tm.ctx 0 off 1 accRead with
    | .ok kv => kv.head?.map (·.1)
    | .error _ => none)
/-- Two names are those of one record. -/
def sameRec (s : State) (team : Nat) (loc : Word) (team' : Nat) (loc' : Word) : Bool :=
  (team == team' && loc == loc') || ((recKey s team loc).isSome && recKey s team loc == recKey s team' loc')
/-- A task or arming fails its object, or makes the record that stands for it (R279, R281, R291). -/
def failObj (s : State) (tm : Team) (core code : Nat) (obj : Option Nat) (tag : Bool) : State :=
  match obj with
  | some o => if isBobj tm o then objFail s tm.id o code tag else failRecord s core tm.ctx code
  | none => failRecord s core tm.ctx code
/-- A record that has reached state 2 is read, checked and enqueued on a core (R281, R283). -/
def enqueue (s : State) (team core armTr : Nat) (loc : Word) : State :=
  match findTeam s team with
  | none => s
  | some tm =>
    let rd := recRead s tm loc 64 accRead
    let s := recNote s tm loc 64
    match rd with
    | .ok bs =>
      let r := recOf bs
      let code := enqCheck tm bs
      let tag := match r.obj with
        | some o => (objOf tm o).phase
        | none => false
      if code ≠ 0 then failObj (recordPut s team tm.ctx loc (fun w => recState w 5 code)) tm core code r.obj tag
      else
        let (id, s) := fresh s
        let ls := taskLines r
        let room := ls.all (lineRoom tm)
        let s := if room then modTeam s team (fun tm => clearLines tm id ls) else s
        postOnce { s with tasks := s.tasks ++ [⟨id, core, team, armTr, loc, bs, r.obj, tag, ls,
          if room then .queued else .held, 0, 0, 0, [], [], false, 0#64, none⟩] }
          (if room then .taskStart core else .taskHeldEnqueue core)
    | .addr _ _ => failRecord (recordPut s team tm.ctx loc (fun w => recState w 5 35)) core tm.ctx 35
    | .data d => failRecord (recordPut s team tm.ctx loc (fun w => recState w 5 (d + 1))) core tm.ctx (d + 1)
/-- The mark of an armed record, whichever team armed it. -/
def armMark (s : State) (team : Nat) (loc : Word) : Option HeldDec :=
  s.heldDecs.find? (fun h => h.c == 0 && sameRec s team loc h.team h.loc)
/-- The train that armed a record: kept while it is armed (R246). -/
def armedBy (s : State) (team : Nat) (loc : Word) : Nat := ((armMark s team loc).map (·.core)).getD 0
/-- The arming event at the record's home (R281): none when the record is busy. -/
def armRecord (s : State) (tm : Team) (t : Train) (loc : Word) (w0 : Nat) : State :=
  if w0 % 2 ^ 16 = 0 then
    enqueue (recordPut s tm.id tm.ctx loc (fun w => recState w 2 (bitsN w 24 8))) tm.id t.core t.uid loc
  else
    let s := recordPut s tm.id tm.ctx loc (fun w => recState w 1 (bitsN w 24 8))
    { s with heldDecs := s.heldDecs.filter (fun h => !(h.c == 0 && sameRec s tm.id loc h.team h.loc)) ++ [⟨t.uid, tm.id, loc, 0⟩] }
/-- Record address of a location, as R254 reads it: aligned, and inside scratch where it names scratch (R285). -/
def recLocOk (tm : Team) (loc : Word) : Bool :=
  let off := fld loc 0 63
  decide (off % 64 = 0) && (!loc.getLsbD 63 || inScratch tm off 64)
/-- The decrement event (R281): the new word 0, whether the record is to be enqueued, and whether it underflowed. -/
def decWord (w c : Nat) : Nat × Bool × Bool :=
  let n := w % 2 ^ 16
  let st := bitsN w 16 3
  if n < c then
    if st = 3 then (w - n, false, true) else (recState (w - n) 5 39, false, true)
  else if st = 1 ∧ n = c then (recState w 2 (bitsN w 24 8) - n, true, false)
  else (w - c, false, false)
/-- A decrement has gone below 0 (R281): a running task completes marked, one that waits in the queue never starts, and the record's
object fails; the record that cannot be read names none. -/
def underflow (s : State) (tm : Team) (core : Nat) (loc : Word) (st : Nat) : State :=
  let mine := fun (k : Task) => sameRec s tm.id loc k.team k.loc
  if st = 3 then { s with tasks := s.tasks.map (fun k => if mine k = true ∧ k.stage = .running then { k with under := true } else k) }
  else
    let gone := s.tasks.filter (fun k => mine k && k.stage != .running)
    let owner := (gone.head?.map (·.team)).getD (((armMark s tm.id loc).map (·.team)).getD tm.id)
    let obj := match recRead s tm loc 64 accRead with
      | .ok bs => (recOf bs).obj
      | _ => none
    let s := gone.foldl (fun s k => landLines s k.team k.id k.lines) s
    let s := { s with tasks := s.tasks.filter (fun k => !(mine k && k.stage != .running)) }
    match findTeam s owner with
    | none => failRecord s core tm.ctx 39
    | some tm => failObj s tm core 39 obj (match obj with
        | some o => (objOf tm o).phase
        | none => false)
/-- A decrement waits with the completion unit of its core (R284, R430). -/
def holdDec (s : State) (team core : Nat) (loc : Word) (c : Nat) : State :=
  postOnce { s with heldDecs := s.heldDecs ++ [⟨core, team, loc, c⟩] } (.taskHeldEnqueue core)
/-- The record of a decrement can be reached as far as the fault service goes, which is asked under the number of the core's
completion unit (R282, R430). -/
def decLook (s : State) (tm : Team) (core : Nat) (loc : Word) : Bool × State :=
  if loc.getLsbD 63 then (true, s) else askLook s (2 ^ 64 + core) core tm.ctx 0 (fld loc 0 63) 8 accAtomic
/-- Applies a decrement by `c` to a record for a team, at a core (R281, R282, R284). -/
def decrement (s : State) (team core : Nat) (loc : Word) (c : Nat) : State :=
  match findTeam s team with
  | none => s
  | some tm =>
    if !recLocOk tm loc then succRecord s core tm.ctx loc else
    let (go, s) := decLook s tm core loc
    if !go then holdDec s team core loc c else
    let rd := recRead s tm loc 8 accAtomic
    let s := recNote s tm loc 8
    match rd with
    | .addr _ _ | .data _ => succRecord s core tm.ctx loc
    | .ok bs =>
      let w := leN (bs.take 8)
      let r := decWord w c
      let out := loc.getLsbD 63 && (linesOf (fld loc 0 63) 64).any (lineAbsent tm)
      if r.2.1 && (!readyRoom s core || out) then holdDec s team core loc c
      else
        let s := recordPut s team tm.ctx loc (fun _ => r.1)
        if r.2.1 then enqueue s team core (armedBy s team loc) loc
        else if r.2.2 then underflow s tm core loc (bitsN w 16 3) else s
/-- The lines of a scratch record that are not present: its read waits for them (R237). -/
def recAbsent (tm : Team) (loc : Word) : Bool :=
  loc.getLsbD 63 && (linesOf (fld loc 0 63) 64).any (lineAbsent tm)
/-- Checks of mx.task on the record that it has read: a detail of class 7 (R285). -/
def taskFault (tm : Team) (bs : List Byte) : Option Nat :=
  let r := recOf bs
  if !recOk bs then some 6
  else match recRes tm r with
    | none => some 3
    | some (a, b, _) =>
      if (match r.obj with
        | some o => !isBobj tm o
        | none => false) then some 6
      else if !fmtsOk a b none then some 7
      else if r.state = 1 ∨ r.state = 2 ∨ r.state = 3 then some 8
      else none
/-- An expired LAPSE granule in a scratch record sets lapsed (R225). -/
def recLapsed (s : State) (tm : Team) (loc : Word) : Bool := loc.getLsbD 63 && (scrRead s.now tm (fld loc 0 63) 64).2
/-- Location of a successor field (R280). -/
def succLoc (x : Nat) : Word := BitVec.ofNat 64 (bitsN x 47 1 * 2 ^ 63 + bitsN x 0 46 * 64)
def decSucc (s : State) (team core : Nat) (x : Nat) : State :=
  if bitsN x 46 1 = 1 then decrement s team core (succLoc x) 1 else s

end Sys2Proof.Machine
end

