-- ==== Sys2Proof/Machine/Operands.lean ====
section
/-! DEFINITION. The operand forms: which registers each field of an instruction admits, how many it takes, whether it is
read or written, and how rep steps it (R67 to R74, R79, R150, R167, R239, R251). -/

namespace Sys2Proof.Machine

/-- Which registers a field admits: w, k, queue ports, zr (R69). -/
structure Admits where
  w : Bool
  k : Bool
  q : Bool
  z : Bool
  deriving DecidableEq, Repr

/-- A register field of an instruction: its role (0 d, 1 a, 2 b; the index and the source of an atom count as b, R415), the
register, what it admits, how many registers it takes, whether they are read and written, and whether it only names a port. -/
structure Fld where
  role  : Nat
  reg   : Reg
  adm   : Admits
  n     : Nat
  rd    : Bool
  wr    : Bool
  named : Bool
  deriving DecidableEq, Repr

/-- Registers of a load or store operand: a pair for b128 (R71). -/
def ldRegs : LdTy → Nat
  | .b128 => 2
  | _ => 1
@[inherit_doc ldRegs] def stRegs : StTy → Nat
  | .b128 => 2
  | _ => 1
/-- Registers of an atom operand (R239). -/
def atomRegs : AWidth → Nat
  | .a128 => 2
  | _ => 1

/-- The register fields of an instruction (R79 to R93). -/
def fieldsOf : Instr → List Fld
  | .sysNop | .sysExit | .sysTrap _ | .sysEret | .sysBrk | .sysFence _ _ | .sysSpin | .sysYield | .sysLcommit
  | .sysLcancel | .sysLrepeat | .rep _ _ _ _ _ _ _ | .grd _ _ _ | .xim _ | .ctlWin _ | .ctlBarw _ | .ctlPrio _
  | .ctlMigr _ | .bra _ _ _ | .jmpJmp _ | .stPoison _ _ _ _ | .adrAddai _ _ _ | .adrCmpa _ _ _ _ | .mxTask _ => []
  | .sysSrd d spec a =>
    [⟨0, d, ⟨true, !(spec == 2#7 || spec == 10#7), true, true⟩, 1, false, true, false⟩,
      ⟨1, a, ⟨true, true, true, true⟩, 1, true, false, false⟩]
  | .sysSwr _ a b | .acpCopy a b | .acpFill a b | .acpRing a b | .acpPfill a b | .mxWld a b =>
    [⟨1, a, ⟨false, true, false, true⟩, 1, true, false, false⟩,
      ⟨2, b, ⟨false, true, false, true⟩, 1, true, false, false⟩]
  | .sysWaitw _ _ b | .adrAdda _ _ _ b | .adrSpna _ b => [⟨2, b, ⟨true, true, true, true⟩, 1, true, false, false⟩]
  | .sysDlaunch a | .ctlOsfree a | .mxRel a => [⟨1, a, ⟨false, true, false, true⟩, 1, true, false, false⟩]
  | .ctlOsalloc d a _ _ | .mxRes d a =>
    [⟨0, d, ⟨true, true, false, true⟩, 1, false, true, false⟩,
      ⟨1, a, ⟨false, true, false, true⟩, 1, true, false, false⟩]
  | .ctlBar _ b | .ctlBarr _ b | .mxDep _ b => [⟨2, b, ⟨false, true, false, true⟩, 1, true, false, false⟩]
  | .ctlQbind q a =>
    [⟨0, q, ⟨false, false, true, false⟩, 1, true, false, true⟩,
      ⟨1, a, ⟨false, true, false, true⟩, 1, true, false, false⟩]
  | .ctlQunbind q => [⟨0, q, ⟨false, false, true, false⟩, 1, true, false, true⟩]
  | .ctlQlen d q =>
    [⟨0, d, ⟨true, true, true, true⟩, 1, false, true, false⟩,
      ⟨1, q, ⟨false, false, true, false⟩, 1, true, false, true⟩]
  | .jmpCall d _ => [⟨0, d, ⟨true, false, false, false⟩, 1, false, true, false⟩]
  | .jmpRet a | .jmpJmpr a => [⟨1, a, ⟨true, true, false, false⟩, 1, true, false, false⟩]
  | .jmpCallr d a =>
    [⟨0, d, ⟨true, false, false, false⟩, 1, false, true, false⟩,
      ⟨1, a, ⟨true, true, false, false⟩, 1, true, false, false⟩]
  | .iopAdd _ d a b | .iopSub _ d a b | .iopMul _ d a b | .iopMinI _ d a b | .iopMinN _ d a b
  | .iopMaxI _ d a b | .iopMaxN _ d a b | .iopAddsI _ d a b | .iopAddsN _ d a b | .iopSubsI _ d a b
  | .iopSubsN _ d a b | .iopShl _ d a b | .iopShr _ d a b | .iopSar _ d a b | .iopMulhI _ d a b
  | .iopMulhN _ d a b | .iopRol _ d a b | .iopRor _ d a b | .iopAvgN _ d a b | .iopAnd d a b | .iopOr d a b
  | .iopXor d a b | .iopAndn d a b | .bitBextI _ d a b | .bitBextN _ d a b | .fopAdd _ _ d a b
  | .fopSub _ _ d a b | .fopMul _ _ d a b | .fopDiv _ _ d a b | .fopMin _ d a b | .fopMax _ d a b
  | .fopCopysign _ d a b | .sfuTwd d a b | .xlShfl _ d a b _ | .xlShflx _ d a b _ | .xlShflu _ d a b _
  | .xlShfld _ d a b _ | .btCmp d a b =>
    [⟨0, d, ⟨true, false, true, true⟩, 1, false, true, false⟩,
      ⟨1, a, ⟨true, true, true, true⟩, 1, true, false, false⟩,
      ⟨2, b, ⟨true, true, true, true⟩, 1, true, false, false⟩]
  | .iopAbs _ d a | .iopiAddi d a _ | .iopiAndi d a _ | .iopiOri d a _ | .iopiXori d a _ | .shiShli _ d a _
  | .shiShri _ d a _ | .shiSari _ d a _ | .shiRoli _ d a _ | .shiRori _ d a _ | .bitPopc _ d a | .bitClz _ d a
  | .bitCtz _ d a | .bitBrev _ d a | .fopSqrt _ _ d a | .fopAbs _ d a | .fopNeg _ d a
  | .cvtFloatFloat _ _ _ d a | .cvtIntFloat _ _ _ _ d a | .cvtFloatInt _ _ _ _ d a | .sfuRcp _ d a
  | .sfuRsqrt _ d a | .sfuSqrt _ d a | .sfuExp2 _ d a | .sfuLog2 _ d a | .sfuSinpi _ d a | .sfuCospi _ d a
  | .xlVoteEq _ d a _ | .xlQx d a _ _ | .xlRed d a _ _ _ | .xlScan _ d a _ _ _ | .boTest d a | .boErr d a
  | .btSettle d a | .btRead d a =>
    [⟨0, d, ⟨true, false, true, true⟩, 1, false, true, false⟩,
      ⟨1, a, ⟨true, true, true, true⟩, 1, true, false, false⟩]
  | .limmIns d _ _ => [⟨0, d, ⟨true, true, false, true⟩, 1, true, true, false⟩]
  | .limmSet d _ _ | .limmSets d _ _ => [⟨0, d, ⟨true, true, true, true⟩, 1, false, true, false⟩]
  | .bitBins _ d a b | .bitBperm d a b =>
    [⟨0, d, ⟨true, false, false, true⟩, 1, true, true, false⟩,
      ⟨1, a, ⟨true, true, true, true⟩, 1, true, false, false⟩,
      ⟨2, b, ⟨true, true, true, true⟩, 1, true, false, false⟩]
  | .cmp _ _ _ _ a b | .adrMovawReg _ a b | .boInit a b | .boExpect a b | .boArrive a b | .boWait a b
  | .btReparent a b =>
    [⟨1, a, ⟨true, true, true, true⟩, 1, true, false, false⟩, ⟨2, b, ⟨true, true, true, true⟩, 1, true, false, false⟩]
  | .scalAdd d a b | .scalSub d a b | .scalMul d a b | .scalAnd d a b | .scalOr d a b | .scalXor d a b
  | .scalShl d a b | .scalShr d a b | .scalSar d a b | .scalMinI d a b | .scalMinN d a b | .scalMaxI d a b
  | .scalMaxN d a b =>
    [⟨0, d, ⟨false, true, false, true⟩, 1, false, true, false⟩,
      ⟨1, a, ⟨false, true, false, true⟩, 1, true, false, false⟩,
      ⟨2, b, ⟨false, true, false, true⟩, 1, true, false, false⟩]
  | .scalRdlane d a b =>
    [⟨0, d, ⟨false, true, false, true⟩, 1, false, true, false⟩,
      ⟨1, a, ⟨true, false, false, false⟩, 1, true, false, false⟩,
      ⟨2, b, ⟨false, true, false, true⟩, 1, true, false, false⟩]
  | .scalBcast d a =>
    [⟨0, d, ⟨true, false, false, false⟩, 1, false, true, false⟩,
      ⟨1, a, ⟨false, true, false, true⟩, 1, true, false, false⟩]
  | .fmaFma _ _ d a b | .fmaFms _ _ d a b | .fmaFnma _ _ d a b | .fmaFnms _ _ d a b =>
    [⟨0, d, ⟨true, false, false, false⟩, 1, true, true, false⟩,
      ⟨1, a, ⟨true, true, true, true⟩, 1, true, false, false⟩,
      ⟨2, b, ⟨true, true, true, true⟩, 1, true, false, false⟩]
  | .cvtBxPack x d a =>
    [⟨0, d, ⟨true, false, false, false⟩, (bxRegs x), false, true, false⟩,
      ⟨1, a, ⟨true, false, false, false⟩, 8, true, false, false⟩]
  | .cvtBxUnpack x d a =>
    [⟨0, d, ⟨true, false, false, false⟩, 8, false, true, false⟩,
      ⟨1, a, ⟨true, false, false, false⟩, (bxRegs x), true, false, false⟩]
  | .xlBal d _ _ | .xlVoteAny d _ _ | .xlVoteAll d _ _ | .adrMovwa d _ _ =>
    [⟨0, d, ⟨true, false, true, true⟩, 1, false, true, false⟩]
  | .ld ty _ _ d _ _ => [⟨0, d, ⟨true, true, true, true⟩, (ldRegs ty), false, true, false⟩]
  | .ldx ty _ _ d _ x _ =>
    [⟨0, d, ⟨true, false, true, true⟩, (ldRegs ty), false, true, false⟩,
      ⟨2, x, ⟨true, true, true, true⟩, 1, true, false, false⟩]
  | .st ty _ _ d _ _ => [⟨0, d, ⟨true, true, true, true⟩, (stRegs ty), true, false, false⟩]
  | .stx ty _ _ d _ x _ =>
    [⟨0, d, ⟨true, false, true, true⟩, (stRegs ty), true, false, false⟩,
      ⟨2, x, ⟨true, true, true, true⟩, 1, true, false, false⟩]
  | .atomAdd w _ ret d _ src | .atomMinI w _ ret d _ src | .atomMinN w _ ret d _ src
  | .atomMaxI w _ ret d _ src | .atomMaxN w _ ret d _ src | .atomAnd w _ ret d _ src | .atomOr w _ ret d _ src
  | .atomXor w _ ret d _ src | .atomSwap w _ ret d _ src | .atomFadd w _ ret d _ src =>
    [⟨0, d, ⟨true, false, true, true⟩, (atomRegs w), false, ret, false⟩,
      ⟨2, src, ⟨true, true, true, true⟩, (atomRegs w), true, false, false⟩]
  | .atomCas w _ _ d _ src =>
    [⟨0, d, ⟨true, false, true, true⟩, (atomRegs w), true, true, false⟩,
      ⟨2, src, ⟨true, true, true, true⟩, (atomRegs w), true, false, false⟩]
  | .adrMovawImm _ a _ | .btUnenroll a => [⟨1, a, ⟨true, true, true, true⟩, 1, true, false, false⟩]
  | .btEnroll d _ b =>
    [⟨0, d, ⟨true, false, true, true⟩, 1, false, true, false⟩,
      ⟨2, b, ⟨true, true, true, true⟩, 1, true, false, false⟩]
  | _ => []

/-- The instruction with its stepped fields advanced (R73, R135). -/
def bump (dd da db : Reg) : Instr → Instr
  | .iopAdd w d a b => .iopAdd w (d + dd) (a + da) (b + db)
  | .iopSub w d a b => .iopSub w (d + dd) (a + da) (b + db)
  | .iopMul w d a b => .iopMul w (d + dd) (a + da) (b + db)
  | .iopMinI w d a b => .iopMinI w (d + dd) (a + da) (b + db)
  | .iopMinN w d a b => .iopMinN w (d + dd) (a + da) (b + db)
  | .iopMaxI w d a b => .iopMaxI w (d + dd) (a + da) (b + db)
  | .iopMaxN w d a b => .iopMaxN w (d + dd) (a + da) (b + db)
  | .iopAddsI w d a b => .iopAddsI w (d + dd) (a + da) (b + db)
  | .iopAddsN w d a b => .iopAddsN w (d + dd) (a + da) (b + db)
  | .iopSubsI w d a b => .iopSubsI w (d + dd) (a + da) (b + db)
  | .iopSubsN w d a b => .iopSubsN w (d + dd) (a + da) (b + db)
  | .iopShl w d a b => .iopShl w (d + dd) (a + da) (b + db)
  | .iopShr w d a b => .iopShr w (d + dd) (a + da) (b + db)
  | .iopSar w d a b => .iopSar w (d + dd) (a + da) (b + db)
  | .iopMulhI w d a b => .iopMulhI w (d + dd) (a + da) (b + db)
  | .iopMulhN w d a b => .iopMulhN w (d + dd) (a + da) (b + db)
  | .iopRol w d a b => .iopRol w (d + dd) (a + da) (b + db)
  | .iopRor w d a b => .iopRor w (d + dd) (a + da) (b + db)
  | .iopAvgN w d a b => .iopAvgN w (d + dd) (a + da) (b + db)
  | .iopAbs w d a => .iopAbs w (d + dd) (a + da)
  | .iopAnd d a b => .iopAnd (d + dd) (a + da) (b + db)
  | .iopOr d a b => .iopOr (d + dd) (a + da) (b + db)
  | .iopXor d a b => .iopXor (d + dd) (a + da) (b + db)
  | .iopAndn d a b => .iopAndn (d + dd) (a + da) (b + db)
  | .iopiAddi d a imm => .iopiAddi (d + dd) (a + da) imm
  | .iopiAndi d a imm => .iopiAndi (d + dd) (a + da) imm
  | .iopiOri d a imm => .iopiOri (d + dd) (a + da) imm
  | .iopiXori d a imm => .iopiXori (d + dd) (a + da) imm
  | .shiShli w d a n => .shiShli w (d + dd) (a + da) n
  | .shiShri w d a n => .shiShri w (d + dd) (a + da) n
  | .shiSari w d a n => .shiSari w (d + dd) (a + da) n
  | .shiRoli w d a n => .shiRoli w (d + dd) (a + da) n
  | .shiRori w d a n => .shiRori w (d + dd) (a + da) n
  | .limmIns d c imm => .limmIns (d + dd) c imm
  | .limmSet d c imm => .limmSet (d + dd) c imm
  | .limmSets d c imm => .limmSets (d + dd) c imm
  | .bitBextI w d a b => .bitBextI w (d + dd) (a + da) (b + db)
  | .bitBextN w d a b => .bitBextN w (d + dd) (a + da) (b + db)
  | .bitBins w d a b => .bitBins w (d + dd) (a + da) (b + db)
  | .bitPopc w d a => .bitPopc w (d + dd) (a + da)
  | .bitClz w d a => .bitClz w (d + dd) (a + da)
  | .bitCtz w d a => .bitCtz w (d + dd) (a + da)
  | .bitBrev w d a => .bitBrev w (d + dd) (a + da)
  | .bitBperm d a b => .bitBperm (d + dd) (a + da) (b + db)
  | .cmp p cond ty comb a b => .cmp p cond ty comb (a + da) (b + db)
  | .scalAdd d a b => .scalAdd (d + dd) (a + da) (b + db)
  | .scalSub d a b => .scalSub (d + dd) (a + da) (b + db)
  | .scalMul d a b => .scalMul (d + dd) (a + da) (b + db)
  | .scalAnd d a b => .scalAnd (d + dd) (a + da) (b + db)
  | .scalOr d a b => .scalOr (d + dd) (a + da) (b + db)
  | .scalXor d a b => .scalXor (d + dd) (a + da) (b + db)
  | .scalShl d a b => .scalShl (d + dd) (a + da) (b + db)
  | .scalShr d a b => .scalShr (d + dd) (a + da) (b + db)
  | .scalSar d a b => .scalSar (d + dd) (a + da) (b + db)
  | .scalMinI d a b => .scalMinI (d + dd) (a + da) (b + db)
  | .scalMinN d a b => .scalMinN (d + dd) (a + da) (b + db)
  | .scalMaxI d a b => .scalMaxI (d + dd) (a + da) (b + db)
  | .scalMaxN d a b => .scalMaxN (d + dd) (a + da) (b + db)
  | .scalRdlane d a b => .scalRdlane (d + dd) (a + da) (b + db)
  | .scalBcast d a => .scalBcast (d + dd) (a + da)
  | .fopAdd f rm d a b => .fopAdd f rm (d + dd) (a + da) (b + db)
  | .fopSub f rm d a b => .fopSub f rm (d + dd) (a + da) (b + db)
  | .fopMul f rm d a b => .fopMul f rm (d + dd) (a + da) (b + db)
  | .fopDiv f rm d a b => .fopDiv f rm (d + dd) (a + da) (b + db)
  | .fopSqrt f rm d a => .fopSqrt f rm (d + dd) (a + da)
  | .fopMin f d a b => .fopMin f (d + dd) (a + da) (b + db)
  | .fopMax f d a b => .fopMax f (d + dd) (a + da) (b + db)
  | .fopAbs f d a => .fopAbs f (d + dd) (a + da)
  | .fopNeg f d a => .fopNeg f (d + dd) (a + da)
  | .fopCopysign f d a b => .fopCopysign f (d + dd) (a + da) (b + db)
  | .fmaFma f rm d a b => .fmaFma f rm (d + dd) (a + da) (b + db)
  | .fmaFms f rm d a b => .fmaFms f rm (d + dd) (a + da) (b + db)
  | .fmaFnma f rm d a b => .fmaFnma f rm (d + dd) (a + da) (b + db)
  | .fmaFnms f rm d a b => .fmaFnms f rm (d + dd) (a + da) (b + db)
  | .cvtFloatFloat dst src rm d a => .cvtFloatFloat dst src rm (d + dd) (a + da)
  | .cvtIntFloat dst sgn w rm d a => .cvtIntFloat dst sgn w rm (d + dd) (a + da)
  | .cvtFloatInt sgn w src rm d a => .cvtFloatInt sgn w src rm (d + dd) (a + da)
  | .cvtBxPack x d a => .cvtBxPack x (d + dd) (a + da)
  | .cvtBxUnpack x d a => .cvtBxUnpack x (d + dd) (a + da)
  | .sfuRcp f d a => .sfuRcp f (d + dd) (a + da)
  | .sfuRsqrt f d a => .sfuRsqrt f (d + dd) (a + da)
  | .sfuSqrt f d a => .sfuSqrt f (d + dd) (a + da)
  | .sfuExp2 f d a => .sfuExp2 f (d + dd) (a + da)
  | .sfuLog2 f d a => .sfuLog2 f (d + dd) (a + da)
  | .sfuSinpi f d a => .sfuSinpi f (d + dd) (a + da)
  | .sfuCospi f d a => .sfuCospi f (d + dd) (a + da)
  | .sfuTwd d a b => .sfuTwd (d + dd) (a + da) (b + db)
  | .xlShfl w d a b mk => .xlShfl w (d + dd) (a + da) (b + db) mk
  | .xlShflx w d a b mk => .xlShflx w (d + dd) (a + da) (b + db) mk
  | .xlShflu w d a b mk => .xlShflu w (d + dd) (a + da) (b + db) mk
  | .xlShfld w d a b mk => .xlShfld w (d + dd) (a + da) (b + db) mk
  | .xlBal d p mk => .xlBal (d + dd) p mk
  | .xlVoteAny d p mk => .xlVoteAny (d + dd) p mk
  | .xlVoteAll d p mk => .xlVoteAll (d + dd) p mk
  | .xlVoteEq w d a mk => .xlVoteEq w (d + dd) (a + da) mk
  | .xlQx d a c mk => .xlQx (d + dd) (a + da) c mk
  | .xlRed d a op ty mk => .xlRed (d + dd) (a + da) op ty mk
  | .xlScan excl d a op ty mk => .xlScan excl (d + dd) (a + da) op ty mk
  | .ld ty scr ord d an off => .ld ty scr ord (d + dd) an off
  | .ldx ty scr ord d an x off => .ldx ty scr ord (d + dd) an (x + db) off
  | .st ty scr ord d an off => .st ty scr ord (d + dd) an off
  | .stx ty scr ord d an x off => .stx ty scr ord (d + dd) an (x + db) off
  | .atomAdd w sp ret d an src => .atomAdd w sp ret (d + dd) an (src + db)
  | .atomMinI w sp ret d an src => .atomMinI w sp ret (d + dd) an (src + db)
  | .atomMinN w sp ret d an src => .atomMinN w sp ret (d + dd) an (src + db)
  | .atomMaxI w sp ret d an src => .atomMaxI w sp ret (d + dd) an (src + db)
  | .atomMaxN w sp ret d an src => .atomMaxN w sp ret (d + dd) an (src + db)
  | .atomAnd w sp ret d an src => .atomAnd w sp ret (d + dd) an (src + db)
  | .atomOr w sp ret d an src => .atomOr w sp ret (d + dd) an (src + db)
  | .atomXor w sp ret d an src => .atomXor w sp ret (d + dd) an (src + db)
  | .atomSwap w sp ret d an src => .atomSwap w sp ret (d + dd) an (src + db)
  | .atomCas w sp ret d an src => .atomCas w sp ret (d + dd) an (src + db)
  | .atomFadd w sp ret d an src => .atomFadd w sp ret (d + dd) an (src + db)
  | .adrAdda ad as_ sh b => .adrAdda ad as_ sh (b + db)
  | .adrMovawReg ad a b => .adrMovawReg ad (a + da) (b + db)
  | .adrMovawImm ad a span => .adrMovawImm ad (a + da) span
  | .adrMovwa d as_ part => .adrMovwa (d + dd) as_ part
  | .adrSpna ad b => .adrSpna ad (b + db)
  | .acpCopy a b => .acpCopy (a + da) (b + db)
  | .acpFill a b => .acpFill (a + da) (b + db)
  | .acpRing a b => .acpRing (a + da) (b + db)
  | .acpPfill a b => .acpPfill (a + da) (b + db)
  | .mxRes d a => .mxRes (d + dd) (a + da)
  | .mxRel a => .mxRel (a + da)
  | .mxWld a b => .mxWld (a + da) (b + db)
  | .mxDep an b => .mxDep an (b + db)
  | .boInit a b => .boInit (a + da) (b + db)
  | .boExpect a b => .boExpect (a + da) (b + db)
  | .boArrive a b => .boArrive (a + da) (b + db)
  | .boWait a b => .boWait (a + da) (b + db)
  | .boTest d a => .boTest (d + dd) (a + da)
  | .boErr d a => .boErr (d + dd) (a + da)
  | .btEnroll d an b => .btEnroll (d + dd) an (b + db)
  | .btUnenroll a => .btUnenroll (a + da)
  | .btReparent a b => .btReparent (a + da) (b + db)
  | .btSettle d a => .btSettle (d + dd) (a + da)
  | .btRead d a => .btRead (d + dd) (a + da)
  | .btCmp d a b => .btCmp (d + dd) (a + da) (b + db)
  | i => i

/-- rep may not precede the instruction (R74). -/
def noRep : Instr → Bool
  | .sysNop | .sysExit | .sysTrap _ | .sysEret | .sysBrk | .sysSrd _ _ _ | .sysSwr _ _ _ | .sysFence _ _
  | .sysSpin | .sysWaitw _ _ _ | .sysYield | .sysDlaunch _ | .sysLcommit | .sysLcancel | .sysLrepeat
  | .rep _ _ _ _ _ _ _ | .grd _ _ _ | .xim _ | .ctlWin _ | .ctlOsalloc _ _ _ _ | .ctlOsfree _ | .ctlBar _ _
  | .ctlBarr _ _ | .ctlBarw _ | .ctlPrio _ | .ctlMigr _ | .ctlQbind _ _ | .ctlQunbind _ | .ctlQlen _ _
  | .bra _ _ _ | .jmpJmp _ | .jmpCall _ _ | .jmpRet _ | .jmpJmpr _ | .jmpCallr _ _ => true
  | _ => false

/-- The address registers that an instruction reads (R79 to R93). -/
def aregsRead : Instr → List R3
  | .sysWaitw _ an _ | .ctlMigr an | .ld _ _ _ _ an _ | .ldx _ _ _ _ an _ _ | .st _ _ _ _ an _ | .stPoison _ _ an _
  | .stx _ _ _ _ an _ _ | .atomAdd _ _ _ _ an _ | .atomMinI _ _ _ _ an _ | .atomMinN _ _ _ _ an _ | .atomMaxI _ _ _ _ an _
  | .atomMaxN _ _ _ _ an _ | .atomAnd _ _ _ _ an _ | .atomOr _ _ _ _ an _ | .atomXor _ _ _ _ an _ | .atomSwap _ _ _ _ an _
  | .atomCas _ _ _ _ an _ | .atomFadd _ _ _ _ an _ | .adrMovwa _ an _ | .mxTask an | .mxDep an _ | .btEnroll _ an _ => [an]
  | .adrAdda _ an _ _ | .adrAddai _ an _ | .adrSpna an _ => [an]
  | .adrCmpa _ a b _ => [a, b]
  | _ => []
/-- An instruction reads predicates of its slots. -/
def readsPreds : Instr → Bool
  | .bra p _ _ | .xlBal _ p _ | .xlVoteAny _ p _ | .xlVoteAll _ p _ => p != 0#3
  | .cmp _ _ _ c _ _ => c != .set
  | _ => false

/-- The member-mask register of an xl instruction (R76). -/
def maskReg : Instr → Option Nat
  | .xlShfl _ _ _ _ m | .xlShflx _ _ _ _ m | .xlShflu _ _ _ _ m | .xlShfld _ _ _ _ m | .xlBal _ _ m
  | .xlVoteAny _ _ m | .xlVoteAll _ _ m | .xlVoteEq _ _ _ m | .xlQx _ _ _ m | .xlRed _ _ _ _ m
  | .xlScan _ _ _ _ _ m => m.map (·.toNat)
  | _ => none

/-- A field names a register that its position admits (R69). -/
def fldAdmits (f : Fld) : Bool :=
  (isW f.reg && f.adm.w) || (isK f.reg && f.adm.k) || (isQ f.reg && f.adm.q) || (isZ f.reg && f.adm.z)
/-- The first register of a field beyond the allocation, if any (R193). -/
def fldBeyond (t : Train) (f : Fld) : Option Nat :=
  if isW f.reg then
    ((List.range f.n).map (fun j => f.reg.toNat + j)).find? (fun r => decide (t.A ≤ t.B + r))
  else none
/-- The lowest operand fault of an instruction, with its info word (R415, R416, R418). -/
def fieldFault (t : Train) (i : Instr) : Option (Nat × Nat) :=
  let fs := fieldsOf i
  match fs.find? (fun f => f.role == 0 && !fldAdmits f), fs.find? (fun f => f.role == 1 && !fldAdmits f),
        fs.find? (fun f => f.role == 2 && !fldAdmits f), fs.findSome? (fldBeyond t) with
  | some f, _, _, _ => some (0, f.reg.toNat)
  | none, some f, _, _ => some (1, f.reg.toNat)
  | none, none, some f, _ => some (2, f.reg.toNat)
  | none, none, none, some r => some (3, r)
  | none, none, none, none => none

/-- Ports that an instruction pops, each once, and pushes (R68). -/
def popPorts (i : Instr) : List Nat :=
  nub (((fieldsOf i).filter (fun f => f.rd && isQ f.reg && !f.named)).map (fun f => portOf f.reg))
def pushPorts (i : Instr) : List Nat :=
  nub (((fieldsOf i).filter (fun f => f.wr && isQ f.reg && !f.named)).map (fun f => portOf f.reg))
def portFree (i : Instr) : Bool := (popPorts i).isEmpty && (pushPorts i).isEmpty

/-- Step of a rep field (R73). -/
def stepOf (c : BitVec 2) : Nat := 2 ^ c.toNat
/-- The fields of an instruction under the repeat now issuing: count minus the repeats left (R135). -/
def atRepeat (rep : Option Instr) (left : Nat) (i : Instr) : Instr :=
  match rep with
  | some (.rep bs as_ ds be ae de c) =>
    let k := c.toNat + 1 - left
    let st := fun (en : Bool) (x : BitVec 2) => BitVec.ofNat 7 (if en then k * stepOf x else 0)
    bump (st de ds) (st ae as_) (st be bs) i
  | _ => i
/-- The group of an instruction is one of cvt's, not a pair (R150). -/
def isGroup : Instr → Bool
  | .cvtBxPack _ _ _ | .cvtBxUnpack _ _ _ => true
  | _ => false
/-- The field that a rep steps, of those that the format has (R73). -/
def stepFld (i : Instr) (role : Nat) : Option Fld := (fieldsOf i).find? (fun f => f.role == role && !f.named && (f.rd || f.wr))
/-- A rep may step the field: it names w registers throughout (R73, R74). -/
def stepOk (i : Instr) (role cnt step : Nat) : Bool :=
  match stepFld i role with
  | some f => isW f.reg && decide (f.reg.toNat + (cnt - 1) * step + f.n ≤ 96)
  | none => false
/-- A stepped group that passes w95 at a repeat, or a stepped pair that names w95: the detail of its field, 2 for d, 3 for a,
4 for b (R71, R150, R162). -/
def groupFault (i : Instr) (role cnt step : Nat) : Option Nat :=
  match stepFld i role with
  | some f =>
    let at_ := fun (k : Nat) => f.reg.toNat + k * step
    if isW f.reg && (List.range cnt).any (fun k => if isGroup i then decide (96 < at_ k + f.n) else f.n == 2 && at_ k == 95) then
      some (2 + role)
    else none
  | none => none
/-- Faults of a rep before an instruction, the lowest first: a group that a repeat takes past w95, 18, or 19 (R74). -/
def repFault (rep i : Instr) : Option Nat :=
  match rep with
  | .rep bs as_ ds be ae de c =>
    let c := c.toNat + 1
    if noRep i then some 18
    else
      let grp := fun (en : Bool) (role step : Nat) => if en then groupFault i role c step else none
      match grp de 0 (stepOf ds), grp ae 1 (stepOf as_), grp be 2 (stepOf bs) with
      | some d, _, _ | none, some d, _ | none, none, some d => some d
      | none, none, none =>
        if (de && !stepOk i 0 c (stepOf ds)) || (ae && !stepOk i 1 c (stepOf as_)) || (be && !stepOk i 2 c (stepOf bs)) then some 19
        else none
  | _ => none
/-- bra and the jmp forms: as a covered instruction, only the last of a grd (R75). -/
def isJump : Instr → Bool
  | .bra _ _ _ | .jmpJmp _ | .jmpCall _ _ | .jmpRet _ | .jmpJmpr _ | .jmpCallr _ _ => true
  | _ => false

end Sys2Proof.Machine
end

