-- ==== Sys2Proof/Machine/Ports.lean ====
section
/-! DEFINITION. Queue ports: what a pop or a push of one word by one slot finds and does (spec/09 R244 to R248). -/

namespace Sys2Proof.Machine

/-- What an access of a port finds: it can be made, it parks the slot, on the port or on a walk of a page of span 0, or it faults
with a detail of class 6. -/
inductive PortChk where
  | ok | park | walk (page acc : Nat) | fault (d : Nat)
  deriving DecidableEq, Repr

/-- Words of an item of a port (R246). -/
def itemWords (s : State) (t : Train) (g : QTarget) : Nat :=
  match g with
  | .copyCmd => 2
  | .tileTask | .completions _ _ => 1
  | _ => match queueIdx s t g with
    | some (l, q) => (((findLaunch s l).bind (fun x => x.queues[q]?)).map (·.item)).getD 8 / 8
    | none => 1
def stageQueue (s : State) (t : Train) (g : QTarget) : Option SQueue :=
  (queueIdx s t g).bind (fun p => (findLaunch s p.1).bind (fun x => x.queues[p.2]?))
def isPop : QTarget → Bool
  | .completions _ _ | .stageIn => true
  | _ => false
/-- The slot's position within its current item: words still to pop, or words pushed so far. -/
def partOf (x : Slot) (q : Nat) : List Word := aget [] x.qpart q
def setPart (x : Slot) (q : Nat) (l : List Word) : Slot :=
  { x with qpart := if l.isEmpty then adel x.qpart q else aset x.qpart q l }

/-- A pop (R246): the word that it would deliver. -/
def popChk (s : State) (t : Train) (i q : Nat) : PortChk × Word :=
  match afind t.ports q with
  | none => (.fault 0, 0#64)
  | some g =>
    if !isPop g then (.fault 1, 0#64)
    else match partOf (slotAt t i) q with
      | w :: _ => (.ok, w)
      | [] => match g with
        | .completions _ _ => match t.compl with
          | w :: _ => (.ok, w)
          | [] => (.park, 0#64)
        | _ => match stageQueue s t g with
          | none => (.fault 0, 0#64)
          | some sq => match sq.items with
            | it :: _ => (.ok, it.headD 0#64)
            | [] => if sq.closed then (.fault 3, 0#64) else (.park, 0#64)
/-- Makes the pop. -/
def popDo (s : State) (uid i q : Nat) : State :=
  match findTrain s uid with
  | none => s
  | some t => match afind t.ports q with
    | none => s
    | some g => match partOf (slotAt t i) q with
      | _ :: r => modTrain s uid (fun t => modSlot t i (fun x => setPart x q r))
      | [] => match g with
        | .completions _ _ => modTrain s uid (fun t => { t with compl := t.compl.drop 1 })
        | _ => match queueIdx s t g with
          | none => s
          | some (l, n) =>
            let it := ((stageQueue s t g).bind (fun sq => sq.items.head?)).getD []
            let s := modLaunch s l (fun x => { x with queues := lmod x.queues n (fun sq => { sq with items := sq.items.drop 1 }) })
            let s := modTrain s uid (fun t => modSlot t i (fun x => setPart x q (it.drop 1)))
            reconsider (wakeStage s l n)

/-- A copy-engine command pushed through a port: function, location and object, or malformed (R246). -/
def portCmd (w0 w1 : Word) : Option (CmdFn × Word × Option Nat) :=
  let fn := match fld w1 62 2 with
    | 0 => some CmdFn.copy
    | 1 => some .fill
    | 2 => some .pfill
    | _ => none
  if fld w1 24 38 ≠ 0 then none
  else fn.map (fun f => (f, w0, if w1.getLsbD 23 then none else some (fld w1 0 23)))
/-- Fails a pushed command whose checks would trap (R246). -/
def failPush (s : State) (t : Train) (code : Nat) (obj : Option Nat) : State :=
  match findTeam s t.team with
  | none => s
  | some tm => failObj s tm t.core code obj (match obj with
    | some o => (objOf tm o).phase
    | none => false)
/-- Failure code that stands for a trap of the checks at issue (R246, R260, R292). DESIGN CHOICE (log 60): R246 names no code; a
location at fault takes 7, an object or a reserved word 6. -/
def pushCode (cls det : Nat) : Nat :=
  if cls = 4 then (if det = 2 then 8 else det + 1) else if cls = 7 ∧ det = 0 then 7 else 6

/-- Failure code that stands for a trap of mx.task on the record that it has read (R281, R292). -/
def taskCode (det : Nat) : Nat := if det = 3 then 32 else if det = 7 then 33 else 35
/-- A pushed tile task acts as mx.task, failing where that would trap (R281, R285): wait, or the state after. -/
def pushTask (s : State) (t : Train) (loc : Word) : Option State :=
  match findTeam s t.team with
  | none => some s
  | some tm =>
    if !recLocOk tm loc then some (failRecord s t.core tm.ctx 35)
    else if !(cmdNeed s t).isEmpty || recAbsent tm loc then none
    else
      let rd := recRead s tm loc 64 accRead
      let s := recNote s tm loc 64
      match rd, recRead s tm loc 8 accAtomic with
      | .addr _ _, _ => some (failRecord s t.core tm.ctx 35)
      | .data d, _ => some (failRecord s t.core tm.ctx (if d = 2 then 8 else d + 1))
      | .ok _, .addr _ _ => some (failRecord s t.core tm.ctx 35)
      | .ok bs, _ => match taskFault tm bs with
        | some d => some (failPush s t (taskCode d) (recOf bs).obj)
        | none =>
          if (recOf bs).count = 0 ∧ !readyRoom s t.core then none
          else
            let l := recLapsed s tm loc
            some (modTrain (armRecord s tm t loc (leN (bs.take 8))) t.uid (fun t => { t with lapsed := t.lapsed || l }))

/-- The page of a pushed record that the core's translation buffer misses, as mx.task would (R285, R429). -/
def pushWalk (s : State) (t : Train) (loc : Word) : Option Nat :=
  match findTeam s t.team with
  | none => none
  | some tm =>
    if loc.getLsbD 63 || !recLocOk tm loc || !(cmdNeed s t).isEmpty then none else tlbMiss s t.core tm.ctx 0 (fld loc 0 63) 64
/-- A push of a word (R246). -/
def pushChk (s : State) (t : Train) (i q : Nat) (v : Word) : PortChk :=
  match afind t.ports q with
  | none => .fault 0
  | some g =>
    if isPop g then .fault 1
    else match g with
      | .copyCmd => match partOf (slotAt t i) q with
        | w0 :: _ => match portCmd w0 v with
          | some (fn, loc, obj) => match cmdIssue s t fn loc obj with
            | .wait => .park
            | _ => .ok
          | none => .ok
        | [] => .ok
      | .tileTask => match (if (slotAt t i).walked then none else pushWalk s t v) with
        | some p => .walk p accAtomic
        | none => if (pushTask s t v).isNone then .park else .ok
      | _ => match stageQueue s t g with
        | none => .fault 0
        | some sq =>
          if (partOf (slotAt t i) q).length + 1 < itemWords s t g then .ok
          else if sq.items.length < sq.depth then .ok else .park
/-- Makes the push: an item becomes visible, or is issued, with its last word. -/
def pushDo (s : State) (uid i q : Nat) (v : Word) : State :=
  match findTrain s uid with
  | none => s
  | some t =>
    let s := modTrain s uid (fun t => { t with declared := none })
    match afind t.ports q with
    | none => s
    | some g =>
      let p := partOf (slotAt t i) q
      if p.length + 1 < itemWords s t g then
        modTrain s uid (fun t => modSlot t i (fun x => setPart x q (p ++ [v])))
      else
        let s := modTrain s uid (fun t => modSlot t i (fun x => setPart x q []))
        match g with
        | .copyCmd => match portCmd (p.headD 0#64) v with
          | none => failPush s t 6 (if v.getLsbD 23 then none else some (fld v 0 23))
          | some (fn, loc, obj) => match cmdIssue s t fn loc obj with
            | .go s => postOnce s (.copyStart t.core)
            | .trap c d => failPush (descNote s t fn loc c) t (pushCode c d) obj
            | .wait => s
        | .tileTask => (pushTask s t v).getD s
        | _ => match queueIdx s t g with
          | none => s
          | some (l, n) =>
            let s := modLaunch s l (fun x => { x with queues := lmod x.queues n (fun sq => { sq with items := sq.items ++ [p ++ [v]] }) })
            reconsider (wakeStage s l n)

/-- The value that a field reads for a slot when ports are in play: a port's item at its head (R68). -/
def readAny (s : State) (t : Train) (i : Nat) (r : Reg) : Word :=
  if isQ r then (popChk s t i (portOf r)).2 else readReg t i r

/-! Addresses (R228). -/

/-- The address of an access: the register's, its offset part advanced modulo 2^64. -/
def effAddr (t : Train) (i : Nat) (an : R3) (delta : Word) : Addr :=
  mkAddr (aSpan (readA t i an)) (aOff (readA t i an) + delta)
def addrOff (a : Addr) : Nat := (aOff a).toNat
def addrSpan (a : Addr) : Nat := (aSpan a).toNat
/-- Access size of a load, and of a store. -/
def ldBytes : LdTy → Nat
  | .b8 | .i8 => 1 | .b16 | .i16 => 2 | .b32 | .i32 => 4 | .b64 => 8 | .b128 => 16
def stBytes : StTy → Nat
  | .b8 => 1 | .b16 => 2 | .b32 => 4 | .b64 => 8 | .b128 => 16
/-- Bytes of an atom. -/
def atomBytes : AWidth → Nat
  | .a32 => 4 | .a64 => 8 | .a128 => 16

end Sys2Proof.Machine
end

