-- ==== Sys2Proof/Machine/Ops.lean ====
section
/-! DEFINITION. Operations of an issuing train: fetching a word, taking a trap and returning from it (spec/22), the outcome
of a run slot by slot (R416), and the frame that every encoded instruction's meaning shares. -/

namespace Sys2Proof.Machine

/-! Instruction fetch (R65, R348, R430). -/

/-- What a fetch finds: a word with its location and key version, or a cause with the level of a failed walk. -/
inductive Fetched where
  | word (w loc ver : Nat)
  | bad (cause level : Nat)
  deriving DecidableEq, Repr

/-- A half-sector as a fetch of its line reads it, under the key of the context's leaf. -/
def halfRead (s : State) (h ver : Nat) : Rd := readHome s ((List.range 32).map (fun i => (32 * h + i, ver)))
/-- A line as a fetch reads it: its bytes, and what its half-sectors meet. -/
def readLine (s : State) (ctx line ver : Nat) : ILine :=
  let r := fun (h : Nat) => match halfRead s (2 * line + h) ver with
    | .ok bs => (bs, 0)
    | .bad d => (List.replicate 32 0#8, d + 1)
  ⟨ctx, line, ver, BitVec.ofNat 512 (leN ((r 0).1 ++ (r 1).1)), ((r 0).2, (r 1).2)⟩
/-- The word at a place of a line. -/
def ILine.word (l : ILine) (key : Nat) : Rd :=
  let c := if key % 64 < 32 then l.bad.1 else l.bad.2
  if c = 0 then .ok (bytesN 4 (bitsN l.bytes.toNat (8 * (key % 64)) 32)) else .bad (c - 1)
/-- The word of the line of a core's instruction cache that a fetch is served from, though memory has changed since: it does not snoop,
and whether the line is still there is free (R348). A line that agrees with memory is read as from there. It serves the context that
fetched it, under the key that it was read with (R438, R455). -/
def staleWord (s : State) (core ctx key ver : Nat) : Option Rd :=
  match (coreOf s core).icache.find? (fun l => l.ctx == ctx && l.line == key / 64 && l.ver == ver) with
  | none => none
  | some l =>
    if l.word key ≠ (readLine s ctx (key / 64) ver).word key ∧ Config.icacheStale s.tick (key / 64) = true then some (l.word key) else none
/-- The word at a PC offset from a code base, fetched on a core for a context (R348). -/
def fetchAt (s : State) (core ctx cbase pc : Nat) : Fetched :=
  match transNow s ctx 0 ((cbase + pc) % 2 ^ 64) 4 accFetch with
  | .error (t, l) => .bad (96 + 4 * t + 3) l
  | .ok kv =>
    let k := kv.headD (0, 0)
    match (staleWord s core ctx k.1 k.2).getD (readHome s kv) with
    | .bad 0 => .bad 132 0
    | .bad _ => .bad 133 0
    | .ok bs => .word (leN bs) k.1 k.2
/-- A word that the prologue unit reads from memory afresh, as the front end's other reads are made (R349, R368). -/
def fetchPro (s : State) (ctx cbase pc : Nat) : Fetched :=
  match transNow s ctx 0 ((cbase + pc) % 2 ^ 64) 4 accRead with
  | .error (t, l) => .bad (96 + 4 * t) l
  | .ok kv => match readDie s 4 kv with
    | .bad d => .bad (128 + d) 0
    | .ok bs => .word (leN bs) (kv.headD (0, 0)).1 (kv.headD (0, 0)).2
/-- A fetch that comes from memory fills the core's instruction cache of 1,024 lines, and makes the records of what it reads (R348,
R444); one that a stale line serves leaves it as it is. -/
def fillICache (s : State) (core ctx key ver : Nat) : State :=
  if (staleWord s core ctx key ver).isSome then s else
  modCore (noteHalves (noteHbm s ctx 0 [key]) core ctx 0 [key / 32]) core (fun c =>
    let ls := c.icache.filter (fun l => !(l.ctx == ctx && l.line == key / 64))
    { c with icache := (if 1024 ≤ ls.length then ls.eraseIdx (Config.tlbVictim s.tick % 1024) else ls) ++ [readLine s ctx (key / 64) ver] })
/-- The record of a fetch that meets poison or an uncorrectable error (R444, R445, R446), made on a core for a context. -/
def noteFetch (s : State) (core ctx cbase pc acc c : Nat) : State :=
  if c / 32 ≠ 4 then s else
  match transNow s ctx 0 ((cbase + pc) % 2 ^ 64) 4 acc with
  | .error _ => s
  | .ok kv =>
    let h := (kv.headD (0, 0)).1 / 32
    let s := match aget HalfCond.clean s.mcond h with
      | .poisonSingle _ => corrected s (socketOf (32 * h)) (halfRec 1 core ctx 0 h)
      | _ => s
    addErr s { halfRec (if c % 2 = 0 then 3 else 2) core ctx 0 h with cause := c }
def fetchWord (s : State) (t : Train) (pc : Pc) : Fetched :=
  if t.prol.isSome then fetchPro s (ctxOf s t) t.cbase pc.toNat else fetchAt s t.core (ctxOf s t) t.cbase pc.toNat

/-! Traps (R416 to R424). -/

/-- Train words of a frame (R418). -/
def trainWord (t : Train) (p : PTrap) (j : Nat) : Word :=
  match j with
  | 0 => BitVec.ofNat 64 p.cause.toNat
  | 1 => BitVec.ofNat 64 p.fpc.toNat
  | 2 => BitVec.ofNat 64 p.tmask.toNat
  | 3 => BitVec.ofNat 64 p.pmask.toNat
  | 4 => BitVec.ofNat 64 t.B
  | 6 => BitVec.ofNat 64 t.fflags.toNat
  | 7 => if t.lapsed then 1#64 else 0#64
  | 8 => BitVec.ofNat 64 t.prio
  | 9 => p.info
  | _ => if 10 ≤ j ∧ j ≤ 17 then cget t.k (j - 10) else 0#64
/-- Frame register w16 to w31 of a slot, by its number less 16 (R418). -/
def frameWord (t : Train) (p : PTrap) (i : Nat) (x : Slot) (n : Nat) : Word :=
  let a := fun j => cget x.areg j
  match n with
  | 0 => BitVec.ofNat 64 (stCode x.st * 2 ^ 40 + x.pc.toNat)
  | 1 => BitVec.ofNat 64 (repcnt x * 2 ^ 8 + x.pred.toNat / 2 * 2)
  | 2 => aOff (a 0) | 3 => BitVec.ofNat 64 (aSpan (a 0)).toNat
  | 4 => aOff (a 1) | 5 => BitVec.ofNat 64 (aSpan (a 1)).toNat
  | 6 => aOff (a 2) | 7 => BitVec.ofNat 64 (aSpan (a 2)).toNat
  | 8 => aOff (a 3) | 9 => BitVec.ofNat 64 (aSpan (a 3)).toNat
  | 10 => aOff (cget p.faddr i)
  | 11 => BitVec.ofNat 64 (aSpan (cget p.faddr i)).toNat
  | _ => trainWord t p (4 * i + (n - 12))
/-- The bits of a train word, and of frame register w16 to w31 of a slot, that are neither read only nor reserved (R418). -/
def trainBits (j : Nat) : Word :=
  match j with
  | 3 => 0xFFFFFFFF#64
  | 4 => 0x3FF#64
  | 6 => 0x1F#64
  | 7 => 1#64
  | 8 => 0x10F#64
  | _ => if 10 ≤ j ∧ j ≤ 17 then 0xFFFFFFFFFFFFFFFF#64 else 0#64
@[inherit_doc trainBits] def frameBits (i n : Nat) : Word :=
  match n with
  | 0 => 0xFFFFFFFFFFF#64
  | 1 => 0xFFFFFE#64
  | 10 | 11 => 0#64
  | _ => if n < 10 then 0xFFFFFFFFFFFFFFFF#64 else trainBits (4 * i + (n - 12))
/-- The conditions of a slot's registers once its frame is written: the frame's half-sectors are written whole, and those that
take an address register or the predicates in error are poison (R445). -/
def frameConds (t : Train) (x : Slot) : List (Nat × HalfCond) :=
  let at_ := (t.A - 16) / 4
  let out := x.rcond.filter (fun c => decide (c.1 < at_ ∨ t.A / 4 ≤ c.1))
  let bad := fun (h : Nat) => condRead (aget .clean x.rcond h) != 0
  [(0, bad predHalf || bad (aregHalf 0)), (1, bad (aregHalf 0)), (2, bad (aregHalf 0) || bad (aregHalf 3))].foldl (fun l p =>
    if p.2 then setCond l (at_ + p.1) .poison else l) out
/-- Writes the frame of one slot, and sends a live slot to the handler (R417, R420). -/
def enterSlot (t : Train) (p : PTrap) (pc : Pc) (i : Nat) (x : Slot) : Slot :=
  let y := { x with
    regs := csetAll x.regs (t.A - 16) ((List.range 16).map (frameWord t p i x))
    rcond := if x.rcond.isEmpty then [] else frameConds t x
    frame := (List.range 16).map (fun n => (t.A - 16 + n, frameBits i n)) }
  if slotLive x then
    { y with pc := pc, st := .ready, wait := .none, guard := Guard.none, rcount := 0, skip := 0, walked := false, again := 0 }
  else y
/-- Handler PC of thand (R419). -/
def handlerPc (thand : Word) : Pc := BitVec.ofNat 40 (fld thand 2 38 * 4)
/-- Entering the handler: the frame in every slot, the window at A - 32, the live slots at the handler (R420). -/
def enterTrain (t : Train) (p : PTrap) : Train :=
  { mapSlots t (enterSlot t p (handlerPc t.thand)) with
    B := t.A - 32, inHand := true, sstep := false, step := none, trap := none, tgrp := 0, fpc := p.fpc,
    escape := none }
/-- Loads, atomics and bt requests of a train whose replies are still to come. -/
def awaiting (s : State) (uid : Nat) : Bool :=
  s.reqs.any (fun r => r.tr == uid && !r.replied && (match r.kind with
    | .store _ => false
    | .poison => false
    | _ => true))
/-- A settle or compare of the bridle tree, which a halt cancels (R411). -/
def isSettle (r : Req) : Bool :=
  match r.kind with
  | .bt (.settle _) | .bt (.cmp _ _) => true
  | _ => false
/-- A posted write of a special register holds its train until it has been made (R143, R320). -/
def swrPending (s : State) (uid : Nat) : Bool :=
  s.agenda.any (fun i => match i with
    | .specialRegWrite tr _ _ _ => tr == uid
    | .pholdWrite _ => true
    | _ => false)
/-- What a trap of a train waits for before its entry: replies, and a posted write of a special register (R49, R420). -/
def entryWaits (s : State) (uid : Nat) : Bool := awaiting s uid || swrPending s uid
/-- A fatal trap kills the team and is recorded (R420). -/
def fatalTrap (s : State) (t : Train) (p : PTrap) : State :=
  killTeam (addErr s { errRec 5 2 t.core (ctxOf s t) with cause := p.cause.toNat, addr := BitVec.ofNat 64 p.fpc.toNat, code := p.tmask.toNat }) t.team
/-- Packet exception of a fault in a prologue (R368, R369). -/
def prologueCode (cause : Nat) : Nat := if cause / 32 = 3 ∨ cause / 32 = 4 then 10 else 9
/-- Takes a trap (R416, R420): fatal without a handler or inside one; else entered as soon as nothing of the train is on
its way back and no write of its special registers is to be made. -/
def raiseTrap (s : State) (uid : Nat) (p : PTrap) : State :=
  match findTrain s uid with
  | none => s
  | some t =>
    match t.prol with
    | some q => packetFault s q.1 (prologueCode p.cause.toNat) p.cause.toNat
    | none =>
      if !t.thand.getLsbD 40 || t.inHand then fatalTrap s t p
      else if entryWaits s uid then post (modTrain s uid (fun t => { t with trap := some p, sstep := false })) (.trapEntry uid)
      else setTrain s (enterTrain t p)

/-! Outcomes of a run. -/

/-- What the instruction comes to for one active slot: done and at a PC; parked, with the PC it takes if the wait
completes it; or a fault with its info word and address (R416, R418). -/
inductive SlotOut where
  | done (pc : Pc)
  | park (st : SState) (w : Wait) (pc : Pc)
  | fault (c : BitVec 9) (info : Word) (fa : Addr)
  /-- It parks on a walk, still to begin, of a page of span 0. -/
  | walk (page acc : Nat)
  deriving DecidableEq, Repr
/-- Begins the walks that outcomes ask for (R429). -/
def openWalks (s : State) (iss : Issue) (t : Train) (outs : List (Nat × SlotOut)) : State × List (Nat × SlotOut) :=
  outs.foldl (fun r p => match p.2 with
    | .walk page acc =>
      let (id, s) := walkFor r.1 t.core (ctxOf r.1 t) 0 page
      (s, r.2 ++ [(p.1, .park .miss (.miss id acc false) (nextPc iss))])
    | _ => (r.1, r.2 ++ [p])) (s, [])

/-- The outcome of a slot of the run: guarded-off slots, and those not listed, are done. -/
def outOf (iss : Issue) (outs : List (Nat × SlotOut)) (i : Nat) : SlotOut := (afind outs i).getD (.done (nextPc iss))
/-- One slot after the issue: of the run by its outcome; another ready slot counts one issue that left it out (R187). DESIGN
CHOICE (log 40): a slot counts an issue that leaves it out whenever it is ready, also while its run may not issue (R198). -/
def settleSlot (iss : Issue) (outs : List (Nat × SlotOut)) (i : Nat) (x : Slot) : Slot :=
  if inMask iss.slots i then
    match outOf iss outs i with
    | .done pc => slotDone iss pc x
    | .park st w pc => slotPark iss st w pc x
    | .fault _ _ _ | .walk _ _ => slotStay iss x
  else if x.st = .ready then { x with skip := x.skip + 1 } else x
/-- The train after the issue (R187, R190, R203). -/
def settleTrain (now : Nat) (iss : Issue) (t : Train) (outs : List (Nat × SlotOut)) : Train :=
  { mapSlots t (settleSlot iss outs) with aging := 0, canSince := none, lastIss := now, escape := none }
def isFault : SlotOut → Bool
  | .fault _ _ _ => true
  | _ => false
def isDone : SlotOut → Bool
  | .done _ => true
  | _ => false
def faultCause : SlotOut → Option Nat
  | .fault c _ _ => some c.toNat
  | _ => none
/-- The lowest cause among the outcomes (R416). -/
def lowestCause (outs : List (Nat × SlotOut)) : Option Nat :=
  outs.foldl (fun m p => match faultCause p.2, m with
    | some c, some n => some (min c n)
    | some c, none => some c
    | none, m => m) none
/-- The trap that the outcomes make, if any (R416): trap mask, pend mask, addresses, and the info of the lowest slot. DESIGN CHOICE
(log 48): the faulting PC is that of the chain's first word (R418) for the member errors too, whose PC R171 calls the xl word's. -/
def trapOf (iss : Issue) (outs : List (Nat × SlotOut)) : Option PTrap :=
  match lowestCause outs with
  | none => none
  | some c =>
    let is := fun (i : Nat) => match afind outs i with
      | some o => faultCause o == some c
      | none => false
    let info := match outs.find? (fun p => faultCause p.2 == some c) with
      | some (_, .fault _ w _) => w
      | _ => 0#64
    some ⟨BitVec.ofNat 9 c, iss.start, maskOf is,
      maskOf (fun i => match afind outs i with
        | some o => !isDone o
        | none => false), info,
      if c / 32 = 3 ∨ c / 32 = 4 then csetAt [] (outs.filterMap (fun p => match p.2 with
        | .fault _ _ a => some (p.1, a)
        | _ => none)) else []⟩
/-- Slots whose register reads meet a fault (R445), as outcomes. -/
def badOuts (iss : Issue) : List (Nat × SlotOut) := iss.bad.map (fun p => (p.1, .fault (BitVec.ofNat 9 p.2) 0#64 0#80))
/-- Outcomes of slots in ascending order, with those of the registers at fault. -/
def allOuts (iss : Issue) (outs : List (Nat × SlotOut)) : List (Nat × SlotOut) :=
  (List.range 32).filterMap (fun i => match afind (badOuts iss) i with
    | some o => some (i, o)
    | none => (afind outs i).map (fun o => (i, o)))
/-- A slot has not completed the stepped instruction: it is parked at it, or stands ready to make it again. -/
def stepLeft (t : Train) (w : Stepped) (i : Nat) : Bool :=
  inMask w.left i && slotLive (slotAt t i) && ((slotAt t i).st != .ready || (slotAt t i).pc == w.pc)
/-- The stepped instruction has completed for every slot of its run, and the train has slots left. -/
def stepOver (t : Train) : Bool :=
  match t.step with
  | none => false
  | some w => t.slots.any slotLive && !(List.range 32).any (stepLeft t w)
/-- The single step's trap (R424): fpc is the next word that the run would issue, and nothing is to be repeated. -/
def stepTrap (s : State) (t : Train) : State :=
  let w := t.step.getD ⟨0#32, 0#32, 0#40⟩
  let on := t.slots.filter slotLive
  let live := (slotsOf w.run).filter (fun i => slotLive (slotAt t i))
  let pcs := if live.isEmpty then on.map (fun x => x.pc.toNat) else live.map (fun i => (slotAt t i).pc.toNat)
  raiseTrap s t.uid ⟨cause 11 1, BitVec.ofNat 40 (pcs.foldl min (2 ^ 40 - 4)), w.run, 0#32, 0#64, []⟩
/-- The slots of an issue that have completed its word. -/
def stepped (iss : Issue) (t : Train) (outs : List (Nat × SlotOut)) : Mask :=
  maskOf (fun i => inMask iss.slots i && isDone (outOf iss outs i) && decide ((slotAt t i).rcount = 0))
/-- Single step (R424): the first instruction that issues is the one that is stepped, and the trap comes once every slot of its
run has completed it. -/
def stepNote (s : State) (iss : Issue) (uid : Nat) (outs : List (Nat × SlotOut)) : State :=
  match findTrain s uid with
  | none => s
  | some t =>
    if !t.sstep then s
    else
      let done := stepped iss t outs
      let w := match t.step with
        | none => ⟨iss.slots, iss.slots &&& ~~~done, iss.start⟩
        | some w => { w with left := w.left &&& ~~~done }
      let t := { t with step := some w }
      if stepOver t then stepTrap (setTrain s t) t else setTrain s t
/-- Ends the issue: the slots take their outcomes, and a trap is taken (R416). `t` is the train with the effects made. -/
def settle (s : State) (iss : Issue) (t : Train) (outs : List (Nat × SlotOut)) : State :=
  let (s, outs) := openWalks s iss t outs
  let outs := allOuts iss outs
  let s := { setTrain s (settleTrain s.now iss t outs) with iss := none }
  match trapOf iss outs with
  | some p => raiseTrap s t.uid p
  | none => stepNote s iss t.uid outs
/-- Every slot of the run is done, and a trap follows that repeats nothing: sys.trap and sys.brk (R141, R422). -/
def settleTrap (s : State) (iss : Issue) (t : Train) (m : Mask) (c : BitVec 9) : State :=
  match trapOf iss (allOuts iss []) with
  | some _ => settle s iss t []
  | none =>
    raiseTrap { setTrain s (settleTrain s.now iss t []) with iss := none } t.uid ⟨c, iss.start, m, 0#32, 0#64, []⟩
/-- A fault of the whole run (R95, R416): every slot of the run is in both masks. -/
def faultAll (s : State) (iss : Issue) (t : Train) (m : Mask) (c : BitVec 9) (info : Word) : State :=
  settle s iss t ((slotsOf m).map (fun i => (i, .fault c info 0#80)))
/-- The run cannot issue yet and issues again later: it waits in its pipe (R237, R254, R284). -/
def holdRun (s : State) : State := { s with iss := none }

/-! The frame of a meaning. -/

/-- Half-sectors of registers that an instruction reads in a slot (R444: four registers make one): window registers, address
registers, predicates; sys.eret reads the frame. -/
def readHalves (t : Train) (ins : Instr) : List Nat :=
  nub ((fieldsOf ins).flatMap (fun f => if f.rd && isW f.reg then (List.range f.n).map (fun j => (t.B + f.reg.toNat + j) / 4) else []) ++
    (aregsRead ins).map (fun n => aregHalf n.toNat) ++ (if readsPreds ins then [predHalf] else []) ++
    (if ins = .sysEret then (List.range 4).map (fun j => (t.A - 16) / 4 + j) else []))
/-- The slot whose registers an active slot reads: its own, but for rdlane the slot that b names (R127). -/
def readSlot (t : Train) (ins : Instr) (i : Nat) : Nat :=
  match ins with
  | .scalRdlane _ _ b => (readReg t 0 b).toNat
  | _ => i
/-- The fault of a read of half-sectors of a slot's registers: 4:8 poison, 4:9 uncorrectable (R445). -/
def halvesFault (x : Slot) (hs : List Nat) : Option Nat :=
  if x.rcond.isEmpty then none
  else match worst (hs.map (fun h => condRead (aget .clean x.rcond h))) with
    | 1 => some 136
    | 2 => some 137
    | _ => none
/-- The fault of a slot's register reads. -/
def regFault (t : Train) (ins : Instr) (i : Nat) : Option Nat := halvesFault (slotAt t (readSlot t ins i)) (readHalves t ins)
/-- A guard reads a predicate of each slot of the run (R75). -/
def guardReads (g : Guard) : Bool := g.cnt != 0 && g.pred != 0#3
/-- The fault of a slot of the run: of its guard's predicate, or of what it reads where it is active. -/
def slotFault (iss : Issue) (t : Train) (ins : Instr) (i : Nat) : Option Nat :=
  let x := slotAt t i
  let g := issGuard iss x
  match (if guardReads g then halvesFault x [predHalf] else none) with
  | some c => some c
  | none => if guardPass g x then regFault t ins i else none
/-- The slots of the run whose register reads are at fault. -/
def badSlots (iss : Issue) (t : Train) (ins : Instr) : List (Nat × Nat) :=
  (slotsOf iss.slots).filterMap (fun i => (slotFault iss t ins i).map (fun c => (i, c)))
/-- The bank that holds a half-sector of a slot's registers: one of the live banks of the column of the good lane that executes the
slot (R16, R19, R29). DESIGN CHOICE (log 33): where no bank of the column is live, its first, dead as it is. -/
def regBankOf (c : Core) (core resident i h : Nat) : Nat :=
  let lanes := (List.range 32).filter (fun j => c.lanes.getLsbD j)
  let col := lanes.getD (i % max 1 lanes.length) 0
  let bs := ((List.range 64).map (fun j => j / 16 * 512 + col * 16 + j % 16)).filter (fun b => !c.dead.contains b)
  bs.getD (Config.regBank core resident i h % max 1 bs.length) (col * 16)
/-- Records of a half-sector of a slot's registers that is read (R444, R446), and the self-test of its bank (R450). -/
def noteReg (s : State) (t : Train) (i h : Nat) : State :=
  let b := regBankOf (coreOf s t.core) t.core t.resident i h
  let e : ErrRec := { errRec 1 1 t.core (ctxOf s t) with unit := b }
  let tested := fun (s : State) => unitError s t.core (bankUnit t.core b) (.bank t.core b)
  match aget HalfCond.clean (slotAt t i).rcond h with
  | .clean => s
  | .single _ => tested (corrected s (bankUnit t.core b) e)
  | .poison => addErr s { e with kind := 3, cause := 136 }
  | .poisonSingle _ => addErr (tested (corrected s (bankUnit t.core b) e)) { e with kind := 3, cause := 136 }
  | .bad => addErr (tested s) { e with kind := 2, cause := 137 }
/-- Records of the register half-sectors that slots read, and of their guards' predicates. -/
def noteRegsOf (s : State) (iss : Issue) (t : Train) (ins : Instr) (m : Mask) : State :=
  if t.slots.all (fun x => x.rcond.isEmpty) then s
  else
    let s := (slotsOf iss.slots).foldl (fun s i => if guardReads (issGuard iss (slotAt t i)) then noteReg s t i predHalf else s) s
    (nub ((slotsOf m).map (readSlot t ins))).foldl (fun s i => (readHalves t ins).foldl (fun s h => noteReg s t i h) s) s
/-- Those of the active slots of a run. -/
def noteRegs (s : State) (iss : Issue) (t : Train) (ins : Instr) : State := noteRegsOf s iss t ins (activeMask iss t)
/-- Records of register half-sectors of a slot that are written in part: a single error is corrected, an uncorrectable half-sector becomes
poison (R444, R445); the frame of a trap or its return writes them whole. -/
def noteSlotPart (s : State) (t u : Train) (i : Nat) : State :=
  (slotAt t i).rcond.foldl (fun s p =>
    let whole := t.inHand != u.inHand && (decide (1024 ≤ p.1) || decide (t.A ≤ 4 * p.1 + 16))
    if whole || aget HalfCond.clean (slotAt u i).rcond p.1 == p.2 then s
    else match p.2 with
      | .single b | .poisonSingle b => noteReg s (modSlot t i (fun x => { x with rcond := [(p.1, .single b)] })) i p.1
      | .bad => noteReg s t i p.1
      | _ => s) s
/-- Those of the slots of a train, which stood as in `t` before. -/
def noteParts (s : State) (t : Train) : State :=
  if t.slots.all (fun x => x.rcond.isEmpty) then s
  else match findTrain s t.uid with
    | none => s
    | some u => (List.range 32).foldl (fun s i => noteSlotPart s t u i) s
/-- Runs a meaning for the run now issuing: operand faults first, for the whole run (R416); no active slot, no effect
(R22, R113); else the body on the train, with the active slots whose registers are sound. -/
def runIns (ins : Instr) (s : State) (body : State → Issue → Train → Mask → State) : Host.Outcome State Fault Refusal :=
  match s.iss with
  | none => .fault .noRun
  | some iss => match findTrain s iss.tr with
    | none => .fault .noRun
    | some t => match fieldFault t ins with
      | some (d, info) => .next (faultAll s iss t iss.slots (cause 1 d) (BitVec.ofNat 64 info))
      | none =>
        let s := noteRegs s iss t ins
        let iss := { iss with bad := badSlots iss t ins }
        let m := activeMask iss t
        .next (noteParts (if m = 0#32 then settle s iss t [] else body s iss t m) t)

/-- Makes an effect on the train in each active slot, and the run goes on. -/
def slotEffect (ins : Instr) (s : State) (f : Issue → Train → Nat → Slot → Slot) : Host.Outcome State Fault Refusal :=
  runIns ins s (fun s iss t m => settle s iss (mapSlots t (fun i x => if inMask m i then f iss t i x else x)) [])

/-! Slot by slot. -/

/-- State so far and outcomes so far. -/
abbrev Acc := State × List (Nat × SlotOut)
/-- A lower slot waits at the same word, at the same repeat: its pops and pushes come first (R68). -/
def lowerWaits (s : State) (uid i : Nat) (pc : Pc) (rc : Nat) : Bool :=
  match findTrain s uid with
  | none => false
  | some t => (List.range i).any (fun j =>
      let y := slotAt t j
      y.pc == pc && y.rcount == rc && (y.st == .presence || y.st == .miss || y.st == .qport || y.st == .wait))
/-- A lower active slot of this issue parks. -/
def lowerParked (outs : List (Nat × SlotOut)) : Bool :=
  outs.any (fun p => match p.2 with
    | .park _ _ _ | .walk _ _ => true
    | _ => false)
/-- Waits that slots of this train have on a port are looked at again after a push. -/
def wakePort (s : State) (uid q : Nat) : State :=
  match findTrain s uid with
  | none => s
  | some t => (List.range 32).foldl (fun s i => if (slotAt t i).wait = .port q then postOnce s (.queuePortWake uid i) else s) s
/-- The repeats left of a slot as they stand when it parks. -/
def parkCount (iss : Issue) (x : Slot) : Nat := if iss.rep.isSome then repLeft iss x else x.rcount
/-- A slot cannot use its ports yet, or faults on one (R68): ports to pop, and the port to push with its value. -/
def portStop (iss : Issue) (acc : Acc) (t : Train) (i : Nat) (pops : List Nat) (push : Option (Nat × Word)) : Option SlotOut :=
  let s := acc.1
  match pops.findSome? (fun q => match (popChk s t i q).1 with
      | .fault n => some n
      | _ => none) with
  | some n => some (.fault (cause 6 n) 0#64 0#80)
  | none => match pops.find? (fun q => (popChk s t i q).1 == .park) with
    | some q => some (.park .qport (.port q) (nextPc iss))
    | none =>
      let first := (pops ++ (push.map (·.1)).toList).head?
      match first with
      | none => none
      | some q =>
        if lowerParked acc.2 || lowerWaits s t.uid i iss.start (parkCount iss (slotAt t i)) then
          some (.park .qport (.port q) (nextPc iss))
        else match push with
          | none => none
          | some (d, v) => match pushChk (pops.foldl (fun s q => popDo s t.uid i q) s) t i d v with
            | .ok => none
            | .park => some (.park .qport (.port d) (nextPc iss))
            | .walk page acc => some (.walk page acc)
            | .fault n => some (.fault (cause 6 n) 0#64 0#80)
/-- Makes a slot's pops; slots that wait for those ports look again. -/
def makePops (s : State) (uid i : Nat) (pops : List Nat) : State :=
  pops.foldl (fun s q => wakePort (popDo s uid i q) uid q) s

/-- One slot of a vector instruction whose fields name ports: pops checked and made, the result computed, the push checked
and made (R68). -/
def portSlot (ins : Instr) (d : Reg) (f : State → Train → Nat → Word) (acc : Acc) (iss : Issue) (i : Nat) : Acc :=
  match findTrain acc.1 iss.tr with
  | none => acc
  | some t =>
    let s := acc.1
    let pops := popPorts ins
    let v := f s t i
    let push := if isQ d && !(pushPorts ins).isEmpty then some (portOf d, v) else none
    match portStop iss acc t i pops push with
    | some o => (s, acc.2 ++ [(i, o)])
    | none =>
      let s := makePops s iss.tr i pops
      match push with
      | some (q, v) => (wakePort (pushDo s iss.tr i q v) iss.tr q, acc.2)
      | none => (modTrain s iss.tr (fun t => writeW t i d v), acc.2)
/-- A vector instruction with one result word for each active slot, a function of the values that its fields read: the
sources are all read before d is written (R13, R111). -/
def vecOp (ins : Instr) (d : Reg) (f : (Reg → Word) → Word) (s : State) : Host.Outcome State Fault Refusal :=
  runIns ins s (fun s iss t m =>
    if portFree ins then
      settle s iss (mapSlots t (fun i x =>
        if inMask m i && isW d then (putReg x (wIdx t d) (f (readReg t i))) else x)) []
    else
      let r := (slotsOf m).foldl (fun acc i => portSlot ins d (fun s t i => f (readAny s t i)) acc iss i) (s, [])
      match findTrain r.1 iss.tr with
      | none => holdRun r.1
      | some t => settle r.1 iss t r.2)
/-- A vector instruction that changes each active slot itself (a predicate, an address register, its PC), from the values
that its fields read. -/
def vecSlot (ins : Instr) (f : Issue → (Reg → Word) → Slot → Slot) (s : State) : Host.Outcome State Fault Refusal :=
  runIns ins s (fun s iss t m =>
    if portFree ins then
      settle s iss (mapSlots t (fun i x => if inMask m i then f iss (readReg t i) x else x)) []
    else
      let r := (slotsOf m).foldl (fun acc i =>
        let g := fun (s : State) (t : Train) => f iss (readAny s t i)
        let t := findTrain acc.1 iss.tr
        let before := acc.1
        let acc := portSlot ins 127#7 (fun _ _ _ => 0#64) acc iss i
        match t with
        | some t => if (afind acc.2 i).isNone then (modTrain acc.1 iss.tr (fun u => modSlot u i (g before t)), acc.2) else acc
        | none => acc) (s, [])
      match findTrain r.1 iss.tr with
      | none => holdRun r.1
      | some t => settle r.1 iss t r.2)
/-- The same, with flags raised besides: they are merged into fflags once for the run (R50). -/
def vecFlag (ins : Instr) (d : Reg) (f : (Reg → Word) → Word × BitVec 5) (s : State) : Host.Outcome State Fault Refusal :=
  runIns ins s (fun s iss t m =>
    if portFree ins then
      let fl := (slotsOf m).foldl (fun a i => a ||| (f (readReg t i)).2) 0#5
      settle s iss { mapSlots t (fun i x =>
        if inMask m i && isW d then (putReg x (wIdx t d) (f (readReg t i)).1) else x)
        with fflags := t.fflags ||| fl } []
    else
      let r := (slotsOf m).foldl (fun acc i =>
        let fl := match findTrain acc.1 iss.tr with
          | some t => (f (readAny acc.1 t i)).2
          | none => 0#5
        let acc := portSlot ins d (fun s t i => (f (readAny s t i)).1) acc iss i
        if (afind acc.2 i).isNone then (modTrain acc.1 iss.tr (fun t => { t with fflags := t.fflags ||| fl }), acc.2) else acc) (s, [])
      match findTrain r.1 iss.tr with
      | none => holdRun r.1
      | some t => settle r.1 iss t r.2)
/-- The same with flags besides, for a comparison: merged into fflags once for the run (R50, R125). -/
def vecSlotFlag (ins : Instr) (f : (Reg → Word) → Slot → Slot) (fl : (Reg → Word) → BitVec 5) (s : State) :
    Host.Outcome State Fault Refusal :=
  runIns ins s (fun s iss t m =>
    if portFree ins then
      let flags := (slotsOf m).foldl (fun a i => a ||| fl (readReg t i)) 0#5
      settle s iss { mapSlots t (fun i x => if inMask m i then f (readReg t i) x else x) with fflags := t.fflags ||| flags } []
    else
      let r := (slotsOf m).foldl (fun acc i =>
        let before := acc.1
        let t := findTrain before iss.tr
        let acc := portSlot ins 127#7 (fun _ _ _ => 0#64) acc iss i
        match t with
        | some t =>
          if (afind acc.2 i).isNone then
            let rd := readAny before t i
            (modTrain acc.1 iss.tr (fun u => { modSlot u i (f rd) with fflags := u.fflags ||| fl rd }), acc.2)
          else acc
        | none => acc) (s, [])
      match findTrain r.1 iss.tr with
      | none => holdRun r.1
      | some t => settle r.1 iss t r.2)
/-- A uniform instruction: its effect on the train is made once for the run (R113). -/
def uniOp (ins : Instr) (s : State) (f : Train → Mask → Train) : Host.Outcome State Fault Refusal :=
  runIns ins s (fun s iss t m => settle s iss (f t m) [])
/-- The lowest active slot. -/
def lowSlot (m : Mask) : Nat := (slotsOf m).headD 0
/-- Writes the result of a uniform instruction: once to a k register, or to every active slot (R128, R218). -/
def writeUni (t : Train) (m : Mask) (d : Reg) (v : Word) : Train :=
  if isK d then writeK t d v
  else mapSlots t (fun i x => if inMask m i && isW d then (putReg x (wIdx t d) v) else x)

/-! Returning from the handler (R423, R461). -/

/-- An instruction behind its prefixes: the instruction, the PC after it, and the guard and repeat of its chain. -/
structure Behind where
  ins : Instr
  npc : Pc
  grd : Option Guard
  rep : Option Instr
/-- The instruction that stands at a PC behind its prefixes (R77). -/
def behindPrefixes (s : State) (t : Train) : Nat → Pc → Option Nat → Option Guard → Option Instr → Option Behind
  | 0, _, _, _, _ => none
  | n + 1, pc, x, g, r =>
    match fetchWord s t pc with
    | .bad _ _ => none
    | .word w _ _ => match decodeN (if w / 2 ^ 27 = 1 then none else x) w with
      | .ok (.grd c sn p) => behindPrefixes s t n (pc + 4#40) x (some ⟨c.toNat + 1, sn, p⟩) r
      | .ok (.rep a b c d e f k) => behindPrefixes s t n (pc + 4#40) x g (some (.rep a b c d e f k))
      | .ok (.xim e) => behindPrefixes s t n (pc + 4#40) (some e.toNat) g r
      | .ok i => some ⟨i, pc + 4#40, g, r⟩
      | .error _ => none
/-- Word of the frame of a slot (R418), by register number less 16. -/
def savedWord (t : Train) (i n : Nat) : Word := cget (slotAt t i).regs (t.A - 16 + n)
/-- A train word of the frame, by its number (R418). -/
def savedTrain (t : Train) (j : Nat) : Word := savedWord t (j / 4) (12 + j % 4)
/-- State of a slot at resume, by the saved code (R461): a slot of the pend mask makes the instruction at fpc again (R423); the
barrier wait of code 4 is made again without arriving. -/
def resumeSlot (s : State) (t : Train) (i : Nat) (x : Slot) : Slot :=
  if !slotLive x then x else
  let w0 := savedWord t i 0
  let again := (savedTrain t 3).getLsbD i
  let w1 := savedWord t i 1
  let g : Guard := ⟨fld w1 20 4, w1.getLsbD 19, BitVec.ofNat 3 (fld w1 16 3)⟩
  let x := { x with
    pc := if again then t.fpc else BitVec.ofNat 40 (fld w0 0 40), st := .ready, wait := .none, walked := false, skip := 0
    pred := BitVec.ofNat 8 (fld w1 1 7 * 2), guard := if g.cnt = 0 then Guard.none else g, rcount := fld w1 8 7
    areg := csetAt x.areg ((List.range 4).map (fun j =>
      (j, mkAddr (BitVec.ofNat 16 (savedWord t i (3 + 2 * j)).toNat) (savedWord t i (2 + 2 * j)))))
    rcond := if x.rcond.isEmpty then [] else adel (adel (partWrite x (aregHalf 3)) (aregHalf 0)) predHalf }
  if fld w0 40 4 = 7 then { x with st := .exited }
  else if fld w0 40 4 = 4 ∧ again = false then
    match behindPrefixes s t 4 x.pc none none none with
    | some b =>
      let h := match b.ins with
        | .ctlBar h _ => some h.toNat
        | .ctlBarw h => some h.toNat
        | _ => none
      match h with
      | none => x
      | some h =>
        let y := { x with npc := b.npc, nguard := guardStep (b.grd.getD x.guard) }
        if barPassed t h then leaveBar s t h y
        else { y with st := .barrier, wait := .barrier h ((afind t.lastBar h).map (·.1) |>.getD false) }
    | none => x
  else x
/-- The train after sys.eret: registers of the frame back in place, each slot resumed, aging from 0 (R191, R423). -/
def eretTrain (s : State) (t : Train) : Train :=
  let t' := mapSlots t (fun i x => { resumeSlot s t i x with frame := [] })
  { t' with
    k := csetAt t.k ((List.range 8).map (fun j => (j, savedTrain t (10 + j))))
    B := fld (savedTrain t 4) 0 10
    fflags := BitVec.ofNat 5 (fld (savedTrain t 6) 0 5)
    lapsed := (savedTrain t 7).getLsbD 0
    prio := fld (savedTrain t 8) 0 4
    sstep := (savedTrain t 8).getLsbD 8 && debugTrain s t, step := none
    inHand := false, aging := 0, canSince := none, escape := none }
/-- The fault of a sys.eret, if any: a saved PC that is misaligned, or a base that the train cannot take (R423). -/
def eretFault (t : Train) : Option (BitVec 9) :=
  let b := fld (savedTrain t 4) 0 10
  if b % 32 ≠ 0 ∨ t.A ≤ b then some (cause 1 3)
  else if (List.range 32).any (fun i => slotLive (slotAt t i) && decide (fld (savedWord t i 0) 0 40 % 4 ≠ 0)) then some (cause 2 0)
  else none

end Sys2Proof.Machine
end

