-- ==== Sys2Proof/Machine/Iop.lean ====
section
/-! DEFINITION. The iop family: one result for each sub-element (R115 to R117). -/

namespace Sys2Proof.Machine

abbrev Out := Host.Outcome State Fault Refusal

/-- iop addF (R115). -/
def execIopAdd (w : Width) (d a b : Reg) (s : State) : Out := vecOp (.iopAdd w d a b) d (fun rd => map2 w addF (rd a) (rd b)) s
/-- iop subF (R115). -/
def execIopSub (w : Width) (d a b : Reg) (s : State) : Out := vecOp (.iopSub w d a b) d (fun rd => map2 w subF (rd a) (rd b)) s
/-- iop mulF (R115). -/
def execIopMul (w : Width) (d a b : Reg) (s : State) : Out := vecOp (.iopMul w d a b) d (fun rd => map2 w mulF (rd a) (rd b)) s
/-- iop minI (R115). -/
def execIopMinI (w : Width) (d a b : Reg) (s : State) : Out := vecOp (.iopMinI w d a b) d (fun rd => map2 w minI (rd a) (rd b)) s
/-- iop minN (R115). -/
def execIopMinN (w : Width) (d a b : Reg) (s : State) : Out := vecOp (.iopMinN w d a b) d (fun rd => map2 w minN (rd a) (rd b)) s
/-- iop maxI (R115). -/
def execIopMaxI (w : Width) (d a b : Reg) (s : State) : Out := vecOp (.iopMaxI w d a b) d (fun rd => map2 w maxI (rd a) (rd b)) s
/-- iop maxN (R115). -/
def execIopMaxN (w : Width) (d a b : Reg) (s : State) : Out := vecOp (.iopMaxN w d a b) d (fun rd => map2 w maxN (rd a) (rd b)) s
/-- iop addsI (R115). -/
def execIopAddsI (w : Width) (d a b : Reg) (s : State) : Out := vecOp (.iopAddsI w d a b) d (fun rd => map2 w addsI (rd a) (rd b)) s
/-- iop addsN (R115). -/
def execIopAddsN (w : Width) (d a b : Reg) (s : State) : Out := vecOp (.iopAddsN w d a b) d (fun rd => map2 w addsN (rd a) (rd b)) s
/-- iop subsI (R115). -/
def execIopSubsI (w : Width) (d a b : Reg) (s : State) : Out := vecOp (.iopSubsI w d a b) d (fun rd => map2 w subsI (rd a) (rd b)) s
/-- iop subsN (R115). -/
def execIopSubsN (w : Width) (d a b : Reg) (s : State) : Out := vecOp (.iopSubsN w d a b) d (fun rd => map2 w subsN (rd a) (rd b)) s
/-- iop shlF (R115). -/
def execIopShl (w : Width) (d a b : Reg) (s : State) : Out := vecOp (.iopShl w d a b) d (fun rd => map2 w shlF (rd a) (rd b)) s
/-- iop shrF (R115). -/
def execIopShr (w : Width) (d a b : Reg) (s : State) : Out := vecOp (.iopShr w d a b) d (fun rd => map2 w shrF (rd a) (rd b)) s
/-- iop sarF (R115). -/
def execIopSar (w : Width) (d a b : Reg) (s : State) : Out := vecOp (.iopSar w d a b) d (fun rd => map2 w sarF (rd a) (rd b)) s
/-- iop mulhI (R115). -/
def execIopMulhI (w : Width) (d a b : Reg) (s : State) : Out := vecOp (.iopMulhI w d a b) d (fun rd => map2 w mulhI (rd a) (rd b)) s
/-- iop mulhN (R115). -/
def execIopMulhN (w : Width) (d a b : Reg) (s : State) : Out := vecOp (.iopMulhN w d a b) d (fun rd => map2 w mulhN (rd a) (rd b)) s
/-- iop rolF (R115). -/
def execIopRol (w : Width) (d a b : Reg) (s : State) : Out := vecOp (.iopRol w d a b) d (fun rd => map2 w rolF (rd a) (rd b)) s
/-- iop rorF (R115). -/
def execIopRor (w : Width) (d a b : Reg) (s : State) : Out := vecOp (.iopRor w d a b) d (fun rd => map2 w rorF (rd a) (rd b)) s
/-- iop avgN (R115). -/
def execIopAvgN (w : Width) (d a b : Reg) (s : State) : Out := vecOp (.iopAvgN w d a b) d (fun rd => map2 w avgN (rd a) (rd b)) s
/-- iop abs (R115, R117). -/
def execIopAbs (w : Width) (d a : Reg) (s : State) : Out := vecOp (.iopAbs w d a) d (fun rd => map1 w absF (rd a)) s
/-- iop and, over 64 bits (R115). -/
def execIopAnd (d a b : Reg) (s : State) : Out := vecOp (.iopAnd d a b) d (fun rd => rd a &&& rd b) s
/-- iop or, over 64 bits (R115). -/
def execIopOr (d a b : Reg) (s : State) : Out := vecOp (.iopOr d a b) d (fun rd => rd a ||| rd b) s
/-- iop xor, over 64 bits (R115). -/
def execIopXor (d a b : Reg) (s : State) : Out := vecOp (.iopXor d a b) d (fun rd => rd a ^^^ rd b) s
/-- iop andn, over 64 bits (R115). -/
def execIopAndn (d a b : Reg) (s : State) : Out := vecOp (.iopAndn d a b) d (fun rd => rd a &&& ~~~(rd b)) s

end Sys2Proof.Machine
end

