-- ==== Sys2Proof/Machine/Plan.lean ====
section
/-! DEFINITION. What the device does next: which event or train comes, the head run of a train, and the words of a prefix
chain up to the instruction (spec/03 R72 to R77, spec/08 R184 to R191). -/

namespace Sys2Proof.Machine

/-- The next happening: an instruction or event to execute on a state, or a state with nothing more to do in this step. -/
inductive Plan where
  | run (i : Instr) (s : State)
  | next (s : State)

/-! The head run (R185, R187, R136). -/

/-- Two slots share a prefix state at one PC. -/
def sameRun (x y : Slot) : Bool := x.pc == y.pc && x.guard == y.guard && x.rcount == y.rcount
/-- The slot waits between repeats for a slot of its run that has not made the last one (R136; log 7). -/
def repBlocked (t : Train) (x : Slot) : Bool :=
  x.rcount != 0 && t.slots.any (fun y => slotLive y && y.pc == x.pc && y.guard == x.guard && y.rcount == x.rcount + 1)
def canRun (t : Train) (x : Slot) : Bool := x.st == .ready && !repBlocked t x
/-- The ready slots of a run with a slot. -/
def runOf (t : Train) (x : Slot) : Mask := maskOf (fun i => canRun t (slotAt t i) && sameRun x (slotAt t i))
/-! The words of a chain (R72 to R77). -/

/-- The next word cannot be fetched (R430, R445): `level` goes to the info word of a class 3 cause. -/
def fetchFault (s : State) (iss : Issue) (t : Train) (c level : Nat) : State :=
  let ctx := ctxOf s t
  let va := (t.cbase + iss.wpc.toNat) % 2 ^ 64
  let fwd := ((findCtx s ctx).map (fun x => spanFwd s x 0)).getD false
  -- an entry that the core's buffer holds fails without a walk
  let walks := (c ≠ 107 && c ≠ 119) || (tlbMiss s t.core ctx 0 va 4).isSome
  if c / 32 = 3 ∧ fwd = true ∧ walks = true ∧ (slotsOf iss.slots).any (fun i => !(slotAt t i).walked) then
    let (id, s) := walkFor s t.core ctx 0 (va / 65536)
    settle s iss t ((slotsOf iss.slots).map (fun i => (i, .park .miss (.miss id accFetch false) iss.start)))
  else
    settle (noteFetch s t.core ctx t.cbase iss.wpc.toNat accFetch c) { iss with start := iss.wpc } t ((slotsOf iss.slots).map (fun i =>
      (i, .fault (BitVec.ofNat 9 c) (if c / 32 = 3 then BitVec.ofNat 64 level else 0#64) (mkAddr 0#16 (BitVec.ofNat 64 va)))))
/-- The guard that runs for the slots of a run. -/
def runGuard (iss : Issue) (t : Train) : Guard := (slotAt t (lowSlot iss.slots)).guard
/-- Kinds of prefix already in the chain, by number (R72, R77). -/
def prefixKind : Instr → Option Nat
  | .rep _ _ _ _ _ _ _ => some 0
  | .grd _ _ _ => some 1
  | .xim _ => some 2
  | _ => none
/-- Faults of a prefix word in its place (R75, R77). -/
def prefixFault (iss : Issue) (t : Train) (k : Nat) : Option Nat :=
  if iss.kinds.contains k then some 17 else if k = 1 ∧ (runGuard iss t).cnt ≠ 0 then some 18 else none
/-- Faults of an instruction behind its prefixes (R74, R75). -/
def placeFault (iss : Issue) (t : Train) (i : Instr) : Option Nat :=
  if isJump i ∧ 1 < (iss.grd.getD (runGuard iss t)).cnt then some 18
  else iss.rep.bind (fun r => repFault r i)

/-- Faults of a word's place, which are judged on its form even where a higher detail is at fault (R94): 17 and 18 of a prefix,
or those of an instruction behind its prefixes. -/
def wordPlace (iss : Issue) (t : Train) (w : Nat) : Option Nat :=
  if wf_ w 27 5 = 1 then (if wf_ w 24 3 ≤ 2 then prefixFault iss t (wf_ w 24 3) else none)
  else (shapeN w).bind (placeFault iss t)
/-- The instruction of a word in its place, or the lowest detail at fault (R94). -/
def placed (iss : Issue) (t : Train) (w : Nat) : Except Nat Instr :=
  match decodeN (if wf_ w 27 5 = 1 then none else iss.ext.map (·.toNat)) w with
  | .error d => .error (match wordPlace iss t w with
      | some n => min d n
      | none => d)
  | .ok i => match (if wf_ w 27 5 = 1 then (prefixKind i).bind (prefixFault iss t) else placeFault iss t i) with
    | some d => .error d
    | none => .ok i

/-- Forms that the prologue unit admits (R368). -/
def prologueOk : Instr → Bool
  | .sysNop | .sysLcommit | .sysLcancel | .sysLrepeat | .bra _ _ _ | .adrAddai _ _ _ => true
  | .limmIns d _ _ | .limmSet d _ _ | .limmSets d _ _ => isK d
  | .scalAdd d a b | .scalSub d a b | .scalMul d a b | .scalAnd d a b | .scalOr d a b | .scalXor d a b | .scalShl d a b
  | .scalShr d a b | .scalSar d a b | .scalMinI d a b | .scalMinN d a b | .scalMaxI d a b | .scalMaxN d a b =>
    [d, a, b].all (fun r => isK r || isZ r)
  | .cmp _ _ (.int _) _ a b => [a, b].all (fun r => isK r || isZ r)
  | .adrMovawImm _ a _ => isK a || isZ a
  | .ld ty scr o d _ _ => !scr && o == .plain && isK d && (ty == .b8 || ty == .b16 || ty == .b32 || ty == .b64)
  | .st ty scr o d _ _ => !scr && o == .plain && isK d && (ty == .b8 || ty == .b16 || ty == .b32 || ty == .b64)
  | _ => false
/-- Majors that the prologue's table names (R368). -/
def prologueMajor (w : Nat) : Bool := [0, 3, 8, 10, 11, 17, 19, 22].contains (w / 2 ^ 27)
/-- Cause of a word that the prologue unit does not admit (R368): what a core raises for it, by its encoding or by the kinds of
register that it names, else 0:1. -/
def prologueCause (t : Train) (w : Nat) : Nat :=
  match decodeN none w with
  | .error d => d
  | .ok i => match fieldFault { t with A := 1024, B := 0 } i with
    | some (d, _) => 32 + d
    | none => if prologueMajor w then 1 else 0

/-- The pipe in which an instruction issues: 1 the uniform pipe, 0 the vector pipe (R78). -/
def pipeOf : Instr → Nat
  | .sysSrd d _ _ => if isW d || isQ d then 0 else 1
  | .limmIns d _ _ | .limmSet d _ _ | .limmSets d _ _ | .ld _ _ _ d _ _ | .st _ _ _ d _ _ => if isK d then 1 else 0
  | .sysNop | .sysExit | .sysTrap _ | .sysEret | .sysBrk | .sysSwr _ _ _ | .sysFence _ _ | .sysSpin | .sysWaitw _ _ _ | .sysYield
  | .sysDlaunch _ | .sysLcommit | .sysLcancel | .sysLrepeat | .ctlWin _ | .ctlOsalloc _ _ _ _ | .ctlOsfree _ | .ctlBar _ _
  | .ctlBarr _ _ | .ctlBarw _ | .ctlPrio _ | .ctlMigr _ | .ctlQbind _ _ | .ctlQunbind _ | .ctlQlen _ _ | .scalAdd _ _ _
  | .scalSub _ _ _ | .scalMul _ _ _ | .scalAnd _ _ _ | .scalOr _ _ _ | .scalXor _ _ _ | .scalShl _ _ _ | .scalShr _ _ _
  | .scalSar _ _ _ | .scalMinI _ _ _ | .scalMinN _ _ _ | .scalMaxI _ _ _ | .scalMaxN _ _ _ | .scalRdlane _ _ _ | .scalBcast _ _
  | .acpCopy _ _ | .acpFill _ _ | .acpRing _ _ | .acpPfill _ _ | .mxRes _ _ | .mxRel _ | .mxWld _ _ | .mxTask _ | .mxDep _ _ => 1
  | _ => 0
/-- Passes of a vector instruction: the most active slots on one good lane (R17). -/
def passes (c : Core) (m : Mask) : Nat :=
  ((List.range (goodLanes c)).map (fun k => ((slotsOf m).filter (fun i => i % goodLanes c == k)).length)).foldl max 0
/-! Members of an xl instruction (R169, R170). -/

/-- The members without an explicit mask. -/
def xlImplicit (t : Train) (qx : Bool) : Mask :=
  maskOf (fun i => slotLive (slotAt t i) || (qx && decide ((slotAt t i).st = .helper)))
/-- The member set, and whether a k register names it (R169). -/
def xlMembers (t : Train) (qx : Bool) (mk : Option (BitVec 5)) : Bool × Mask :=
  match mk with
  | none => (false, xlImplicit t qx)
  | some k =>
    let raw := cget t.k k.toNat
    (true, maskOf (fun i => raw.getLsbD i && decide ((slotAt t i).st ≠ .absent) && (qx || decide ((slotAt t i).st ≠ .helper))))
/-- The slots that wait at an xl word with a repeat count and a guard: those of one prefix state make one run (R170, R185). -/
def xlWaiting (t : Train) (pc : Pc) (rc : Nat) (g : Guard) : Mask :=
  maskOf (fun i => match (slotAt t i).wait with
    | .member _ _ p h => p == pc && (slotAt t i).rcount == rc && h == g
    | _ => false)
/-- The slots that wait at the word now issuing and make one run with it. -/
def xlWaits (iss : Issue) (t : Train) : Mask :=
  xlWaiting t iss.wpc (if iss.rep.isSome then repLeft iss (slotAt t (lowSlot iss.slots)) else 0) (issGuard iss (slotAt t (lowSlot iss.slots)))
/-- The guard under which a slot of the merged run makes the word. -/
def xlGuard (iss : Issue) (t : Train) (i : Nat) : Guard :=
  match (slotAt t i).wait with
  | .member _ _ _ g => if inMask iss.slots i then issGuard iss (slotAt t i) else g
  | _ => issGuard iss (slotAt t i)
/-- The active slots of the merged run. -/
def xlAct (iss : Issue) (t : Train) : Mask :=
  maskOf (fun i => inMask (iss.slots ||| xlWaits iss t) i && guardPass (xlGuard iss t i) (slotAt t i))
/-- The helpers that are members, which are active for qx alone (R18, R176). -/
def xlHelpers (t : Train) (qx : Bool) (m : Mask) : Mask := maskOf (fun i => qx && inMask m i && decide ((slotAt t i).st = .helper))
/-- An xl instruction: whether it is qx, and the k register of its members. -/
def xlForm : Instr → Option (Bool × Option (BitVec 5))
  | .xlShfl _ _ _ _ mk | .xlShflx _ _ _ _ mk | .xlShflu _ _ _ _ mk | .xlShfld _ _ _ _ mk | .xlBal _ _ mk | .xlVoteAny _ _ mk
  | .xlVoteAll _ _ mk | .xlVoteEq _ _ _ mk | .xlRed _ _ _ _ mk | .xlScan _ _ _ _ _ mk => some (false, mk)
  | .xlQx _ _ _ mk => some (true, mk)
  | _ => none
/-- The active slots of a vector issue: an xl word issues once, for the merged run and, for qx, its helpers; a run that only arrives
has none (R18, R170). -/
def issueMask (iss : Issue) (t : Train) (i : Instr) : Mask :=
  match xlForm i with
  | none => activeMask iss t
  | some (qx, mk) =>
    let m := (xlMembers t qx mk).2
    if maskOf (fun i => inMask m i && slotLive (slotAt t i)) &&& ~~~(iss.slots ||| xlWaits iss t) ≠ 0#32 then 0#32
    else xlAct iss t ||| xlHelpers t qx m

/-- The address and size of a slot's scratch access. -/
def scrSpan (s : State) (t : Train) (i : Nat) : Instr → Option (Addr × Nat)
  | .ld ty true _ _ an off => some (effAddr t i an (off.signExtend 64 * BitVec.ofNat 64 (ldBytes ty)), ldBytes ty)
  | .ldx ty true _ _ an x off =>
    some (effAddr t i an ((readAny s t i x + off.signExtend 64) * BitVec.ofNat 64 (ldBytes ty)), ldBytes ty)
  | .st ty true _ _ an off => some (effAddr t i an (off.signExtend 64 * BitVec.ofNat 64 (stBytes ty)), stBytes ty)
  | .stx ty true _ _ an x off =>
    some (effAddr t i an ((readAny s t i x + off.signExtend 64) * BitVec.ofNat 64 (stBytes ty)), stBytes ty)
  | .stPoison true _ an off => some (effAddr t i an (off.signExtend 64 * 32#64), 32)
  | .atomAdd w .scratch _ _ an _ | .atomMinI w .scratch _ _ an _ | .atomMinN w .scratch _ _ an _ | .atomMaxI w .scratch _ _ an _
  | .atomMaxN w .scratch _ _ an _ | .atomAnd w .scratch _ _ an _ | .atomOr w .scratch _ _ an _ | .atomXor w .scratch _ _ an _
  | .atomSwap w .scratch _ _ an _ | .atomCas w .scratch _ _ an _ | .atomFadd w .scratch _ _ an _ => some (readA t i an, atomBytes w)
  | _ => none
/-- The activity of an issue: the passes of a vector instruction, and the scratch lines that it touches (R17, R32, R384). -/
def noteIssue (s : State) (iss : Issue) (t : Train) (i : Instr) : State :=
  let m := issueMask iss t i
  let ls := nub ((slotsOf m).flatMap (fun j => match scrSpan s t j i with
    | some (a, n) => linesOf (addrOff a) n
    | none => []))
  if pipeOf i = 0 ∨ !ls.isEmpty then
    noteTok s { coreTok (ctxOf s t) t.team t.core with
      vec := if pipeOf i = 0 then passes (coreOf s t.core) m else 0
      lines := ls.length }
  else s
/-- Reads the next word of the chain: a prefix or the instruction to execute, or the fault it makes. -/
def chainStep (s : State) (iss : Issue) : Plan :=
  match findTrain s iss.tr with
  | none => .next { s with iss := none }
  | some t =>
    match fetchWord s t iss.wpc with
    | .bad c lv =>
      .next (if t.prol.isSome then faultAll (noteFetch s 0xFF (ctxOf s t) t.cbase iss.wpc.toNat accRead c) iss t iss.slots (BitVec.ofNat 9 c) 0#64 else fetchFault s iss t c lv)
    | .word w key ver =>
      let s := { (if t.prol.isNone then fillICache s t.core (ctxOf s t) key ver else s) with iss := some iss }
      let flt := fun (d : Nat) => Plan.next (faultAll s iss t iss.slots (cause 0 d) 0#64)
      match t.prol with
      | some p =>
        match decodeN none w with
        | .ok i =>
          if prologueOk i then
            .run i (modTrain s t.uid (fun t => { t with prol := some (p.1, p.2.1, p.2.2.1, p.2.2.2 + 1) }))
          else .next (packetFault { s with iss := none } p.1 9 (prologueCause t w))
        | .error _ => .next (packetFault { s with iss := none } p.1 9 (prologueCause t w))
      | none =>
        match placed iss t w with
        | .error d => flt d
        | .ok i =>
          if wf_ w 27 5 = 1 then .run i s
          else
            let i := atRepeat iss.rep (repLeft iss (slotAt t (lowSlot iss.slots))) i
            .run i (noteIssue s iss t i)
/-- The issue that starts at a run. -/
def issueOf (t : Train) (x : Slot) : Issue := ⟨t.uid, runOf t x, x.pc, x.pc, [], none, none, none, []⟩

/-! The choice of the run (R185, R187, R198). -/

/-- Instructions under the whole-train rule (R198, R423). -/
def wholeTrain : Instr → Bool
  | .ctlBar _ _ | .ctlBarr _ _ | .ctlBarw _ | .ctlMigr _ | .sysEret => true
  | _ => false
/-- A parked slot stands at a lower PC than the run (R198). -/
def parkedBelow (t : Train) (x : Slot) : Bool :=
  t.slots.any (fun y => slotLive y && y.st != .ready && decide (y.pc.toNat < x.pc.toNat))
/-- The instruction that a run makes next, as far as its words can be read. -/
def runInstr (s : State) (t : Train) (x : Slot) : Option Instr :=
  (behindPrefixes s t 4 x.pc none none none).map (fun b =>
    atRepeat b.rep (match b.rep with
      | some (.rep _ _ _ _ _ _ c) => if x.rcount = 0 then c.toNat + 1 else x.rcount
      | _ => 1) b.ins)
/-- A run can be chosen: not one that the whole-train rule holds back, which the runs behind it pass by (R198, R192). -/
def mayHead (s : State) (t : Train) (x : Slot) : Bool :=
  canRun t x && !(parkedBelow t x && ((runInstr s t x).map wholeTrain).getD false)
/-- The slot whose skip count calls for the escape: at the lowest PC (R187). -/
def escapeSlot (s : State) (t : Train) : Option Nat :=
  ((List.range 32).filter (fun i => decide (256 ≤ (slotAt t i).skip) && mayHead s t (slotAt t i))).foldl (fun b i => match b with
    | none => some i
    | some j => if (slotAt t i).pc.toNat < (slotAt t j).pc.toNat then some i else some j) none
/-- An instruction of a train that has come back with a fault, some slots of which are still to make it: they alone go on, so that its
faults are reported together (R416). -/
def lateIns (s : State) (uid : Nat) : Option Nat :=
  (s.reqs.find? (fun r => r.tr == uid && r.replied && r.flt != 0)).map (·.grp)
/-- The slot whose run is the train's next issue: of the escape under way or called for, or the lowest at the smallest PC
(R185, R187). -/
def headSlot (s : State) (t : Train) : Option Slot :=
  match lateIns s t.uid with
  | some g => t.slots.find? (fun x => x.again == g && canRun t x)
  | none => match t.escape with
  | some i => if canRun t (slotAt t i) then some (slotAt t i) else none
  | none => match escapeSlot s t with
    | some i => some (slotAt t i)
    | none => (t.slots.filter (mayHead s t)).foldl (fun b x => match b with
      | none => some x
      | some y => if x.pc.toNat < y.pc.toNat then some x else some y) none

/-! When a train can issue (R25, R198, R301). -/

/-- Registers that replies still owe a train: of its window's allocation, of k, and its ports. -/
def owedW (s : State) (uid : Nat) : List Nat :=
  s.reqs.flatMap (fun r => if r.tr = uid ∧ r.replied = false then (match r.dst with
    | .w n p => if p then [n, n + 1] else [n]
    | _ => []) else [])
def owedK (s : State) (uid : Nat) : List Nat :=
  s.reqs.flatMap (fun r => if r.tr = uid ∧ r.replied = false then (match r.dst with
    | .k n p => if p then [n, n + 1] else [n]
    | _ => []) else [])
def owedQ (s : State) (uid : Nat) : List Nat :=
  s.reqs.flatMap (fun r => if r.tr = uid ∧ r.replied = false then (match r.dst with
    | .q n => [n]
    | _ => []) else [])
/-- The instruction names a register that a reply still owes (R25). -/
def dependent (s : State) (t : Train) (i : Instr) : Bool :=
  let fs := (fieldsOf i).filter (fun f => f.rd || f.wr)
  let regs := fun (f : Fld) => (List.range f.n).map (fun j => f.reg.toNat + j)
  fs.any (fun f =>
    (isW f.reg && (regs f).any (fun r => (owedW s t.uid).contains (t.B + r))) ||
    (isK f.reg && (regs f).any (fun r => (owedK s t.uid).contains (r - 96))) ||
    (isQ f.reg && (owedQ s t.uid).contains (portOf f.reg))) ||
  ((maskReg i).map (fun k => (owedK s t.uid).contains k)).getD false
/-- Instructions that access memory, a barrier object or the bridle tree as a slot's own access (R299, R409). -/
def isAccess : Instr → Bool
  | .ld _ _ _ _ _ _ | .ldx _ _ _ _ _ _ _ | .st _ _ _ _ _ _ | .stPoison _ _ _ _ | .stx _ _ _ _ _ _ _ | .sysWaitw _ _ _
  | .atomAdd _ _ _ _ _ _ | .atomMinI _ _ _ _ _ _ | .atomMinN _ _ _ _ _ _ | .atomMaxI _ _ _ _ _ _ | .atomMaxN _ _ _ _ _ _
  | .atomAnd _ _ _ _ _ _ | .atomOr _ _ _ _ _ _ | .atomXor _ _ _ _ _ _ | .atomSwap _ _ _ _ _ _ | .atomCas _ _ _ _ _ _
  | .atomFadd _ _ _ _ _ _ | .boInit _ _ | .boExpect _ _ | .boArrive _ _ | .boWait _ _ | .boTest _ _ | .boErr _ _
  | .ctlBarw _ | .btEnroll _ _ _ | .btUnenroll _ | .btReparent _ _ | .btSettle _ _ | .btRead _ _ | .btCmp _ _ _ => true
  | _ => false
/-- A slot of the run has a read on its way that an acquire of it waits for, and its later accesses wait (R301). -/
def acqPending (s : State) (uid : Nat) (m : Mask) : Bool :=
  s.reqs.any (fun r => r.tr == uid && !r.replied && inMask m r.slot && r.blk.isSome)
/-- A load or bt request on its way would be delivered a fault: its train goes no further, so that the trap is precise (log 8). -/
def loadFaulty (s : State) (uid : Nat) : Bool :=
  s.reqs.any (fun r => r.tr == uid && !r.replied && (match r.kind with
    | .load _ _ _ | .atom _ _ _ _ _ _ => r.flt != 0 || (match readHome s (r.keys.zip r.keyIds) with
        | .bad _ => true
        | .ok _ => false)
    | .bt op => r.flt != 0 || (match (findTrain s uid).map (fun t => btFault s (ctxOf s t) op) with
        | some (some _) => true
        | _ => false)
    | _ => false))
/-- Instructions that wait for every reply of their train: they replace or move the registers. -/
def needsReplies : Instr → Bool
  | .sysEret | .ctlMigr _ | .ctlOsalloc _ _ .reg _ => true
  | _ => false
/-- An instruction that reads the register of a slot outside its run (R127). -/
def readsLane : Instr → Bool
  | .scalRdlane _ _ _ => true
  | _ => false
/-- The registers that an instruction reads or writes, its member mask among them (R25, R76). -/
def namedFlds (i : Instr) : List Fld :=
  (fieldsOf i).filter (fun f => (f.rd || f.wr) && !isZ f.reg) ++
    ((maskReg i).map (fun k => (⟨2, BitVec.ofNat 7 (96 + k), ⟨false, true, false, false⟩, 1, true, false, false⟩ : Fld))).toList
def fldsMeet (f g : Fld) : Bool := decide (f.reg.toNat < g.reg.toNat + g.n ∧ g.reg.toNat < f.reg.toNat + f.n)
/-- The instruction names a register that another one, at which slots of the train are parked on presence, on a walk or on a
port, has yet to write (R25, R127, R238). What a slot parked on a port has yet to write, only a k register or a read of another
slot's register can be. -/
def parkedOwes (s : State) (t : Train) (x : Slot) (i : Instr) : Bool :=
  let mine := namedFlds i
  !mine.isEmpty && t.slots.any (fun y =>
    let port := match y.wait with
      | .port _ => true
      | _ => false
    (match y.wait with
      | .presence _ => true
      | .miss _ acc _ => acc != accFetch
      | _ => port) && y.pc != x.pc &&
    ((runInstr s t y).map (fun j => (fieldsOf j).any (fun g => g.wr && !isZ g.reg && (!port || isK g.reg || readsLane i) &&
      mine.any (fldsMeet g)))).getD false)
/-- The prologue unit goes on once its accesses are done; what writes memory goes behind what the I/O die has queued (R303, R368). -/
def prologueReady (s : State) (t : Train) (i : Instr) : Bool :=
  !s.reqs.any (fun r => r.tr == t.uid) && (ioClear s || (match i with
    | .st _ _ _ _ _ _ | .sysLcommit | .sysLcancel | .sysLrepeat => false
    | _ => true))
/-- The run of a train can issue now, as far as the model keeps time. -/
def runReady (s : State) (t : Train) (x : Slot) : Bool :=
  match runInstr s t x with
  | none => true
  | some i =>
    !dependent s t i && !parkedOwes s t x i && !(isAccess i && acqPending s t.uid (runOf t x)) && !(wholeTrain i && parkedBelow t x) &&
      !(needsReplies i && awaiting s t.uid) && (t.prol.isNone || prologueReady s t i)
/-- The train can issue. -/
def canIssue (s : State) (t : Train) : Bool :=
  !t.halted && !t.retired && t.trap.isNone && t.migr == .none && !swrPending s t.uid && !loadFaulty s t.uid && !(t.sstep && stepOver t) &&
    (match t.prol with
      | some p => decide (p.2.2.2 < 4096)
      | none => true) &&
    (match headSlot s t with
      | some x => runReady s t x
      | none => false)

/-! The choice among trains (R189 to R191). -/

/-- The pipe that the train's next instruction needs; a word that cannot be read counts for the vector pipe. -/
def trainPipe (s : State) (t : Train) : Nat := (((headSlot s t).bind (runInstr s t)).map pipeOf).getD 0

def effPrio (t : Train) : Nat := if t.inHand then 15 else min 15 (t.prio + t.aging)
/-- The trains of a core that may be chosen: one that has yielded, only where every other with a ready run has yielded too (R139). -/
def unyielded (ts : List Train) : List Train :=
  let out := ts.filter (fun t => t.yieldTo == 0)
  if out.isEmpty then ts else out
/-- The train that a core's selector picks for a pipe among those that can issue in it (R189). -/
def selectTrain (s : State) (core pipe : Nat) (ts : List Train) : Option Train :=
  let ts := unyielded ts
  let p := (ts.map effPrio).foldl max 0
  let ts := ts.filter (fun t => effPrio t == p)
  let last := aget 0 (coreOf s core).lasts (16 * pipe + p)
  let low := fun (l : List Train) => l.foldl (fun b t => match b with
    | none => some t
    | some u => if t.uid < u.uid then some t else some u) (none : Option Train)
  match low (ts.filter (fun t => decide (last < t.uid))) with
  | some t => some t
  | none => low ts
/-- Keeps the choice that a core's selector made for a pipe (R189), and ends the chosen train's time of not being chosen (R190). -/
def noteChoice (s : State) (core pipe : Nat) (t : Train) : State :=
  if t.prol.isSome then s
  else modTrain (modCore s core (fun c => { c with lasts := aset c.lasts (16 * pipe + effPrio t) t.uid })) t.uid
    (fun t => { t with canSince := none })
/-- The time since when a train has been able to issue without being chosen (R190); a train that cannot issue has none. -/
def sinceAble (s : State) (t : Train) : Option Nat :=
  if t.prol.isNone && canIssue s t && Config.timingReady s.tick t.uid then some (t.canSince.getD s.now) else none
/-- Keeps that time for every train, at each choice. -/
def trackAble (s : State) : State := { s with trains := s.trains.map (fun t => { t with canSince := sinceAble s t }) }
/-- A train that can issue and has gone 4,096 cycles without being chosen (R190). -/
def agingDue (s : State) : Option Nat :=
  (s.trains.find? (fun t => !t.inHand && decide (t.prio + t.aging < 15) && (match t.canSince with
    | some c => decide (c + 4096 ≤ s.now) && (sinceAble s t).isSome
    | none => false))).map (·.uid)
/-- Work of the retention sequencer that is due: an expired granule not yet marked, or a KEEP granule with a bit error
that a refresh read finds (R38, R224, R454). -/
def sequencerDue (s : State) : List Instr :=
  s.teams.flatMap (fun tm =>
    (tm.wrote.filterMap (fun p => if !tm.marked.contains p.1 && (expired s.now tm p.1).isSome then
        some (Instr.retentionMarkExpired tm.id p.1) else none)) ++
    (tm.scond.filterMap (fun p => match p.2 with
      | .single _ | .poisonSingle _ | .bad => match anyAlloc tm (32 * p.1) with
        | some a => if a.ret = .keep then some (Instr.retentionRefresh tm.id (p.1 / 8)) else none
        | none => none
      | _ => none)) ++
    (teamTrains s tm.id).flatMap (fun t => (List.range 32).filterMap (fun i =>
      if (slotAt t i).rcond.any (fun p => p.2 != .clean && p.2 != .poison) then
        some (Instr.retentionRefresh tm.id (65536 * (t.idx + 1) + i)) else none)))
/-- Teams whose yielding begins or ceases (R381). -/
def yieldDue (s : State) : List Instr :=
  s.teams.filterMap (fun tm =>
    let ts := teamTrains s tm.id
    let yth := ((findCtx s tm.ctx).map (·.budget.yth.toNat)).getD 20
    let y := !ts.isEmpty && ts.all (fun t => match t.declared with
      | some d => decide (d + yth * Config.us < s.now)
      | none => false)
    if tm.life == .resident && y != tm.yielded then some (Instr.teamYield tm.id) else none)

/-- Runs of a prologue that have issued 4,096 instructions (R369). -/
def runawayDue (s : State) : List Instr :=
  s.trains.filterMap (fun t => match t.prol with
    | some p => if 4096 ≤ p.2.2.2 then some (Instr.prologueRunaway t.uid) else none
    | none => none)

/-- Trains whose stepped instruction has completed after a wait (R424). -/
def stepDue (s : State) : List Instr :=
  s.trains.filterMap (fun t => if t.sstep && stepOver t && !t.halted && t.trap.isNone then some (Instr.trapEntry t.uid) else none)

/-- Requests that the host, the policy core or the environment makes from outside. -/
def isInput : Instr → Bool
  | .contextCreate _ | .budgetWrite _ _ | .hostAccess _ | .keySlotLoad _ | .attestationReport _ | .auditSet _ _ _
  | .bitError _ _ | .queueMap _ _ _ | .queueUnmap _ | .queueRemap _ _ _ | .wakeWrite _ _ _ | .contextStop _
  | .contextSuspend _ | .contextResume _ | .contextTeardown _ | .faultServiceReply _ _ _ | .translationInvalidate _ _ _
  | .dailyReplan | .selfTestComplete _ _ | .remoteAccessTimeout _ => true
  | _ => false

/-- A request of the policy core that passes pages to another context waits until the writes on their way to them have landed
(R455). -/
def inputWaits (s : State) : Instr → Bool
  | .translationInvalidate ctx pa e => passWaits s ctx pa e
  | .contextCreate c => writesTo s (createHit s c)
  | .faultServiceReply id pa (some e) => ((s.walks.find? (fun w => w.id == id)).map (fun w => passWaits s w.ctx pa e)).getD false
  | _ => false

/-! The front end's places (R357). -/

/-- The queue that an event of a packet goes on with. -/
def eventQueue : Instr → Option Nat
  | .packetWindowFetch q | .packetNop q | .packetLaunch q | .packetLaunch2 q | .packetIb q | .packetPred q | .packetLoop q
  | .packetFfence q | .packetWaitmem q | .packetWrite q | .packetSignalBobj q | .packetSignalWake q => some q
  | _ => none
/-- A prologue unit runs for the queue. -/
def inPrologue (s : State) (slot : Nat) : Bool := s.trains.any (fun t => t.prol.map (·.1) == some slot)
/-- The packet in progress waits: for a word, for the queue's launches, or for a prologue unit (R358, R361, R364, R366). -/
def queueBlocked (s : State) (q : QSlot) : Bool :=
  q.watch.isSome || (q.busy && match q.window with
    | p :: _ => ((bitsN p.hdr 24 1 == 1 || bitsN p.hdr 0 8 == 6) && !q.launches.isEmpty) ||
        (bitsN p.hdr 0 8 == 2 && !inPrologue s q.slot && decide (4 ≤ (s.trains.filter (fun t => t.prol.isSome)).length))
    | [] => false)
/-- The queue has something to process, and nothing to wait for. -/
def queueRuns (s : State) (q : QSlot) : Bool :=
  q.state == 1 && !q.frozen && !queueBlocked s q &&
    (inPrologue s q.slot || s.agenda.any (fun i => eventQueue i == some q.slot))
/-- The waiting queue that is served next: the highest prio, and in it the next slot after the one served last. -/
def nextQueue (s : State) (ws : List QSlot) : Option QSlot :=
  let p := (ws.map (·.prio)).foldl max 0
  let ws := ws.filter (fun q => q.prio == p)
  let low := fun (l : List QSlot) => l.foldl (fun b q => match b with
    | none => some q
    | some u => if q.slot < u.slot then some q else some u) (none : Option QSlot)
  match low (ws.filter (fun q => decide (aget 0 s.lastServed p ≤ q.slot))) with
  | some q => some q
  | none => low ws
/-- Gives up to a number of places to queues that wait. -/
def fillPlaces : Nat → State → State
  | 0, s => s
  | n + 1, s => match nextQueue s (s.queues.filter (fun q => queueRuns s q && !s.served.contains q.slot)) with
    | none => s
    | some q => fillPlaces n { s with served := s.served ++ [q.slot], lastServed := aset s.lastServed q.prio (q.slot + 1) }
/-- A queue that blocks or runs dry gives up its place, and the 64 places are filled (R357). -/
def serve (s : State) : State :=
  let keep := s.served.filter (fun n => ((findQ s n).map (queueRuns s)).getD false)
  fillPlaces (64 - keep.length) { s with served := keep }
/-- The event of a queue that waits for a place. -/
def unserved (s : State) (i : Instr) : Bool :=
  ((eventQueue i).bind (findQ s)).any (fun q => queueRuns s q && !s.served.contains q.slot)

/-- What may come next. -/
inductive Opt where
  | agenda (n : Nat)
  | input
  | own (i : Instr)
  | issue (core pipe : Nat) (cands : List Train)
  deriving DecidableEq, Repr

/-- Trains that can issue, for each pipe of each core, and each prologue unit on its own. -/
def issueOpts (s : State) : List Opt :=
  let can := s.trains.filter (canIssue s)
  let cores := nub ((can.filter (fun t => t.prol.isNone)).map (·.core))
  cores.flatMap (fun c =>
    let mine := unyielded (can.filter (fun t => t.core == c && t.prol.isNone))
    [0, 1].filterMap (fun p =>
      let l := mine.filter (fun t => trainPipe s t == p)
      if l.isEmpty then none else some (Opt.issue c p l))) ++
    (can.filter (fun t => t.prol.isSome)).map (fun t => Opt.issue 256 0 [t])
def options (s : State) : List Opt :=
  ((s.agenda.zipIdx).filter (fun p => !unserved s p.1)).map (fun p => Opt.agenda p.2) ++
    (if s.inputs.isEmpty || (s.inputs.take 1).any (inputWaits s) then [] else [Opt.input]) ++
    (sequencerDue s ++ yieldDue s ++ runawayDue s ++ stepDue s).map Opt.own ++ issueOpts s
/-- Carries an option out. -/
def takeOpt (s : State) : Opt → Plan
  | .agenda n => match s.agenda[n]? with
    | some i => .run i { s with agenda := s.agenda.eraseIdx n }
    | none => .next s
  | .input => match s.inputs with
    | i :: r => if isInput i then .run i { s with inputs := r } else .next { s with inputs := r }
    | [] => .next s
  | .own i => .run i s
  | .issue core pipe cands =>
    let ready := if 1 < cands.length then cands.filter (fun t => Config.timingReady s.tick t.uid) else cands
    match selectTrain s core pipe (if ready.isEmpty then cands else ready) with
    | none => .next s
    | some t =>
      let s := noteChoice s core pipe t
      match escapeSlot s t, t.escape with
      | some _, none => .run (.escapeIssue t.uid) s
      | _, _ => match headSlot s t with
        | none => .next s
        | some x => chainStep s (issueOf t x)
/-- Time passes (log 5), the counter of free values goes on (log 6), and the front end's places are filled (R357). -/
def advance (s : State) : State := serve { s with tick := s.tick + 1, now := s.now + Config.elapse s.tick }
/-- The next happening of the device. -/
def plan (s : State) : Plan :=
  let s := advance s
  match s.iss with
  | some iss => chainStep s iss
  | none =>
    let due := agingDue s
    let s := trackAble s
    match due with
    | some u => .run (.agingStep u) s
    | none => match options s with
      | [] => .next s
      | [o] => takeOpt s o
      | os => takeOpt s (os.getD (Config.pick s.tick os.length % os.length) (.agenda 0))

end Sys2Proof.Machine
end

