-- ==== Sys2Proof/Machine/Wake.lean ====
section
/-! DEFINITION. The front end's own accesses to memory, and wake writes (spec/17 R355, R359, R373). -/

namespace Sys2Proof.Machine

/-- A read by the front end, served by the writes on their way from the I/O die and else at the home: its bytes, or the cause of the
fault (R314, R316, R359). -/
def feRead (s : State) (ctx span off n : Nat) : Except Nat (List Byte) :=
  match transNow s ctx span off n accRead with
  | .error (t, _) => .error (96 + 4 * t)
  | .ok kv => match readDie s 4 kv with
    | .bad d => .error (128 + d)
    | .ok bs => .ok bs
/-- Records of the half-sectors that the front end reads (R444). -/
def feNote (s : State) (ctx span off n : Nat) : State :=
  if s.mcond.isEmpty then s
  else match transNow s ctx span off n accRead with
    | .error _ => s
    | .ok kv => noteHalves s 0xFF ctx span (nub (kv.map (fun p => p.1 / 32)))
/-- A front-end read must wait for a write that the I/O die has queued to its bytes (R314, R359). -/
def feBehind (s : State) (ctx span off n : Nat) : Bool :=
  match transNow s ctx span off n accRead with
  | .error _ => false
  | .ok kv => ioBehind s (kv.map (·.1))
/-- Writes translated bytes at their home, with the increments of sectors (R314, R402). -/
def putHome (s : State) (w : Who) (kv : List (Nat × Nat)) (bs : List Byte) (sects : List (Nat × Nat)) : State :=
  bridleIncs (writeKeyed (unclock s (kv.map (·.1))) w kv bs) sects
/-- The same for an access of the host: an increment for each sector (R401). -/
def putAt (s : State) (ctx span off : Nat) (kv : List (Nat × Nat)) (bs : List Byte) : State :=
  putHome s ⟨0xFF, ctx, span⟩ kv bs (sectorsOf ctx span off bs.length)
/-- A write by the front end, a release at system scope, with one increment (R359, R401); a partial write of an uncorrectable
half-sector is a fault. DEDUCED (log 39): that of a prologue store across two sectors is made at the sector of its first byte. -/
def feWrite (s : State) (ctx span off : Nat) (bs : List Byte) : Except Nat State :=
  match transNow s ctx span off bs.length accWrite with
  | .error (t, _) => .error (96 + 4 * t + 1)
  | .ok kv =>
    if kv.any (fun p => aget HalfCond.clean s.mcond (p.1 / 32) == .bad) then .error 129
    else .ok (putHome s ⟨0xFF, ctx, span⟩ kv bs ((sectorsOf ctx span off bs.length).take 1))
/-- A write by the front end that has met an uncorrectable half-sector leaves it poisoned, with its record (R445, R446). -/
def feMark (s : State) (ctx span off n : Nat) : State :=
  match transNow s ctx span off n accWrite with
  | .error _ => s
  | .ok kv => (nub (kv.map (fun p => p.1 / 32))).foldl (fun s h =>
      if aget HalfCond.clean s.mcond h = .bad then
        addErr { s with mcond := setCond s.mcond h .poison } { halfRec 2 0xFF ctx span h with cause := 129 }
      else s) s

/-- A wake reaches a saved descriptor (R373): wptr rises and pend is set, in one update. -/
def savedWake (s : State) (q : QSlot) (v : Nat) : State :=
  match transNow s q.ctx 0 (q.desc.toNat + 24) 16 accWrite with
  | .error _ => s
  | .ok kv => match readHome s kv with
    | .bad _ => s
    | .ok bs =>
      let w := max (leN (bs.take 8)) v
      let r := leN (bs.drop 8)
      writeKeyed s (.front q.ctx) kv (bytesN 8 w ++ bytesN 8 (r / 2 * 2 + 1))
/-- A wake write to a queue slot by a context (R355, R371, R373, R375). -/
def wakeQueue (s : State) (ctx slot v : Nat) : State :=
  let drop := addErr s (errRec 10 0 0xFF ctx)
  match findQ s slot with
  | none => drop
  | some q =>
    if q.ctx ≠ ctx ∨ q.state = 0 then drop
    else if q.state = 2 then savedWake (modQ s slot (fun q => { q with wptr := max q.wptr v, pend := true })) q v
    else if q.frozen then modQ s slot (fun q => { q with heldWakes := q.heldWakes ++ [v] })
    else
      let s := modQ s slot (fun q => { q with wptr := max q.wptr v })
      if q.state = 1 ∧ q.busy = false then postOnce s (.packetWindowFetch slot) else s

end Sys2Proof.Machine
end

