-- ==== Sys2Proof/Machine/Access.lean ====
section
/-! DEFINITION. One memory access of one slot: addresses, checks, translation, requests, and what a release waits for
(spec/09 R228 to R243, spec/12 R299 to R314). -/

namespace Sys2Proof.Machine

/-- A fault of the address class of a slot: type and access, with the level for its info word (R415, R418). -/
def addrFault (type acc level : Nat) (a : Addr) : SlotOut := .fault (cause 3 (4 * type + acc)) (BitVec.ofNat 64 level) a
/-- A fault of the data of a load or atomic (R236). -/
def dataFault (d : Nat) (a : Addr) : SlotOut := .fault (cause 4 d) 0#64 a
/-- A misaligned access, found before any lookup (R241, R146, R235). -/
def misaligned (acc : Nat) (a : Addr) : SlotOut := addrFault 3 acc 5 a

/-- What the lookup of a device access finds: its locations, a walk to wait for, the wake window, or a fault. -/
inductive Look where
  | ok (kv : List (Nat × Nat))
  | park (id : Nat)
  | window
  | bad (type level : Nat)
/-- Looks up a device access of a slot through the translation buffer; after a failed walk, through the tables (R242,
R243, R426, R430). -/
def devLook (s : State) (t : Train) (x : Slot) (a : Addr) (n acc : Nat) : Look × State :=
  let ctx := ctxOf s t
  let kind := ((findCtx s ctx).map (fun c => bitsN (spanEntry s c (addrSpan a)) 0 3)).getD 0
  if kind = 4 then (.window, s)
  else if x.walked then
    match transNow s ctx (addrSpan a) (addrOff a) n acc with
    | .ok kv => (.ok kv, s)
    | .error (ty, l) => (.bad ty l, s)
  else match tlbMiss s t.core ctx (addrSpan a) (addrOff a) n with
    | some p =>
      let (id, s) := walkFor s t.core ctx (addrSpan a) p
      (.park id, s)
    | none => match transTlb s t.core ctx (addrSpan a) (addrOff a) n acc with
      | .ok kv => (.ok kv, s)
      | .error (ty, l) => (.bad ty l, s)
/-- Parts of an access by the 64-byte lines it touches: place and length (R232). -/
def lineParts (off n : Nat) : List (Nat × Nat) :=
  if off % 64 + n ≤ 64 then [(0, n)] else [(0, 64 - off % 64), (64 - off % 64, n - (64 - off % 64))]

/-! Waiting for earlier accesses (R301). -/

/-- Reads of a slot that are not yet performed. -/
def readsOut (s : State) (uid i : Nat) : Bool :=
  s.reqs.any (fun r => r.tr == uid && r.slot == i && !r.replied && (match r.kind with
    | .store _ | .poison => false
    | _ => true))
/-- A write is performed at a scope, as its slot knows it: in its die stage where that makes it visible, else acknowledged. -/
def writeDone (sc : Scope) (r : Req) : Bool :=
  if scopeNum sc = 0 then true
  else if earlyVisible r && decide (scopeNum sc ≤ 3) then decide (r.stage ≠ .fresh) else r.acked
/-- Writes of a slot that are not yet performed at a scope. -/
def writesOut (s : State) (uid i : Nat) (sc : Scope) : Bool :=
  s.reqs.any (fun r => r.tr == uid && r.slot == i && isWrite r && !writeDone sc r)
/-- What a rel or full fence at a scope, or a release store, waits for. -/
def relPending (s : State) (uid i : Nat) (sc : Scope) : Bool :=
  scopeNum sc != 0 && (readsOut s uid i || writesOut s uid i sc)
/-- What a fence waits for in a slot. -/
def fencePending (s : State) (uid i : Nat) (k : FenceKind) (sc : Scope) : Bool :=
  match k with
  | .acq => scopeNum sc != 0 && readsOut s uid i
  | _ => relPending s uid i sc
/-- Scope of a strong or ordered access. -/
def ordScope : Ord → Scope
  | .plain => .thr
  | .strong s => s
  | .ordered s => s
def isOrdered : Ord → Bool
  | .ordered _ => true
  | _ => false

/-! Requests (R295, R314). -/

/-- Line requests that a core has outstanding (R243). -/
def lineLoad (s : State) (core : Nat) : Nat := (s.reqs.filter (fun r => r.core == core && !(r.replied && r.acked))).length
/-- Where a reply goes. -/
def dstOf (t : Train) (d : Reg) (pair : Bool) : Dst :=
  if isW d then .w (wIdx t d) pair else if isK d then .k (d.toNat - 96) pair else if isQ d then .q (portOf d) else .none
/-- The instruction that a slot makes: the one that it has parked at, or the one now issuing. -/
def insOf (x : Slot) (grp : Nat) : Nat := if x.again = 0 then grp else x.again
/-- A request of a slot for the instruction now issuing. -/
def mkReq (ctx : Nat) (iss : Issue) (t : Train) (i : Nat) (x : Slot) (id grp : Nat) (kind : ReqKind) (ord : Ord) (dst : Dst) (va : Addr)
    (kv : List (Nat × Nat)) (sects : List (Nat × Nat)) (after : List Nat) : Req :=
  { id := id, tr := t.uid, slot := i, core := t.core, kind := kind, ord := ord, dst := dst, va := va, keys := kv.map (·.1), cover := [],
    keyIds := kv.map (·.2), sects := sects, stage := .fresh, entry := 0, acked := false, replied := false, after := after,
    rel := relWith id x.rel, pc := iss.start, guard := x.guard, rcount := if iss.rep.isSome then repLeft iss x else x.rcount,
    grp := grp, flt := 0, blk := none, link := .clean, ctx := ctx }
/-- Writes already made by this instruction that a further write of it overlaps: the later stands (R231). -/
def grpOver (s : State) (grp : Nat) (keys : List Nat) : List Nat :=
  (s.reqs.filter (fun r => r.grp == grp && isWrite r && overlap r.keys keys)).map (·.id)
/-- The writes that come before an atomic of a slot: what happens before it, and those that the slot has seen there (R303, R311); the
atomics of one instruction come in any order (R7, R240). -/
def beforeOf (s : State) (x : Slot) (keys : List Nat) : List Nat :=
  nub (x.hb ++ x.seen.filter (fun i => s.reqs.any (fun r => r.id == i && overlap r.keys keys)))
/-- The writes that come before a store of a slot: also those of its own instruction that it overlaps (R231). -/
def afterOf (s : State) (grp : Nat) (x : Slot) (keys : List Nat) : List Nat := nub (beforeOf s x keys ++ grpOver s grp keys)
/-- Marks the parts of a store, the requests behind the first `old`, whose slots write half-sectors whole together (R234). -/
def markCover (s : State) (old : Nat) : State :=
  let ks := nub ((s.reqs.drop old).flatMap (·.keys))
  let hs := (nub (ks.map (· / 32))).filter (fun h => decide ((ks.filter (fun k => k / 32 == h)).length = 32))
  if hs.isEmpty then s
  else { s with reqs := s.reqs.take old ++ (s.reqs.drop old).map (fun r => { r with cover := hs }) }
/-- An acquire load makes its slot's later accesses wait for every read that is still out (R301). -/
def blockReads (s : State) (uid i : Nat) (sc : Scope) : State :=
  { s with reqs := s.reqs.map (fun r =>
      if r.tr == uid && r.slot == i && !r.replied && (match r.kind with
          | .store _ | .poison => false
          | _ => true) then { r with blk := some (match r.blk with
            | some b => if scopeNum b ≤ scopeNum sc then sc else b
            | none => sc) } else r) }
/-- Sends the load of a slot: one request for each line. -/
def sendLoad (s : State) (iss : Issue) (t : Train) (i : Nat) (grp : Nat) (ty : LdTy) (ord : Ord) (dst : Dst) (a : Addr)
    (n : Nat) (kv : List (Nat × Nat)) : State :=
  let x := slotAt t i
  let s := (lineParts (addrOff a) n).foldl (fun s p =>
    let (id, s) := fresh s
    post { s with reqs := s.reqs ++ [mkReq (ctxOf s t) iss t i x id (insOf x grp) (.load ty p.1 none) ord dst a ((kv.drop p.1).take p.2) [] (x.hb ++ x.seen)] }
      (.loadReply id)) s
  if isOrdered ord then blockReads s t.uid i (ordScope ord) else s
/-- Sends the store of a slot, by lines. -/
def sendStore (s : State) (iss : Issue) (t : Train) (i : Nat) (grp : Nat) (ord : Ord) (a : Addr) (data : List Byte)
    (kv : List (Nat × Nat)) : State :=
  let x := slotAt t i
  (lineParts (addrOff a) data.length).foldl (fun s p =>
    let (id, s) := fresh s
    let kv := (kv.drop p.1).take p.2
    let sects := sectorsOf (ctxOf s t) (addrSpan a) ((addrOff a + p.1) % 2 ^ 64) p.2
    post { s with reqs := s.reqs ++ [mkReq (ctxOf s t) iss t i x id grp (.store ((data.drop p.1).take p.2)) ord .none a kv sects
      (afterOf s grp x (kv.map (·.1)))] } (.writeHomeApply id)) s

/-! What a load waits for (R303, R304, R312, R314). -/

/-- The load is served at the home port (R314). -/
def homeLoad (r : Req) : Bool := decide (4 ≤ scopeNum (ordScope r.ord))
/-- A write is visible to a load of a die. -/
def seenBy (r w : Req) : Bool :=
  w.stage == .applied || (!homeLoad r && earlyVisible w && onWay w && dieOf w.core == dieOf r.core)
/-- The load must still wait: for a write of its own slot or one that happens before it, for an earlier read of its own slot,
or, at the home, for what its die has queued. -/
def loadBlocked (s : State) (r : Req) : Bool :=
  s.reqs.any (fun w => w.id != r.id && overlap w.keys r.keys &&
    ((isWrite w && !seenBy r w &&
        ((w.tr == r.tr && w.slot == r.slot && decide (w.id < r.id)) || r.after.contains w.id ||
          (homeLoad r && onWay w && dieOf w.core == dieOf r.core))) ||
     (w.tr == r.tr && w.slot == r.slot && decide (w.id < r.id) && w.grp != r.grp && !w.replied && (match w.kind with
        | .load _ _ none => true
        | _ => false))))

/-! The slots of one instruction. -/

/-- A lower slot of the same instruction has yet to push to the port of this load (R230). -/
def lowerPush (s : State) (uid i : Nat) (pc : Pc) (rc : Nat) (q : Nat) : Bool :=
  (s.reqs.any (fun r => r.tr == uid && decide (r.slot < i) && r.pc == pc && r.rcount == rc && !r.replied && r.dst == .q q)) ||
  lowerWaits s uid i pc rc
/-- The request delivers a value to a register or port, in its own time. -/
def hasReply (r : Req) : Bool :=
  match r.kind with
  | .store _ | .poison => false
  | _ => true

/-! Late faults (R236, R416; log 8). -/

/-- The trap of requests that have come back with faults, the first of them `r0`; the slots `still` have parked at the instruction and
not made it (R416). -/
def latePTrap (bad : List Req) (r0 : Req) (still : Mask) : PTrap :=
  let c := bad.foldl (fun m r => min m r.flt) r0.flt
  let is := bad.filter (fun r => r.flt == c)
  ⟨BitVec.ofNat 9 c, r0.pc, maskOf (fun i => is.any (fun r => r.slot == i)), maskOf (fun i => bad.any (fun r => r.slot == i)) ||| still, 0#64,
    if c / 32 = 3 ∨ c / 32 = 4 then csetAt [] (bad.map (fun r => (r.slot, r.va))) else []⟩
/-- Further slots of one instruction are at fault: the lowest cause is reported, and every slot at fault is in the pend mask
(R405, R416, R432). -/
def mergeTrap (q p : PTrap) : PTrap :=
  let low := if p.cause.toNat < q.cause.toNat then p else q
  { low with
    tmask := if p.cause = q.cause then q.tmask ||| p.tmask else low.tmask, pmask := q.pmask ||| p.pmask,
    faddr := if low.cause.toNat / 32 = 3 ∨ low.cause.toNat / 32 = 4 then q.faddr ++ p.faddr else [] }
/-- The slots of a train that have parked at an instruction and are still to make it. -/
def matesOf (t : Train) (grp : Nat) : List Nat :=
  if grp = 0 then [] else (List.range 32).filter (fun i => slotLive (slotAt t i) && (slotAt t i).again == grp)
/-- A slot stands again at the instruction of its request. -/
def standAt (r : Req) (x : Slot) : Slot :=
  { x with pc := r.pc, guard := r.guard, rcount := r.rcount, st := .ready, wait := .none, walked := false, again := 0 }
/-- Requests of an instruction that have come back with faults. -/
def lateBad (s : State) (tr grp : Nat) : List Req := s.reqs.filter (fun r => r.tr == tr && r.grp == grp && hasReply r && r.flt != 0 && r.replied)
def dropBad (s : State) (tr grp : Nat) : State :=
  { s with reqs := s.reqs.filter (fun r => !(r.tr == tr && r.grp == grp && hasReply r && r.flt != 0)) }
/-- Once every reply of an instruction's requests is there, and no slot of it waits for a walk or makes it again, the faults among
them make one trap: their slots stand at the instruction again. Where a trap of the same instruction waits for its entry, they
join it. -/
def lateSettle (s : State) (tr grp : Nat) : State :=
  let bad := lateBad s tr grp
  if bad.isEmpty || s.reqs.any (fun r => r.tr == tr && r.grp == grp && hasReply r && !r.replied) then s
  else match findTrain s tr with
    | none => dropBad s tr grp
    | some t =>
      let mates := matesOf t grp
      if t.trap.isNone && mates.any (fun i => (slotAt t i).st == .miss || (slotAt t i).st == .ready) then s
      else
        let s := dropBad s tr grp
        let bad := bad.filter (fun r => slotLive (slotAt t r.slot))
        match bad.head? with
        | none => s
        | some r0 =>
          let s := setTrain s (bad.foldl (fun t r => modSlot t r.slot (standAt r)) t)
          let p := latePTrap bad r0 (maskOf (fun i => mates.contains i))
          match t.trap with
          | none => raiseTrap s tr p
          | some q => if t.tgrp = grp then modTrain s tr (fun t => { t with trap := some (mergeTrap q p) }) else s
/-- A trap that waits for its entry is that of the instruction with these requests: late faults of it join it (R416). -/
def tagTrap (s : State) (uid grp : Nat) : State :=
  modTrain s uid (fun t => if t.trap.isSome then { t with tgrp := grp } else t)
/-- The walk that a parked slot, or one that now parks, waits for. -/
def waitWalk (w : Wait) : Option Nat :=
  match w with
  | .miss id _ false => some id
  | _ => none
def outWalk (o : SlotOut) : Option Nat :=
  match o with
  | .park _ w _ => waitWalk w
  | _ => none
/-- While a slot of the instruction waits for a walk no fault of it is reported: its slots at fault wait with it, and make their
access again once the walk has ended (R416). -/
def heldOuts (iss : Issue) (id : Nat) (outs : List (Nat × SlotOut)) : List (Nat × SlotOut) :=
  outs.map (fun p => if isFault p.2 then (p.1, .park .miss (.miss id accRead true) (nextPc iss)) else p)
/-- Ends slot accesses, some of which park or fault: the slots of one instruction report their faults together, those that have come
back late with them, and all that have not made it are in the pend mask (R416). -/
def settleOuts (s : State) (iss : Issue) (t : Train) (grp : Nat) (m : Mask) (outs : List (Nat × SlotOut)) : State :=
  let (s, outs) := openWalks s iss t outs
  let gs := (nub ((slotsOf m).map (fun i => insOf (slotAt t i) grp))).filter (· ≠ 0)
  let mates := (gs.flatMap (matesOf t)).filter (fun i => !inMask iss.slots i)
  let walk := match outs.findSome? (fun p => outWalk p.2) with
    | some id => some id
    | none => mates.findSome? (fun i => waitWalk (slotAt t i).wait)
  let outs := match walk with
    | some id => heldOuts iss id outs
    | none => outs
  let mark := mapSlots t (fun i x => if inMask iss.slots i && (afind outs i).isSome then { x with again := insOf x grp } else x)
  if !outs.any (fun p => isFault p.2) then gs.foldl (fun s g => lateSettle s iss.tr g) (settle s iss mark outs)
  else
    let bad := (gs.flatMap (lateBad s iss.tr)).filter (fun r => slotLive (slotAt t r.slot))
    let s := gs.foldl (fun s g => dropBad s iss.tr g) s
    let mark := bad.foldl (fun t r => modSlot t r.slot (standAt r)) mark
    let outs := outs ++ mates.map (fun i => (i, SlotOut.park (slotAt t i).st (slotAt t i).wait (nextPc iss))) ++
      bad.map (fun r => (r.slot, SlotOut.fault (BitVec.ofNat 9 r.flt) 0#64 r.va))
    tagTrap (settle s iss mark outs) iss.tr (((outs.find? (fun p => isFault p.2)).map (fun p => insOf (slotAt t p.1) grp)).getD grp)
/-- Ends an instruction of slot accesses, with the number of its requests: outcomes to the slots; a store or atomic that was made
ends a declared wait (R147). -/
def settleAcc (iss : Issue) (writes : Bool) (grp : Nat) (m : Mask) (r : Acc) : State :=
  match findTrain r.1 iss.tr with
  | none => holdRun r.1
  | some t =>
    let made := writes && (slotsOf m).any (fun i => (afind r.2 i).isNone)
    let t := if made then { t with declared := none } else t
    match allOuts iss r.2 with
    | [] => tagTrap (settle r.1 iss t []) iss.tr grp
    | outs => settleOuts r.1 { iss with bad := [] } t grp m outs
/-- The active slots that access: all, or the lowest for a uniform access (R230, R231). -/
def accSlots (uniform : Bool) (m : Mask) : List Nat := if uniform then (slotsOf m).take 1 else slotsOf m
/-- Puts an outcome. -/
def Acc.out (r : Acc) (i : Nat) (o : SlotOut) : Acc := (r.1, r.2 ++ [(i, o)])
/-- Presence and bounds of a scratch access of a slot (R228, R238). -/
def scrCheck (iss : Issue) (tm : Team) (a : Addr) (n : Nat) : Option SlotOut :=
  if !inScratch tm (addrOff a) n then some (.fault (cause 5 4) 0#64 0#80)
  else
    let ls := (linesOf (addrOff a) n).filter (lineAbsent tm)
    if ls.isEmpty then none else some (.park .presence (.presence ls) (nextPc iss))

end Sys2Proof.Machine
end

