-- ==== Sys2Proof/Machine/Acp.lean ====
section
/-! DEFINITION. The instructions that issue engine commands: acp and mx.wld (spec/09 R254 to R258, spec/11 R276). -/

namespace Sys2Proof.Machine

/-- A fault that the lowest active slot reports, with every active slot in the pend mask (R254, R285). -/
def lowFault (s : State) (iss : Issue) (t : Train) (m : Mask) (c : BitVec 9) (info : Word) (fa : Addr) : State :=
  settle s iss t ((slotsOf m).map (fun i =>
    (i, if i = lowSlot m then .fault c info fa else .park .ready .none iss.start)))
/-- An object operand: none for zr (R254). -/
def objOperand (t : Train) (b : Reg) : Option Nat := if isZ b then none else some (readReg t 0 b).toNat
/-- A command with its descriptor location in a and its object in b (R254). -/
def cmdOp (ins : Instr) (fn : CmdFn) (a b : Reg) (s : State) : Out :=
  runIns ins s (fun s iss t m =>
    match cmdIssue s t fn (readReg t 0 a) (objOperand t b) with
    | .trap c d =>
      if c = 4 then lowFault (descNote s t fn (readReg t 0 a) c) iss t m (cause c d) 0#64 (mkAddr 0#16 (BitVec.ofNat 64 (fld (readReg t 0 a) 0 63)))
      else faultAll s iss t m (cause c d) 0#64
    | .wait => holdRun s
    | .go s => match findTrain s iss.tr with
      | none => holdRun s
      | some t => postOnce (settle s iss t []) (.copyStart t.core))
/-- acp.copy (R256). -/
def execAcpCopy (a b : Reg) (s : State) : Out := cmdOp (.acpCopy a b) .copy a b s
/-- acp.fill (R256). -/
def execAcpFill (a b : Reg) (s : State) : Out := cmdOp (.acpFill a b) .fill a b s
/-- acp.ring (R258). -/
def execAcpRing (a b : Reg) (s : State) : Out := cmdOp (.acpRing a b) .ring a b s
/-- acp.pfill (R257). -/
def execAcpPfill (a b : Reg) (s : State) : Out := cmdOp (.acpPfill a b) .pfill a b s
/-- mx.wld (R276). -/
def execMxWld (a b : Reg) (s : State) : Out := cmdOp (.mxWld a b) .wld a b s

end Sys2Proof.Machine
end

