-- ==== Sys2Proof/Machine/Mx.lean ====
section
/-! DEFINITION. Reservations, and the instructions that feed the tile-task scheduler (spec/11 R268 to R274, R285, R286). -/

namespace Sys2Proof.Machine

/-! Reservations (R268, R272, R273). -/

/-- A reservation request is well formed (R268, R272). -/
def resvOk (q : Word) : Bool :=
  let kind := fld q 62 2
  let fmt := fld q 58 4
  decide (kind ≠ 3 ∧ fld q 0 24 = 0) &&
    (if kind = 2 then decide (fmt = 10 ∧ fld q 50 8 = 0) else [8, 9, 12, 13, 14].contains fmt)
/-- Reservations that stand on a core. -/
def coreResvs (s : State) (core : Nat) : List Resv := (s.teams.filter (fun tm => onCore tm core)).flatMap (·.resv)
/-- The lowest free range of the operand buffer that holds `n` bytes (R272). -/
def resvPlace (rs : List Resv) (n : Nat) : Option Nat :=
  let fits := fun (b : Nat) => decide (b + n ≤ 1048576) && rs.all (fun r => decide (b + n ≤ r.base ∨ r.base + r.len ≤ b))
  ((0 :: rs.map (fun r => r.base + r.len)).filter fits).foldl (fun m b => match m with
    | none => some b
    | some k => some (min k b)) none
/-- A reservation from its request. -/
def resvMake (n base : Nat) (q : Word) : Resv :=
  ⟨n, fld q 62 2, fld q 58 4, sInt 8 (fld q 50 8), fld q 38 12 + 1, (fld q 24 14 + 1) * 64, base, [], []⟩
/-- mx.res (R272). -/
def execMxRes (d a : Reg) (s : State) : Out :=
  runIns (.mxRes d a) s (fun s iss t m =>
    match findTeam s t.team with
    | none => holdRun s
    | some tm =>
      let q := readReg t 0 a
      if !resvOk q then faultAll s iss t m (cause 7 2) 0#64
      else
        let rs := coreResvs s t.core
        let place := if 64 ≤ tm.resv.length ∨ 64 ≤ rs.length then none else resvPlace rs ((fld q 24 14 + 1) * 64)
        let num := findBelow 64 (fun n => (resvOf tm n).isNone)
        match place, num with
        | some base, some n =>
          let s := setTeam s { tm with resv := tm.resv ++ [resvMake n base q] }
          settle s iss { writeUni t m d (BitVec.ofNat 64 n) with declared := none } []
        | _, _ => settle s iss { writeUni t m d 0xFFFFFFFFFFFFFFFF#64 with declared := none } [])
/-- The reservation that a wld command names, as its descriptor stands. -/
def wldRes (s : State) (tm : Team) (c : Cmd) : Option Nat :=
  let bs := match c.desc with
    | some bs => some bs
    | none => match recRead s tm c.loc 64 accRead with
      | .ok bs => some bs
      | _ => none
  (bs.bind wldD).map (·.res)
/-- A reservation is named by a task or an mx.wld that has not ended (R273). -/
def resvBusy (s : State) (tm : Team) (n : Nat) : Bool :=
  (teamTasks s tm.id).any (fun k =>
    let r := recOf k.snap
    r.ares == n || r.bres == n || (r.op == 1 && r.cres == n)) ||
  (teamCmds s tm.id).any (fun c => c.fn == .wld && wldRes s tm c == some n)
/-- mx.rel (R273). -/
def execMxRel (a : Reg) (s : State) : Out :=
  runIns (.mxRel a) s (fun s iss t m =>
    match findTeam s t.team with
    | none => holdRun s
    | some tm =>
      let n := (readReg t 0 a).toNat
      if (resvOf tm n).isNone then faultAll s iss t m (cause 7 3) 0#64
      else if resvBusy s tm n then faultAll s iss t m (cause 7 4) 0#64
      else
        let s := setTeam s { tm with resv := tm.resv.filter (fun r => decide (r.num ≠ n)) }
        reconsider (settle s iss { t with declared := none } []))

/-! mx.task and mx.dep (R281, R285). -/

/-- The record address of a form. -/
def taskLoc (t : Train) (m : Mask) (an : R3) : Addr := readA t (lowSlot m) an
/-- The address names a record (R285). -/
def taskLocOk (tm : Team) (va : Addr) : Bool := decide ((aSpan va).toNat = 0) && recLocOk tm (aOff va)
/-- The record read of a form: its bytes, or the fault of the lowest slot. -/
def taskRead (s : State) (iss : Issue) (t : Train) (tm : Team) (m : Mask) (va : Addr) : State ⊕ (State × List Byte) :=
  let rd := recRead s tm (aOff va) 64 accRead
  let s := recNote s tm (aOff va) 64
  match rd with
  | .addr ty l => .inl (lowFault s iss t m (cause 3 (4 * ty)) (BitVec.ofNat 64 l) va)
  | .data d => .inl (lowFault s iss t m (cause 4 d) 0#64 va)
  | .ok bs => match recRead s tm (aOff va) 8 accAtomic with
    | .addr ty l => .inl (lowFault s iss t m (cause 3 (4 * ty + accAtomic)) (BitVec.ofNat 64 l) va)
    | _ => .inr (s, bs)
/-- The record's page misses the core's translation buffer: the run parks until the walk has ended (R243, R429); after a failed walk
the access is made and faults (R430). -/
def recMiss (s : State) (iss : Issue) (t : Train) (tm : Team) (m : Mask) (loc : Word) (acc : Nat) : Option State :=
  if loc.getLsbD 63 || (slotAt t (lowSlot m)).walked then none
  else (tlbMiss s t.core tm.ctx 0 (fld loc 0 63) 64).map (fun p =>
    let (id, s) := walkFor s t.core tm.ctx 0 p
    settle s iss t ((slotsOf iss.slots).map (fun i => (i, .park .miss (.miss id acc false) iss.start))))
/-- mx.task (R285): it waits in the uniform pipe for its train's writes, and for room when its record would be enqueued. -/
def execMxTask (an : R3) (s : State) : Out :=
  runIns (.mxTask an) s (fun s iss t m =>
    match findTeam s t.team with
    | none => holdRun s
    | some tm =>
      let va := taskLoc t m an
      if !taskLocOk tm va then faultAll s iss t m (cause 7 5) 0#64
      else if !(cmdNeed s t).isEmpty || recAbsent tm (aOff va) then holdRun s
      else match recMiss s iss t tm m (aOff va) accAtomic with
      | some s => s
      | none => match taskRead s iss t tm m va with
        | .inl s => s
        | .inr (s, bs) => match taskFault tm bs with
          | some d => faultAll s iss t m (cause 7 d) 0#64
          | none =>
            if (recOf bs).count = 0 ∧ readyRoom s t.core = false then holdRun s
            else
              let l := recLapsed s tm (aOff va)
              let s := armRecord s tm t (aOff va) (leN (bs.take 8))
              match findTrain s iss.tr with
              | none => holdRun s
              | some t => settle s iss { t with declared := none, lapsed := t.lapsed || l } [])
/-- mx.dep (R285): one decrement of a record. -/
def execMxDep (an : R3) (b : Reg) (s : State) : Out :=
  runIns (.mxDep an b) s (fun s iss t m =>
    match findTeam s t.team with
    | none => holdRun s
    | some tm =>
      let va := taskLoc t m an
      let c := (readReg t 0 b).toNat
      if !taskLocOk tm va then faultAll s iss t m (cause 7 5) 0#64
      else if c = 0 ∨ 65535 < c then faultAll s iss t m (cause 7 9) 0#64
      else if !(cmdNeed s t).isEmpty || recAbsent tm (aOff va) then holdRun s
      else match recMiss s iss t tm m (aOff va) accAtomic with
      | some s => s
      | none => match recRead s tm (aOff va) 8 accAtomic with
        | .addr ty l => lowFault s iss t m (cause 3 (4 * ty + accAtomic)) (BitVec.ofNat 64 l) va
        | .data d => lowFault (recNote s tm (aOff va) 8) iss t m (cause 4 d) 0#64 va
        | .ok _ =>
          let s := decrement s tm.id t.core (aOff va) c
          match findTrain s iss.tr with
          | none => holdRun s
          | some t => settle s iss { t with declared := none } [])

end Sys2Proof.Machine
end

