-- ==== Sys2Proof/Machine/Place.lean ====
section
/-! DEFINITION. The admission table and what a team needs of it: columns, placement, budgets and priorities (spec/19 R380 to
R385, spec/08 R183, R203, R207). -/

namespace Sys2Proof.Machine

/-! Priorities and waits (R203, R381). -/

/-- Cycles of a number of microseconds. -/
def usec (n : Nat) : Nat := n * Config.us
/-- Every train of the team has been in a declared wait longer than the yield threshold (R381). -/
def yieldsNow (s : State) (tm : Team) : Bool :=
  let ts := teamTrains s tm.id
  let yth := ((findCtx s tm.ctx).map (·.budget.yth.toNat)).getD 20
  !ts.isEmpty && ts.all (fun t => match t.declared with
    | some d => decide (d + usec yth < s.now)
    | none => false)
/-- A team ranks as yielded: while it is resident, as its trains stand; evicted so, until those that waited are back. -/
def yielded (s : State) (tm : Team) : Bool :=
  if tm.life = .resident then yieldsNow s tm
  else tm.yielded && !tm.yieldFor.isEmpty
/-- Effective dispatch priority (R381). -/
def effDisp (s : State) (tm : Team) : Nat := if yielded s tm then 0 else tm.dprio
/-- A train's wait time (R203). -/
def waitTime (now : Nat) (t : Train) : Nat :=
  let parked := !t.slots.any (fun x => x.st == .ready) && t.slots.all (fun x => !slotLive x || x.st == .qport || x.st == .barrier || x.st == .member)
  match t.declared with
  | some d => now - max d t.lastIss
  | none => if parked then now - t.lastIss else 0
/-- A team's wait time: the least of its trains. -/
def teamWait (s : State) (tm : Team) : Nat :=
  match (teamTrains s tm.id).map (waitTime s.now) with
  | [] => 0
  | w :: ws => ws.foldl min w
/-- The team is long-waiting (R203). -/
def longWaiting (s : State) (tm : Team) : Bool :=
  let lwt := ((findCtx s tm.ctx).map (·.budget.lwt.toNat)).getD 40
  !(teamTrains s tm.id).isEmpty && (teamTrains s tm.id).all (fun t => decide (usec lwt < waitTime s.now t))

/-! Columns (R382, R383). -/

/-- What a team needs of a core. -/
structure Need where
  trains : Nat
  store  : Nat
  bars   : Nat
  resv   : List Resv
/-- Trains that stand on a core; a migrating one already holds its mooring slot there. -/
def coreTrains (s : State) (core : Nat) : List Train :=
  s.trains.filter (fun t => t.prol.isNone && !t.retired && t.core == core && s.teams.any (fun tm => tm.id == t.team && onCore tm core))
/-- Train slots of a core that are taken: those of its trains, and of killed teams that are still to be freed (R214). -/
def coreSlots (s : State) (core : Nat) : List Nat :=
  (coreTrains s core).map (·.resident) ++ (s.teams.filter (fun tm => onCore tm core)).flatMap (fun tm => tm.ghosts.map (·.1))
/-- Mooring slots of a core that are taken (R209). -/
def moored (s : State) (core : Nat) : Nat :=
  ((coreSlots s core).filter (fun r => decide (64 ≤ r))).length +
    (s.trains.filter (fun t => match t.migr with
      | .transit c _ => c == core
      | _ => false)).length
/-- Priority load (R382). -/
def pload (s : State) (core : Nat) : Nat :=
  sumN ((coreTrains s core).map (fun t => ((findTeam s t.team).map (effDisp s)).getD 0 + 1)) +
    sumN ((s.teams.filter (fun tm => onCore tm core)).map (fun tm => tm.ghosts.length * (effDisp s tm + 1)))
/-- Places reservations among those that a core holds, the lowest free range for each (R272, R274). -/
def placeResvs (rs : List Resv) : List Resv → Option (List Resv)
  | [] => some []
  | r :: rest =>
    if 64 ≤ rs.length then none
    else match resvPlace rs r.len with
      | none => none
      | some b => (placeResvs (rs ++ [{ r with base := b }]) rest).map (fun l => { r with base := b } :: l)
/-- A column of the admission table (R382). -/
structure Column where
  pload  : Nat
  trains : Nat
  bars   : Nat
  recs   : Nat
  obuf   : Nat
  store  : Nat
  deriving DecidableEq, Repr
/-- The largest free range of a core's operand buffer, in 64-byte units (R272, R382). -/
def freeRange (rs : List Resv) : Nat :=
  ((0 :: rs.map (fun r => r.base + r.len)).map (fun b =>
    rs.foldl (fun m r => if b ≤ r.base then min m r.base else if b < r.base + r.len then b else m) 1048576 - b)).foldl max 0 / 64
/-- The column of a core: zeros for one that is fenced off (R451), and for those of a die whose cores are held in reset (R434). -/
def columnOf (s : State) (core : Nat) : Column :=
  if (coreOf s core).fenced || !s.corAlive.getLsbD (dieOf core) then ⟨0, 0, 0, 0, 0, 0⟩
  else
    ⟨pload s core, ((coreSlots s core).filter (fun r => decide (r < 64))).length,
     64 - sumN ((s.teams.filter (fun tm => onCore tm core)).map (·.nb)), 64 - (coreResvs s core).length,
     freeRange (coreResvs s core), coreFree s core⟩
/-- The 128 bits of a column, as the policy core reads it through the dispatcher (R382). -/
def Column.bits (c : Column) : BitVec 128 :=
  BitVec.ofNat 128 (c.pload % 2 ^ 16 * 2 ^ 96 + c.trains % 2 ^ 7 * 2 ^ 82 + c.bars % 2 ^ 7 * 2 ^ 75 + c.recs % 2 ^ 7 * 2 ^ 68 +
    c.obuf % 2 ^ 15 * 2 ^ 53 + c.store % 2 ^ 24)
/-- The column of a core holds a need (R383). -/
def holds (s : State) (core : Nat) (n : Need) : Bool :=
  let c := columnOf s core
  s.corAlive.getLsbD (dieOf core) && !(coreOf s core).fenced && !(coreOf s core).stopped &&
    decide (c.trains + n.trains ≤ 64) && decide (n.store ≤ c.store) && decide (n.bars ≤ c.bars) &&
    (placeResvs (coreResvs s core) n.resv).isSome
/-- The first of a list with the least measure. -/
def leastBy {α : Type} (f : α → Nat) : List α → Option α
  | [] => none
  | x :: xs => some (xs.foldl (fun b y => if f y < f b then y else b) x)
/-- The core of a die that a need goes to: fewest resident trains, then the lowest (R383). -/
def pickCore (s : State) (die : Nat) (n : Need) : Option Nat :=
  leastBy (fun c => (coreSlots s c).length) ((dieCores die).filter (fun c => holds s c n))
/-- Needs placed on distinct cores of a ring, each on the core with fewest trains that holds it (R183, R392; log 14). -/
def ringCores (s : State) (cores : List Nat) : List Need → Option (List Nat)
  | [] => some []
  | n :: rest =>
    match leastBy (fun c => (coreSlots s c).length) (cores.filter (fun c => holds s c n)) with
    | none => none
    | some c => (ringCores s (cores.filter (· != c)) rest).map (fun l => c :: l)
/-- Places the teams of a formation: the ring whose cores hold them with the fewest trains, lowest first (R383). -/
def pickRing (s : State) (die : Nat) (ns : List Need) : Option (List Nat) :=
  let rings := (List.range 7).map (fun r => (List.range 8).map (fun p => 56 * die + 8 * r + p))
  let fits := rings.filterMap (fun cs => (ringCores s cs ns).map (fun l => (cs, l)))
  (leastBy (fun p => sumN (p.1.map (fun c => (coreSlots s c).length))) fits).map (·.2)
/-- Cores for one team, or for the teams of a formation. -/
def placeAll (s : State) (die : Nat) (ns : List Need) : Option (List Nat) :=
  match ns with
  | [n] => (pickCore s die n).map (fun c => [c])
  | _ => pickRing s die ns

/-! Budgets (R384, R385). -/

def dieTeams (s : State) (ctx die : Nat) : List Team :=
  s.teams.filter (fun tm => tm.ctx == ctx && onCore tm tm.core && dieOf tm.core == die)
/-- The tokens of a context on a die that still count, of the last 8 us. -/
def toksOf (s : State) (ctx die : Nat) : List Tok :=
  s.toks.filter (fun k => k.ctx == ctx && k.die == die && decide (s.now < k.time + 8 * Config.us))
/-- Activity, by the token plan in force, in 1/32,768 token: a weight is in 1/256 token, one for 128 copy-engine bytes (R457). -/
def activity (s : State) (ks : List Tok) : Nat :=
  let w := (marginOf s 224).toNat
  sumN (ks.map (fun k => 128 * (k.vec * bitsN w 0 16 + k.steps * bitsN w 16 16 + k.lines * bitsN w 32 16) + k.bytes * bitsN w 48 16))
/-- floor((limit - rate) / (part / r)), or 2^32 where the part is 0, both counted over 8 us in 1/`unit` token. -/
def headRate (unit limit rate part r : Nat) : Nat :=
  if part = 0 ∨ r = 0 then 2 ^ 32 else (8 * unit * limit - rate) * r / part
/-- The least headroom of a team that needs so many trains and so much store, where `more` is what the teams of its formation before
it take (R385). -/
def headroom (s : State) (c : Ctx) (die launch stage trains store : Nat) (more : Nat × Nat) : Nat :=
  let ts := dieTeams s c.num die
  let mine := ts.filter (fun tm => tm.launch == launch && tm.stage == stage)
  let r := mine.length
  let ks := toksOf s c.num die
  let ms := ks.filter (fun k => mine.any (fun tm => tm.id == k.team))
  let hs := (c.budget.slots.toNat - (sumN (ts.map (fun tm => trainsLeft s tm.id + tm.ghosts.length)) + more.1)) / max 1 trains
  let hm := if store = 0 then 2 ^ 32 else (c.budget.store.toNat * 65536 - (sumN (ts.map (fun tm => teamHeld s tm)) + more.2)) / store
  let hb := headRate 1 c.budget.bw.toNat (sumN (ks.map (·.hbm))) (sumN (ms.map (·.hbm))) r
  let hp := headRate 32768 c.budget.pwr.toNat (activity s ks) (activity s ms) r
  min (min hs hm) (min hb hp)

/-- Each team that is to be admitted at once has headroom of its own, those before it counted with what the context holds (R183,
R385). -/
def roomFor (s : State) (c : Ctx) (die launch stage : Nat) : List Need → Nat × Nat → Bool
  | [], _ => true
  | n :: ns, more => decide (1 ≤ headroom s c die launch stage n.trains n.store more) &&
    roomFor s c die launch stage ns (more.1 + n.trains, more.2 + n.store)

/-! The stage balancer (R207). -/

def balanced (l : Launch) (stage : Nat) : Bool :=
  (stage == 0 || (match l.queues[stage - 1]? with
    | some q => decide (q.low < q.items.length) || (q.closed && !q.items.isEmpty)
    | none => false)) &&
  (decide (stage + 1 = l.stages.length) || (match l.queues[stage]? with
    | some q => decide (q.items.length ≤ q.high)
    | none => false))

end Sys2Proof.Machine
end

