-- ==== Sys2Proof/Machine/Admit.lean ====
section
/-! DEFINITION. The die dispatchers: new teams, the order of admission, the choice of whom to evict, and yielding (spec/19 R381,
R386, R388, R395, spec/08 R182, R183, R204, spec/16 R346, R347; log 14). -/

namespace Sys2Proof.Machine

/-! New teams (R182, R346, R347). -/

/-- A slot of a new train: present, helper or absent (R182). -/
def newSlot (entry threads first i : Nat) : Slot :=
  let st := if first + i < threads then SState.ready else if first + i / 4 * 4 < threads then .helper else .absent
  { Slot.blank with st := st, pc := BitVec.ofNat 40 entry }
/-- A new train (R347). -/
def newTrain (s : State) (l : Launch) (d : StageD) (thand : Word) (uid team idx core resident : Nat) : Train :=
  { uid := uid, team := team, idx := idx, core := core, resident := resident, A := d.regs, B := 0, cbase := l.cbase,
    k := csetAll [] 20 l.args, fflags := 0#5, lapsed := false, prio := d.prio, aging := 0, canSince := none, yieldTo := 0,
    thand := thand, inHand := false, sstep := false, step := none, trap := none, tgrp := 0, fpc := 0#40,
    slots := (List.range 32).map (newSlot d.entry d.threads (32 * idx)), ports := [], compl := [], lastBar := [],
    declared := none, lastIss := s.now, escape := none, migr := .none, halted := false, retired := false, prol := none }
/-- Resident slots of a core that are free, ordinary ones (0 to 63) in order. -/
def freeResidents (s : State) (core : Nat) : List Nat :=
  let used := coreSlots s core
  (List.range 64).filter (fun r => !used.contains r)
/-- The lowest team slot of a core that is free (R249). -/
def freeTslot (s : State) (core : Nat) : Nat :=
  let used := (s.teams.filter (fun tm => onCore tm core)).map (·.tslot)
  ((List.range (used.length + 1)).find? (fun i => !used.contains i)).getD 0
/-- Trains of a team of a stage. -/
def trainCount (d : StageD) : Nat := (d.threads + 31) / 32
/-- Admits the next team of a stage on a core (R346). -/
def admitOne (s : State) (l : Launch) (stage : Nat) (d : StageD) (form : Option Nat) (fpos core : Nat) : State :=
  let (id, s) := fresh s
  let num := ((findLaunch s l.id).map (fun l => l.nexts.getD stage 0)).getD 0
  let thand := ((findCtx s l.ctx).map (·.thand)).getD 0#64
  let tm : Team :=
    { id := id, ctx := l.ctx, launch := l.id, stage := stage, num := num, fpos := fpos, form := form, core := core,
      home := dieOf core, tslot := freeTslot s core, life := .resident, dprio := l.prio, yielded := false, yieldFor := [],
      preempt := false, victimOf := none, waitFrom := 0, noneFrom := 0, stallAt := 0,
      allocs := if d.scr = 0 then [] else [⟨1, .scr, .keep, 0, d.scr, s.now⟩], scratch := [], scond := [], absent := [],
      wrote := [], marked := [], bobjs := [], nb := d.nb, bars := [], resv := [], rings := 0,
      draining := [], img := [], ghosts := [] }
  let rs := freeResidents s core
  let ts := (List.range (trainCount d)).map (fun i => newTrain s l d thand (s.nextId + i) id i core (rs.getD i 0))
  let s := { s with teams := s.teams ++ [tm], trains := s.trains ++ ts, nextId := s.nextId + trainCount d }
  modLaunch s l.id (fun l => { l with
    nexts := lmod l.nexts stage (· + 1), since := lset l.since stage s.now, stalls := lset l.stalls stage 0 })

/-! What waits on a die (R386). -/

/-- A candidate for admission: its rank, the teams that come back or the stage of a launch, and what each team needs. -/
structure Cand where
  key    : List Nat
  prio   : Nat
  id     : Nat
  ids    : List Nat
  launch : Nat
  stage  : Nat
  ctx    : Nat
  needs  : List Need
  since  : Nat
  stall  : Nat
  back   : Bool
  home   : Bool
/-- Lexicographic order. -/
def lexLt : List Nat → List Nat → Bool
  | [], [] => false
  | [], _ => true
  | _, [] => false
  | a :: as, b :: bs => decide (a < b) || (a == b && lexLt as bs)
def insertBy {α : Type} (lt : α → α → Bool) (x : α) : List α → List α
  | [] => [x]
  | y :: ys => if lt x y then x :: y :: ys else y :: insertBy lt x ys
def sortBy {α : Type} (lt : α → α → Bool) (l : List α) : List α := l.foldl (fun acc x => insertBy lt x acc) []
/-- The context admits teams (R393). -/
def ctxOpen (s : State) (ctx : Nat) : Bool := ((findCtx s ctx).map (fun c => !c.stopped && !c.suspended)).getD false
/-- The teams that share a team's place: its formation, or itself. -/
def formTeams (s : State) (tm : Team) : List Team :=
  if tm.form.isSome then s.teams.filter (fun o => o.form == tm.form) else [tm]
def teamNeed (s : State) (tm : Team) : Need :=
  ⟨trainsLeft s tm.id, teamHeld s tm + sumN (tm.draining.map (·.size)), tm.nb, tm.resv⟩
/-- 50 us (R386, R388, R392). -/
def us50 : Nat := usec 50
/-- What a team that waits for re-admission needs, with its formation (R183, R392). -/
def backNeeds (s : State) (tm : Team) : List Need := (formTeams s tm).map (teamNeed s)
/-- Some core of its die holds a team that waits for re-admission (R392). -/
def homeHolds (s : State) (tm : Team) : Bool := (placeAll s tm.home (backNeeds s tm)).isSome
/-- After a step from `s`: a waiting team that a core of its die held before it, and that none holds after it, is held by none from
now on (R392). -/
def noteRoom (s t : State) : State :=
  if t.teams.any (fun tm => tm.life == .spilled) then
    { t with teams := t.teams.map (fun tm =>
        if tm.life = .spilled ∧ (s.teams.any (fun o => o.id == tm.id && o.life == .spilled && homeHolds s o)) = true ∧ homeHolds t tm = false
        then { tm with noneFrom := t.now } else tm) }
  else t
/-- What follows an instruction or event from `s`: where it has gone on, the waiting teams that no core holds any more are noted. -/
def after (s : State) (o : Out) : Out :=
  match o with
  | Host.Outcome.next t => .next (noteRoom s t)
  | o => o

/-- Evicted teams that wait for re-admission on a die: on another than their own, once no core of that has held them for 50 us; a
team that its own die can take goes there (R392, R396). -/
def backCands (s : State) (die : Nat) : List Cand :=
  s.teams.filterMap (fun tm =>
    let g := formTeams s tm
    if (g.head?.map (·.id)) = some tm.id ∧ g.all (fun o => o.life == .spilled) = true ∧ ctxOpen s tm.ctx = true ∧
        (tm.home = die ∨ (tm.noneFrom + us50 ≤ s.now ∧ homeHolds s tm = false)) then
      let p := effDisp s tm
      some ⟨[7 - p, 0, tm.launch, tm.stage, tm.id], p, tm.id, g.map (·.id), tm.launch, tm.stage, tm.ctx,
        backNeeds s tm, tm.waitFrom, tm.stallAt, true, tm.home == die⟩
    else none)
/-- Next teams of stages of launches. -/
def newCands (s : State) : List Cand :=
  s.launches.flatMap (fun l =>
    if !ctxOpen s l.ctx then []
    else (l.stages.zipIdx).filterMap (fun p =>
      let left := l.counts.getD p.2 0 - l.nexts.getD p.2 0
      if left = 0 then none
      else
        let d := p.1
        let n : Need := ⟨trainCount d, trainCount d * d.regs * 256 + d.scr, d.nb, []⟩
        some ⟨[7 - l.prio, 1, l.id, p.2], l.prio, l.id, [], l.id, p.2, l.ctx,
          List.replicate (min d.form left) n, l.since.getD p.2 0, l.stalls.getD p.2 0, false, true⟩))
/-- All candidates, in the order of R386. -/
def cands (s : State) (die : Nat) : List Cand := sortBy (fun a b => lexLt a.key b.key) (backCands s die ++ newCands s)
/-- The stage balancer admits teams of the candidate's stage (R207, R386). -/
def letIn (s : State) (c : Cand) : Bool := ((findLaunch s c.launch).map (fun l => balanced l c.stage)).getD false
/-- The balancer and the budgets let the candidate in, one that comes back too (R207, R385, R386). -/
def admissible (s : State) (die : Nat) (c : Cand) : Bool :=
  letIn s c && ((findCtx s c.ctx).map (fun x => roomFor s x die c.launch c.stage c.needs (0, 0))).getD false
/-- The candidate has waited 50 us on its die without being placed, held back by a budget or not (R385, R386). DEDUCED (log 35): a team
whose stage the balancer does not admit (R207) does not block, for the stage that it waits for could then never run. -/
def isBlocking (s : State) (c : Cand) : Bool := decide (c.since + us50 ≤ s.now) && c.home && letIn s c
/-- A blocking candidate of at least its priority stands against a candidate; of two that block, the one of higher priority, then the
one that has waited longer, goes first (R386). -/
def blockedBy (s : State) (all : List Cand) (c : Cand) : Bool :=
  all.any (fun b => (b.back != c.back || b.id != c.id || b.stage != c.stage) && decide (c.prio ≤ b.prio) && isBlocking s b &&
    (!isBlocking s c || lexLt [c.prio, b.since] [b.prio, c.since]))

/-! Placing. -/

/-- A spilled team takes its place on a core; its image is restored next (R392). -/
def takePlace (s : State) (p : Nat × Nat) : State :=
  match findTeam s p.1 with
  | none => s
  | some tm =>
    let resv := (placeResvs (coreResvs s p.2) tm.resv).getD tm.resv
    let rs := freeResidents s p.2
    let live := (teamTrains s tm.id).map (·.uid)
    let tslot := freeTslot s p.2
    let s := setTeam s { tm with core := p.2, tslot := tslot, life := .restoring, resv := resv }
    post { s with trains := s.trains.map (fun t => match live.findIdx? (· == t.uid) with
      | some i => { t with core := p.2, resident := rs.getD i 0 }
      | none => t) } (.readmit tm.id p.2)
/-- Admits a candidate at the cores chosen for it. -/
def placeCand (s : State) (c : Cand) (cores : List Nat) : State :=
  if c.back then (c.ids.zip cores).foldl takePlace s
  else match findLaunch s c.launch with
    | none => s
    | some l => match l.stages[c.stage]? with
      | none => s
      | some d =>
        let (form, s) := if d.form ≤ 1 then (none, s) else ((some s.nextId), { s with nextId := s.nextId + 1 })
        ((sortBy (fun a b => decide (a < b)) cores).zipIdx).foldl (fun s p =>
          admitOne s l c.stage d form (if form.isSome then p.2 else 0) p.1) s

/-! Whom to evict (R204, R388, R395). -/

/-- The state with a team, and its formation, gone to its image: what fitting would find. -/
def without (s : State) (tm : Team) : State :=
  (formTeams s tm).foldl (fun s o => modTeam s o.id (fun o => { o with life := .spilled })) s
/-- Evicting the team lets the candidate fit on its core; a formation that waits may take any ring. -/
def letsFit (s : State) (die : Nat) (c : Cand) (tm : Team) : Bool :=
  match c.needs with
  | [n] => holds (without s tm) tm.core n
  | ns => (placeAll (without s tm) die ns).isSome
/-- Teams of a die that stand, and all of whose formation stands. -/
def standing (s : State) (die : Nat) : List Team :=
  s.teams.filter (fun tm => dieOf tm.core == die && (formTeams s tm).all (fun o => o.life == .resident && o.victimOf.isNone))
/-- The first by priority, then by wait, of the teams that meet a test. -/
def worstTeam (s : State) (l : List Team) : Option Team :=
  (sortBy (fun a b => lexLt [effDisp s a, teamWait s b] [effDisp s b, teamWait s a]) l).head?
/-- A core's limit of pre-emptions at a priority is spent (R388). -/
def limitSpent (s : State) (core p : Nat) : Bool :=
  match afind (coreOf s core).preTime p with
  | some t => decide (s.now < t + us50)
  | none => false
/-- The victim of R388: on each core its lowest team; then the core with the lowest load. -/
def preVictim (s : State) (die : Nat) (c : Cand) : Option Team :=
  let on := (dieCores die).filterMap (fun core =>
    if limitSpent s core c.prio then none
    else worstTeam s ((standing s die).filter (fun tm => tm.core == core && decide (effDisp s tm < c.prio) && letsFit s die c tm)))
  leastBy (fun tm => pload s tm.core) on
/-- Starts an eviction: the request goes to each core concerned. -/
def evict (s : State) (c : Cand) (tm : Team) (pre : Bool) : State :=
  (formTeams s tm).foldl (fun s o =>
    postOnce (modTeam s o.id (fun o => { o with victimOf := some c.id, preempt := o.preempt || pre })) (.preemptRequest o.id)) s
/-- An eviction for the candidate is under way. -/
def evictPending (s : State) (c : Cand) : Bool := s.teams.any (fun tm => tm.victimOf == some c.id)
/-- What is done for a candidate that fits nowhere: an eviction, and whether there was one. -/
def tryEvict (s : State) (die : Nat) (c : Cand) : State × Bool :=
  let yv := if c.back && c.ids.any (fun i => ((findTeam s i).map (·.preempt)).getD false) then
      worstTeam s ((standing s die).filter (fun tm => yielded s tm && letsFit s die c tm))
    else none
  match yv with
  | some tm => (evict s c tm false, true)
  | none => match worstTeam s ((standing s die).filter (fun tm => longWaiting s tm && letsFit s die c tm)) with
    | some tm => (evict s c tm false, true)
    | none =>
      if c.prio < 6 then (s, false)
      else match preVictim s die c with
        | some tm =>
          (modCore (evict s c tm true) tm.core (fun k => { k with preTime := aset k.preTime c.prio s.now }), true)
        | none => (s, false)
/-- A stall of a candidate of priority 6 or 7 is counted, once for each 50 us (R388, R389). -/
def countStall (s : State) (c : Cand) : State :=
  if c.prio < 6 ∨ (c.stall ≠ 0 ∧ s.now < c.stall + us50) then s
  else
    let s := modCtx s c.ctx (fun x => { x with stall := min (x.stall + 1) 0xFFFFFFFF })
    let at_ := max 1 s.now
    if c.back then modTeam s c.id (fun tm => { tm with stallAt := at_ })
    else modLaunch s c.launch (fun l => { l with stalls := lset l.stalls c.stage at_ })

/-! The decision (R386). -/

/-- Goes through the candidates: the first that is let in, is not blocked and fits is admitted; `all` are those that wait. -/
def decideOn (s : State) (die : Nat) (all : List Cand) : List Cand → State
  | [] => s
  | c :: rest =>
    if !admissible s die c || blockedBy s all c then decideOn s die all rest
    else match placeAll s die c.needs with
      | some cores =>
        let s := atTime s (match afind s.lastAdmit die with
          | some t => t + 16
          | none => 0)
        postOnce (placeCand { s with lastAdmit := aset s.lastAdmit die s.now } c cores) (.admissionDecision die)
      | none =>
        let s := if evictPending s c then s else
          let r := tryEvict s die c
          if r.2 then r.1 else countStall s c
        decideOn s die all rest
/-- ADMISSION_DECISION (R386). -/
def execAdmissionDecision (die : Nat) (s : State) : Out :=
  .next (decideOn s die (cands s die) (cands s die))
/-- TEAM_BLOCKING (R386): a team, or the next team of a launch, has waited 50 us; the dispatchers look again, and again
after as long. -/
def execTeamBlocking (id due : Nat) (s : State) : Out :=
  let s := atTime s due
  let waits := s.teams.any (fun tm => tm.id == id && tm.life == .spilled) ||
    s.launches.any (fun l => l.id == id && (List.range l.stages.length).any (fun i => decide (l.nexts.getD i 0 < l.counts.getD i 0)))
  .next (if waits then post (reconsider s) (.teamBlocking id (due + us50)) else s)
/-- TEAM_YIELD (R381): a team begins or ceases to be yielded. -/
def execTeamYield (team : Nat) (s : State) : Out :=
  .next (match findTeam s team with
    | none => s
    | some tm =>
      let y := yieldsNow s tm
      if tm.life ≠ .resident then s
      else reconsider (setTeam s { tm with
        yielded := y, yieldFor := if y then (s.teams.filter (fun o => o.life == .spilled)).map (·.id) else [] }))

end Sys2Proof.Machine
end

