-- ==== Sys2Proof/Machine/Adr.lean ====
section
/-! DEFINITION. Address registers (R129, R130). -/

namespace Sys2Proof.Machine

/-- Writes address register `n` of a slot. -/
def putA (x : Slot) (n : R3) (v : Addr) : Slot := { x with areg := cset x.areg n.toNat v, rcond := partWrite x (aregHalf n.toNat) }
def getA (x : Slot) (n : R3) : Addr := cget x.areg n.toNat
/-- adr.adda: b times 2^sh, signed, added to the offset (R130). -/
def execAdrAdda (ad as_ : R3) (sh : Fin 5) (b : Reg) (s : State) : Out :=
  vecSlot (.adrAdda ad as_ sh b) (fun _ rd x => putA x ad (mkAddr (aSpan (getA x as_)) (aOff (getA x as_) + rd b <<< sh.val))) s
/-- adr.addai (R130). -/
def execAdrAddai (ad as_ : R3) (imm : BitVec 38) (s : State) : Out :=
  vecSlot (.adrAddai ad as_ imm) (fun _ _ x => putA x ad (mkAddr (aSpan (getA x as_)) (aOff (getA x as_) + imm.signExtend 64))) s
/-- adr.movaw with a register span (R130). -/
def execAdrMovawReg (ad : R3) (a b : Reg) (s : State) : Out :=
  vecSlot (.adrMovawReg ad a b) (fun _ rd x => putA x ad (mkAddr ((rd b).setWidth 16) (rd a))) s
/-- adr.movaw with a constant span (R130). -/
def execAdrMovawImm (ad : R3) (a : Reg) (span : BitVec 13) (s : State) : Out :=
  vecSlot (.adrMovawImm ad a span) (fun _ rd x => putA x ad (mkAddr (span.setWidth 16) (rd a))) s
/-- adr.movwa: the offset, or the span zero-extended (R130). -/
def execAdrMovwa (d : Reg) (as_ : R3) (part : Bool) (s : State) : Out :=
  runIns (.adrMovwa d as_ part) s (fun s iss t m =>
    let v := fun (t : Train) (i : Nat) => if part then (aSpan (readA t i as_)).setWidth 64 else aOff (readA t i as_)
    if isQ d then
      let r := (slotsOf m).foldl (fun acc i => portSlot (.adrMovwa d as_ part) d (fun _ t i => v t i) acc iss i) (s, [])
      match findTrain r.1 iss.tr with
      | none => holdRun r.1
      | some t => settle r.1 iss t r.2
    else settle s iss (mapSlots t (fun i x => if inMask m i && isW d then (putReg x (wIdx t d) (v t i)) else x)) [])
/-- adr.spna (R130). -/
def execAdrSpna (ad : R3) (b : Reg) (s : State) : Out :=
  vecSlot (.adrSpna ad b) (fun _ rd x => putA x ad (mkAddr ((rd b).setWidth 16) (aOff (getA x ad)))) s
/-- Conditions of adr.cmpa over 80-bit natural values (R130). -/
def acond (c : ACond) (u v : Nat) : Bool :=
  match c with
  | .eq => u == v
  | .ne => u != v
  | .lt => decide (u < v)
  | .le => decide (u ≤ v)
/-- adr.cmpa (R130). -/
def execAdrCmpa (p as1 as2 : R3) (c : ACond) (s : State) : Out :=
  vecSlot (.adrCmpa p as1 as2 c) (fun _ _ x => setPred x p (acond c (getA x as1).toNat (getA x as2).toNat)) s

end Sys2Proof.Machine
end

