-- ==== Sys2Proof/Machine/Flags.lean ====
section
/-! DEFINITION. The sticky flags of `fflags` (R48, R49) as five bits, and what a rounding and a comparison raise. -/

namespace Sys2Proof.Machine

/-- Bits of `fflags` (R49): invalid, divide-by-zero, overflow, underflow, inexact. -/
abbrev flagNv : BitVec 5 := 16#5
@[inherit_doc flagNv] abbrev flagDz : BitVec 5 := 8#5
@[inherit_doc flagNv] abbrev flagOf : BitVec 5 := 4#5
@[inherit_doc flagNv] abbrev flagUf : BitVec 5 := 2#5
@[inherit_doc flagNv] abbrev flagNx : BitVec 5 := 1#5

/-- A flag where a condition holds. -/
def flagIf (c : Bool) (f : BitVec 5) : BitVec 5 := if c then f else 0#5
/-- The flags of a rounding (R48): overflow goes with inexact, underflow only with it. -/
def roundFlags (ovf tiny inexact : Bool) : BitVec 5 :=
  flagIf ovf flagOf ||| flagIf (tiny && inexact) flagUf ||| flagIf (ovf || inexact) flagNx
/-- The flags of a conversion to an integer (R52, R160): saturated, or in range and changed. -/
def intFlags (saturated changed : Bool) : BitVec 5 := flagIf saturated flagNv ||| flagIf (!saturated && changed) flagNx
/-- OR of the flags that several elements raise (R50). -/
def orFlags (l : List (BitVec 5)) : BitVec 5 := l.foldl (· ||| ·) 0#5
/-- Invalid of a comparison (R125): any NaN for lt, le, gt and ge; a signalling one otherwise. -/
def cmpFlags (c : Cond) (anyNan anySig : Bool) : BitVec 5 :=
  match c with
  | .flt | .fle | .fgt | .fge => flagIf anyNan flagNv
  | _ => flagIf anySig flagNv

end Sys2Proof.Machine
end

