-- ==== Sys2Proof/Machine/Float.lean ====
section
/-! DEFINITION. Binary floats as exact numbers (R43 to R48, R51): unpacking, rounding once, and the operations on them. -/

namespace Sys2Proof.Machine

/-- A format by the widths of its exponent and fraction (R43, R60). -/
structure FP where
  eb : Nat
  fb : Nat
  deriving DecidableEq, Repr

def fpOf : Fmt → FP
  | .f16 => ⟨5, 10⟩ | .bf16 => ⟨8, 7⟩ | .f32 => ⟨8, 23⟩ | .f64 => ⟨11, 52⟩
/-- fa26 (R60). -/
def fpFa26 : FP := ⟨8, 17⟩
def FP.width (p : FP) : Nat := p.eb + p.fb + 1
def FP.bias (p : FP) : Nat := 2 ^ (p.eb - 1) - 1
/-- Exponent of the smallest subnormal. -/
def FP.qmin (p : FP) : Int := 1 - (p.bias : Int) - p.fb
/-- Encodings without sign: infinity, the canonical NaN, the largest finite value. -/
def FP.inf (p : FP) : Nat := (2 ^ p.eb - 1) * 2 ^ p.fb
def FP.nan (p : FP) : Nat := p.inf + 2 ^ (p.fb - 1)
def FP.maxFin (p : FP) : Nat := p.inf - 1
def FP.sign (p : FP) (neg : Bool) : Nat := if neg then 2 ^ (p.eb + p.fb) else 0

/-- What a pattern means: a NaN (signalling or not), an infinity, or (-1)^neg * m * 2^e, zero with m = 0. -/
inductive FVal where
  | nan (sig : Bool)
  | inf (neg : Bool)
  | fin (neg : Bool) (m : Nat) (e : Int)
  deriving DecidableEq, Repr

/-- The meaning of a bit pattern (R43, R44). -/
def unpack (p : FP) (x : Nat) : FVal :=
  let neg := x / 2 ^ (p.eb + p.fb) % 2 == 1
  let e := x / 2 ^ p.fb % 2 ^ p.eb
  let f := x % 2 ^ p.fb
  if e = 2 ^ p.eb - 1 then (if f = 0 then .inf neg else .nan (f / 2 ^ (p.fb - 1) == 0))
  else if e = 0 then .fin neg f p.qmin
  else .fin neg (2 ^ p.fb + f) (p.qmin + e - 1)
def FVal.isNan : FVal → Bool
  | .nan _ => true
  | _ => false
def FVal.isSig : FVal → Bool
  | .nan s => s
  | _ => false
def FVal.isNeg : FVal → Bool
  | .nan _ => false
  | .inf n => n
  | .fin n _ _ => n

/-- Rounds a quotient part upward or not: `odd` the kept low bit, `half` compares the rest with one half. -/
def roundUp (rm : Rm) (neg odd : Bool) (half : Ordering) (exact : Bool) : Bool :=
  match rm with
  | .rz => false
  | .ru => !neg && !exact
  | .rd => neg && !exact
  | .rn => half == .gt || (half == .eq && odd)
  | .rna => half != .lt
/-- m * 2^e, with a sticky part below its last bit, as an integer multiple of 2^q by a mode; and whether it is exact. -/
def quantize (rm : Rm) (neg : Bool) (m : Nat) (e : Int) (sticky : Bool) (q : Int) : Nat × Bool :=
  if q ≤ e then (m * 2 ^ (e - q).toNat, !sticky)
  else
    let d := 2 ^ (q - e).toNat
    let r := m / d
    let rest := 2 * (m % d) + (if sticky then 1 else 0)
    let exact := rest == 0
    (if roundUp rm neg (r % 2 == 1) (compare rest d) exact then r + 1 else r, exact)
/-- What overflow delivers (R51). -/
def overflowTo (p : FP) (rm : Rm) (neg : Bool) : Nat :=
  p.sign neg + (match rm with
    | .rn | .rna => p.inf
    | .rz => p.maxFin
    | .ru => if neg then p.maxFin else p.inf
    | .rd => if neg then p.inf else p.maxFin)
/-- Rounds (-1)^neg * (m + sticky part) * 2^e, not zero, to a format (R45, R48, R51). -/
def roundTo (p : FP) (rm : Rm) (neg : Bool) (m : Nat) (e : Int) (sticky : Bool) : Nat × BitVec 5 :=
  let top := e + Nat.log2 m - p.fb
  let q := max top p.qmin
  let (r, exact) := quantize rm neg m e sticky q
  let enc := ((q - p.qmin).toNat) * 2 ^ p.fb + r
  if p.inf ≤ enc then (overflowTo p rm neg, roundFlags true false true)
  else
    let tiny := decide (top < p.qmin) && !(decide (top + 1 = p.qmin) && (quantize rm neg m e sticky top).1 == 2 ^ (p.fb + 1))
    (p.sign neg + enc, roundFlags false tiny (!exact))
/-- Delivers an exact value in a format; a NaN becomes the canonical one (R46). -/
def deliver (p : FP) (rm : Rm) : FVal → Nat × BitVec 5
  | .nan sig => (p.nan, flagIf sig flagNv)
  | .inf neg => (p.sign neg + p.inf, 0#5)
  | .fin neg m e => if m = 0 then (p.sign neg, 0#5) else roundTo p rm neg m e false
/-- The canonical NaN with invalid. -/
def invalid (p : FP) : Nat × BitVec 5 := (p.nan, flagNv)

def negV : FVal → FVal
  | .nan s => .nan s
  | .inf n => .inf (!n)
  | .fin n m e => .fin (!n) m e
/-- m * 2^e as an integer number of units 2^q, for q ≤ e. -/
def unitsOf (neg : Bool) (m : Nat) (e q : Int) : Int :=
  let u : Int := (m * 2 ^ (e - q).toNat : Nat)
  if neg then -u else u
/-- The exact sum of finite values, with the sign of a zero by R47. -/
def sumV (rm : Rm) (n1 : Bool) (m1 : Nat) (e1 : Int) (n2 : Bool) (m2 : Nat) (e2 : Int) : FVal :=
  let q := min e1 e2
  let z := unitsOf n1 m1 e1 q + unitsOf n2 m2 e2 q
  if z = 0 then .fin (if m1 = 0 ∧ m2 = 0 ∧ n1 = n2 then n1 else rm == .rd) 0 q
  else .fin (decide (z < 0)) z.natAbs q
/-- Signalling NaNs among inputs raise invalid, and any NaN gives the canonical one (R46). -/
def nanCase (p : FP) (xs : List FVal) : Option (Nat × BitVec 5) :=
  if xs.any FVal.isNan then some (p.nan, flagIf (xs.any FVal.isSig) flagNv) else none
/-- x + y (R153). -/
def addV (p : FP) (rm : Rm) (x y : FVal) : Nat × BitVec 5 :=
  match nanCase p [x, y] with
  | some r => r
  | none => match x, y with
    | .inf a, .inf b => if a = b then deliver p rm x else invalid p
    | .inf _, _ => deliver p rm x
    | _, .inf _ => deliver p rm y
    | .fin n1 m1 e1, .fin n2 m2 e2 => deliver p rm (sumV rm n1 m1 e1 n2 m2 e2)
    | _, _ => invalid p
/-- The exact product of numbers; none for zero times infinity. -/
def prodV : FVal → FVal → Option FVal
  | .fin a m e, .fin b n f => some (.fin (a != b) (m * n) (e + f))
  | .inf a, .inf b => some (.inf (a != b))
  | .inf a, .fin b n _ => if n = 0 then none else some (.inf (a != b))
  | .fin a m _, .inf b => if m = 0 then none else some (.inf (a != b))
  | _, _ => none
/-- x * y (R153). -/
def mulV (p : FP) (rm : Rm) (x y : FVal) : Nat × BitVec 5 :=
  match nanCase p [x, y] with
  | some r => r
  | none => match prodV x y with
    | some z => deliver p rm z
    | none => invalid p
/-- x * y + z rounded once (R157, R158): zero times infinity is invalid whatever z is. -/
def fmaV (p : FP) (rm : Rm) (neg : Bool) (x y z : FVal) : Nat × BitVec 5 :=
  if !x.isNan && !y.isNan && (prodV x y).isNone then invalid p
  else match nanCase p [x, y, z] with
    | some r => r
    | none => match prodV x y with
      | none => invalid p
      | some w => addV p rm (if neg then negV w else w) z
/-- x / y (R153). -/
def divV (p : FP) (rm : Rm) (x y : FVal) : Nat × BitVec 5 :=
  match nanCase p [x, y] with
  | some r => r
  | none => match x, y with
    | .fin a m e, .fin b n f =>
      if n = 0 then (if m = 0 then invalid p else (p.sign (a != b) + p.inf, flagDz))
      else if m = 0 then (p.sign (a != b), 0#5)
      else
        let k := Nat.log2 n + p.fb + 3
        let num := m * 2 ^ k
        roundTo p rm (a != b) (num / n) (e - f - k) (num % n != 0)
    | .inf a, .fin b _ _ => (p.sign (a != b) + p.inf, 0#5)
    | .fin a _ _, .inf b => (p.sign (a != b), 0#5)
    | _, _ => invalid p
/-- Bits of an integer square root, from bit `n - 1` down. -/
def sqrtBits (x : Nat) : Nat → Nat → Nat
  | 0, r => r
  | n + 1, r => sqrtBits x n (if (r + 2 ^ n) * (r + 2 ^ n) ≤ x then r + 2 ^ n else r)
/-- The integer square root. -/
def isqrt (x : Nat) : Nat := sqrtBits x (Nat.log2 x / 2 + 1) 0
/-- The square root of m * 2^e for m ≠ 0 to `k` further bits: a numerator, its exponent, and whether more follows. -/
def rootOf (k m : Nat) (e : Int) : Nat × Int × Bool :=
  let m' := if e % 2 = 0 then m else 2 * m
  let e' := if e % 2 = 0 then e else e - 1
  let x := m' * 2 ^ (2 * k)
  let r := isqrt x
  (r, e' / 2 - k, r * r != x)
/-- √x (R153). -/
def sqrtV (p : FP) (rm : Rm) (x : FVal) : Nat × BitVec 5 :=
  match x with
  | .nan sig => (p.nan, flagIf sig flagNv)
  | .inf neg => if neg then invalid p else (p.inf, 0#5)
  | .fin neg m e =>
    if m = 0 then (p.sign neg, 0#5)
    else if neg then invalid p
    else
      let r := rootOf (p.fb + 4) m e
      roundTo p rm false r.1 r.2.1 r.2.2

/-- Compares exact values, -0 and +0 being equal; none for a NaN (R125). -/
def cmpV : FVal → FVal → Option Ordering
  | .nan _, _ | _, .nan _ => none
  | .inf a, .inf b => some (if a = b then .eq else if a then .lt else .gt)
  | .inf a, .fin _ _ _ => some (if a then .lt else .gt)
  | .fin _ _ _, .inf b => some (if b then .gt else .lt)
  | .fin a m e, .fin b n f =>
    let q := min e f
    some (compare (unitsOf a m e q) (unitsOf b n f q))
/-- min and max (R154): -0 is below +0, and one NaN gives the other operand. -/
def minMaxV (p : FP) (wantMin : Bool) (x y : Nat) : Nat × BitVec 5 :=
  let u := unpack p x
  let v := unpack p y
  let fl := flagIf (u.isSig || v.isSig) flagNv
  if u.isNan && v.isNan then (p.nan, fl)
  else if u.isNan then (y, fl)
  else if v.isNan then (x, fl)
  else
    let first := match cmpV u v with
      | some .lt => true
      | some .gt => false
      | _ => u.isNeg
    (if first = wantMin then x else y, fl)
/-- abs, neg and copysign (R155): a new sign for a number, and the canonical NaN for a NaN. -/
def signV (p : FP) (x : Nat) (f : Bool → Bool) : Nat × BitVec 5 :=
  match unpack p x with
  | .nan sig => (p.nan, flagIf sig flagNv)
  | _ => (p.sign (f (x / 2 ^ (p.eb + p.fb) % 2 == 1)) + x % 2 ^ (p.eb + p.fb), 0#5)
def copysignV (p : FP) (x y : Nat) : Nat × BitVec 5 :=
  let r := signV p x (fun _ => y / 2 ^ (p.eb + p.fb) % 2 == 1)
  (r.1, r.2 ||| flagIf (unpack p y).isSig flagNv)

/-- A float as an integer of `wd` bits, signed or natural (R52, R160). -/
def toIntV (rm : Rm) (sgn : Bool) (wd : Nat) (x : FVal) : Nat × BitVec 5 :=
  let top : Int := if sgn then (2 ^ (wd - 1) : Nat) - 1 else (2 ^ wd : Nat) - 1
  let bot : Int := if sgn then -((2 ^ (wd - 1) : Nat) : Int) else 0
  match x with
  | .nan _ => (0, flagNv)
  | .inf neg => (wrapN wd (if neg then bot else top), intFlags true false)
  | .fin neg m e =>
    let (r, exact) := quantize rm neg m e false 0
    let v : Int := if neg then -(r : Int) else r
    if v < bot then (wrapN wd bot, intFlags true false)
    else if top < v then (wrapN wd top, intFlags true false)
    else (wrapN wd v, intFlags false (!exact))
/-- An integer as a float (R160). -/
def ofIntV (p : FP) (rm : Rm) (z : Int) : Nat × BitVec 5 := deliver p rm (.fin (decide (z < 0)) z.natAbs 0)

/-- Conditions of cmp on floats (R125). -/
def fcond (c : Cond) (x y : FVal) : Bool :=
  match c, cmpV x y with
  | .feq, some o => o == .eq
  | .fne, some o => o != .eq
  | .fne, none => true
  | .flt, some o => o == .lt
  | .fle, some o => o != .gt
  | .fgt, some o => o == .gt
  | .fge, some o => o != .lt
  | .fun_, none => true
  | .ford, some _ => true
  | _, _ => false
/-- Conditions of cmp on integers of width w (R124). -/
def icond (c : Cond) (w u v : Nat) : Bool :=
  match c with
  | .eq => u == v
  | .ne => u != v
  | .ltI => decide (sInt w u < sInt w v)
  | .leI => decide (sInt w u ≤ sInt w v)
  | .gtI => decide (sInt w v < sInt w u)
  | .geI => decide (sInt w v ≤ sInt w u)
  | .ltN => decide (u < v)
  | .leN => decide (u ≤ v)
  | .gtN => decide (v < u)
  | .geN => decide (v ≤ u)
  | .test => u &&& v != 0
  | _ => false
/-- Combines a condition with the predicate's old value (R124). -/
def combine (c : Combine) (old r : Bool) : Bool :=
  match c with
  | .set => r
  | .and => old && r
  | .or => old || r
  | .xor => old != r
  | .andn => old && !r

end Sys2Proof.Machine
end

