-- ==== Sys2Proof/Machine/LdSt.lean ====
section
/-! DEFINITION. Loads and stores (spec/09 R228 to R238; spec/17 R368, R369 for the prologue unit). -/

namespace Sys2Proof.Machine

/-- The value that a load delivers, extended by its type (R230). -/
def extend (ty : LdTy) (v : Nat) : BitVec 128 :=
  match ty with
  | .i8 => ((BitVec.ofNat 8 v).signExtend 64).setWidth 128
  | .i16 => ((BitVec.ofNat 16 v).signExtend 64).setWidth 128
  | .i32 => ((BitVec.ofNat 32 v).signExtend 64).setWidth 128
  | _ => BitVec.ofNat 128 v
def lo64 (v : BitVec 128) : Word := v.extractLsb' 0 64
def hi64 (v : BitVec 128) : Word := v.extractLsb' 64 64
/-- Writes a result to w registers of a slot or to k registers (R68, R71). -/
def putDst (t : Train) (i : Nat) (dst : Dst) (v : BitVec 128) : Train :=
  match dst with
  | .w n pair => modSlot t i (fun x => if pair then putRegs x n [lo64 v, hi64 v] else putReg x n (lo64 v))
  | .k n pair => { t with k := if pair then csetAll t.k n [lo64 v, hi64 v] else cset t.k n (lo64 v) }
  | _ => t

/-- A device load of one slot (R230, R243). -/
def devLoad (iss : Issue) (grp : Nat) (ty : LdTy) (ord : Ord) (d : Reg) (a : Addr) (i : Nat) (r : Acc) : Acc :=
  match findTrain r.1 iss.tr with
  | none => r
  | some t =>
    let x := slotAt t i
    let n := ldBytes ty
    match devLook r.1 t x a n accRead with
    | (.park id, s) => (s, r.2 ++ [(i, .park .miss (.miss id accRead false) (nextPc iss))])
    | (.window, s) => (s, r.2 ++ [(i, addrFault 6 accRead 4 a)])
    | (.bad ty l, s) => (s, r.2 ++ [(i, addrFault ty accRead l a)])
    | (.ok kv, s) =>
      match if isQ d then pushChk s t i (portOf d) 0#64 else .ok with
      | .fault c => (s, r.2 ++ [(i, .fault (cause 6 c) 0#64 0#80)])
      | _ => (sendLoad s iss t i grp ty ord (dstOf t d (ty == .b128)) a n kv, r.2)
/-- A scratch load of one slot (R228, R238, R306). -/
def scrLoad (iss : Issue) (ty : LdTy) (ord : Ord) (d : Reg) (a : Addr) (i : Nat) (r : Acc) : Acc :=
  match findTrain r.1 iss.tr with
  | none => r
  | some t => match findTeam r.1 t.team with
    | none => r
    | some tm =>
      let s := r.1
      let x := slotAt t i
      let n := ldBytes ty
      match scrCheck iss tm a n with
      | some o => r.out i o
      | none =>
        let rc := parkCount iss x
        if isQ d && (lowerParked r.2 || lowerPush s t.uid i iss.start rc (portOf d)) then
          r.out i (.park .qport (.port (portOf d)) (nextPc iss))
        else match scrRead s.now tm (addrOff a) n with
          | (.bad c, _) => (noteScrRead s tm (addrOff a) n, r.2 ++ [(i, dataFault c a)])
          | (.ok bs, lapsed) =>
            let v := extend ty (leN bs)
            let keys := (List.range n).map (fun j => scrKey tm.id (addrOff a + j))
            let took := fun (x : Slot) =>
              let x := clockRead s t.core t.uid x keys
              if isOrdered ord then acquire x (ordScope ord) else x
            let s := noteScrRead s tm (addrOff a) n
            match if isQ d then pushChk s t i (portOf d) (lo64 v) else .ok with
            | .fault c => (s, r.2 ++ [(i, .fault (cause 6 c) 0#64 0#80)])
            | .park => (s, r.2 ++ [(i, .park .qport (.port (portOf d)) (nextPc iss))])
            | .walk page k => (s, r.2 ++ [(i, .walk page k)])
            | .ok =>
              let s := modTrain s t.uid (fun t =>
                { putDst (modSlot t i took) i (dstOf t d (ty == .b128)) v with lapsed := t.lapsed || lapsed })
              let s := if isOrdered ord then blockReads s t.uid i (ordScope ord) else s
              (if isQ d then wakePort (pushDo s t.uid i (portOf d) (lo64 v)) t.uid (portOf d) else s, r.2)
/-- A load of the prologue unit: a request, strong at system scope, whose reply the run waits for (R368, R369). -/
def prologueLoad (s : State) (iss : Issue) (t : Train) (m : Mask) (ty : LdTy) (d : Reg) (a : Addr) : State :=
  match transNow s (ctxOf s t) (addrSpan a) (addrOff a) (ldBytes ty) accRead with
  | .error (k, _) => faultAll s iss t m (BitVec.ofNat 9 (96 + 4 * k)) 0#64
  | .ok kv =>
    let (grp, s) := fresh s
    settle (sendLoad s iss t 0 grp ty (.strong .sys) (dstOf t d false) a (ldBytes ty) kv) iss t []
/-- A load with the address of each slot given. -/
def loadOp (ins : Instr) (ty : LdTy) (scr : Bool) (ord : Ord) (d : Reg) (addr : State → Train → Nat → Addr) (s : State) : Out :=
  runIns ins s (fun s iss t m =>
    if t.prol.isSome then prologueLoad s iss t m ty d (addr s t 0)
    else
      let slots := accSlots (isK d) m
      if !scr && decide (4096 < lineLoad s t.core + 2 * slots.length) then holdRun s
      else
        let (grp, s) := fresh s
        let pops := popPorts ins
        settleAcc iss false grp m (slots.foldl (fun r i =>
          match findTrain r.1 iss.tr with
          | none => r
          | some t =>
            match portStop iss r t i pops none with
            | some o => r.out i o
            | none =>
              let a := addr r.1 t i
              let r' := if scr then scrLoad iss ty ord d a i r else devLoad iss grp ty ord d a i r
              if (afind r'.2 i).isNone then (makePops r'.1 iss.tr i pops, r'.2) else r') (s, [])))
/-- ld (R230). -/
def execLd (ty : LdTy) (scr : Bool) (ord : Ord) (d : Reg) (an : R3) (off : BitVec 28) (s : State) : Out :=
  loadOp (.ld ty scr ord d an off) ty scr ord d
    (fun _ t i => effAddr t i an (off.signExtend 64 * BitVec.ofNat 64 (ldBytes ty))) s
/-- ldx (R230). -/
def execLdx (ty : LdTy) (scr : Bool) (ord : Ord) (d : Reg) (an : R3) (x : Reg) (off : BitVec 7) (s : State) : Out :=
  loadOp (.ldx ty scr ord d an x off) ty scr ord d
    (fun s t i => effAddr t i an (readAny s t i x * BitVec.ofNat 64 (ldBytes ty) + off.signExtend 64 * BitVec.ofNat 64 (ldBytes ty))) s

/-- The value that a store field holds for a slot, a port's item at its head, in bytes. -/
def storeBytes (s : State) (t : Train) (i : Nat) (d : Reg) (n : Nat) : List Byte :=
  bytesN n (if isQ d then (readAny s t i d).toNat else (readPair t i d (n == 16)).toNat)
/-- An ordered store must wait for its slot's earlier accesses (R301). -/
def relWait (s : State) (iss : Issue) (t : Train) (i : Nat) (ord : Ord) : Option SlotOut :=
  if isOrdered ord && relPending s t.uid i (ordScope ord) then some (.park .wait (.rel (ordScope ord)) (nextPc iss)) else none
/-- The release part of an ordered store has completed (R301, R310). -/
def relMade (s : State) (t : Train) (i : Nat) (ord : Ord) : State :=
  if isOrdered ord then modTrain s t.uid (fun t => modSlot t i (fun x => release s t.uid i x (ordScope ord))) else s
/-- A device store of one slot (R231, R234); a store into the wake window is a wake write (R355, R426). -/
def devStore (iss : Issue) (grp : Nat) (ord : Ord) (a : Addr) (data : List Byte) (i : Nat) (r : Acc) : Acc :=
  match findTrain r.1 iss.tr with
  | none => r
  | some t =>
    let x := slotAt t i
    match devLook r.1 t x a data.length accWrite with
    | (.park id, s) => (s, r.2 ++ [(i, .park .miss (.miss id accWrite false) (nextPc iss))])
    | (.bad ty l, s) => (s, r.2 ++ [(i, addrFault ty accWrite l a)])
    | (.window, s) =>
      if data.length = 8 ∧ addrOff a % 8 = 0 ∧ addrOff a < 4096 then
        match relWait s iss t i ord with
        | some o => (s, r.2 ++ [(i, o)])
        | none => (wakeQueue (relMade s t i ord) (ctxOf s t) (addrOff a / 8) (leN data), r.2)
      else (s, r.2 ++ [(i, addrFault 6 accWrite 4 a)])
    | (.ok kv, s) =>
      match relWait s iss t i ord with
      | some o => (s, r.2 ++ [(i, o)])
      | none =>
        let s := relMade s t i ord
        match findTrain s iss.tr with
        | none => (s, r.2)
        | some t => (sendStore s iss t i grp ord a data kv, r.2)
/-- A scratch store of one slot (R228, R238, R306): the bytes that it writes. -/
def scrStore (iss : Issue) (ord : Ord) (a : Addr) (data : List Byte) (i : Nat) (r : Acc) : Acc × List (Nat × Byte) :=
  match findTrain r.1 iss.tr with
  | none => (r, [])
  | some t => match findTeam r.1 t.team with
    | none => (r, [])
    | some tm =>
      let s := r.1
      match scrCheck iss tm a data.length with
      | some o => (r.out i o, [])
      | none => match relWait s iss t i ord with
        | some o => (r.out i o, [])
        | none =>
          let s := relMade s t i ord
          let rels := ((findTrain s t.uid).map (fun t => (slotAt t i).rel)).getD []
          let obs := (data.zipIdx).map (fun p => (addrOff a + p.2, p.1))
          ((clockPut s t.core t.uid rels (obs.map (fun p => scrKey tm.id p.1)) none 0, r.2), obs)
/-- The bytes that the slots of a scratch store write, the later slot's last, in one: together they may write a half-sector whole
(R231, R234). -/
def scrStored (iss : Issue) (r : Acc × List (Nat × Byte)) : Acc :=
  match findTrain r.1.1 iss.tr with
  | none => r.1
  | some t => if r.2.isEmpty then r.1 else (scrWrite r.1.1 t.team r.2, r.1.2)
/-- Poison for the half-sector of a slot (R235). -/
def poisonStore (iss : Issue) (grp : Nat) (scr : Bool) (ord : Ord) (a : Addr) (i : Nat) (r : Acc) : Acc :=
  match findTrain r.1 iss.tr with
  | none => r
  | some t =>
    if addrOff a % 32 ≠ 0 then r.out i (misaligned accWrite a)
    else if scr then
      match findTeam r.1 t.team with
      | none => r
      | some tm => match scrCheck iss tm a 32 with
        | some o => r.out i o
        | none => match relWait r.1 iss t i ord with
          | some o => r.out i o
          | none =>
            let s := relMade r.1 t i ord
            let rels := ((findTrain s t.uid).map (fun t => (slotAt t i).rel)).getD []
            let keys := (List.range 32).map (fun j => scrKey tm.id (addrOff a + j))
            let s := clockPut s t.core t.uid rels keys none 0
            (scrPoison s tm.id [addrOff a / 32], r.2)
    else
      match devLook r.1 t (slotAt t i) a 32 accWrite with
      | (.park id, s) => (s, r.2 ++ [(i, .park .miss (.miss id accWrite false) (nextPc iss))])
      | (.bad ty l, s) => (s, r.2 ++ [(i, addrFault ty accWrite l a)])
      | (.window, s) => (s, r.2 ++ [(i, addrFault 6 accWrite 4 a)])
      | (.ok kv, s) => match relWait s iss t i ord with
        | some o => (s, r.2 ++ [(i, o)])
        | none =>
          let s := relMade s t i ord
          match findTrain s iss.tr with
          | none => (s, r.2)
          | some t =>
            let x := slotAt t i
            let (id, s) := fresh s
            let sects := sectorsOf (ctxOf s t) (addrSpan a) (addrOff a) 32
            (post { s with reqs := s.reqs ++ [mkReq (ctxOf s t) iss t i x id grp .poison ord .none a kv sects
              (afterOf s grp x (kv.map (·.1)))] } (.writeHomeApply id), r.2)
/-- The span is the wake window (R426). -/
def wakeSpan (s : State) (ctx span : Nat) : Bool := ((findCtx s ctx).map (fun c => bitsN (spanEntry s c span) 0 3 == 4)).getD false
/-- A store of the prologue unit, strong at system scope (R368, R369): made at once in device memory, and a request beyond a link, which
may fail it (R437); into the wake window it is a wake write (R355, R426). -/
def prologueStore (s : State) (iss : Issue) (t : Train) (m : Mask) (a : Addr) (data : List Byte) : State :=
  if wakeSpan s (ctxOf s t) (addrSpan a) && data.length == 8 && addrOff a % 8 == 0 && decide (addrOff a < 4096) then
    settle (wakeQueue s (ctxOf s t) (addrOff a / 8) (leN data)) iss t []
  else
    let write := match feWrite s (ctxOf s t) (addrSpan a) (addrOff a) data with
      | .error c => faultAll (feMark s (ctxOf s t) (addrSpan a) (addrOff a) data.length) iss t m (BitVec.ofNat 9 c) 0#64
      | .ok s => settle s iss t []
    match transNow s (ctxOf s t) (addrSpan a) (addrOff a) data.length accWrite with
    | .error _ => write
    | .ok kv =>
      if kv.any (fun p => decide (2 ^ 52 ≤ p.1)) then
        let (grp, s) := fresh s
        settle (sendStore s iss t 0 grp (.strong .sys) a data kv) iss t []
      else write
/-- A store with the address of each slot given, of its data, or of poison where `n` is 0. -/
def storeOp (ins : Instr) (n : Nat) (scr : Bool) (ord : Ord) (d : Reg) (addr : State → Train → Nat → Addr) (s : State) : Out :=
  runIns ins s (fun s iss t m =>
    if t.prol.isSome then prologueStore s iss t m (addr s t 0) (storeBytes s t 0 d n)
    else
      let slots := accSlots (isK d && n != 0) m
      if !scr && decide (4096 < lineLoad s t.core + 2 * slots.length) then holdRun s
      else
        let old := s.reqs.length
        let (grp, s) := fresh s
        let pops := popPorts ins
        let r := slots.foldl (fun (b : Acc × List (Nat × Byte)) i =>
          let r := b.1
          match findTrain r.1 iss.tr with
          | none => b
          | some t =>
            match portStop iss r t i pops none with
            | some o => (r.out i o, b.2)
            | none =>
              let a := addr r.1 t i
              let w := if n = 0 then (poisonStore iss grp scr ord a i r, [])
                else if scr then scrStore iss ord a (storeBytes r.1 t i d n) i r
                else (devStore iss grp ord a (storeBytes r.1 t i d n) i r, [])
              (if (afind w.1.2 i).isNone then (makePops w.1.1 iss.tr i pops, w.1.2) else w.1, b.2 ++ w.2)) ((s, []), [])
        let r := scrStored iss r
        settleAcc iss true grp m (markCover r.1 old, r.2))
/-- st (R231). -/
def execSt (ty : StTy) (scr : Bool) (ord : Ord) (d : Reg) (an : R3) (off : BitVec 28) (s : State) : Out :=
  storeOp (.st ty scr ord d an off) (stBytes ty) scr ord d
    (fun _ t i => effAddr t i an (off.signExtend 64 * BitVec.ofNat 64 (stBytes ty))) s
/-- stx (R231). -/
def execStx (ty : StTy) (scr : Bool) (ord : Ord) (d : Reg) (an : R3) (x : Reg) (off : BitVec 7) (s : State) : Out :=
  storeOp (.stx ty scr ord d an x off) (stBytes ty) scr ord d
    (fun s t i => effAddr t i an (readAny s t i x * BitVec.ofNat 64 (stBytes ty) + off.signExtend 64 * BitVec.ofNat 64 (stBytes ty))) s
/-- st.poison: of a debug context alone (R235). -/
def execStPoison (scr : Bool) (ord : Ord) (an : R3) (off : BitVec 28) (s : State) : Out :=
  let go := storeOp (.stPoison scr ord an off) 0 scr ord 127#7
    (fun _ t i => effAddr t i an (off.signExtend 64 * 32#64)) s
  match s.iss with
  | none => go
  | some iss => match findTrain s iss.tr with
    | none => go
    | some t =>
      if debugTrain s t ∨ activeMask iss t = 0#32 then go
      else .next (faultAll s iss t (activeMask iss t) (cause 9 3) 0#64)

end Sys2Proof.Machine
end

