-- ==== Sys2Proof/Machine/Atom.lean ====
section
/-! DEFINITION. Atomics (spec/09 R239 to R241). -/

namespace Sys2Proof.Machine

/-- The new value of a location (R240): `v` is the source, `c` the comparand of cas. -/
def atomNew (op : AtomOp) (w : AWidth) (old v c : Nat) : Nat :=
  let n := 8 * atomBytes w
  let f := if w = .a32 then fpOf .f32 else fpOf .f64
  match op with
  | .add => addF n old v
  | .minI => minI n old v
  | .minN => minN n old v
  | .maxI => maxI n old v
  | .maxN => maxN n old v
  | .and => old &&& v
  | .or => old ||| v
  | .xor => old ^^^ v
  | .swap => v
  | .cas => if old = c then v else old
  | .fadd => (addV f .rn (unpack f old) (unpack f v)).1
/-- A value of an atom's width from its register or pair, or the item of a port. -/
def atomVal (s : State) (t : Train) (i : Nat) (w : AWidth) (r : Reg) : Nat :=
  (if isQ r then (readAny s t i r).toNat else (readPair t i r (w == .a128)).toNat) % 2 ^ (8 * atomBytes w)
/-- An atom on team scratch by one slot (R228, R238, R241, R306). -/
def scrAtom (iss : Issue) (ins : Instr) (op : AtomOp) (w : AWidth) (ret : Bool) (d : Reg) (an : R3) (src : Reg)
    (i : Nat) (r : Acc) : Acc :=
  match findTrain r.1 iss.tr with
  | none => r
  | some t => match findTeam r.1 t.team with
    | none => r
    | some tm =>
      let s := r.1
      let a := readA t i an
      let n := atomBytes w
      if addrOff a % n ≠ 0 then r.out i (misaligned accAtomic a)
      else match scrCheck iss tm a n with
      | some o => r.out i o
      | none => match scrRead s.now tm (addrOff a) n with
        | (.bad c, _) => (noteScrRead s tm (addrOff a) n, r.2 ++ [(i, dataFault c a)])
        | (.ok bs, lapsed) =>
          let old := leN bs
          let new := atomNew op w old (atomVal s t i w src) (atomVal s t i w d)
          let back := ret || op == .cas
          let push := if back && isQ d then some (portOf d, BitVec.ofNat 64 old) else none
          match portStop iss r t i (popPorts ins) push with
          | some o => r.out i o
          | none =>
            let s := noteScrRead s tm (addrOff a) n
            let s := makePops s iss.tr i (popPorts ins)
            let keys := (List.range n).map (fun j => scrKey tm.id (addrOff a + j))
            let s := modTrain s t.uid (fun t =>
              { modSlot t i (fun x => clockRead s t.core t.uid x keys) with lapsed := t.lapsed || lapsed })
            let rels := ((findTrain s t.uid).map (fun t => (slotAt t i).rel)).getD []
            let s := clockPut s t.core t.uid rels keys none 0
            let s := scrWrite s tm.id (((bytesN n new).zipIdx).map (fun p => (addrOff a + p.2, p.1)))
            match push with
            | some (q, v) => (wakePort (pushDo s iss.tr i q v) iss.tr q, r.2)
            | none =>
              (if back then modTrain s iss.tr (fun t => putDst t i (dstOf t d (w == .a128)) (BitVec.ofNat 128 old)) else s, r.2)
/-- An atom on memory by one slot: a request that its home applies (R240, R243). -/
def devAtom (iss : Issue) (ins : Instr) (grp : Nat) (op : AtomOp) (w : AWidth) (sc : Scope) (ret : Bool) (d : Reg) (an : R3)
    (src : Reg) (i : Nat) (r : Acc) : Acc :=
  match findTrain r.1 iss.tr with
  | none => r
  | some t =>
    let a := readA t i an
    let n := atomBytes w
    let x := slotAt t i
    if addrOff a % n ≠ 0 then r.out i (misaligned accAtomic a)
    else match devLook r.1 t x a n accAtomic with
    | (.park id, s) => (s, r.2 ++ [(i, .park .miss (.miss id accAtomic false) (nextPc iss))])
    | (.window, s) => (s, r.2 ++ [(i, addrFault 6 accAtomic 4 a)])
    | (.bad ty l, s) => (s, r.2 ++ [(i, addrFault ty accAtomic l a)])
    | (.ok kv, s) =>
      let back := ret || op == .cas
      let stop := match portStop iss (s, r.2) t i (popPorts ins) none with
        | some o => some o
        | none => match (if back && isQ d then pushChk s t i (portOf d) 0#64 else .ok) with
          | .fault c => some (.fault (cause 6 c) 0#64 0#80)
          | _ => none
      match stop with
      | some o => (s, r.2 ++ [(i, o)])
      | none =>
        let v := BitVec.ofNat 128 (atomVal s t i w src)
        let c := BitVec.ofNat 128 (atomVal s t i w d)
        let s := makePops s iss.tr i (popPorts ins)
        let (id, s) := fresh s
        let req := mkReq (ctxOf s t) iss t i x id (insOf x grp) (.atom op w v c back 0#128) (.strong sc)
          (if back then dstOf t d (w == .a128) else .none) a kv (sectorsOf (ctxOf s t) (addrSpan a) (addrOff a) n)
          (beforeOf s x (kv.map (·.1)))
        (post { s with reqs := s.reqs ++ [req] } (.writeHomeApply id), r.2)
/-- A free order of slots (R7, R240): at each place one of those that are left. -/
def freeOrder (tick : Nat) : Nat → List Nat → List Nat
  | 0, l => l
  | n + 1, l =>
    if l.isEmpty then [] else
    let k := Config.pick (2 ^ 64 * (n + 1) + tick) l.length % l.length
    l.getD k 0 :: freeOrder tick n (l.eraseIdx k)
/-- The atom forms (R240). Slots that use a port act in ascending order. -/
def atomOp (ins : Instr) (op : AtomOp) (w : AWidth) (sp : ASpace) (ret : Bool) (d : Reg) (an : R3) (src : Reg) (s : State) : Out :=
  runIns ins s (fun s iss t m =>
    let slots := slotsOf m
    let (grp, s) := fresh s
    match sp with
    | .scratch =>
      let order := if portFree ins then freeOrder s.tick 32 slots else slots
      settleAcc iss true grp m (order.foldl (fun r i => scrAtom iss ins op w ret d an src i r) (s, []))
    | .dev sc =>
      if 4096 < lineLoad s t.core + slots.length then holdRun s
      else settleAcc iss true grp m (slots.foldl (fun r i => devAtom iss ins grp op w sc ret d an src i r) (s, [])))
/-- atom.add (R240). -/
def execAtomAdd (w : AWidth) (sp : ASpace) (ret : Bool) (d : Reg) (an : R3) (src : Reg) (s : State) : Out :=
  atomOp (.atomAdd w sp ret d an src) .add w sp ret d an src s
/-- atom.minI (R240). -/
def execAtomMinI (w : AWidth) (sp : ASpace) (ret : Bool) (d : Reg) (an : R3) (src : Reg) (s : State) : Out :=
  atomOp (.atomMinI w sp ret d an src) .minI w sp ret d an src s
/-- atom.minN (R240). -/
def execAtomMinN (w : AWidth) (sp : ASpace) (ret : Bool) (d : Reg) (an : R3) (src : Reg) (s : State) : Out :=
  atomOp (.atomMinN w sp ret d an src) .minN w sp ret d an src s
/-- atom.maxI (R240). -/
def execAtomMaxI (w : AWidth) (sp : ASpace) (ret : Bool) (d : Reg) (an : R3) (src : Reg) (s : State) : Out :=
  atomOp (.atomMaxI w sp ret d an src) .maxI w sp ret d an src s
/-- atom.maxN (R240). -/
def execAtomMaxN (w : AWidth) (sp : ASpace) (ret : Bool) (d : Reg) (an : R3) (src : Reg) (s : State) : Out :=
  atomOp (.atomMaxN w sp ret d an src) .maxN w sp ret d an src s
/-- atom.and (R240). -/
def execAtomAnd (w : AWidth) (sp : ASpace) (ret : Bool) (d : Reg) (an : R3) (src : Reg) (s : State) : Out :=
  atomOp (.atomAnd w sp ret d an src) .and w sp ret d an src s
/-- atom.or (R240). -/
def execAtomOr (w : AWidth) (sp : ASpace) (ret : Bool) (d : Reg) (an : R3) (src : Reg) (s : State) : Out :=
  atomOp (.atomOr w sp ret d an src) .or w sp ret d an src s
/-- atom.xor (R240). -/
def execAtomXor (w : AWidth) (sp : ASpace) (ret : Bool) (d : Reg) (an : R3) (src : Reg) (s : State) : Out :=
  atomOp (.atomXor w sp ret d an src) .xor w sp ret d an src s
/-- atom.swap (R240). -/
def execAtomSwap (w : AWidth) (sp : ASpace) (ret : Bool) (d : Reg) (an : R3) (src : Reg) (s : State) : Out :=
  atomOp (.atomSwap w sp ret d an src) .swap w sp ret d an src s
/-- atom.cas (R240). -/
def execAtomCas (w : AWidth) (sp : ASpace) (ret : Bool) (d : Reg) (an : R3) (src : Reg) (s : State) : Out :=
  atomOp (.atomCas w sp ret d an src) .cas w sp ret d an src s
/-- atom.fadd (R240). -/
def execAtomFadd (w : AWidth) (sp : ASpace) (ret : Bool) (d : Reg) (an : R3) (src : Reg) (s : State) : Out :=
  atomOp (.atomFadd w sp ret d an src) .fadd w sp ret d an src s

end Sys2Proof.Machine
end

