-- ==== Sys2Proof/Machine/Bit.lean ====
section
/-! DEFINITION. The bit family (R121 to R123). -/

namespace Sys2Proof.Machine

/-- bit.bextI (R122). -/
def execBitBextI (w : Width) (d a b : Reg) (s : State) : Out := vecOp (.bitBextI w d a b) d (fun rd => map2 w bextI (rd a) (rd b)) s
/-- bit.bextN (R122). -/
def execBitBextN (w : Width) (d a b : Reg) (s : State) : Out := vecOp (.bitBextN w d a b) d (fun rd => map2 w bextN (rd a) (rd b)) s
/-- bit.bins (R122). -/
def execBitBins (w : Width) (d a b : Reg) (s : State) : Out :=
  vecOp (.bitBins w d a b) d (fun rd => map3 w binsF (rd d) (rd a) (rd b)) s
/-- bit.popc (R122). -/
def execBitPopc (w : Width) (d a : Reg) (s : State) : Out := vecOp (.bitPopc w d a) d (fun rd => map1 w popcF (rd a)) s
/-- bit.clz (R122). -/
def execBitClz (w : Width) (d a : Reg) (s : State) : Out := vecOp (.bitClz w d a) d (fun rd => map1 w clzF (rd a)) s
/-- bit.ctz (R122). -/
def execBitCtz (w : Width) (d a : Reg) (s : State) : Out := vecOp (.bitCtz w d a) d (fun rd => map1 w ctzF (rd a)) s
/-- bit.brev (R122). -/
def execBitBrev (w : Width) (d a : Reg) (s : State) : Out := vecOp (.bitBrev w d a) d (fun rd => map1 w brevF (rd a)) s
/-- bit.bperm (R123). -/
def execBitBperm (d a b : Reg) (s : State) : Out :=
  vecOp (.bitBperm d a b) d (fun rd => packW 8 (bpermF (rd a) (rd d) (rd b))) s

end Sys2Proof.Machine
end

