-- ==== Sys2Proof/Machine/Bo.lean ====
section
/-! DEFINITION. Barrier objects as instructions reach them (spec/09 R249 to R253). -/

namespace Sys2Proof.Machine

/-- The frame of the bo forms: each active slot in turn, its ports first, then the check of its object (R252). -/
def boOp (ins : Instr) (a : Reg) (push : State → Train → Team → Nat → Option (Nat × Word))
    (act : Issue → State → Train → Team → Nat → Nat → (State ⊕ SlotOut)) (ends : Bool) (s : State) : Out :=
  runIns ins s (fun s iss _ m =>
    settleAcc iss ends 0 m ((slotsOf m).foldl (fun r i =>
      match findTrain r.1 iss.tr with
      | none => r
      | some t => match findTeam r.1 t.team with
        | none => r
        | some tm =>
          match portStop iss r t i (popPorts ins) none with
          | some o => r.out i o
          | none =>
            let off := (readAny r.1 t i a).toNat
            if !isBobj tm off then r.out i (.fault (cause 6 6) 0#64 0#80)
            else match portStop iss r t i (popPorts ins) (push r.1 t tm i) with
            | some o => r.out i o
            | none => match act iss r.1 t tm i off with
              | .inr o => r.out i o
              | .inl s => (makePops s iss.tr i (popPorts ins), r.2)) (s, [])))
def noPush (_ : State) (_ : Train) (_ : Team) (_ : Nat) : Option (Nat × Word) := none
/-- A slot's write of an object, with what it has released (R299, R324). -/
def objWrite (s : State) (t : Train) (tm : Team) (i off : Nat) : State :=
  clockPut s t.core t.uid (slotAt t i).rel [scrKey tm.id off] none 0
/-- An object has engine commands or tasks in flight (R252). -/
def objBusy (s : State) (tm : Team) (off : Nat) : Bool :=
  (teamCmds s tm.id).any (fun c => c.obj == some off) || (teamTasks s tm.id).any (fun k => k.obj == some off)
def rangeFault : SlotOut := .fault (cause 6 8) 0#64 0#80
/-- bo.init (R251, R252). -/
def execBoInit (a b : Reg) (s : State) : Out :=
  boOp (.boInit a b) a noPush (fun _ s t tm i off =>
    let v := (readAny s t i b).toNat
    if objBusy s tm off then .inr (.fault (cause 6 7) 0#64 0#80)
    else if 2 ^ 32 ≤ v then .inr rangeFault
    else .inl (wakeObj (setTeam (objWrite s t tm i off) { tm with bobjs := aset tm.bobjs off ⟨v, 0, 0, false⟩ }) tm.id off false))
    false s
/-- bo.expect (R251, R252). -/
def execBoExpect (a b : Reg) (s : State) : Out :=
  boOp (.boExpect a b) a noPush (fun _ s t tm i off =>
    let v := (readAny s t i b).toNat
    let o := objOf tm off
    if 2 ^ 32 ≤ v ∨ 2 ^ 32 ≤ o.expected + v then .inr rangeFault
    else .inl (objCheck (setTeam (objWrite s t tm i off)
      { tm with bobjs := aset tm.bobjs off { o with expected := o.expected + v } }) tm.id off)) false s
/-- bo.arrive (R250 to R252). -/
def execBoArrive (a b : Reg) (s : State) : Out :=
  boOp (.boArrive a b) a noPush (fun _ s t tm i off =>
    let v := (readAny s t i b).toNat
    if 2 ^ 32 ≤ v then .inr rangeFault
    else .inl (objCountNow (objWrite s t tm i off) tm.id off v (objOf tm off).phase)) true s
/-- A slot has read an object: it takes what the object's writers released (R310). -/
def objTook (s : State) (t : Train) (tm : Team) (i off : Nat) : State :=
  modTrain s t.uid (fun t => modSlot t i (fun x => clockRead s t.core t.uid x [scrKey tm.id off]))
/-- bo.wait (R251). -/
def execBoWait (a b : Reg) (s : State) : Out :=
  let ins : Instr := .boWait a b
  boOp ins a noPush (fun iss s t tm i off =>
    let p := (readAny s t i b).getLsbD 0
    if (slotAt t i).walked || (objOf tm off).phase != p then .inl (objTook s t tm i off)
    else .inr (.park .bowait (.obj off p (!(popPorts ins).isEmpty)) (nextPc iss))) false s
/-- The frame of the two forms that read an object into d. -/
def boRead (ins : Instr) (d a : Reg) (f : BObj → Word) (s : State) : Out :=
  boOp ins a (fun s t tm i => if isQ d then some (portOf d, f (objOf tm (readAny s t i a).toNat)) else none)
    (fun iss s t tm i off =>
      let v := f (objOf tm off)
      let s := objTook s t tm i off
      .inl (if isQ d then
          -- an item popped by the same form comes before the push
          wakePort (pushDo s iss.tr i (portOf d) v) iss.tr (portOf d)
        else modTrain s iss.tr (fun t => writeW t i d v))) false s
/-- bo.test (R251). -/
def execBoTest (d a : Reg) (s : State) : Out :=
  boRead (.boTest d a) d a (fun o =>
    BitVec.ofNat 64 (o.arrived * 2 ^ 32 + o.err % 2 ^ 8 * 2 ^ 8 + (if o.phase then 1 else 0))) s
/-- bo.err (R251). -/
def execBoErr (d a : Reg) (s : State) : Out := boRead (.boErr d a) d a (fun o => BitVec.ofNat 64 (o.err % 2 ^ 8)) s

end Sys2Proof.Machine
end

