-- ==== Sys2Proof/Machine/Branch.lean ====
section
/-! DEFINITION. Branches, jumps and calls (R131 to R134). -/

namespace Sys2Proof.Machine

/-- A new PC, as an integer, and the fault it makes: 2:0 misaligned, 2:1 out of range (R132). -/
def pcFault (x : Int) : Option (BitVec 9) :=
  if x % 4 ≠ 0 then some (cause 2 0) else if x < 0 ∨ (2 ^ 40 - 4 : Nat) < x then some (cause 2 1) else none
/-- A target at a signed word offset from the word after the branch (R131). -/
def relPc (iss : Issue) {n : Nat} (off : BitVec n) : Int := (iss.wpc.toNat : Int) + 4 + 4 * off.toInt
def pcOf (x : Int) : Pc := BitVec.ofInt 40 x
/-- Every active slot goes to its own target, with a link where one is written; any fault leaves the whole run (R132). -/
def jumpTo (ins : Instr) (link : Option Reg) (f : Issue → Train → Nat → Slot → Int) (s : State) : Out :=
  runIns ins s (fun s iss t m =>
    let tg := fun (i : Nat) => f iss t i (slotAt t i)
    match (slotsOf m).filterMap (fun i => (pcFault (tg i)).map (fun c => (i, SlotOut.fault c 0#64 0#80))) with
    | [] =>
      let t' := match link with
        | some d => mapSlots t (fun i x => if inMask m i then (putReg x (wIdx t d) (BitVec.ofNat 64 (iss.wpc.toNat + 4))) else x)
        | none => t
      settle s iss t' ((slotsOf m).map (fun i => (i, .done (pcOf (tg i)))))
    | fs =>
      settle s iss t ((slotsOf iss.slots).map (fun i => (i, (afind fs i).getD (.park .ready .none iss.start)))))
/-- bra (R131). -/
def execBra (p : R3) (sense : Bool) (off : BitVec 43) (s : State) : Out :=
  jumpTo (.bra p sense off) none (fun iss _ _ x => if slotPred x p != sense then relPc iss off else (iss.wpc.toNat : Int) + 4) s
/-- jmp.jmp (R131). -/
def execJmpJmp (off : BitVec 37) (s : State) : Out := jumpTo (.jmpJmp off) none (fun iss _ _ _ => relPc iss off) s
/-- jmp.call (R131). -/
def execJmpCall (d : Reg) (off : BitVec 37) (s : State) : Out :=
  jumpTo (.jmpCall d off) (some d) (fun iss _ _ _ => relPc iss off) s
/-- jmp.ret (R131). -/
def execJmpRet (a : Reg) (s : State) : Out := jumpTo (.jmpRet a) none (fun _ t i _ => ((readReg t i a).toNat : Int)) s
/-- jmp.jmpr (R131). -/
def execJmpJmpr (a : Reg) (s : State) : Out := jumpTo (.jmpJmpr a) none (fun _ t i _ => ((readReg t i a).toNat : Int)) s
/-- jmp.callr: a is read before d is written (R131). -/
def execJmpCallr (d a : Reg) (s : State) : Out :=
  jumpTo (.jmpCallr d a) (some d) (fun _ t i _ => ((readReg t i a).toNat : Int)) s

end Sys2Proof.Machine
end

