-- ==== Sys2Proof/Machine/Bt.lean ====
section
/-! DEFINITION. The bt instructions: each slot's request to the bridle engines (spec/20 R398, R405 to R409). -/

namespace Sys2Proof.Machine

/-- A fault of class 8 in a slot. -/
def treeFault (d : Nat) : SlotOut := .fault (cause 8 d) 0#64 0#80
/-- A node operand (R405). -/
def nodeBad (v : Word) : Bool := decide (65536 ≤ v.toNat)
/-- A settle or compare ends in an acq fence at device scope: the slot's later accesses wait for it and for its earlier reads
(R301, R409). -/
def btFences : BtOp → Bool
  | .settle _ | .cmp _ _ => true
  | _ => false
/-- The node that a settle, read or compare names must be live as it is asked (R409). -/
def askFault (s : State) (ctx : Nat) (op : BtOp) : Option Nat :=
  match op with
  | .settle _ | .read _ | .cmp _ _ => btFault s ctx op
  | _ => none
/-- The run of a bt form in a context without a node table: 8:7 comes after the operand faults, for the whole run, whatever its
registers hold (R398, R416). -/
def noTable (s : State) (ins : Instr) : Option (Issue × Train) :=
  s.iss.bind (fun iss => (findTrain s iss.tr).bind (fun t =>
    if (fieldFault t ins).isNone && ((findCtx s (ctxOf s t)).map (·.nmax)).getD 0 == 0 then some (iss, t) else none))
/-- One active slot of a bt form: `mk` gives its request, or none for reserved operand bits. -/
def btSlot (iss : Issue) (ins : Instr) (grp : Nat) (d : Reg) (mk : State → Train → Nat → Option BtOp) (r : Acc) (i : Nat) : Acc :=
  match findTrain r.1 iss.tr with
  | none => r
  | some t =>
    let s := r.1
    match portStop iss r t i (popPorts ins) none with
    | some o => r.out i o
    | none => match mk s t i with
      | none => r.out i (treeFault 6)
      | some op => match askFault s (ctxOf s t) op with
        | some f => r.out i (treeFault f)
        | none => match (if isQ d then pushChk s t i (portOf d) 0#64 else .ok) with
          | .fault c => r.out i (.fault (cause 6 c) 0#64 0#80)
          | _ =>
            let s := makePops s iss.tr i (popPorts ins)
            let x := slotAt t i
            let (id, s) := fresh s
            let req := mkReq (ctxOf s t) iss t i x id (insOf x grp) (.bt op) .plain (dstOf t d false) 0#80 [] [] x.hb
            let s := { s with reqs := s.reqs ++ [req] }
            (post (if btFences op then blockReads s iss.tr i .dev else s) (.btReply id), r.2)
/-- The frame of the bt forms. -/
def btOp (ins : Instr) (d : Reg) (mk : State → Train → Nat → Option BtOp) (s : State) : Out :=
  match noTable s ins with
  | some (iss, t) =>
    let m := activeMask iss t
    .next (if m = 0#32 then settle s iss t [] else faultAll s iss t m (cause 8 7) 0#64)
  | none => runIns ins s (fun s iss _ m =>
    let (grp, s) := fresh s
    settleAcc iss false grp m ((slotsOf m).foldl (btSlot iss ins grp d mk) (s, [])))
/-- A node operand of a form as a request. -/
def nodeReq (a : Reg) (f : Nat → BtOp) (s : State) (t : Train) (i : Nat) : Option BtOp :=
  let v := readAny s t i a
  if nodeBad v then none else some (f v.toNat)
/-- bt.enroll (R406). -/
def execBtEnroll (d : Reg) (an : R3) (b : Reg) (s : State) : Out :=
  btOp (.btEnroll d an b) d (fun s t i =>
    let v := readAny s t i b
    if fld v 49 15 ≠ 0 ∨ fld v 16 8 ≠ 0 then none else some (.enroll (readA t i an) v)) s
/-- bt.unenroll (R407). -/
def execBtUnenroll (a : Reg) (s : State) : Out := btOp (.btUnenroll a) 127#7 (nodeReq a .unenroll) s
/-- bt.reparent (R408). -/
def execBtReparent (a b : Reg) (s : State) : Out :=
  btOp (.btReparent a b) 127#7 (fun s t i =>
    let v := readAny s t i b
    if nodeBad v then none else nodeReq a (fun n => .reparent n v) s t i) s
/-- bt.settle (R409). -/
def execBtSettle (d a : Reg) (s : State) : Out := btOp (.btSettle d a) d (nodeReq a .settle) s
/-- bt.read (R409). -/
def execBtRead (d a : Reg) (s : State) : Out := btOp (.btRead d a) d (nodeReq a .read) s
/-- bt.cmp (R409). -/
def execBtCmp (d a b : Reg) (s : State) : Out :=
  btOp (.btCmp d a b) d (fun s t i => nodeReq a (fun n => .cmp n (readAny s t i b)) s t i) s

end Sys2Proof.Machine
end

