-- ==== Sys2Proof/Machine/Cmp.lean ====
section
/-! DEFINITION. cmp: sub-element 0 of each source, combined into a predicate (R124, R125). -/

namespace Sys2Proof.Machine

/-- The condition on two register values. -/
def cmpHolds (c : Cond) (ty : CmpTy) (x y : Word) : Bool :=
  match ty with
  | .int w => icond c (wbits w) (subN x (wbits w) 0) (subN y (wbits w) 0)
  | .flt f => fcond c (unpack (fpOf f) (subN x (fbits f) 0)) (unpack (fpOf f) (subN y (fbits f) 0))
/-- The flags that it raises. -/
def cmpRaises (c : Cond) (ty : CmpTy) (x y : Word) : BitVec 5 :=
  match ty with
  | .int _ => 0#5
  | .flt f =>
    let u := unpack (fpOf f) (subN x (fbits f) 0)
    let v := unpack (fpOf f) (subN y (fbits f) 0)
    cmpFlags c (u.isNan || v.isNan) (u.isSig || v.isSig)
/-- cmp (R124): p0 takes no write, which decoding refuses. -/
def execCmp (p : R3) (cond : Cond) (ty : CmpTy) (comb : Combine) (a b : Reg) (s : State) : Out :=
  vecSlotFlag (.cmp p cond ty comb a b)
    (fun rd x => setPred x p (combine comb (slotPred x p) (cmpHolds cond ty (rd a) (rd b))))
    (fun rd => cmpRaises cond ty (rd a) (rd b)) s

end Sys2Proof.Machine
end

