-- ==== Sys2Proof/Machine/LaunchOps.lean ====
section
/-! DEFINITION. Launches: the checks of a body and its kernel descriptor, their acceptance, and the device-launch queue (spec/16
R342 to R345, spec/17 R360, R372). -/

namespace Sys2Proof.Machine

/-- Word `i` of a run of bytes. -/
def wordAt (bs : List Byte) (i : Nat) : Nat := leN ((bs.drop (8 * i)).take 8)
/-- A stage descriptor, or none where a field is reserved or out of range (R343, R345). -/
def stageD (bs : List Byte) : Option StageD :=
  let w := fun (i lo n : Nat) => bitsN (wordAt bs i) lo n
  let threads := w 1 16 11
  let A := 32 * (w 1 6 5 + 1)
  let form := w 2 33 3 + 1
  let teams := w 1 32 32
  let scr := w 2 0 23
  if w 0 40 24 ≠ 0 ∨ w 1 27 5 ≠ 0 ∨ w 1 11 5 ≠ 0 ∨ w 1 0 6 ≠ 0 ∨ w 2 40 24 ≠ 0 ∨ w 2 32 1 ≠ 0 ∨ w 2 23 2 ≠ 0 ∨
      wordAt bs 3 ≠ 0 ∨ w 0 0 2 ≠ 0 ∨ threads = 0 ∨ 1024 < threads ∨ 64 < w 2 25 7 ∨ scr % 256 ≠ 0 ∨
      Config.teamStore < (threads + 31) / 32 * 32 * A * 8 + scr ∨ (1 < form ∧ teams % form ≠ 0) then none
  else some ⟨w 0 0 40, teams, threads, A, w 2 36 4, form, w 2 25 7, scr⟩
/-- A queue descriptor (R344). -/
def queueD (bs : List Byte) : Option SQueue :=
  let w := fun (i lo n : Nat) => bitsN (wordAt bs i) lo n
  let depth := w 0 0 24 + 1
  if w 0 27 37 ≠ 0 ∨ 5 < w 0 24 3 ∨ w 1 49 15 ≠ 0 ∨ w 1 24 25 ≤ w 1 0 24 ∨ depth < w 1 24 25 then none
  else some ⟨2 ^ (w 0 24 3 + 3), depth, w 1 0 24, w 1 24 25, [], false⟩
/-- A kernel descriptor: code base, debug, argument words, stages and queues (R342). -/
structure KDesc where
  cbase  : Nat
  debug  : Bool
  nargs  : Nat
  stages : List StageD
  queues : List SQueue
def kDesc (bs : List Byte) : Option KDesc :=
  let w := fun (i lo n : Nat) => bitsN (wordAt bs i) lo n
  let n := w 0 40 3 + 1
  let part := fun (o len : Nat) => (bs.drop o).take len
  let zero := fun (o len : Nat) => (part o len).all (· == 0#8)
  if w 0 56 8 ≠ 1 ∨ w 0 43 13 ≠ 0 ∨ w 0 35 5 ≠ 0 ∨ 4 < w 0 32 3 ∨ w 0 1 31 ≠ 0 ∨ wordAt bs 1 % 65536 ≠ 0 then none
  else if !zero (16 + 32 * n) (32 * (8 - n)) ∨ !zero (272 + 16 * (n - 1)) (16 * (8 - n)) then none
  else
    let st := allSome ((List.range n).map (fun i => stageD (part (16 + 32 * i) 32)))
    let qs := allSome ((List.range (n - 1)).map (fun i => queueD (part (272 + 16 * i) 16)))
    match st, qs with
    | some st, some qs => some ⟨wordAt bs 1, w 0 0 1 == 1, w 0 32 3, st, qs⟩
    | _, _ => none
/-- The context of a launch is being torn down: the launch has no effect (R396). -/
def ctxClosing (s : State) (ctx : Nat) : Bool := ((findCtx s ctx).map (·.closing)).getD true
/-- Checks a launch body and hands the launch to the dispatchers; else the cause that its record carries (R360). -/
def acceptLaunch (s : State) (ctx prio : Nat) (origin : Option Nat) (bs : List Byte) : Except Nat State :=
  let w := fun (i : Nat) => wordAt bs i
  let kd := w 0
  if kd % 64 ≠ 0 ∨ 2 ≤ w 1 ∨ w 2 % 8 ≠ 0 ∨ (bs.drop 96).any (· != 0#8) then .error 0
  else match feRead s ctx 0 kd 384 with
    | .error c => .error c
    | .ok kb => match kDesc kb with
      | none => .error 0
      | some k =>
        let debugCtx := ((findCtx s ctx).map (·.budget.debug)).getD false
        let counts := (k.stages.zipIdx).map (fun p => if p.1.teams = 0 then leN ((bs.drop (32 + 4 * p.2)).take 4) else p.1.teams)
        if (k.debug && !debugCtx) ∨ counts.any (· == 0) then .error 0
        else if ctxClosing s ctx then .ok s
        else
          let (id, s) := fresh (feNote s ctx 0 kd 384)
          let zeros := k.stages.map (fun _ => 0)
          let l : Launch :=
            { id := id, ctx := ctx, cbase := k.cbase, stages := k.stages, queues := k.queues,
              args := (List.range k.nargs).map (fun i => BitVec.ofNat 64 (w (8 + i))), counts := counts, nexts := zeros,
              retired := zeros, since := k.stages.map (fun _ => s.now), stalls := zeros, done := w 1 == 1,
              dadr := BitVec.ofNat 64 (w 2), dval := BitVec.ofNat 64 (w 3), prio := prio }
          let s := { s with launches := s.launches ++ [l] }
          let s := match origin with
            | some q => modQ s q (fun q => { q with launches := q.launches ++ [id] })
            | none => s
          .ok (reconsider (post s (.teamBlocking id (s.now + 50 * Config.us))))
/-- DLAUNCH_PROCESS (R372): the oldest descriptor of the context's queue, and room for those that wait for it (R148). -/
def dlaunched (s : State) (ctx : Nat) : State :=
  match findCtx s ctx with
  | none => s
  | some c => match c.dlq with
    | [] => s
    | (v, prio) :: rest =>
      let s := modCtx s ctx (fun c => { c with dlq := rest })
      let s := { s with trains := s.trains.map (fun t =>
        if t.halted ∨ ctxOf s t ≠ ctx then t
        else mapSlots t (fun _ x => if x.wait = .dlaunch then waitRetry x else x)) }
      let s := feNote s ctx 0 v.toNat 128
      let bad := fun (c : Nat) => addErr s { errRec 12 1 0xFF ctx with code := 8, cause := c }
      match feRead s ctx 0 v.toNat 128 with
      | .error c => bad c
      | .ok bs => match acceptLaunch s ctx prio none bs with
        | .error c => bad c
        | .ok s => s
@[inherit_doc dlaunched] def execDlaunchProcess (ctx : Nat) (s : State) : Out := .next (dlaunched s ctx)

end Sys2Proof.Machine
end

