-- ==== Sys2Proof/Machine/Queue.lean ====
section
/-! DEFINITION. Queue slots: mapping, the packet fetcher and its window, and unmap (spec/17 R354 to R358, R362 to R366, R373,
R374; log 24). -/

namespace Sys2Proof.Machine

/-! The fetcher (R363, R365). -/

/-- The ring as the bottom of a stack. -/
def ringFrame (pos : Nat) : Frame := ⟨0, 0, 0, pos, 0, []⟩
/-- Where a word of the stream stands: span and offset (R354). -/
def streamAt (q : QSlot) (level pos : Nat) : Nat × Nat :=
  if level = 0 then (q.span, (q.base.toNat + 8 * pos % 2 ^ q.z) % 2 ^ 64) else (0, 8 * pos % 2 ^ 64)
/-- Reads a word of the stream. -/
def streamWord (s : State) (q : QSlot) (level pos : Nat) : Except Nat Nat :=
  (feRead s q.ctx (streamAt q level pos).1 (streamAt q level pos).2 8).map leN
def streamWords (s : State) (q : QSlot) (level : Nat) : Nat → Nat → Except Nat (List Word)
  | 0, _ => .ok []
  | n + 1, pos => match streamWord s q level pos with
    | .error c => .error c
    | .ok w => (streamWords s q level n (pos + 1)).map (fun l => BitVec.ofNat 64 w :: l)
/-- Packet exception of a faulted read: 7 for the data, 6 for the address (R371). -/
def readExc (c : Nat) : Nat := if c / 32 = 4 then 7 else 6
/-- Body lengths by type (R358). -/
def bodyLen : Nat → Nat
  | 1 => 16 | 2 => 17 | 3 => 2 | 4 => 3 | 5 => 1 | 6 => 0 | 7 => 3 | 8 => 2 | _ => 2
/-- Frames whose end has been reached are left, a LOOP body for its next pass (R363). -/
def popFrames : Nat → List Frame → List Frame
  | n + 1, f :: g :: rest =>
    if f.pos < f.stop then f :: g :: rest
    else if 1 < f.loop then { f with pos := f.start, loop := f.loop - 1 } :: g :: rest
    else popFrames n (g :: rest)
  | _, l => l
/-- The fetcher leaves a packet: the stack past it, and the ring position where a level-0 packet ends with it. -/
def closed (l : List Frame) : List Frame × Option Nat :=
  let l := popFrames l.length l
  (l, match l with
    | [f] => some f.pos
    | _ => none)
/-- What a packet at fault leaves the fetcher with: its container is skipped; nothing is read past one in the ring itself. -/
def skipped (f : Frame) (rest : List Frame) : List Frame := if rest.isEmpty then [f] else { f with pos := f.stop } :: rest
/-- Frames that a packet opens, its own frame standing behind it: `a` and `b` are names for its arms. -/
def opened (f : Frame) (rest : List Frame) (ty : Nat) (body : List Word) (a b : Nat) : Except Nat (List Frame) :=
  let w := fun (i lo n : Nat) => fld (body.getD i 0#64) lo n
  let past := fun (n : Nat) => !rest.isEmpty && decide (f.stop < f.pos + n)
  if ty = 3 then
    if (body.getD 0 0#64).toNat % 8 ≠ 0 ∨ w 1 32 32 ≠ 0 ∨ w 1 0 32 = 0 then .ok (f :: rest)
    else if 2 ≤ f.level then .error 3
    else
      let p := (body.getD 0 0#64).toNat / 8
      .ok (⟨f.level + 1, p, p + w 1 0 32, p, 0, f.arms⟩ :: f :: rest)
  else if ty = 4 then
    let tl := w 2 16 24
    let el := w 2 40 24
    if past (tl + el) then .error 5
    else
      .ok (⟨f.level, f.pos, f.pos + tl, f.pos, 0, a :: f.arms⟩ ::
        ⟨f.level, f.pos + tl, f.pos + tl + el, f.pos + tl, 0, b :: f.arms⟩ :: { f with pos := f.pos + tl + el } :: rest)
  else if ty = 5 then
    let n := w 0 8 24
    if w 0 32 32 ≠ 0 ∨ n = 0 ∨ w 0 0 8 = 0 then .ok (f :: rest)
    else if (f :: rest).any (fun g => g.level == f.level && decide (0 < g.loop)) then .error 4
    else if past n then .error 5
    else .ok (⟨f.level, f.pos, f.pos + n, f.pos, w 0 0 8, f.arms⟩ :: { f with pos := f.pos + n } :: rest)
  else .ok (f :: rest)
/-- What the fetcher finds next: nothing yet, or a packet with its words, the stack past it, and whether it is stuck. -/
def fetchPkt (s : State) (q : QSlot) (a b : Nat) : Option (WPkt × List Frame × Bool) :=
  match q.stack with
  | [] => none
  | f :: rest =>
    let bad := fun (hdr err cause : Nat) =>
      let r := closed (skipped f rest)
      some (WPkt.mk hdr [] err cause f.arms a b (if rest.isEmpty then none else r.2) q.stack, r.1, rest.isEmpty)
    if f.level = 0 ∧ q.wptr ≤ f.pos then none
    else match streamWord s q f.level f.pos with
      | .error c => bad 0 (readExc c) c
      | .ok h =>
        let ty := bitsN h 0 8
        let n := bitsN h 8 16
        let fend := f.pos + 1 + n
        if f.level = 0 ∧ q.wptr < fend then none
        else if 9 < ty then bad h 1 0
        else if bitsN h 25 39 ≠ 0 ∨ (ty ≠ 0 ∧ n ≠ bodyLen ty) then bad h 2 0
        else if !rest.isEmpty ∧ f.stop < fend then bad h 5 0
        else match (if ty = 0 then .ok [] else streamWords s q f.level n (f.pos + 1)) with
          | .error c => bad h (readExc c) c
          | .ok body => match opened { f with pos := fend } rest ty body a b with
            | .error e => bad h e 0
            | .ok st =>
              let r := closed st
              some (⟨h, body, 0, 0, f.arms, a, b, r.2, q.stack⟩, r.1, false)
/-- Records of the half-sectors that a packet's words stand in (R444). -/
def streamNote (s : State) (q : QSlot) (p : WPkt) : State :=
  if s.mcond.isEmpty then s
  else
    let f := p.before.headD (ringFrame 0)
    noteHalves s 0xFF q.ctx (streamAt q f.level f.pos).1 (nub ((List.range (1 + bitsN p.hdr 8 16)).flatMap (fun i =>
      let a := streamAt q f.level (f.pos + i)
      match transNow s q.ctx a.1 a.2 8 accRead with
      | .ok kv => kv.map (fun k => k.1 / 32)
      | .error _ => [])))
def pktBytes (p : WPkt) : Nat := 8 * (1 + bitsN p.hdr 8 16)
/-- Fills the window: 16 packets, 1,024 bytes, the written stream, or an FFENCE (R365). -/
def fillWindow (s : State) (slot : Nat) : Nat → State
  | 0 => s
  | n + 1 =>
    match findQ s slot with
    | none => s
    | some q =>
      let ended := match q.window.getLast? with
        | some p => p.err == 0 && bitsN p.hdr 0 8 == 6
        | none => false
      if q.stuck ∨ 16 ≤ q.window.length ∨ ended = true then s
      else match fetchPkt s q s.nextId (s.nextId + 1) with
        | none => s
        | some (p, st, stuck) =>
          if !q.window.isEmpty ∧ 1024 < sumN (q.window.map pktBytes) + pktBytes p then s
          else fillWindow (modQ { streamNote s q p with nextId := s.nextId + 2 } slot (fun q =>
            { q with window := q.window ++ [p], stack := st, stuck := stuck })) slot n

/-! The end of a packet (R354, R363). -/

/-- The read pointer goes to memory where the descriptor asks for it (R354). -/
def rptrOut (s : State) (slot : Nat) : State :=
  match findQ s slot with
  | none => s
  | some q =>
    if q.rpub = 0#64 then s
    else match feWrite s q.ctx 0 q.rpub.toNat (bytesN 8 q.rptr) with
      | .ok s => s
      | .error _ => feMark s q.ctx 0 q.rpub.toNat 8
/-- The queue publishes its read pointer, and what the I/O die has queued goes before (R303, R319). -/
def rptrWaits (s : State) (q : QSlot) : Bool := q.rpub != 0#64 && !ioClear s
/-- A packet of the queue has ended: the window moves on, and rptr at the end of what stands in the ring itself; rptr is published
after each packet of the ring, in an arm or body too. -/
def pktClosed (s : State) (slot : Nat) (p : WPkt) (ran : Bool) : State :=
  let s := modQ s slot (fun q => { q with window := q.window.drop 1, rptr := p.close.getD q.rptr })
  if p.close.isSome || (ran && (p.before.headD (ringFrame 0)).level == 0) then rptrOut s slot else s
/-- Packets of arms that were not taken leave the window without effect (R363). -/
def dropDead (s : State) (slot : Nat) : Nat → State
  | 0 => s
  | n + 1 => match findQ s slot with
    | none => s
    | some q => match q.window with
      | p :: _ => if p.arms.any (fun a => q.dead.contains a) then dropDead (pktClosed s slot p false) slot n else s
      | [] => s
/-- The fetcher stands in arms that were not taken: it leaves them. -/
def leaveDead (dead : List Nat) : Nat → List Frame → List Frame
  | n + 1, f :: g :: rest =>
    if f.arms.any (fun a => dead.contains a) then leaveDead dead n (popFrames (rest.length + 2) ({ f with pos := f.stop, loop := 0 } :: g :: rest))
    else f :: g :: rest
  | _, l => l
/-- A queue comes to rest: what is left of arms that were not taken is passed over, and rptr moves past a packet of the ring that has
so ended (R363, R373). -/
def passDead (s : State) (slot : Nat) : State :=
  let s := dropDead s slot 16
  match findQ s slot with
  | none => s
  | some q =>
    if !q.window.isEmpty then s
    else match leaveDead q.dead (2 * q.stack.length) q.stack with
      | [f] =>
        let moved := decide (q.rptr < f.pos)
        let s := modQ s slot (fun q => { q with stack := [f], rptr := max q.rptr f.pos })
        if moved then rptrOut s slot else s
      | l => modQ s slot (fun q => { q with stack := l })

/-! Saving (R373). -/

/-- Writes words of the descriptor of a queue; none where they cannot be written. -/
def descPut (s : State) (ctx desc off : Nat) (bs : List Byte) : State :=
  match transNow s ctx 0 (desc + off) bs.length accWrite with
  | .error _ => s
  | .ok kv => writeKeyed s (.front ctx) kv bs
/-- The resume field of a queue that stands inside a packet of the ring: its layout is not given; it is not zero (log 24). -/
def resumeWord (s : State) (st : List Frame) : Nat := if st.length ≤ 1 then 0 else (Config.openInfo s.tick).toNat * 2 + 1
/-- The places at which processing would go on: before the packet in progress. -/
def standing0 (q : QSlot) : List Frame :=
  match q.window.find? (fun p => !p.arms.any (fun a => q.dead.contains a)) with
  | some p => p.before
  | none => q.stack
/-- Save: window discarded, descriptor written, and the wakes that were held applied to it; of a context that is being torn down the queue
is then gone (R394). -/
def saveQueue (s : State) (slot : Nat) : State :=
  let s := passDead s slot
  match findQ s slot with
  | none => s
  | some q =>
    let st := standing0 q
    let s := descPut s q.ctx q.desc.toNat 16 (bytesN 8 q.rptr ++ bytesN 8 q.wptr ++
      bytesN 8 (q.fault * 2 ^ 8 + 4 + (if q.pend then 1 else 0)))
    let s := descPut s q.ctx q.desc.toNat 48 (bytesN 16 (resumeWord s st))
    let s := modQ s slot (fun q => { q with
      state := 2, stack := st, window := [], stuck := false, frozen := false, busy := false, watch := none, heldWakes := [] })
    let s := q.heldWakes.foldl (fun s v => savedWake (modQ s slot (fun q => { q with wptr := max q.wptr v, pend := true })) q v) s
    if ((findCtx s q.ctx).map (·.closing)).getD false then
      closeCtx { s with queues := s.queues.filter (fun o => decide (o.slot ≠ slot)) } q.ctx
    else s

/-! Going on (R354, R358). -/

/-- The event of a packet type. -/
def pktEvent (ty slot : Nat) : Instr :=
  match ty with
  | 0 => .packetNop slot | 1 => .packetLaunch slot | 2 => .packetLaunch2 slot | 3 => .packetIb slot | 4 => .packetPred slot
  | 5 => .packetLoop slot | 6 => .packetFfence slot | 7 => .packetWaitmem slot | 8 => .packetWrite slot
  | _ => .packetSignalBobj slot
/-- The packet in progress has completed. -/
def pktDone (s : State) (slot : Nat) : State :=
  match findQ s slot with
  | none => s
  | some q =>
    let s := modQ s slot (fun q => { q with busy := false, watch := none })
    let s := match q.window with
      | p :: _ => pktClosed s slot p true
      | [] => s
    post s (.packetWindowFetch slot)
/-- Fills the window, passing over what is dead. -/
def refill (s : State) (slot : Nat) : Nat → State
  | 0 => s
  | n + 1 =>
    let s := fillWindow s slot 16
    let len := ((findQ s slot).map (·.window.length)).getD 0
    let s := dropDead s slot 16
    if ((findQ s slot).map (·.window.length)).getD 0 = len then s else refill s slot n
/-- PACKET_WINDOW_FETCH (R365): the window is fetched in full, and its first packet comes to be processed. -/
def windowFetched (s : State) (slot : Nat) : State :=
  match findQ s slot with
  | none => s
  | some q =>
    if q.busy then s
    else if q.frozen then saveQueue s slot
    else if q.state ≠ 1 then s
    else
      let s := refill s slot (q.wptr + 64)
      match (findQ s slot).bind (·.window.head?) with
      | none => s
      | some p =>
        let s := modQ s slot (fun q => { q with busy := true })
        if p.err ≠ 0 then packetFault s slot p.err p.cause
        else post s (if bitsN p.hdr 0 8 = 9 ∧ fld (p.body.getD 0 0#64) 62 2 = 1 then .packetSignalWake slot
          else pktEvent (bitsN p.hdr 0 8) slot)
@[inherit_doc windowFetched] def execPacketWindowFetch (slot : Nat) (s : State) : Out := .next (windowFetched s slot)

/-! Mapping (R354, R374). -/

/-- The queue that a descriptor of 64 bytes describes, or none where the policy core refuses it (R354). -/
def queueOf (c : Ctx) (desc : Word) (slot : Nat) (bs : List Byte) : Option QSlot :=
  let w := fun (i lo n : Nat) => bitsN (wordAt bs i) lo n
  let z := w 1 32 8
  let prio := w 1 16 3
  if w 1 40 8 ≠ 0 ∨ w 1 19 13 ≠ 0 ∨ w 1 9 7 ≠ 0 ∨ w 4 16 48 ≠ 0 ∨ w 4 3 5 ≠ 0 ∨ z < 12 ∨ 24 < z ∨
      wordAt bs 0 % 2 ^ z ≠ 0 ∨ c.budget.dprio.toNat < prio then none
  else some
    { slot := slot, ctx := c.num, desc := desc, base := BitVec.ofNat 64 (wordAt bs 0), span := w 1 48 16, z := z, prio := prio,
      rptr := wordAt bs 2, wptr := wordAt bs 3, state := 1, fault := 0, pend := false, rpub := BitVec.ofNat 64 (wordAt bs 5),
      stack := [ringFrame (wordAt bs 2)], window := [], dead := [], stuck := false, frozen := false, heldWakes := [],
      busy := false, launches := [], watch := none }
/-- The policy core tells the host that a map request has failed (R354): DESIGN CHOICE (log 58), in one byte of zeros. -/
def mapFailed (s : State) : State := { s with reports := s.reports ++ [[0#8]] }
/-- Loads a descriptor into a free slot, with state 1 and pend clear; in memory qslot alone is written (R379). The queue is
woken when there was a wake or there is something to process. Where it was saved inside a packet of the ring it goes on from there (R374; log 24). -/
def mapQueue (s : State) (ctx : Nat) (desc : Word) (slot : Nat) (re : Bool) : State :=
  match findCtx s ctx with
  | none => mapFailed s
  | some c =>
    if desc.toNat % 64 ≠ 0 ∨ 512 ≤ slot ∨ s.queues.any (fun q => (q.slot == slot || (q.ctx == ctx && q.desc == desc)) && q.state != 2) = true then mapFailed s
    else match feRead s ctx 0 desc.toNat 64 with
      | .error _ => mapFailed s
      | .ok bs => match queueOf c desc slot bs with
        | none => mapFailed (feNote s ctx 0 desc.toNat 64)
        | some q =>
          let saved := bitsN (wordAt bs 4) 1 2 == 2
          if re && !saved then mapFailed s
          else
            let was := s.queues.find? (fun o => o.state == 2 && o.ctx == ctx && o.desc == desc)
            let q := match was with
              | some o =>
                let q := { q with launches := o.launches }
                if bitsN (leN (bs.drop 48)) 0 128 = 0 then q else { q with stack := o.stack, dead := o.dead }
              | none => q
            let woken := bitsN (wordAt bs 4) 0 1 == 1 || decide (q.rptr < q.wptr)
            let rest := s.queues.filter (fun o => !(o.state == 2 && o.ctx == ctx && o.desc == desc))
            -- a saved queue whose slot goes to another keeps its place under a number that no wake names
            let rest := rest.map (fun o => if o.slot = slot then { o with slot := 512 + s.nextId } else o)
            let s := { s with queues := rest ++ [q], nextId := s.nextId + 1 }
            let s := descPut (feNote s ctx 0 desc.toNat 64) ctx desc.toNat 8 (bytesN 8 (wordAt bs 1 / 512 * 512 + slot))
            if woken then postOnce s (.packetWindowFetch slot) else s
/-- QUEUE_MAP (R354). -/
def execQueueMap (ctx : Nat) (desc : Word) (slot : Nat) (s : State) : Out :=
  .next (mailbox s (fun s => mapQueue s ctx desc slot false))
/-- QUEUE_REMAP (R374). -/
def execQueueRemap (ctx : Nat) (desc : Word) (slot : Nat) (s : State) : Out :=
  .next (mailbox s (fun s => mapQueue s ctx desc slot true))
/-- Unmapping (R373): freeze; a packet in progress runs to its end, a WAITMEM is abandoned; then save. -/
def unmapQueue (s : State) (slot : Nat) : State :=
  match findQ s slot with
  | none => s
  | some q =>
    if q.state = 0 ∨ q.state = 2 then s
    else if q.busy ∧ q.watch.isNone then modQ s slot (fun q => { q with frozen := true })
    else saveQueue s slot
/-- QUEUE_UNMAP (R373). -/
def execQueueUnmap (slot : Nat) (s : State) : Out := .next (mailbox s (fun s => unmapQueue s slot))
/-- WAKE_WRITE (R355): of the host, for a context. -/
def execWakeWrite (ctx slot : Nat) (v : Word) (s : State) : Out := .next (wakeQueue s ctx slot v.toNat)

end Sys2Proof.Machine
end

