-- ==== Sys2Proof/Machine/Device.lean ====
section
/-! DEFINITION. Bring-up, host and peer accesses, keys and attestation (spec/23 R434 to R443; logs 18, 19). -/

namespace Sys2Proof.Machine

/-! Bring-up (R440). -/

/-- Fields of ctime with the reference value of each: place, width, reference (R26). -/
def ctimeFields : List (Nat × Nat × Nat) :=
  [(0, 8, 4), (8, 8, 6), (16, 8, 16), (24, 8, 24), (32, 4, 1), (36, 4, 6), (40, 4, 3), (44, 4, 1), (48, 4, 1), (52, 4, 2)]
/-- A ctime word with `g` good lanes: no latency field below its reference (R26, R27). -/
def ctimeWord (w : Word) (g : Nat) : Word :=
  BitVec.ofNat 64 (g * 2 ^ 56 + sumN (ctimeFields.map (fun f => max f.2.2 (fld w f.1 f.2.1) * 2 ^ f.1)))
/-- A lane map with at least 28 good lanes (R14). -/
def lanesOf (w : BitVec 32) : BitVec 32 :=
  if 28 ≤ sumN ((List.range 32).map (fun i => if w.getLsbD i then 1 else 0)) then w else 0xFFFFFFFF#32
/-- Dead banks of a bank map; at most 256, so that the store keeps 7,340,032 bytes (R30, R451). -/
def deadOf (c : Nat) : List Nat :=
  let d := (List.range 2048).filter (fun n => !(Config.firmwareOsmap c (n / 64)).getLsbD (n % 64))
  if d.length ≤ 256 then d else []
/-- A core as bring-up leaves it: lane map, ctime, bank map, margin word. -/
def bringCore (s : State) (c : Nat) : State :=
  let m := Config.firmwareMargin c
  let lanes := lanesOf (Config.fuseLanes c)
  let eng := if fld m 12 4 = 0 then 15 else fld m 12 4
  let s := modCore s c (fun k => { k with
    lanes := lanes
    ctime := ctimeWord (Config.firmwareCtime c) (goodLanes { k with lanes := lanes })
    dead := deadOf c
    fenced := m.getLsbD 0
    plan := if m.getLsbD 1 then some (Config.planMargin s.tick c, Config.planCtime s.tick c) else none })
  let s := { s with margin := aset s.margin c (BitVec.ofNat 64 (fld m 32 32 * 2 ^ 32 + eng * 2 ^ 12 + fld m 0 2)) }
  if m.getLsbD 1 then post s (.coreQuiesce c) else s
/-- The dies for which a step of bring-up succeeds. -/
def trainedDies (step : Nat) : BitVec 4 := BitVec.ofNat 4 (packNat 1 (fun d => if Config.dieTrained d step then 1 else 0) 4)
/-- SHAKE256 with 512 bits of output. -/
def shake (msg : List Byte) : List Byte := (List.range 64).map (Config.shakeByte msg)
/-- The measurement chain over the images of step 3 (R441). -/
def measured : List Byte := [0, 1, 2].foldl (fun m i => shake (m ++ shake (Config.imageBytes i))) (shake Config.romIdentity)
/-- DEVICE_BOOT (R440): steps 1 to 6, or a stop at step 3. -/
def execDeviceBoot (s : State) : Out :=
  .next (match failedImage with
    | some _ => s
    | none =>
      let s := (List.range 224).foldl bringCore s
      let s := { s with margin := (List.range 8).foldl (fun l i => aset l (224 + i) (Config.firmwareMargin (224 + i))) s.margin }
      { s with
        booted := true
        measure := measured
        encKey := (List.range 1184).map Config.transportKey
        memAlive := trainedDies 4
        corAlive := trainedDies 5 })

/-! Keys (R439, R443) and attestation (R441). -/

/-- An access translated under a key version has not completed: a request, or a unit of a drain (R439). -/
def keyInUse (s : State) (ver : Nat) : Bool :=
  ver != 0 && (s.reqs.any (fun r => r.keyIds.contains ver && (if isWrite r then r.stage != .applied else !r.replied)) ||
    s.tasks.any (fun k => k.units.any (fun u => u.any (fun e => e.ver == ver))))
/-- The header of a key message, and the message that its owner signs (R442). -/
def keyHeader (m : KeyMsg) : List Byte := bytesN 8 m.ctx ++ bytesN 8 m.slot ++ bytesN 8 m.seq
def keySigned (m : KeyMsg) : List Byte := keyHeader m ++ m.ct ++ bytesN 12 m.nonce.toNat ++ bytesN 64 m.sealedKey.toNat ++ bytesN 16 m.tag.toNat
/-- The key that a message carries, where it is of the sizes that the standards give, its signature verifies and its seal opens
(R439, R442). -/
def keyOf (owner : Word) (m : KeyMsg) : Option (BitVec 512) :=
  if m.ct.length = 1088 ∧ m.sig.length = 3309 ∧ Config.dsaVerify owner (keySigned m) m.sig = true then
    Config.gcmOpen (Config.kemSecret m.ct) m.nonce (keyHeader m) m.sealedKey m.tag
  else none
/-- KEY_SLOT_LOAD (R439): of a message that meets every condition. What was translated through the slot is forgotten, and the key
is loaded once every access already translated has completed, under the old key (R443). -/
def execKeySlotLoad (m : KeyMsg) (s : State) : Out :=
  .next (mailbox s (fun s => match findCtx s m.ctx with
    | none => s
    | some c =>
      match (if m.slot < 1024 ∧ c.lastSeq < m.seq then keyOf c.owner m else none) with
      | none => s
      | some key =>
        let s := tlbPurge s (fun e => leafKey e.leaf == m.slot)
        if keyInUse s (keyVersion s m.slot) then post s (.keySlotLoad m)
        else modCtx { s with keys := aset s.keys m.slot (key.toNat + 1), keyCtx := aset s.keyCtx m.slot m.ctx } m.ctx (fun c => { c with lastSeq := m.seq })))
/-- The diestate word (R434). -/
def diestate (s : State) : Nat := s.memAlive.toNat * 2 ^ 4 + s.corAlive.toNat
/-- The report of the device over a nonce (R441): bytes 100 to 103 hold diestate and, above it, the count of good lanes. -/
def reportBody (s : State) (nonce : BitVec 256) : List Byte :=
  s.measure ++ bytesN 32 nonce.toNat ++ (List.range 4).map Config.firmwareVersion ++
    bytesN 4 (diestate s + 2 ^ 8 * sumN ((List.range 224).map (fun c => goodLanes (coreOf s c))))
/-- The report with its signature. -/
def reportBytes (s : State) (nonce : BitVec 256) : List Byte :=
  reportBody s nonce ++ (List.range 3309).map (Config.signByte (reportBody s nonce))
/-- ATTESTATION_REPORT (R441). -/
def execAttestationReport (nonce : BitVec 256) (s : State) : Out :=
  .next (mailbox s (fun s => { s with reports := s.reports ++ [reportBytes s nonce] }))

/-! Host and peer accesses (R435, R436). -/

/-- Location of an offset of far memory: ports 0 and 1 are the host's, 2 to 13 the peers' (R435). -/
def farLoc (port off : Nat) : Nat := (if port < 2 then 1 + port else 14 + port) * 2 ^ 52 + off % 2 ^ 52
/-- Bytes that an access touches. -/
def hostSize (a : HostAcc) : Nat :=
  match a.op with
  | .read => a.size
  | .write d => d.length
  | .atom _ w _ _ => atomBytes w
  | .wakeRead => 8
/-- Access type of an operation (R415). -/
def hostType : HostOp → Nat
  | .read => accRead
  | .write _ => accWrite
  | .atom _ _ _ _ => accAtomic
  | .wakeRead => accRead
/-- Where the bytes of an access lie: far memory itself, or device memory through the granted mapping. -/
def hostLocs (s : State) (a : HostAcc) : Option (List (Nat × Nat)) :=
  if a.own then some ((List.range (hostSize a)).map (fun i => (farLoc a.port (a.off.toNat + i), 0)))
  else match transNow s a.ctx 0 a.off.toNat (hostSize a) (hostType a.op) with
    | .ok kv => some kv
    | .error _ => none
/-- An answer goes back to the far side. -/
def hostReply (s : State) (bs : List Byte) : State := { s with reports := s.reports ++ [bs] }
/-- One line of a write by the far side: a request of the I/O die, which its agents see in the die's stage and all others at the
home (R314, R316, R436). -/
def hostLine (s : State) (ctx : Nat) (l : List ((Nat × (Nat × Nat)) × Byte)) : State :=
  let (id, s) := fresh s
  post { s with reqs := s.reqs ++ [
    { id := id, tr := 0, slot := 0, core := 0xFF, kind := .store (l.map (·.2)), ord := .plain, dst := .none, va := 0#80,
      keys := l.map (·.1.2.1), keyIds := l.map (·.1.2.2), sects := (nub (l.map (fun p => p.1.1 / 64))).map (fun x => (ctx, x)),
      stage := .fresh, entry := 0, acked := false, replied := false, after := [], rel := [], pc := 0#40, guard := Guard.none,
      rcount := 0, grp := id, flt := 0, cover := [], blk := none, link := .clean, ctx := ctx }] } (.writeHomeApply id)
/-- A write by the far side: into its own memory at once, into device memory by lines (R401, R436). -/
def hostPut (s : State) (a : HostAcc) (kv : List (Nat × Nat)) (bs : List Byte) : State :=
  if a.own then writeHome (unclock s (kv.map (·.1))) (.front a.ctx) ((kv.map (·.1)).zip bs) 0
  else
    let l := ((byteOffs a.off.toNat bs.length).zip kv).zip bs
    (nub (kv.map (fun p => p.1 / 64))).foldl (fun s ln => hostLine s a.ctx (l.filter (fun p => p.1.2.1 / 64 == ln))) s
/-- An atomic operation by the far side, at its home. -/
def hostAtom (s : State) (a : HostAcc) (kv : List (Nat × Nat)) (bs : List Byte) : State :=
  if a.own then hostPut s a kv bs else putAt s a.ctx 0 a.off.toNat kv bs
/-- A write of the far side to the locations has not come as far as an access behind it needs: to the die's stage for a read, to
its home for an atomic (R303). -/
def hostBehind (s : State) (kv : List (Nat × Nat)) (home : Bool) : Bool :=
  s.reqs.any (fun r => r.tr == 0 && overlap r.keys (kv.map (·.1)) && (r.stage == .fresh || (home && r.stage != .applied)))
/-- HOST_ACCESS (R435): a read and an atomic answer with what they have read; one that finds no mapping, no data or a
misaligned atomic answers with nothing and does nothing. An access comes after the writes that the far side has made before it. The wake registers are write-only and read as zero (R11, R355). -/
def execHostAccess (a : HostAcc) (s : State) : Out :=
  .next (if a.op = .wakeRead then hostReply s (bytesN 8 0) else match hostLocs s a with
    | none => hostReply s []
    | some kv => match a.op with
      | .wakeRead => s
      | .write d => hostPut s a kv d
      | .read =>
        if hostBehind s kv false then post s (.hostAccess a)
        else match readDie s 4 kv with
        | .bad _ => hostReply s []
        | .ok bs => hostReply s bs
      | .atom op w v c =>
        if a.off.toNat % atomBytes w ≠ 0 then hostReply s []
        else if hostBehind s kv true then post s (.hostAccess a)
        else match readHome s kv with
          | .bad _ => hostReply s []
          | .ok bs => hostReply (hostAtom s a kv (bytesN (atomBytes w) (atomNew op w (leN bs) v.toNat c.toNat))) bs)

end Sys2Proof.Machine
end

