-- ==== Sys2Proof/Machine/Trans.lean ====
section
/-! DEFINITION. Walks and what they bring: the translation caches, failed walks, the fault service and invalidation
(spec/22 R429 to R431; log 13). -/

namespace Sys2Proof.Machine

/-- The slots of a train that are parked on a walk and not resolved, each with the kind of its access. -/
def missSlots (t : Train) (id : Nat) : List (Nat × Nat) :=
  (List.range 32).filterMap (fun i => match (slotAt t i).wait with
    | .miss w acc false => if w = id then some (i, acc) else none
    | _ => none)
/-- Cores that have a slot parked on a walk. -/
def missCores (s : State) (w : Walk) : List Nat :=
  nub (w.core :: (s.trains.filter (fun t => !(missSlots t w.id).isEmpty)).map (·.core))
/-- Changes the unresolved slots of a walk. -/
def onMiss (s : State) (id : Nat) (f : Nat → Slot → Slot) : State :=
  { s with trains := s.trains.map (fun t =>
      if t.halted then t
      else mapSlots t (fun _ x => match x.wait with
        | .miss w acc false => if w = id then f acc x else x
        | _ => x)) }
/-- The walk is over. -/
def dropWalk (s : State) (id : Nat) : State := { s with walks := s.walks.filter (fun w => decide (w.id ≠ id)) }
/-- A slot's walk has failed for it. -/
def resolveMiss (x : Slot) : Slot :=
  match x.wait with
  | .miss w acc _ => { x with wait := .miss w acc true }
  | _ => x
/-- Slots of one instruction that all know their walks to have failed make their access again, and fault together (R416,
R430). -/
def retryFailed (t : Train) : Train :=
  let undone := fun (x : Slot) => t.slots.any (fun y => y.pc == x.pc && y.rcount == x.rcount && (match y.wait with
    | .miss _ _ false => true
    | _ => false))
  mapSlots t (fun _ x => match x.wait with
    | .miss _ _ true => if undone x then x else { waitRetry x with walked := true }
    | _ => x)
def retryAll (s : State) : State := { s with trains := s.trains.map (fun t => if t.halted then t else retryFailed t) }
/-- An entry fills the buffers of the cores that wait for it (R429). -/
def fillTlbs (s : State) (w : Walk) (e : TlbE) : State :=
  (missCores s w).foldl (fun s c => modCore s c (fun k => { k with tlb := tlbAdd s 2048 k.tlb e })) s
/-- What the tables say of a walk now. -/
def walkNow (s : State) (w : Walk) : Lk :=
  match findCtx s w.ctx with
  | none => .bad 0 4
  | some c => walkPage s c w.span w.page
/-- The access of a slot meets no fault at what the walk found. -/
def lkOk (s : State) (lk : Lk) (acc : Nat) : Bool :=
  match lk with
  | .ok l => (leafCheck s l acc).isNone
  | _ => false
/-- The end of a walk: its entry fills both caches, and the slots that it serves make their access again; for the others it
has failed. -/
def walkEnded (s : State) (w : Walk) : State :=
  let lk := walkNow s w
  let s := match lk with
    | .ok l =>
      let e := tlbOf w.ctx w.span w.page l
      let s := fillTlbs s w e
      { s with shared := aset s.shared w.die (tlbAdd s 65536 (aget [] s.shared w.die) e) }
    | _ => s
  let s := onMiss s w.id (fun acc x => if lkOk s lk acc then waitRetry x else x)
  if s.trains.any (fun t => !(missSlots t w.id).isEmpty) then post s (.translationWalkFail w.id)
  else dropWalk (retryAll s) w.id
/-- The walker of a die keeps 128 walks in flight; a miss beyond them waits for a free walk (R429). -/
def walking (s : State) (w : Walk) : Bool :=
  decide ((s.walks.filter (fun v => v.die == w.die && !v.offered && v.eng.isNone && decide (v.id < w.id))).length < 128)
/-- TRANSLATION_WALK_DONE (R429). -/
def execTranslationWalkDone (id : Nat) (s : State) : Out :=
  .next (match s.walks.find? (fun w => w.id == id) with
    | none => s
    | some w =>
      if w.offered || w.eng.isSome then s
      else if walking s w then walkEnded s w else post s (.translationWalkDone id))
/-- TRANSLATION_WALK_FAIL (R430): of a forwarding span the walk goes to the fault service; of another the slots fault. -/
def execTranslationWalkFail (id : Nat) (s : State) : Out :=
  .next (match s.walks.find? (fun w => w.id == id) with
    | none => s
    | some w =>
      let lk := walkNow s w
      let s := onMiss s id (fun acc x => if lkOk s lk acc then waitRetry x else x)
      if ((findCtx s w.ctx).map (fun c => spanFwd s c w.span)).getD false &&
          s.trains.any (fun t => !(missSlots t id).isEmpty) then
        { s with walks := s.walks.map (fun v => if v.id = id then { v with offered := true } else v) }
      else retryAll (dropWalk (onMiss s id (fun _ x => resolveMiss x)) id))
/-- SHARED_TRANSLATION_HIT (R429). -/
def execSharedTranslationHit (id : Nat) (s : State) : Out :=
  .next (match s.walks.find? (fun w => w.id == id) with
    | none => s
    | some w => match tlbHit (aget [] s.shared w.die) w.ctx w.span w.page with
      | none => post s (.translationWalkDone id)
      | some e => dropWalk (retryAll (onMiss (fillTlbs s w e) id (fun _ x => waitRetry x))) id)

/-! Changes of entries (R431). -/

/-- Addresses of the table words that a page's walk reads. -/
def walkPath (s : State) (page : Nat) : List Nat → Nat → List Nat
  | [], _ => []
  | lv :: rest, tbl =>
    let a := tbl + 8 * (page / leafPages lv % 4096)
    let e := peekN s a 8
    if bitsN e 0 1 = 0 ∨ bitsN e 1 1 = 1 then [a] else a :: walkPath s page rest (bitsN e 16 36 * 65536)
def pathOf (s : State) (c : Ctx) (span page : Nat) : List Nat :=
  [c.spanPa + 16 * span, c.spanPa + 16 * span + 8] ++ walkPath s page [0, 1, 2, 3] (bitsN (spanEntry s c span) 80 36 * 65536)
/-- Writes an entry and invalidates what was translated through it. -/
def putEntry (s : State) (c : Ctx) (pa : Nat) (entry : Word) : State :=
  poke (tlbPurge s (fun e => e.ctx == c.num && (pathOf s c e.span e.page).contains pa)) pa (bytesN 8 entry.toNat)
/-- The zero-fill engine writes the pages that meet a test with zeros, under the key of the run that holds a page (R455). -/
def zeroPages (s : State) (hit : Nat → Bool) (rs : List Pages) : State :=
  let ks := (s.mem.filter (fun e => hit (e.1 / 65536))).map (·.1)
  let ver := fun (p : Nat) => ((rs.find? (fun r => hasPage [r] p)).map (fun r => keyVersion s r.key)).getD 0
  wakeWatch { unclock s ks with
    mem := s.mem.filter (fun e => !hit (e.1 / 65536))
    mcond := s.mcond.filter (fun e => !hit (e.1 / 2048))
    mkey := s.mkey.filterMap (fun e =>
      if hit (e.1 / 1024) then (if ver (e.1 / 1024) = 0 then none else some (e.1, ver (e.1 / 1024))) else some e) } ks
/-- A page that passes by an entry is zeroed, under its new key (R455). -/
def zeroFill (s : State) (c : Ctx) (pa : Nat) (entry : Word) : State := zeroPages s (passesTo s c pa entry) (gained s c pa entry)
/-- An entry of a context's tables changes (R431): pages that it passes to the context are zeroed before (R455). -/
def changeEntry (s : State) (ctx pa : Nat) (entry : Word) : State :=
  match findCtx s ctx with
  | none => s
  | some c => setOwned (putEntry (zeroFill s c pa entry) c pa entry) (gained s c pa entry ++ lost s c pa entry) ctx
/-- TRANSLATION_INVALIDATE (R431). -/
def execTranslationInvalidate (ctx pa : Nat) (entry : Word) (s : State) : Out :=
  .next (mailbox s (fun s => changeEntry s ctx pa entry))
/-- FAULT_SERVICE_REPLY (R430): with a mapping the walk runs again; declined, its slots fault, or the command or task that waits for
it. -/
def execFaultServiceReply (id pa : Nat) (entry : Option Word) (s : State) : Out :=
  .next (match s.walks.find? (fun w => w.id == id) with
    | none => s
    | some w =>
      if !w.offered then s
      else if w.eng.isSome then match entry with
        | some e => dropWalk (changeEntry s w.ctx pa e) id
        | none => { s with walks := s.walks.map (fun v => if v.id = id then { v with offered := false } else v) }
      else match entry with
        | some e =>
          let s := changeEntry s w.ctx pa e
          post { s with walks := s.walks.map (fun v => if v.id = id then { v with offered := false } else v) }
            (.translationWalkDone id)
        | none => retryAll (dropWalk (onMiss s id (fun _ x => resolveMiss x)) id))

end Sys2Proof.Machine
end

