-- ==== Sys2Proof/Machine/Context.lean ====
section
/-! DEFINITION. Contexts: creation, budgets, the switch commands and tear-down (spec/19 R384, R393, R394). -/

namespace Sys2Proof.Machine

/-- The level-3 entry of a page, below tables that are there or are made in the pages left; none where a leaf stands in the way or
the pages run out. -/
def makeTables (s : State) (page : Nat) : List Nat → Nat → List Nat → Option (State × Nat × List Nat)
  | [], tbl, tabs => some (s, tbl + 8 * (page % 4096), tabs)
  | lv :: rest, tbl, tabs =>
    let a := tbl + 8 * (page / leafPages lv % 4096)
    let e := peekN s a 8
    if bitsN e 0 2 = 1 then makeTables s page rest (bitsN e 16 36 * 65536) tabs
    else match bitsN e 0 1, tabs with
      | 0, t :: ts => makeTables (poke s a (bytesN 8 (t / 65536 * 65536 + 1))) page rest (t / 65536 * 65536) ts
      | _, _ => none
/-- A leaf that maps a page of 64 KiB read-only (R427). -/
def readLeaf (pa key : Nat) : Nat := pa / 65536 * 65536 + key % 1024 * 64 + 7
/-- Maps one page of a context's span 0 read-only; its span entry is made where there is none (R426, R427). -/
def mapPage (s : State) (x : Ctx) (page pa key : Nat) (tabs : List Nat) : Option (State × List Nat) :=
  let e := spanEntry s x 0
  let root := match bitsN e 0 3, tabs with
    | 0, t :: ts => if x.spanLen = 0 then none else some (poke s x.spanPa (bytesN 16 (t / 65536 * 2 ^ 80 + 1)), t / 65536 * 65536, ts)
    | 1, _ => some (s, bitsN e 80 36 * 65536, tabs)
    | _, _ => none
  match root with
  | none => none
  | some (s, tbl, tabs) => (makeTables s page [0, 1, 2] tbl tabs).map (fun r => (poke r.1 r.2.1 (bytesN 8 (readLeaf pa key)), r.2.2))
/-- The policy core maps the node table read-only into span 0, page by page (R398). -/
def mapNodes (x : Ctx) (off key : Nat) : List Nat → State → List Nat → Option State
  | [], s, _ => some s
  | i :: is, s, tabs => match mapPage s x (off / 65536 + i) (x.nodePa + 65536 * i) key tabs with
    | none => none
    | some (s, tabs) => mapNodes x off key is s tabs
/-- The error ring that a context registers holds 4 KiB to 1 MiB of 64-byte records (R447). -/
def ringFits (c : CtxSpec) : Bool := decide (64 ≤ c.ringRecs ∧ c.ringRecs ≤ 16384)
/-- CONTEXT_CREATE (R31, R398): a number below 128 that is free, with a ring of a size that the rules admit; the pages that it is
given are zeroed (R455), every node record is free (R399), and the host is told where the table is mapped. DESIGN CHOICE (log 58): a
request whose pages for tables do not suffice, or whose node table finds a leaf in its way, makes nothing. -/
def execContextCreate (c : CtxSpec) (s : State) : Out :=
  .next (mailbox s (fun s =>
    if 128 ≤ c.num ∨ (findCtx s c.num).isSome = true ∨ ringFits c = false then s
    else
      let x := newCtx c
      match mapNodes x c.nodeOff c.nodeKey (List.range (nodePages x).pages)
          (zeroPages s (createHit s c) ({ nodePages x with key := c.nodeKey % 1024 } :: ctxPages s x)) c.tabs with
      | none => s
      | some s' =>
        let s' := (List.range x.nmax).foldl (fun s n => poke s (x.nodePa + 32 * n) (nodeBytes Node.free)) s'
        let s' := setOwned { s' with ctxs := s'.ctxs ++ [x] } (nodePages x :: ctxPages s' x) x.num
        if x.nmax = 0 then s' else { s' with reports := s'.reports ++ [bytesN 8 (c.nodeOff / 65536 * 65536)] }))
/-- BUDGET_WRITE (R384): in force from the next admission decision. -/
def execBudgetWrite (ctx : Nat) (b : Budget) (s : State) : Out :=
  .next (mailbox s (fun s => reconsider (modCtx s ctx (fun c => { c with budget := b.fit }))))
/-- CONTEXT_STOP (R393). -/
def execContextStop (ctx : Nat) (s : State) : Out :=
  .next (mailbox s (fun s => modCtx s ctx (fun c => { c with stopped := true })))
/-- Pre-emption of the teams that meet a test, each with its formation (R183, R387). -/
def evictTeams (s : State) (p : Team → Bool) (pre : Bool) : State :=
  (s.teams.filter (fun tm => tm.life != .spilled && (formTeams s tm).any p)).foldl (fun s tm =>
    postOnce (modTeam s tm.id (fun tm => { tm with preempt := tm.preempt || pre })) (.preemptRequest tm.id)) s
/-- CONTEXT_SUSPEND (R393). -/
def execContextSuspend (ctx : Nat) (s : State) : Out :=
  .next (mailbox s (fun s =>
    evictTeams (modCtx s ctx (fun c => { c with stopped := true, suspended := true })) (fun tm => tm.ctx == ctx) true))
/-- CONTEXT_RESUME (R393). -/
def execContextResume (ctx : Nat) (s : State) : Out :=
  .next (mailbox s (fun s => reconsider (modCtx s ctx (fun c => { c with stopped := c.closing, suspended := false }))))
/-- Tear-down (R394): what waits is discarded, the queues are unmapped, each once its packet in progress has run to its end (R373),
the teams killed, and no completion is written; the context goes when nothing of it is left (`closeCtx`). -/
def tearDown (s : State) (ctx : Nat) : State :=
  let mine := (s.launches.filter (fun l => l.ctx == ctx)).map (·.id)
  let s := modCtx { s with
    launches := s.launches.filter (fun l => decide (l.ctx ≠ ctx))
    queues := (s.queues.filter (fun q => decide (q.ctx ≠ ctx ∨ q.state = 1 ∨ q.state = 3))).map (fun q =>
      { q with launches := q.launches.filter (fun i => !mine.contains i) }) } ctx
    (fun c => { c with dlq := [], stopped := true, closing := true })
  let s := (s.queues.filter (fun q => q.ctx == ctx)).foldl (fun s q => unmapQueue s q.slot) s
  let gone := (s.teams.filter (fun tm => tm.ctx == ctx)).map (·.id)
  closeCtx (gone.foldl killTeam s) ctx
/-- CONTEXT_TEARDOWN (R394). -/
def execContextTeardown (ctx : Nat) (s : State) : Out := .next (mailbox s (fun s => tearDown s ctx))

end Sys2Proof.Machine
end

