-- ==== Sys2Proof/Machine/Xl.lean ====
section
/-! DEFINITION. Cross-lane instructions: members, the wait for them, and the results (spec/07 R167 to R180; log 11). -/

namespace Sys2Proof.Machine

/-! Members and arrival (R169 to R171). -/

/-- A run already waiting at the word has other members (R171). -/
def xlMismatch (t : Train) (qx : Bool) (pc : Pc) (m : Mask) : Bool :=
  t.slots.any (fun x => match x.wait with
    | .member e m' p _ => p == pc && (if e then m' else xlImplicit t qx) != m
    | _ => false)
/-- Every live slot waits for members: a deadlock, with the mask of them and the lowest PC; the run at that PC makes its
instruction again (R171). -/
def xlDeadlock (s : State) (uid : Nat) : State :=
  match findTrain s uid with
  | none => s
  | some t =>
    let live := t.slots.filter slotLive
    if t.trap.isSome || live.isEmpty || live.any (fun x => x.st != .member) then s
    else
      let pc := live.foldl (fun b x => min b x.pc.toNat) (2 ^ 40)
      let low := maskOf (fun i => slotLive (slotAt t i) && (slotAt t i).pc.toNat == pc)
      raiseTrap s uid ⟨cause 2 5, BitVec.ofNat 40 pc, liveMask t, low, 0#64, []⟩
/-- After slots have exited (R169 to R171): an explicit mask that names one traps the runs that wait with it; an instruction
whose members are now all there is made again; else a deadlock may stand. DESIGN CHOICE (log 48): where runs at several xl words
are hit, the rule names no PC, and the one trap that a train can take is raised for those at the word of lowest PC; the others
meet theirs when they look at their wait again. -/
def xlAfterExit (s : State) (uid : Nat) (gone : Mask) : State :=
  match findTrain s uid with
  | none => s
  | some t =>
    let words := (List.range 32).filterMap (fun i => match (slotAt t i).wait with
      | .member true m p _ => if m &&& gone != 0#32 then some (i, p.toNat) else none
      | _ => none)
    let low := words.foldl (fun b p => min b p.2) (2 ^ 40)
    let hit := maskOf (fun i => words.any (fun p => p.1 == i && p.2 == low))
    if t.trap.isSome then s
    else if hit ≠ 0#32 then
      raiseTrap s uid ⟨cause 2 2, (slotAt t (lowSlot hit)).pc, hit, hit, 0#64, []⟩
    else
      let live := t.slots.filter slotLive
      let same := match live with
        | x :: _ => match x.wait with
          | .member false _ p g => live.all (fun y => match y.wait with
              | .member false _ q h => p == q && x.rcount == y.rcount && g == h
              | _ => false)
          | _ => false
        | [] => false
      if same then modTrain s uid (fun t => mapSlots t (fun _ x => if slotLive x then waitRetry x else x))
      else xlDeadlock s uid

/-! The issue (R172). -/

/-- What an issuing xl instruction sees: the train, its members present, the active slots, and the words popped. -/
structure XlIn where
  t      : Train
  u      : Mask
  m      : Mask
  act    : Mask
  popped : List (Nat × Nat × Word)

/-- The value of a field in a slot, a port's item having been popped. -/
def XlIn.val (x : XlIn) (i : Nat) (r : Reg) : Word :=
  if isQ r then ((x.popped.find? (fun p => p.1 == i && p.2.1 == portOf r)).map (·.2.2)).getD 0#64 else readReg x.t i r
/-- What a slot supplies as a source (R172). -/
def XlIn.src (x : XlIn) (r : Reg) (i : Nat) : Word :=
  if inMask x.m i && (inMask x.u i || inMask x.act i) then x.val i r else 0#64
/-- Pops of the active slots in ascending order: the state, the words, and the slots that find no item or a fault. -/
def xlPops (s : State) (uid : Nat) (ports act : List Nat) : State × List (Nat × Nat × Word) × List (Nat × SlotOut) :=
  act.foldl (fun acc i => ports.foldl (fun acc q =>
    match findTrain acc.1 uid with
    | none => acc
    | some t => match popChk acc.1 t i q with
      | (.ok, w) => (popDo acc.1 uid i q, acc.2.1 ++ [(i, q, w)], acc.2.2)
      | (.park, _) | (.walk _ _, _) => (acc.1, acc.2.1, acc.2.2 ++ [(i, .park .qport (.port q) 0#40)])
      | (.fault n, _) => (acc.1, acc.2.1, acc.2.2 ++ [(i, .fault (cause 6 n) 0#64 0#80)])) acc) (s, [], [])
/-- Pushes of the results in ascending order. -/
def xlPushes (s : State) (uid q : Nat) (act : List Nat) (v : Nat → Word) : State × List (Nat × SlotOut) :=
  act.foldl (fun acc i =>
    match findTrain acc.1 uid with
    | none => acc
    | some t => match pushChk acc.1 t i q (v i) with
      | .ok => (pushDo acc.1 uid i q (v i), acc.2)
      | .park => (acc.1, acc.2 ++ [(i, .park .qport (.port q) 0#40)])
      | .walk page k => (acc.1, acc.2 ++ [(i, .walk page k)])
      | .fault n => (acc.1, acc.2 ++ [(i, .fault (cause 6 n) 0#64 0#80)])) (s, [])
/-- The instruction does not complete: slots fault or wait for their ports, and all others wait as members, those `w` that had
waited and are merged among them (R170, R416). -/
def xlHold (s : State) (iss : Issue) (t : Train) (ex : Bool) (m w : Mask) (outs : List (Nat × SlotOut)) : State :=
  let (s, outs) := openWalks s iss t outs
  let t := mapSlots t (fun i x =>
    if inMask iss.slots i then x
    else match afind outs i with
      | some (.park st w _) => { x with st := st, wait := w }
      | _ => x)
  let faults := outs.filter (fun p => !inMask iss.slots p.1 && isFault p.2)
  let merged := (slotsOf (w &&& ~~~iss.slots)).map (fun i => (i, SlotOut.park (slotAt t i).st (slotAt t i).wait (nextPc iss)))
  settle s iss t (faults ++ merged ++ (slotsOf iss.slots).map (fun i => (i, match afind outs i with
    | some (.park st w _) => .park st w (nextPc iss)
    | some o => o
    | none => .park .member (.member ex m iss.wpc (issGuard iss (slotAt t i))) (nextPc iss))))
/-- The slots that had waited for the members move on. -/
def xlDone (iss : Issue) (w : Mask) (i : Nat) (x : Slot) : Slot := if inMask w i && !inMask iss.slots i then waitDone x else x

/-- What stops a slot at an xl word, by the lowest cause (R94, R174, R416): a selector at fault, once its port item is there; no
member; registers in error, of a helper too; a port that is at fault or has nothing. -/
def xlStop (iss : Issue) (t : Train) (ins : Instr) (m act help : Mask) (xin : XlIn) (sel : XlIn → Nat → Option Nat)
    (bad : List (Nat × SlotOut)) (i : Nat) : Option SlotOut :=
  let reg := (if inMask help i then regFault t ins i else
    match (if guardReads (xlGuard iss t i) then halvesFault (slotAt t i) [predHalf] else none) with
    | some c => some c
    | none => if inMask act i then regFault t ins i else none).map (fun c => SlotOut.fault (BitVec.ofNat 9 c) 0#64 0#80)
  if !inMask act i then reg
  else match sel xin i with
    | some v => some (.fault (cause 1 6) (BitVec.ofNat 64 v) 0#80)
    | none => if !inMask m i then some (.fault (cause 2 3) 0#64 0#80) else match reg with
      | some o => some o
      | none => afind bad i
/-- An xl instruction: `res` gives the word of an active slot, `fl` the flags, and `sel` a selector at fault. DESIGN CHOICE
(log 53): a helper that is a member of qx neither pops a port nor pushes one, where R18 has it active. -/
def xlRun (ins : Instr) (d : Reg) (mk : Option (BitVec 5)) (qx : Bool) (res : XlIn → Nat → Word) (fl : XlIn → BitVec 5)
    (sel : XlIn → Nat → Option Nat) (s : State) : Out :=
  match s.iss with
  | none => .fault .noRun
  | some iss => match findTrain s iss.tr with
    | none => .fault .noRun
    | some t => match fieldFault t ins with
      | some (n, info) => .next (faultAll s iss t iss.slots (cause 1 n) (BitVec.ofNat 64 info))
      | none =>
        let (ex, m) := xlMembers t qx mk
        let gone := maskOf (fun i => inMask m i && decide ((slotAt t i).st = .exited))
        let w := xlWaits iss t
        let u := iss.slots ||| w
        let need := maskOf (fun i => inMask m i && slotLive (slotAt t i))
        if ex && gone != 0#32 then .next (faultAll s iss t iss.slots (cause 2 2) 0#64)
        else if xlMismatch t qx iss.wpc m then .next (faultAll s iss t iss.slots (cause 2 4) 0#64)
        else if need &&& ~~~u ≠ 0#32 then .next (xlDeadlock (xlHold s iss t ex m 0#32 []) t.uid)
        else
          let act := xlAct iss t
          let help := xlHelpers t qx m
          let s0 := noteRegsOf s iss t ins (act ||| help)
          let (s1, popped, bad) := xlPops s0 iss.tr (popPorts ins) (slotsOf act)
          let xin : XlIn := ⟨t, u, m, act ||| help, popped⟩
          let outs := (slotsOf (u ||| help)).filterMap (fun i => (xlStop iss t ins m act help xin sel bad i).map (fun o => (i, o)))
          if !outs.isEmpty then .next (xlHold s0 iss t ex m w outs)
          else
            let (s2, bad) := if isQ d then xlPushes s1 iss.tr (portOf d) (slotsOf act) (res xin) else (s1, [])
            if !bad.isEmpty then .next (xlHold s0 iss t ex m w bad)
            else match findTrain s2 iss.tr with
              | none => .next (holdRun s2)
              | some t2 =>
                let t3 := { mapSlots t2 (fun i x =>
                  xlDone iss w i (if inMask (act ||| help) i && isW d then putReg x (wIdx t d) (res xin i) else x))
                  with fflags := t2.fflags ||| fl xin }
                .next (noteParts (modTrain (settle s2 iss t3 []) iss.tr (fun t => mapSlots t (fun i x => if inMask w i then { x with skip := 0 } else x))) t)

/-! Results (R173 to R178). -/

def noFlags (_ : XlIn) : BitVec 5 := 0#5
def noSel (_ : XlIn) (_ : Nat) : Option Nat := none
/-- A shuffle from a source position, or the slot's own value (R173). -/
def shuffle (w : Width) (a : Reg) (pos : XlIn → Nat → Nat → Option (Nat × Nat)) (x : XlIn) (i : Nat) : Word :=
  packW (wbits w) (fun j => match pos x i j with
    | some (t, k) => subN (x.src a t) (wbits w) k
    | none => subN (x.val i a) (wbits w) j)
/-- Selector byte j of shfl, and the selector of shflx. -/
def shflSel (b : Reg) (x : XlIn) (i j : Nat) : Nat := subN (x.val i b) 8 j
def shflxSel (b : Reg) (x : XlIn) (i j : Nat) : Nat := (8 * i + j) ^^^ ((x.val i b).toNat % 256)
/-- xl.shfl (R173, R174). -/
def execXlShfl (w : Width) (d a b : Reg) (mk : Option (BitVec 5)) (s : State) : Out :=
  let n := 64 / wbits w
  xlRun (.xlShfl w d a b mk) d mk false (shuffle w a (fun x i j => some (shflSel b x i j / 8, shflSel b x i j % 8))) noFlags
    (fun x i => ((List.range n).map (shflSel b x i)).find? (fun v => decide (n ≤ v % 8))) s
/-- xl.shflx (R173, R174). -/
def execXlShflx (w : Width) (d a b : Reg) (mk : Option (BitVec 5)) (s : State) : Out :=
  let n := 64 / wbits w
  xlRun (.xlShflx w d a b mk) d mk false (shuffle w a (fun x i j => some (shflxSel b x i j / 8, shflxSel b x i j % 8))) noFlags
    (fun x i => if n ≤ (x.val i b).toNat % 8 then some ((x.val i b).toNat % 256) else none) s
/-- xl.shflu (R173). -/
def execXlShflu (w : Width) (d a b : Reg) (mk : Option (BitVec 5)) (s : State) : Out :=
  let n := 64 / wbits w
  xlRun (.xlShflu w d a b mk) d mk false (shuffle w a (fun x i j =>
    let k := (x.val i b).toNat % 256
    if i * n + j < k then none else some ((i * n + j - k) / n, (i * n + j - k) % n))) noFlags noSel s
/-- xl.shfld (R173). -/
def execXlShfld (w : Width) (d a b : Reg) (mk : Option (BitVec 5)) (s : State) : Out :=
  let n := 64 / wbits w
  xlRun (.xlShfld w d a b mk) d mk false (shuffle w a (fun x i j =>
    let q := i * n + j + (x.val i b).toNat % 256
    if 32 * n ≤ q then none else some (q / n, q % n))) noFlags noSel s
/-- The active slots whose predicate holds. -/
def xlHeld (p : R3) (x : XlIn) : Mask := maskOf (fun i => inMask x.act i && slotPred (slotAt x.t i) p)
/-- xl.bal (R175). -/
def execXlBal (d : Reg) (p : R3) (mk : Option (BitVec 5)) (s : State) : Out :=
  xlRun (.xlBal d p mk) d mk false (fun x _ => (xlHeld p x).setWidth 64) noFlags noSel s
/-- xl.vote.any (R175). -/
def execXlVoteAny (d : Reg) (p : R3) (mk : Option (BitVec 5)) (s : State) : Out :=
  xlRun (.xlVoteAny d p mk) d mk false (fun x _ => if xlHeld p x = 0#32 then 0#64 else 1#64) noFlags noSel s
/-- xl.vote.all (R175). -/
def execXlVoteAll (d : Reg) (p : R3) (mk : Option (BitVec 5)) (s : State) : Out :=
  xlRun (.xlVoteAll d p mk) d mk false (fun x _ => if xlHeld p x = x.act then 1#64 else 0#64) noFlags noSel s
/-- xl.vote.eq (R175). -/
def execXlVoteEq (w : Width) (d a : Reg) (mk : Option (BitVec 5)) (s : State) : Out :=
  xlRun (.xlVoteEq w d a mk) d mk false (fun x _ => BitVec.ofNat 64 (packNat 1 (fun j =>
    let v := (slotsOf x.act).map (fun i => subN (x.val i a) (wbits w) j)
    if v.all (fun y => y == v.headD 0) then 1 else 0) (64 / wbits w))) noFlags noSel s
/-- The source slot of qx (R176). -/
def qxFrom (c : Qx) (i : Nat) : Nat :=
  let q := 4 * (i / 4)
  match c with
  | .xor1 => q + (i % 4 ^^^ 1) | .xor2 => q + (i % 4 ^^^ 2) | .xor3 => q + (i % 4 ^^^ 3)
  | .b0 => q | .b1 => q + 1 | .b2 => q + 2 | .b3 => q + 3
/-- xl.qx (R176). -/
def execXlQx (d a : Reg) (c : Qx) (mk : Option (BitVec 5)) (s : State) : Out :=
  xlRun (.xlQx d a c mk) d mk true (fun x i => x.src a (qxFrom c i)) noFlags noSel s

/-- Width of a type. -/
def tyBits : Ty → Nat
  | .i w | .n w => wbits w
  | .f f => fbits f
  | _ => 64
/-- Float min and max of red and scan, which pass a NaN on (R178). -/
def redMinMax (f : Fmt) (wantMin : Bool) (x y : Nat) : Nat × BitVec 5 :=
  match nanCase (fpOf f) [unpack (fpOf f) x, unpack (fpOf f) y] with
  | some r => r
  | none => minMaxV (fpOf f) wantMin x y
/-- comb (R178). -/
def redComb (op : RedOp) (ty : Ty) (x y : Nat) : Nat × BitVec 5 :=
  match op, ty with
  | .add, .f f => addV (fpOf f) .rn (unpack (fpOf f) x) (unpack (fpOf f) y)
  | .min, .f f => redMinMax f true x y
  | .max, .f f => redMinMax f false x y
  | .add, _ => (addF (tyBits ty) x y, 0#5)
  | .min, .i w => (minI (wbits w) x y, 0#5)
  | .max, .i w => (maxI (wbits w) x y, 0#5)
  | .min, _ => (min x y, 0#5)
  | .max, _ => (max x y, 0#5)
  | .and, _ => (x &&& y, 0#5)
  | .or, _ => (x ||| y, 0#5)
  | .xor, _ => (x ^^^ y, 0#5)
/-- The identity (R178). -/
def redIdent (op : RedOp) (ty : Ty) : Nat :=
  match op, ty with
  | .add, .f f => (fpOf f).sign true
  | .min, .f f => (fpOf f).inf
  | .max, .f f => (fpOf f).sign true + (fpOf f).inf
  | .min, .i w => 2 ^ (wbits w - 1) - 1
  | .min, _ => 2 ^ tyBits ty - 1
  | .max, .i w => 2 ^ (wbits w - 1)
  | .and, _ => 2 ^ tyBits ty - 1
  | _, _ => 0
/-- One level of the tree: neighbours combined. -/
def redLevel (op : RedOp) (ty : Ty) : List (Nat × BitVec 5) → List (Nat × BitVec 5)
  | x :: y :: r =>
    let c := redComb op ty x.1 y.1
    (c.1, x.2 ||| y.2 ||| c.2) :: redLevel op ty r
  | l => l
/-- red: five levels (R177). -/
def redTree (op : RedOp) (ty : Ty) (l : List (Nat × BitVec 5)) : Nat × BitVec 5 :=
  ((List.range 5).foldl (fun l _ => redLevel op ty l) l).headD (0, 0#5)
/-- One level of the scan at a distance. -/
def scanLevel (op : RedOp) (ty : Ty) (k : Nat) (l : List (Nat × BitVec 5)) : List (Nat × BitVec 5) :=
  (l.take k) ++ (l.zip (l.drop k)).map (fun p =>
    let c := redComb op ty p.1.1 p.2.1
    (c.1, p.1.2 ||| p.2.2 ||| c.2))
/-- scan: five levels (R177). -/
def scanNet (op : RedOp) (ty : Ty) (l : List (Nat × BitVec 5)) : List (Nat × BitVec 5) :=
  (List.range 5).foldl (fun l n => scanLevel op ty (2 ^ n) l) l
/-- The values that the slots contribute at a sub-element (R172, R177). -/
def redIn (op : RedOp) (ty : Ty) (a : Reg) (x : XlIn) (j : Nat) : List (Nat × BitVec 5) :=
  (List.range 32).map (fun i => (if inMask x.act i then subN (x.val i a) (tyBits ty) j else redIdent op ty, 0#5))
/-- xl.red (R177, R178). -/
def execXlRed (d a : Reg) (op : RedOp) (ty : Ty) (mk : Option (BitVec 5)) (s : State) : Out :=
  xlRun (.xlRed d a op ty mk) d mk false
    (fun x _ => packW (tyBits ty) (fun j => (redTree op ty (redIn op ty a x j)).1))
    (fun x => orFlags ((List.range (64 / tyBits ty)).map (fun j => (redTree op ty (redIn op ty a x j)).2))) noSel s
/-- What a scan delivers of a value of its network: a NaN that no combine has met becomes the canonical one (R46, R178). -/
def scanOut (ty : Ty) (v : Nat) : Nat :=
  match ty with
  | .f f => if (unpack (fpOf f) v).isNan then (fpOf f).nan else v
  | _ => v
/-- xl.scan (R177, R178). -/
def execXlScan (excl : Bool) (d a : Reg) (op : RedOp) (ty : Ty) (mk : Option (BitVec 5)) (s : State) : Out :=
  xlRun (.xlScan excl d a op ty mk) d mk false
    (fun x i => packW (tyBits ty) (fun j =>
      let l := scanNet op ty (redIn op ty a x j)
      scanOut ty (if excl then (if i = 0 then redIdent op ty else (l.getD (i - 1) (0, 0#5)).1) else (l.getD i (0, 0#5)).1)))
    (fun x => orFlags ((List.range (64 / tyBits ty)).map (fun j =>
      orFlags ((scanNet op ty (redIn op ty a x j)).map (·.2))))) noSel s

end Sys2Proof.Machine
end

