-- ==== Sys2Proof/Machine/Sys.lean ====
section
/-! DEFINITION. The sys family, special registers, fences and the waits that it makes (spec/05 R139 to R149, spec/12 R301,
R302, R320, spec/22 R422 to R425). -/

namespace Sys2Proof.Machine

/-! Special registers (R81, R137 to R144). -/

def specPhold : Reg := 13#7
/-- Words of a special register. -/
def specWords (spec : Reg) : Nat := if spec = 7#7 then 32 else if spec = 19#7 then 232 else 1
/-- Cycles left of the hold (R320). -/
def holdLeft (s : State) : Nat := s.hold.until_ - s.now
/-- What word `idx` of a special register holds for a slot of a train; repcnt as it stands after the instruction (R137). -/
def specVal (s : State) (iss : Issue) (t : Train) (i : Nat) (spec : Reg) (idx : Nat) : Word :=
  let c := coreOf s t.core
  let x := findCtx s (ctxOf s t)
  let tm := findTeam s t.team
  match spec.toNat with
  | 0 => c.lanes.setWidth 64
  | 1 => c.ctime
  | 2 => BitVec.ofNat 64 i
  | 3 => BitVec.ofNat 64 (t.resident % 128 * 2 ^ 8 + t.idx % 32)
  | 4 => match tm with
    | some m => BitVec.ofNat 64 (m.fpos % 8 * 2 ^ 40 + m.stage % 8 * 2 ^ 32 + m.num % 2 ^ 32)
    | none => 0#64
  | 5 => BitVec.ofNat 64 (ringOf t.core * 2 ^ 13 + posOf t.core * 2 ^ 10 + dieOf t.core * 2 ^ 8 + t.core)
  | 6 => BitVec.ofNat 64 (dieOf t.core)
  | 7 => osmapWord c idx
  | 8 => BitVec.ofNat 64 (oscap c)
  | 9 => match x with
    | some x => x.oskey.setWidth 64
    | none => 0#64
  | 10 => BitVec.ofNat 64 (repcnt (slotDone iss (nextPc iss) (slotAt t i)))
  | 11 => if t.lapsed then 1#64 else 0#64
  | 12 => t.fflags.setWidth 64
  | 13 => BitVec.ofNat 64 (holdLeft s * 2 ^ 32 + s.hold.pairs.toNat)
  | 14 => match x with
    | some x => x.budget.lwt.setWidth 64
    | none => 0#64
  | 15 => match x with
    | some x => BitVec.ofNat 64 x.stall
    | none => 0#64
  | 16 => t.thand
  | 17 => BitVec.ofNat 64 (s.memAlive.toNat * 2 ^ 4 + s.corAlive.toNat)
  | 18 => match x with
    | some x => BitVec.ofNat 64 (x.skipped * 2 ^ 48 + x.checked * 2 ^ 16 + (if x.audOn then 2 ^ 5 else 0) + x.audN.toNat)
    | none => 0#64
  | 19 => marginOf s idx
  | _ => 0#64
/-- One slot of a vector read whose index comes from a port. -/
def srdPortSlot (ins : Instr) (d spec a : Reg) (acc : Acc) (iss : Issue) (i : Nat) : Acc :=
  match findTrain acc.1 iss.tr with
  | none => acc
  | some t =>
    match portStop iss acc t i (popPorts ins) none with
    | some o => (acc.1, acc.2 ++ [(i, o)])
    | none =>
      portSlot ins d (fun s t i => specVal s iss t i spec (readAny s t i a).toNat) acc iss i
/-- The indices that slots would pop from a port, in their order, while there are items. -/
def srdPeek (uid : Nat) (q : Nat) : List Nat → State → List Word
  | [], _ => []
  | i :: r, s => match findTrain s uid with
    | none => []
    | some t => match popChk s t i q with
      | (.ok, w) => w :: srdPeek uid q r (popDo s uid i q)
      | _ => []
/-- The index at fault of a slot of a vector read, which is judged for the whole run before any effect (R81, R416). -/
def srdBadIdx (s : State) (iss : Issue) (t : Train) (slots : List Nat) (spec a : Reg) : Option Word :=
  (if isQ a then srdPeek iss.tr (portOf a) slots s else slots.map (fun i => readReg t i a)).find?
    (fun v => decide (specWords spec ≤ v.toNat))
/-- A destination that makes sys.srd a uniform instruction: a k register, or zr (R78). -/
def isUni (d : Reg) : Bool := !isW d && !isQ d
/-- sys.srd (R78, R142): a vector read for a w register or a port, a uniform read else. DESIGN CHOICE (log 49): R80
and R142 do not say whose index a uniform read takes from a w register or a port; it is the lowest active slot's, which alone
is checked and alone pops. -/
def execSysSrd (d spec a : Reg) (s : State) : Out :=
  let ins : Instr := .sysSrd d spec a
  runIns ins s (fun s iss t m =>
    let slots := if isUni d then (slotsOf m).take 1 else slotsOf m
    match srdBadIdx s iss t slots spec a with
    | some v => faultAll s iss t iss.slots (cause 1 4) v
    | none =>
      if spec = specPhold ∧ debugTrain s t = false then faultAll s iss t m (cause 9 0) 0#64
      else if isQ a then
        if isUni d then
          let i := lowSlot m
          match portStop iss (s, []) t i (popPorts ins) none with
          | some o => settle s iss t ((slotsOf m).map (fun j => (j, o)))
          | none =>
            let v := readAny s t i a
            let s := makePops s iss.tr i (popPorts ins)
            match findTrain s iss.tr with
            | none => holdRun s
            | some t => settle s iss (writeK t d (specVal s iss t i spec v.toNat)) []
        else
          let r := (slotsOf m).foldl (fun acc i => srdPortSlot ins d spec a acc iss i) (s, [])
          match findTrain r.1 iss.tr with
          | none => holdRun r.1
          | some t => settle r.1 iss t r.2
      else if isUni d then
        settle s iss (writeK t d (specVal s iss t (lowSlot m) spec (readReg t (lowSlot m) a).toNat)) []
      else if isQ d then
        let r := (slotsOf m).foldl (fun acc i =>
          portSlot ins d (fun s t i => specVal s iss t i spec (readReg t i a).toNat) acc iss i) (s, [])
        match findTrain r.1 iss.tr with
        | none => holdRun r.1
        | some t => settle r.1 iss t r.2
      else
        settle s iss (mapSlots t (fun i x =>
          if inMask m i && isW d then putReg x (wIdx t d) (specVal s iss t i spec (readReg t i a).toNat) else x)) [])
/-- sys.swr (R143): the write is posted, and its train issues nothing before it is made; a read-only register ignores it. -/
def execSysSwr (spec a b : Reg) (s : State) : Out :=
  runIns (.sysSwr spec a b) s (fun s iss t m =>
    let v := readReg t 0 a
    let idx := (readReg t 0 b).toNat
    if specWords spec ≤ idx then faultAll s iss t iss.slots (cause 1 4) (readReg t 0 b)
    else if spec = specPhold then
      if debugTrain s t then settle (post s (.pholdWrite v)) iss t [] else faultAll s iss t m (cause 9 1) 0#64
    else if spec = 11#7 ∨ spec = 12#7 ∨ spec = 16#7 then
      settle (post s (.specialRegWrite t.uid spec idx v)) iss t []
    else settle s iss t [])
/-- The write of lapsed, fflags or thand is made (R49, R143, R226, R419). -/
def execSpecialRegWrite (tr : Nat) (spec : Reg) (_idx : Nat) (v : Word) (s : State) : Out :=
  .next (modTrain s tr (fun t =>
    if spec = 11#7 then { t with lapsed := v.getLsbD 0 }
    else if spec = 12#7 then { t with fflags := v.extractLsb' 0 5 }
    else if spec = 16#7 then { t with thand := v &&& 0x1FFFFFFFFFC#64 }
    else t))

/-! The hold of crossings (R320). -/

/-- Deliveries of every crossing that holds something are due. -/
def kickXings (s : State) : State :=
  s.xings.foldl (fun s x => if x.2.isEmpty then s else postOnce s (.crossingDeliver x.1.1 x.1.2)) s
/-- The write of phold is made: it replaces a hold that runs, and 0 cycles end it. -/
def execPholdWrite (v : Word) (s : State) : Out :=
  let cycles := fld v 32 24
  let s := { s with hold := ⟨v.extractLsb' 0 16, s.now + cycles⟩ }
  .next (if cycles = 0 then kickXings s else kickXings (post s (.pholdExpire (s.now + cycles))))
/-- A hold ends, unless another has taken its place: every crossing resumes. -/
def execPholdExpire (due : Nat) (s : State) : Out :=
  let s := atTime s due
  .next (if s.hold.until_ ≤ s.now then kickXings s else s)

/-! Plain forms (R139 to R141, R149, R422, R423). -/

/-- sys.nop (R139). -/
def execSysNop (s : State) : Out := runIns .sysNop s (fun s iss t _ => settle s iss t [])
/-- The end of the wait for members and of the train, after slots have exited. -/
def exitDone (s : State) (uid : Nat) (gone : Mask) : State :=
  if gone = 0#32 then s else afterExit (xlAfterExit s uid gone) uid
/-- sys.exit (R140, R212): the active slots retire; the guarded-off slots of the run go on. -/
def execSysExit (s : State) : Out :=
  runIns .sysExit s (fun s iss t m =>
    let s := settle s iss { t with declared := none } ((slotsOf m).map (fun i => (i, .park .exited .none (nextPc iss))))
    exitDone s t.uid m)
/-- sys.trap n (R422). -/
def execSysTrap (n : BitVec 5) (s : State) : Out :=
  runIns (.sysTrap n) s (fun s iss t m => settleTrap s iss t m (cause 10 n.toNat))
/-- sys.brk (R141). -/
def execSysBrk (s : State) : Out := runIns .sysBrk s (fun s iss t m => settleTrap s iss t m (cause 11 0))
/-- sys.eret (R198, R423, R424, R461). -/
def execSysEret (s : State) : Out :=
  runIns .sysEret s (fun s iss t m =>
    if m ≠ liveMask t then faultAll s iss t m (cause 2 8) 0#64
    else if !t.inHand then faultAll s iss t m (cause 2 11) 0#64
    else match eretFault t with
      | some c => faultAll s iss t m c 0#64
      | none =>
        let t' := { eretTrain s t with lastIss := s.now }
        exitDone { setTrain s t' with iss := none } t.uid (liveMask t &&& ~~~(liveMask t')))
/-- sys.spin (R147): the active slots wait 64 cycles, and a declared wait begins. -/
def execSysSpin (s : State) : Out :=
  runIns .sysSpin s (fun s iss t m =>
    let due := s.now + 64
    post (settle s iss { t with declared := some (t.declared.getD s.now) }
      ((slotsOf m).map (fun i => (i, .park .wait (.spin due) (nextPc iss))))) (.spinWake t.uid m due))
/-- The slots of a spin go on. -/
def execSpinWake (tr : Nat) (m : Mask) (due : Nat) (s : State) : Out :=
  .next (modTrain (atTime s due) tr (fun t => mapSlots t (fun i x =>
    if inMask m i && x.wait == .spin due then waitDone x else x)))
/-- sys.yield (R139). -/
def execSysYield (s : State) : Out :=
  runIns .sysYield s (fun s iss t _ =>
    post (settle s iss { t with yieldTo := s.now + 16 } []) (.yieldWindowEnd t.uid (s.now + 16)))
/-- The 16 cycles after a yield are over. -/
def execYieldWindowEnd (tr due : Nat) (s : State) : Out :=
  .next (modTrain (atTime s due) tr (fun t => if t.yieldTo = due then { t with yieldTo := 0 } else t))

/-! Fences (R145, R301, R302). -/

/-- The effect of a fence on its run: `act` are the slots it acts for, `all` those of the run. -/
def fenceDone (s : State) (uid : Nat) (k : FenceKind) (sc : Scope) (act all : Mask) : State :=
  let acq := fun (x : Slot) => if k = .rel then x else acquire x sc
  let s := modTrain s uid (fun t => mapSlots t (fun i x => if inMask act i then acq x else x))
  let before := match findTrain s uid with
    | none => []
    | some t => if scopeNum sc = 0 then [] else
      nub ((slotsOf act).flatMap (fun i => ownWrites s uid i ++ (slotAt t i).hb))
  let s := modTrain s uid (fun t => mapSlots t (fun i x => if inMask all i then { x with hb := nub (x.hb ++ before) } else x))
  if k = .acq then s
  else modTrain s uid (fun t => mapSlots t (fun i x => if inMask act i then release s uid i x sc else x))
/-- sys.fence (R145, R302): it parks the whole run until its condition holds for every active slot. -/
def execSysFence (kind : FenceKind) (sc : Scope) (s : State) : Out :=
  runIns (.sysFence kind sc) s (fun s iss t m =>
    if (slotsOf m).any (fun i => fencePending s t.uid i kind sc) then
      settle s iss t ((slotsOf iss.slots).map (fun i => (i, .park .wait (.fence kind sc m) (nextPc iss))))
    else
      let s := fenceDone s t.uid kind sc m iss.slots
      match findTrain s t.uid with
      | none => holdRun s
      | some t => settle s iss t [])
/-- The runs of a train that wait at a fence: kind, scope, active slots, and all their slots. -/
def fenceRuns (t : Train) : List (FenceKind × Scope × Mask × Mask) :=
  (List.range 32).filterMap (fun i => match (slotAt t i).wait with
    | .fence k sc m =>
      let all := maskOf (fun j => (slotAt t j).wait == .fence k sc m && (slotAt t j).pc == (slotAt t i).pc)
      if lowSlot all = i then some (k, sc, m, all) else none
    | _ => none)
/-- Fences and release stores of a train whose conditions now hold go on (R301). -/
def fenceResumed (s : State) (tr : Nat) : State :=
  match findTrain s tr with
  | none => s
  | some t =>
    if t.halted then s
    else
      let s := (fenceRuns t).foldl (fun s r =>
        if (slotsOf r.2.2.1).any (fun i => fencePending s tr i r.1 r.2.1) then s
        else modTrain (fenceDone s tr r.1 r.2.1 r.2.2.1 r.2.2.2) tr (fun t =>
          mapSlots t (fun i x => if inMask r.2.2.2 i then waitDone x else x))) s
      modTrain s tr (fun t => mapSlots t (fun i x => match x.wait with
        | .rel sc => if relPending s tr i sc then x else waitRetry x
        | _ => x))
/-- FENCE_RESUME (R301). -/
def execFenceResume (tr : Nat) (s : State) : Out := .next (fenceResumed s tr)

/-! sys.waitw (R146). -/

/-- What one read of the loop finds. -/
inductive WaitRd where
  | val (v : Word) (keys : List Nat) (polled : Option Nat) (lapsed : Bool)
  | own (polled : Option Nat)
  | out (o : SlotOut)
/-- The plain load that a read of the watched word is, as the order of accesses sees it (R146, R304, R312). -/
def waitReq (s : State) (t : Train) (i : Nat) (x : Slot) (va : Addr) (kv : List (Nat × Nat)) : Req :=
  mkReq (ctxOf s t) ⟨t.uid, 0#32, x.pc, x.pc, [], none, none, none, []⟩ t i x s.nextId s.nextId (.load .b64 0 none) .plain .none va kv []
    (x.hb ++ x.seen)
/-- One read of the watched word by a slot; `own` while an access that comes before it is still on its way (R304, R312), and for the
`first` read of far memory, which is on its way itself and may fail. A word that is polled is read by an access of its own number
(R437). -/
def waitRead (s : State) (t : Train) (i : Nat) (scr : Bool) (va : Addr) (npc : Pc) (first : Bool) : WaitRd × State :=
  let x := slotAt t i
  if addrOff va % 8 ≠ 0 then (.out (misaligned accRead va), s)
  else if scr then
    match findTeam s t.team with
    | none => (.own none, s)
    | some tm =>
      if !inScratch tm (addrOff va) 8 then (.out (.fault (cause 5 4) 0#64 0#80), s)
      else
        let ls := (linesOf (addrOff va) 8).filter (lineAbsent tm)
        if !ls.isEmpty then (.out (.park .presence (.presence ls) npc), s)
        else
          let s' := noteScrRead s tm (addrOff va) 8
          match scrRead s.now tm (addrOff va) 8 with
          | (.bad d, _) => (.out (dataFault d va), s')
          | (.ok bs, l) =>
            (.val (BitVec.ofNat 64 (leN bs)) ((List.range 8).map (fun j => scrKey tm.id (addrOff va + j))) none l, s')
  else
    match devLook s t x va 8 accRead with
    | (.park id, s) => (.out (.park .miss (.miss id accRead false) npc), s)
    | (.window, s) => (.out (addrFault 6 accRead 4 va), s)
    | (.bad ty l, s) => (.out (addrFault ty accRead l va), s)
    | (.ok kv, s) =>
      let keys := kv.map (·.1)
      let far := keys.any (fun k => decide (2 ^ 52 ≤ k))
      if far && first then
        let (id, s) := fresh s
        (.own (some id), s)
      else if loadBlocked s (waitReq s t i x va kv) then (.own none, s)
      else
        let s' := noteHalves s t.core (ctxOf s t) (addrSpan va) (nub (keys.map (· / 32)))
        match readDie s (dieOf t.core) kv with
        | .bad d => (.out (dataFault d va), s')
        | .ok bs =>
          let (id, s'') := fresh s'
          if far then (.val (BitVec.ofNat 64 (leN bs)) keys (some id) false, s'')
          else (.val (BitVec.ofNat 64 (leN bs)) keys none false, s')
/-- The slot has read: it takes what the writers of the word released (R310), and an expired granule sets lapsed (R225). -/
def waitTook (s : State) (uid i : Nat) (keys : List Nat) (lapsed : Bool) : State :=
  modTrain s uid (fun t => { modSlot t i (fun x => clockRead s t.core t.uid x keys) with lapsed := t.lapsed || lapsed })
/-- One active slot of sys.waitw. -/
def waitwSlot (iss : Issue) (ins : Instr) (scr : Bool) (an : R3) (b : Reg) (r : Acc) (i : Nat) : Acc :=
  match findTrain r.1 iss.tr with
  | none => r
  | some t =>
    match portStop iss r t i (popPorts ins) none with
    | some o => r.out i o
    | none =>
      let va := readA t i an
      let cmp := readAny r.1 t i b
      match waitRead r.1 t i scr va (nextPc iss) true with
      | (.out o, s) => (s, r.2 ++ [(i, o)])
      | (.own n, s) => (post s (.waitwWake t.uid i), r.2 ++ [(i, .park .wait (.watch scr [] va cmp n) (nextPc iss))])
      | (.val v keys polled l, s) =>
        let s := waitTook s t.uid i keys l
        if v ≠ cmp then (makePops s t.uid i (popPorts ins), r.2)
        else
          let s := if polled.isSome then post s (.waitwPoll t.uid i (s.now + Config.us)) else s
          (s, r.2 ++ [(i, .park .wait (.watch scr keys va cmp polled) (nextPc iss))])
/-- sys.waitw (R146, R147). -/
def execSysWaitw (scr : Bool) (an : R3) (b : Reg) (s : State) : Out :=
  let ins : Instr := .sysWaitw scr an b
  runIns ins s (fun s iss _ m =>
    let (grp, s) := fresh s
    let r := (slotsOf m).foldl (waitwSlot iss ins scr an b) (s, [])
    let waits := r.2.any (fun p => match p.2 with
      | .park .wait _ _ => true
      | _ => false)
    settleAcc iss false grp m
      (if waits then modTrain r.1 iss.tr (fun t => { t with declared := some (t.declared.getD s.now) }) else r.1, r.2))
/-- The instruction at which a slot is parked, for the ports that it names. -/
def parkedPops (s : State) (t : Train) (x : Slot) : List Nat :=
  match behindPrefixes s t 4 x.pc none none none with
  | some b => popPorts b.ins
  | none => []
/-- A read of a parked waitw is at fault: the slot stands at its instruction again, and traps; the slots that are parked at it are in the
pend mask (R146, R416). -/
def waitFault (s : State) (tr i : Nat) (pc : Pc) (c : BitVec 9) (info : Word) (fa : Addr) : State :=
  let mates := ((findTrain s tr).map (fun t => matesOf t (slotAt t i).again)).getD []
  raiseTrap (modTrain s tr (fun t => modSlot t i (fun x => { waitRetry x with again := 0 }))) tr
    ⟨c, pc, maskOf (fun j => j == i), maskOf (fun j => j == i || mates.contains j), info,
      if c.toNat / 32 = 3 ∨ c.toNat / 32 = 4 then cset [] i fa else []⟩
/-- A parked waitw reads again, unless its train is about to enter its handler (R420). -/
def waitwAgain (s : State) (tr i : Nat) : State :=
  match findTrain s tr with
  | none => s
  | some t =>
    let x := slotAt t i
    match x.wait with
    | .watch scr _ va cmp _ =>
      if t.halted || t.trap.isSome then s
      else match waitRead s t i scr va x.npc false with
        | (.own _, s) => post s (.waitwWake tr i)
        | (.out (.fault c info fa), s) => waitFault s tr i x.pc c info fa
        | (.out (.park st w _), s) => modTrain s tr (fun t => modSlot t i (fun x => { x with st := st, wait := w }))
        | (.out (.done _), s) | (.out (.walk _ _), s) => s
        | (.val v keys polled l, s) =>
          let s := waitTook s tr i keys l
          if v ≠ cmp then
            makePops (modTrain s tr (fun t => modSlot t i waitDone)) tr i (parkedPops s t x)
          else
            let s := modTrain s tr (fun t => modSlot t i (fun x => { x with wait := .watch scr keys va cmp polled }))
            if polled.isSome then post s (.waitwPoll tr i (s.now + Config.us)) else s
    | _ => s
/-- WAITW_WAKE (R146). -/
def execWaitwWake (tr slot : Nat) (s : State) : Out := .next (waitwAgain s tr slot)
/-- WAITW_POLL (R146). -/
def execWaitwPoll (tr slot due : Nat) (s : State) : Out := .next (waitwAgain (atTime s due) tr slot)

/-! sys.dlaunch (R148, R372). -/

/-- sys.dlaunch: the descriptor joins the context's queue once the train's writes are performed at device scope. -/
def execSysDlaunch (a : Reg) (s : State) : Out :=
  runIns (.sysDlaunch a) s (fun s iss t m =>
    let v := readReg t 0 a
    if v.toNat % 64 ≠ 0 then
      settle s iss t ((slotsOf m).map (fun i => (i, misaligned accRead (mkAddr 0#16 v))))
    else if !(unackedWrites s t.uid).isEmpty then holdRun s
    else match findCtx s (ctxOf s t) with
      | none => holdRun s
      | some c =>
        if 64 ≤ c.dlq.length then
          settle s iss { t with declared := some (t.declared.getD s.now) }
            ((slotsOf (iss.slots &&& ~~~maskOf (fun i => iss.bad.any (fun p => p.1 == i)))).map (fun i => (i, .park .wait .dlaunch (nextPc iss))))
        else
          post (settle (modCtx s c.num (fun c => { c with dlq := c.dlq ++ [(v, ((findTeam s t.team).map (·.dprio)).getD 0)] })) iss t []) (.dlaunchProcess c.num))

end Sys2Proof.Machine
end

