-- ==== Sys2Proof/Machine/Ctl.lean ====
section
/-! DEFINITION. The ctl family: window, allocation, named barriers, priority, migration and port bindings (spec/08 R193 to
R211, spec/09 R217 to R221 and R244 to R248). -/

namespace Sys2Proof.Machine

/-! Window and priority (R194, R202). -/

/-- ctl.win (R194). -/
def execCtlWin (n : BitVec 5) (s : State) : Out :=
  runIns (.ctlWin n) s (fun s iss t m =>
    if t.A ≤ 32 * n.toNat then faultAll s iss t m (cause 1 3) (Config.openInfo s.tick)
    else settle s iss { t with B := 32 * n.toNat } [])
/-- Train word 8 of the frame takes a base priority (R191, R418). -/
def framePrio (t : Train) (n : Nat) : Train :=
  modSlot t 2 (fun x => { x with
    regs := cset x.regs (t.A - 4) (BitVec.ofNat 64 ((cget x.regs (t.A - 4)).toNat / 16 * 16 + n)) })
/-- ctl.prio (R191, R202). -/
def execCtlPrio (n : BitVec 4) (s : State) : Out :=
  runIns (.ctlPrio n) s (fun s iss t _ =>
    settle s iss { (if t.inHand then framePrio t n.toNat else t) with prio := n.toNat, aging := 0 } [])

/-! Allocation (R217 to R222). -/

/-- Bytes of an allocation of a size in its kind's unit, rounded (R217); for registers, of the whole train. -/
def allocBytes (k : AllocKind) (size : Nat) : Nat :=
  match k with
  | .reg => size * 256
  | .bobj => (size + 15) / 16 * 256
  | _ => (size + 255) / 256 * 256
/-- The size is in the range of its kind (R217). -/
def allocSizeOk (k : AllocKind) (size : Nat) : Bool :=
  match k with
  | .reg => decide (32 ≤ size ∧ size ≤ 1024 ∧ size % 32 = 0)
  | .bobj => decide (1 ≤ size ∧ size ≤ 65536)
  | _ => decide (1 ≤ size ∧ size ≤ 7340032)
/-- A range of scratch space overlaps no range that the team uses. -/
def rangeFree (tm : Team) (base size : Nat) : Bool :=
  decide (base + size ≤ 2 ^ 23) &&
    (tm.allocs ++ tm.draining).all (fun a => decide (base + size ≤ a.base ∨ a.base + a.size ≤ base))
/-- Where the allocator places a range (R219; log 14): anywhere that it fits. DESIGN CHOICE (log 55): R218 does not say what comes
of an allocation that no free range can hold although the core has the store; its result is 0. -/
def placeRange (tick : Nat) (tm : Team) (size : Nat) : Option Nat :=
  let p := 256 * (Config.placeChoice tick 32768 % 32768)
  if rangeFree tm p size then some p
  else (0 :: (tm.allocs ++ tm.draining).map (fun a => a.base + a.size)).find? (fun b => rangeFree tm b size)
/-- The number of a new allocation (R219; log 25). -/
def freeNumber (tick : Nat) (tm : Team) : Nat :=
  let used := tm.allocs.map (·.num)
  let n := Config.allocNumber tick % 255 + 1
  if used.contains n then ((List.range 255).map (· + 1)).find? (fun k => !used.contains k) |>.getD 0 else n
def kindCode : AllocKind → Nat
  | .reg => 0 | .scr => 1 | .bobj => 2 | .qst => 3
/-- A handle (R219). -/
def handleOf (a : Alloc) : Word := BitVec.ofNat 64 (kindCode a.kind * 2 ^ 40 + a.num * 2 ^ 32 + a.base)
/-- The scratch space of a new grant: zero, present and stamped (R222, R224). -/
def grantRange (tm : Team) (a : Alloc) : Team :=
  let inr := fun (unit k : Nat) => decide (a.base ≤ k * unit ∧ k * unit < a.base + a.size)
  { tm with
    allocs := tm.allocs ++ [a]
    scratch := cclear tm.scratch a.base (a.base + a.size)
    scond := tm.scond.filter (fun p => !inr 32 p.1)
    absent := tm.absent.filter (fun p => !inr 64 p.1)
    wrote := tm.wrote.filter (fun p => !inr 256 p.1)
    marked := tm.marked.filter (fun g => !inr 256 g)
    bobjs := tm.bobjs.filter (fun p => !inr 1 p.1) }
/-- A train takes a register allocation (R220). -/
def resizeTrain (t : Train) (A : Nat) : Train :=
  { mapSlots t (fun _ x => { x with
      regs := cclear x.regs A (max A 1024)
      rcond := x.rcond.filter (fun p => decide (p.1 < A / 4)) }) with A := A }
/-- Why a ctl.osalloc traps, if it does: class and detail (R218). -/
def allocFault (s : State) (t : Train) (tm : Team) (k : AllocKind) (size : Nat) : Option (Nat × Nat) :=
  if !allocSizeOk k size then some (5, 0)
  else if Config.teamStore < teamHeld s tm - (if k = .reg then t.A * 256 else 0) + allocBytes k size then some (5, 1)
  else if k ≠ .reg ∧ 255 ≤ tm.allocs.length then some (5, 2)
  else if k = .reg ∧ size ≤ t.B then some (1, 3)
  else none
/-- ctl.osalloc (R218): the result is 0 where the core cannot supply the store. -/
def execCtlOsalloc (d a : Reg) (kind : AllocKind) (ret : Retain) (s : State) : Out :=
  runIns (.ctlOsalloc d a kind ret) s (fun s iss t m =>
    match findTeam s t.team with
    | none => holdRun s
    | some tm =>
      let size := (readReg t 0 a).toNat
      match allocFault s t tm kind size with
      | some (c, det) => faultAll s iss t m (cause c det) (if c = 1 then Config.openInfo s.tick else 0#64)
      | none =>
        let bytes := allocBytes kind size
        if kind = .reg then
          if bytes ≤ t.A * 256 + coreFree s t.core then
            let s' := settle s iss (resizeTrain (writeUni t m d (BitVec.ofNat 64 size)) size) []
            if size < t.A then reconsider s' else s'
          else settle s iss (writeUni t m d 0#64) []
        else
          match (if bytes ≤ coreFree s t.core then placeRange s.tick tm bytes else none) with
          | none => settle s iss (writeUni t m d 0#64) []
          | some base =>
            let al : Alloc := ⟨freeNumber s.tick tm, kind, ret, base, bytes, s.now⟩
            settle (setTeam s (grantRange tm al)) iss (writeUni t m d (handleOf al)) [])
/-- Slots that watch a word of a freed range read again (R146). -/
def freedWatch (s : State) (team lo hi : Nat) : State :=
  (s.trains.filter (fun t => t.team == team)).foldl (fun s t => (List.range 32).foldl (fun s i =>
    match (slotAt t i).wait with
    | .watch true _ va _ _ => if lo ≤ addrOff va ∧ addrOff va < hi then postOnce s (.waitwWake t.uid i) else s
    | _ => s) s) s
/-- ctl.osfree (R221): a range that engine commands still use keeps its banks until the last of them. DESIGN CHOICE (log 56): the
rule does not say what comes of slots parked in bo.wait on an object of the range; nothing wakes them any more. -/
def execCtlOsfree (a : Reg) (s : State) : Out :=
  runIns (.ctlOsfree a) s (fun s iss t m =>
    match findTeam s t.team with
    | none => holdRun s
    | some tm =>
      let h := readReg t 0 a
      match tm.allocs.find? (fun al => handleOf al == h) with
      | none => faultAll s iss t m (cause 5 3) 0#64
      | some al =>
        let busy := !(teamCmds s tm.id).isEmpty || !(teamTasks s tm.id).isEmpty
        let tm' := { tm with
          allocs := tm.allocs.filter (fun x => handleOf x != h)
          draining := if busy then tm.draining ++ [{ al with num := s.nextId }] else tm.draining
          bobjs := tm.bobjs.filter (fun p => !inAlloc al p.1) }
        reconsider (freedWatch (settle (setTeam s tm') iss t []) tm.id al.base (al.base + al.size)))

/-! Named barriers (R195 to R200). -/

/-- Why a barrier instruction traps, if it does: a detail of class 2. DESIGN CHOICE (log 48): where several hold, no rule says
which is reported, and the lowest is. -/
def barFault (s : State) (t : Train) (tm : Team) (m : Mask) (h : Nat) (arr : Option (Option Nat)) : Option Nat :=
  let b := barOf tm h
  if tm.nb ≤ h then some 6
  else if (match arr with
    | some c => b.arrived != 0 && b.expected != some (c.getD 0)
    | none => false) then some 7
  else if m ≠ liveMask t then some 8
  else if (match arr with
    | some (some c) => decide (c = 0 ∨ trainsLeft s tm.id < c)
    | _ => false) then some 9
  else none
/-- The count that a barrier form names: none for the team (R197). -/
def barCount (t : Train) (b : Reg) : Option Nat := if isZ b then none else some (readReg t 0 b).toNat
/-- arrive(h, c), a release at core scope and a write of the barrier (R197, R200, R299): of every access that the train has made,
those of slots that have exited among them (R309). -/
def barArrive (s : State) (t : Train) (tm : Team) (h c : Nat) : State :=
  let b := barOf tm h
  let s := modTrain s t.uid (fun t => { mapSlots t (fun i x => release s t.uid i x .core) with
    lastBar := aset t.lastBar h (b.phase, false), declared := none })
  let rels := match findTrain s t.uid with
    | some t => ((List.range 32).flatMap (fun i => (slotAt t i).rel)).filter (fun (r : Release) => !(unapplied s r.ids).isEmpty)
    | none => []
  let s := { s with clocks := s.clocks ++ rels.map (fun r => ⟨none, 0, [barKey tm.id h], t.core, t.uid, r⟩) }
  let s := setTeam s { tm with bars := aset tm.bars h ⟨b.phase, b.arrived + 1, some c⟩ }
  if barNeed s tm.id c ≤ b.arrived + 1 then barComplete s tm.id h else s
/-- The train waits for the phase of its last arrival, or goes on (R197, R200). As it leaves, its slots' later accesses wait for
their earlier reads (R299, R301). -/
def barWaits (s : State) (iss : Issue) (uid : Nat) (m : Mask) (h : Nat) : State :=
  let s := (slotsOf m).foldl (fun s i => blockReads s uid i .core) s
  match findTrain s uid with
  | none => holdRun s
  | some t => match afind t.lastBar h with
    | none => settle s iss t []
    | some (_, true) =>
      settle s iss (mapSlots t (fun i x => if inMask m i then acquire (clockRead s t.core t.uid x [barKey t.team h]) .core else x)) []
    | some (p, false) => settle s iss t ((slotsOf m).map (fun i => (i, .park .barrier (.barrier h p) (nextPc iss))))
/-- The frame of the three forms: their checks, and the release part that an arrival waits for. -/
def barOp (ins : Instr) (h : BitVec 6) (arr : Train → Option (Option Nat)) (go : State → Issue → Train → Team → Mask → State)
    (s : State) : Out :=
  runIns ins s (fun s iss t m =>
    match findTeam s t.team with
    | none => holdRun s
    | some tm => match barFault s t tm m h.toNat (arr t) with
      | some d => faultAll s iss t m (cause 2 d) 0#64
      | none =>
        if (arr t).isSome && (List.range 32).any (fun i => relPending s t.uid i .core) then holdRun s
        else go s iss t tm m)
/-- ctl.bar (R197). -/
def execCtlBar (h : BitVec 6) (b : Reg) (s : State) : Out :=
  barOp (.ctlBar h b) h (fun t => some (barCount t b)) (fun s iss t tm m =>
    barWaits (barArrive s t tm h.toNat ((barCount t b).getD 0)) iss t.uid m h.toNat) s
/-- ctl.barr (R197). -/
def execCtlBarr (h : BitVec 6) (b : Reg) (s : State) : Out :=
  barOp (.ctlBarr h b) h (fun t => some (barCount t b)) (fun s iss t tm _ =>
    let s := barArrive s t tm h.toNat ((barCount t b).getD 0)
    match findTrain s t.uid with
    | none => holdRun s
    | some t => settle s iss t []) s
/-- ctl.barw (R197). -/
def execCtlBarw (h : BitVec 6) (s : State) : Out :=
  barOp (.ctlBarw h) h (fun _ => none) (fun s iss t _ m => barWaits s iss t.uid m h.toNat) s

/-! Migration (R209). -/

/-- p7 of every slot that has not exited takes whether the train moved. -/
def setMoved (t : Train) (v : Bool) : Train :=
  mapSlots t (fun _ x => if x.st = .exited ∨ x.st = .absent then x else setPred x 7#3 v)
/-- ctl.migr (R209). -/
def execCtlMigr (an : R3) (s : State) : Out :=
  runIns (.ctlMigr an) s (fun s iss t m =>
    match findTeam s t.team with
    | none => holdRun s
    | some tm =>
      if m ≠ liveMask t then faultAll s iss t m (cause 2 8) 0#64
      else if 1 < trainsLeft s tm.id ∨ tm.allocs ≠ [] ∨ 0 < tm.nb ∨ t.ports ≠ [] then faultAll s iss t m (cause 2 10) 0#64
      else
        let va := readA t (lowSlot m) an
        let all := fun (s : State) (t : Train) (o : SlotOut) => settle s iss t ((slotsOf m).map (fun i => (i, o)))
        match devLook s t (slotAt t (lowSlot m)) va 1 accRead with
        | (.park id, s) => all s t (.park .miss (.miss id accRead false) (nextPc iss))
        | (.window, s) => all s t (addrFault 6 accRead 4 va)
        | (.bad ty l, s) => all s t (addrFault ty accRead l va)
        | (.ok kv, s) =>
          let key := (kv.headD (0, 0)).1
          let h := homeDie key
          if 2 ^ 52 ≤ key ∨ h = dieOf t.core ∨ s.corAlive.getLsbD h = false then settle s iss (setMoved t false) []
          else
            let s := all s { t with migr := .waiting h } (.park .migr (.mooring h) (nextPc iss))
            post (post s (.migrGrant t.uid)) (.migrWaitTimeout t.uid (s.now + 4800)))

/-! Port bindings (R244 to R248). -/

/-- The target that a binding descriptor names for a train; none for an invalid binding (R244, R245). -/
def bindOf (s : State) (t : Train) (v : Word) : Option QTarget :=
  let depth := fld v 24 16
  let base := fld v 0 23
  let stages := ((findLaunch s (stageOf s t).1).map (·.stages.length)).getD 1
  if fld v 40 21 ≠ 0 ∨ fld v 23 1 ≠ 0 ∨ (fld v 61 3 ≠ 3 ∧ (depth ≠ 0 ∨ base ≠ 0)) then none
  else match fld v 61 3 with
    | 1 => some .copyCmd
    | 2 => some .tileTask
    | 3 =>
      let fits := ((findTeam s t.team).map (fun tm => tm.allocs.any (fun a =>
        a.kind == .qst && a.base == base && decide (8 * depth ≤ a.size)))).getD false
      if depth ≠ 0 ∧ fits = true ∧ t.ports.any (fun p => match p.2 with
          | .completions _ _ => true
          | _ => false) = false then some (.completions base depth) else none
    | 4 => if (stageOf s t).2 = 0 then none else some .stageIn
    | 5 => if (stageOf s t).2 + 1 = stages then none else some .stageOut
    | _ => none
/-- ctl.qbind (R245). -/
def execCtlQbind (q a : Reg) (s : State) : Out :=
  runIns (.ctlQbind q a) s (fun s iss t m =>
    match bindOf s t (readReg t 0 a) with
    | none => faultAll s iss t m (cause 6 4) 0#64
    | some g =>
      if (afind t.ports (portOf q)).isSome then faultAll s iss t m (cause 6 5) 0#64
      else
        let t := { t with ports := aset t.ports (portOf q) g }
        settle s iss (match g with
          | .completions _ _ => { t with compl := [] }
          | _ => t) [])
/-- ctl.qunbind (R247): slots that are parked on the port trap with the cause of a partial item. -/
def execCtlQunbind (q : Reg) (s : State) : Out :=
  runIns (.ctlQunbind q) s (fun s iss t m =>
    let n := portOf q
    if (afind t.ports n).isSome && t.slots.any (fun x => !(partOf x n).isEmpty) then faultAll s iss t m (cause 6 2) 0#64
    else
      let parked := maskOf (fun i => (slotAt t i).wait == .port n)
      let s := settle s iss { t with ports := adel t.ports n } []
      if parked = 0#32 then s
      else
        let pc := (slotsOf parked).foldl (fun b i => min b (slotAt t i).pc.toNat) (2 ^ 40)
        let low := maskOf (fun i => inMask parked i && (slotAt t i).pc.toNat == pc)
        raiseTrap s t.uid ⟨cause 6 2, BitVec.ofNat 40 pc, parked, low, 0#64, []⟩)
/-- The value of ctl.qlen (R248). -/
def qlenVal (s : State) (t : Train) (q : Nat) : Word :=
  let word := fun (closed : Bool) (n : Nat) =>
    BitVec.ofNat 64 ((if closed then 2 ^ 63 else 0) + 2 ^ 62 + (if n < 2 ^ 24 then n else (Config.openInfo s.tick).toNat % 2 ^ 24))
  match afind t.ports q with
  | none => 0#64
  | some g => match g with
    | .copyCmd => word false (64 - (queuedCmds s t.core).length)
    | .tileTask => word false (256 - (readyTasks s t.core).length)
    | .completions _ _ => word false t.compl.length
    | .stageIn => match stageQueue s t g with
      | some sq => word sq.closed sq.items.length
      | none => 0#64
    | .stageOut => match stageQueue s t g with
      | some sq => word false (sq.depth - sq.items.length)
      | none => 0#64
/-- ctl.qlen (R248). -/
def execCtlQlen (d q : Reg) (s : State) : Out :=
  let ins : Instr := .ctlQlen d q
  runIns ins s (fun s iss t m =>
    if isQ d then
      let r := (slotsOf m).foldl (fun acc i => portSlot ins d (fun s t _ => qlenVal s t (portOf q)) acc iss i) (s, [])
      match findTrain r.1 iss.tr with
      | none => holdRun r.1
      | some t => settle r.1 iss t r.2
    else settle s iss (writeUni t m d (qlenVal s t (portOf q))) [])

end Sys2Proof.Machine
end

