-- ==== Sys2Proof/Machine/BxNum.lean ====
section
/-! DEFINITION. BX blocks: the values of their codes, and packing (R53 to R58). -/

namespace Sys2Proof.Machine

/-- Mantissa width M (R53). -/
def bxM : Bx → Nat
  | .bx4 => 2 | .bx6 => 4 | .bx9 => 7
/-- Element code i of a block: sign bit above M magnitude bits (R53). -/
def bxCodeAt (M blk i : Nat) : Nat := bitsN blk (16 + i * (M + 1)) (M + 1)
/-- Sub-scale of a group (R53). -/
def bxSub (blk g : Nat) : Nat := bitsN blk (8 + 2 * g) 2
/-- Value of element i of a block (R54). -/
def bxVal (M blk i : Nat) : FVal :=
  let c := bxCodeAt M blk i
  let mag := c % 2 ^ M
  let neg := c / 2 ^ M == 1
  if blk % 256 = 255 then .nan false
  else if mag = 0 then (if neg then .nan false else .fin false 0 0)
  else .fin neg mag ((blk % 256 : Nat) - 127 - (bxSub blk (i / 4) : Nat) - ((M : Int) - 1))
/-- The f32 pattern of element i (R56). -/
def bxUnpack (M blk i : Nat) : Nat := (deliver (fpOf .f32) .rn (bxVal M blk i)).1

/-- Magnitude of an f32 in units of 2^-149; an infinity counts as 2^128 (R57). -/
def mag149 (x : FVal) : Nat :=
  match x with
  | .nan _ => 0
  | .inf _ => 2 ^ 277
  | .fin _ m e => m * 2 ^ (e + 149).toNat
/-- rne(a / 2^e) for a in units of 2^-149 (R57). -/
def rneAt (a : Nat) (e : Int) : Nat := (quantize .rn false a (-149) false e).1
/-- The shared exponent E of sixteen values (R57). -/
def bxE (M A : Nat) : Nat :=
  if A = 0 then 0
  else
    let e : Int := (Nat.log2 A : Int) - 149
    let E := e + 127
    let E := if rneAt A (e - M + 1) = 2 ^ M then E + 1 else E
    (min (max E 0) 254).toNat
/-- Exponent of the step of a sub-scale. -/
def bxStep (M E u : Nat) : Int := (E : Int) - 127 - u - ((M : Int) - 1)
/-- The sub-scale of a group whose largest magnitude is B (R57). -/
def bxU (M E B : Nat) : Nat :=
  if rneAt B (bxStep M E 3) ≤ 2 ^ M - 1 then 3
  else if rneAt B (bxStep M E 2) ≤ 2 ^ M - 1 then 2
  else if rneAt B (bxStep M E 1) ≤ 2 ^ M - 1 then 1 else 0
/-- One element's code and flags (R57). -/
def bxElem (M E u : Nat) (x : FVal) : Nat × BitVec 5 :=
  if x.isNan then (2 ^ M, flagNv)
  else
    let a := mag149 x
    let isInf : Bool := match x with
      | .inf _ => true
      | _ => false
    let (q, exact) := quantize .rn false a (-149) false (bxStep M E u)
    let code := fun (q : Nat) => if 0 < q ∧ x.isNeg then 2 ^ M + q else q
    if isInf || decide (2 ^ M - 1 < q) then (code (2 ^ M - 1), if isInf then flagNv else flagOf ||| flagNx)
    else (code q, flagIf (!exact) flagNx ||| flagIf (!exact && q == 0) flagUf)
/-- Packs sixteen f32 patterns into a block (R57). -/
def bxPack (M : Nat) (x : Nat → Nat) : Nat × BitVec 5 :=
  let v := fun (i : Nat) => unpack (fpOf .f32) (x i)
  let E := bxE M (((List.range 16).map (fun i => mag149 (v i))).foldl max 0)
  let u := fun (g : Nat) => bxU M E (((List.range 4).map (fun j => mag149 (v (4 * g + j)))).foldl max 0)
  let el := fun (i : Nat) => bxElem M E (u (i / 4)) (v i)
  (E + packNat 2 u 4 * 2 ^ 8 + packNat (M + 1) (fun i => (el i).1) 16 * 2 ^ 16, orFlags ((List.range 16).map (fun i => (el i).2)))

end Sys2Proof.Machine
end

