-- ==== Sys2Proof/Machine/Fop.lean ====
section
/-! DEFINITION. The fop and fma families (R150 to R158). -/

namespace Sys2Proof.Machine

/-- A float operation on each sub-element, with the flags of all (R151). -/
def fmap (f : Fmt) (g : Nat → Nat × BitVec 5) : Word × BitVec 5 :=
  (packW (fbits f) (fun i => (g i).1), orFlags ((List.range (64 / fbits f)).map (fun i => (g i).2)))
/-- Sub-element `i` as a number, and as its pattern. -/
def fsub (f : Fmt) (x : Word) (i : Nat) : FVal := unpack (fpOf f) (subN x (fbits f) i)
def fpat (f : Fmt) (x : Word) (i : Nat) : Nat := subN x (fbits f) i
/-- fop.add (R153). -/
def execFopAdd (f : Fmt) (rm : Rm) (d a b : Reg) (s : State) : Out :=
  vecFlag (.fopAdd f rm d a b) d (fun rd => fmap f (fun i => addV (fpOf f) rm (fsub f (rd a) i) (fsub f (rd b) i))) s
/-- fop.sub (R153). -/
def execFopSub (f : Fmt) (rm : Rm) (d a b : Reg) (s : State) : Out :=
  vecFlag (.fopSub f rm d a b) d (fun rd => fmap f (fun i => addV (fpOf f) rm (fsub f (rd a) i) (negV (fsub f (rd b) i)))) s
/-- fop.mul (R153). -/
def execFopMul (f : Fmt) (rm : Rm) (d a b : Reg) (s : State) : Out :=
  vecFlag (.fopMul f rm d a b) d (fun rd => fmap f (fun i => mulV (fpOf f) rm (fsub f (rd a) i) (fsub f (rd b) i))) s
/-- fop.div (R153). -/
def execFopDiv (f : Fmt) (rm : Rm) (d a b : Reg) (s : State) : Out :=
  vecFlag (.fopDiv f rm d a b) d (fun rd => fmap f (fun i => divV (fpOf f) rm (fsub f (rd a) i) (fsub f (rd b) i))) s
/-- fop.sqrt (R153). -/
def execFopSqrt (f : Fmt) (rm : Rm) (d a : Reg) (s : State) : Out :=
  vecFlag (.fopSqrt f rm d a) d (fun rd => fmap f (fun i => sqrtV (fpOf f) rm (fsub f (rd a) i))) s
/-- fop.min (R154). -/
def execFopMin (f : Fmt) (d a b : Reg) (s : State) : Out :=
  vecFlag (.fopMin f d a b) d (fun rd => fmap f (fun i => minMaxV (fpOf f) true (fpat f (rd a) i) (fpat f (rd b) i))) s
/-- fop.max (R154). -/
def execFopMax (f : Fmt) (d a b : Reg) (s : State) : Out :=
  vecFlag (.fopMax f d a b) d (fun rd => fmap f (fun i => minMaxV (fpOf f) false (fpat f (rd a) i) (fpat f (rd b) i))) s
/-- fop.abs (R155). -/
def execFopAbs (f : Fmt) (d a : Reg) (s : State) : Out :=
  vecFlag (.fopAbs f d a) d (fun rd => fmap f (fun i => signV (fpOf f) (fpat f (rd a) i) (fun _ => false))) s
/-- fop.neg (R155). -/
def execFopNeg (f : Fmt) (d a : Reg) (s : State) : Out :=
  vecFlag (.fopNeg f d a) d (fun rd => fmap f (fun i => signV (fpOf f) (fpat f (rd a) i) (fun n => !n))) s
/-- fop.copysign (R155). -/
def execFopCopysign (f : Fmt) (d a b : Reg) (s : State) : Out :=
  vecFlag (.fopCopysign f d a b) d (fun rd => fmap f (fun i => copysignV (fpOf f) (fpat f (rd a) i) (fpat f (rd b) i))) s
/-- fma.fma: x * y + z, rounded once (R157). -/
def execFmaFma (f : Fmt) (rm : Rm) (d a b : Reg) (s : State) : Out :=
  vecFlag (.fmaFma f rm d a b) d (fun rd => fmap f (fun i => fmaV (fpOf f) rm false (fsub f (rd a) i) (fsub f (rd b) i) (fsub f (rd d) i))) s
/-- fma.fms: x * y - z, rounded once (R157). -/
def execFmaFms (f : Fmt) (rm : Rm) (d a b : Reg) (s : State) : Out :=
  vecFlag (.fmaFms f rm d a b) d (fun rd => fmap f (fun i => fmaV (fpOf f) rm false (fsub f (rd a) i) (fsub f (rd b) i) (negV (fsub f (rd d) i)))) s
/-- fma.fnma: -(x * y) + z, rounded once (R157). -/
def execFmaFnma (f : Fmt) (rm : Rm) (d a b : Reg) (s : State) : Out :=
  vecFlag (.fmaFnma f rm d a b) d (fun rd => fmap f (fun i => fmaV (fpOf f) rm true (fsub f (rd a) i) (fsub f (rd b) i) (fsub f (rd d) i))) s
/-- fma.fnms: -(x * y) - z, rounded once (R157). -/
def execFmaFnms (f : Fmt) (rm : Rm) (d a b : Reg) (s : State) : Out :=
  vecFlag (.fmaFnms f rm d a b) d (fun rd => fmap f (fun i => fmaV (fpOf f) rm true (fsub f (rd a) i) (fsub f (rd b) i) (negV (fsub f (rd d) i)))) s

end Sys2Proof.Machine
end

