-- ==== Sys2Proof/Machine/SfuNum.lean ====
section
/-! DEFINITION. Special functions: the exact value to 320 bits after the point, and what is delivered (R163 to R166). -/

namespace Sys2Proof.Machine

/-- Bits after the point of a fixed-point value. -/
def fxP : Nat := 320
/-- π and ln 2 in fixed point, rounded down. -/
def fxPi : Nat := 0x3243f6a8885a308d313198a2e03707344a4093822299f31d0082efa98ec4e6c89452821e638d01377
@[inherit_doc fxPi] def fxLn2 : Nat := 0xb17217f7d1cf79abc9e3b39803f2f6af40f343267298b62d8a0d175b8baafa2be7b876206debac98
def fxMul (a b : Nat) : Nat := a * b / 2 ^ fxP
/-- Terms t^k / k! from k on: every `d`-th of them, with alternating signs when `d` is 2. -/
def fxSeries (t : Nat) : Nat → Nat → Nat → Nat → Int
  | 0, _, _, _ => 0
  | n + 1, d, k, term =>
    let nxt := if d = 1 then fxMul term t / (k + 1) else fxMul (fxMul term t) t / ((k + 1) * (k + 2))
    let r := fxSeries t n d (k + d) nxt
    if d = 1 then (term : Int) + r else (term : Int) - r
def fxExp (t : Nat) : Nat := (fxSeries t 90 1 0 (2 ^ fxP)).toNat
def fxSin (t : Nat) : Nat := (fxSeries t 48 2 1 t).toNat
def fxCos (t : Nat) : Nat := (fxSeries t 48 2 0 (2 ^ fxP)).toNat
/-- Terms z^(2i+1) / (2i+1). -/
def fxAtanh (z2 : Nat) : Nat → Nat → Nat → Nat
  | 0, _, _ => 0
  | n + 1, i, pw => pw / (2 * i + 1) + fxAtanh z2 n (i + 1) (fxMul pw z2)
/-- log2 of u in [1, 2), in fixed point. -/
def fxLog2 (u : Nat) : Nat :=
  let z := (u - 2 ^ fxP) * 2 ^ fxP / (u + 2 ^ fxP)
  2 * fxAtanh (fxMul z z) 110 0 z * 2 ^ fxP / fxLn2

/-- The exact result of a function: given by the table with its flags, or a number (-1)^neg * m * 2^e that is not zero, with
`pt` for an exact point (R164). -/
inductive SfuY where
  | known (bits : Nat) (fl : BitVec 5)
  | num (neg : Bool) (m : Nat) (e : Int) (pt : Bool)
  deriving DecidableEq, Repr

/-- m is a power of two, m ≠ 0. -/
def isPow2 (m : Nat) : Bool := m == 2 ^ Nat.log2 m
/-- |x| as a multiple of 2^(1 - P) modulo 2: quarter turns of π and the rest (x = m * 2^e, e at least -149). -/
def halfTurns (m : Nat) (e : Int) : Nat × Nat :=
  let r := (if 0 ≤ e then m * 2 ^ e.toNat * 2 ^ fxP else m * 2 ^ fxP / 2 ^ (-e).toNat) % 2 ^ (fxP + 1)
  (r / 2 ^ (fxP - 1), r % 2 ^ (fxP - 1))
/-- sin(πr) or cos(πr) for r in quarter turns and a rest: its sign, and the value in fixed point. -/
def fxTrig (isCos : Bool) (h w : Nat) : Bool × Nat :=
  let h := if isCos then (h + 1) % 4 else h
  (2 ≤ h, if h % 2 = 0 then (if w = 0 then 0 else fxSin (fxMul w fxPi)) else (if w = 0 then 2 ^ fxP else fxCos (fxMul w fxPi)))
/-- Flags of a pole, and of an input outside the domain: a finite input that is no exact point raises nx, and where the result is
infinite, of (R163; log 52). -/
def flagPole : BitVec 5 := flagDz ||| flagOf ||| flagNx
@[inherit_doc flagPole] def flagOut : BitVec 5 := flagNv ||| flagNx
/-- The functions on a finite number (R163, R164). -/
def sfuFin (p : FP) (op : Nat) (neg : Bool) (m : Nat) (e : Int) : SfuY :=
  let L := Nat.log2 m
  match op with
  | 0 =>
    if m = 0 then .known (p.sign neg + p.inf) flagPole
    else if isPow2 m then .num neg 1 (-(e + L)) true
    else .num neg (2 ^ (fxP + L) / m) (-(e + L) - fxP) false
  | 1 =>
    if m = 0 then .known (p.sign neg + p.inf) flagPole
    else if neg then .known p.nan flagOut
    else if isPow2 m && decide ((e + L) % 2 = 0) then .num false 1 (-(e + L) / 2) true
    else
      let m' := if e % 2 = 0 then m else 2 * m
      let e' := if e % 2 = 0 then e else e - 1
      .num false (isqrt (2 ^ (2 * fxP) / m')) (-e' / 2 - fxP) false
  | 2 =>
    if m = 0 then .known (p.sign neg) flagNx
    else if neg then .known p.nan flagOut
    else if isPow2 m && decide ((e + L) % 2 = 0) then .num false 1 ((e + L) / 2) true
    else
      let r := rootOf fxP m e
      .num false r.1 r.2.1 false
  | 3 =>
    let z : Int := if 0 ≤ e then ((m * 2 ^ (min e.toNat 200) : Nat) : Int) * 2 ^ fxP else ((m * 2 ^ fxP / 2 ^ (-e).toNat : Nat) : Int)
    let x := if neg then -z else z
    let n := x / (2 ^ fxP : Nat)
    let f := (x % (2 ^ fxP : Nat)).toNat
    let n' := max (-2000) (min n 2000)
    if f = 0 then .num false 1 n' true else .num false (fxExp (fxMul f fxLn2)) (n' - fxP) false
  | 4 =>
    if m = 0 then .known (p.sign true + p.inf) flagPole
    else if neg then .known p.nan flagOut
    else
      let k := e + L
      if isPow2 m then (if k = 0 then .known 0 0#5 else .num (decide (k < 0)) k.natAbs 0 true)
      else
        let y := k * (2 ^ fxP : Nat) + fxLog2 (m * 2 ^ fxP / 2 ^ L)
        .num (decide (y < 0)) y.natAbs (-fxP) false
  | 5 =>
    let r := halfTurns m e
    let t := fxTrig false r.1 r.2
    if r.2 = 0 ∧ r.1 % 2 = 0 then .known (p.sign neg) 0#5 else .num (neg != t.1) t.2 (-fxP) (r.2 == 0)
  | _ =>
    let r := halfTurns m e
    let t := fxTrig true r.1 r.2
    if r.2 = 0 ∧ r.1 % 2 = 1 then .known 0 0#5 else .num t.1 t.2 (-fxP) (r.2 == 0)
/-- The functions on any input (R164, R166). -/
def sfuExact (p : FP) (op : Nat) (x : FVal) : SfuY :=
  match x with
  | .nan sig => .known p.nan (flagIf sig flagNv)
  | .fin neg m e => sfuFin p op neg m e
  | .inf neg =>
    match op with
    | 0 => .known (p.sign neg) 0#5
    | 1 => if neg then .known p.nan flagNv else .known 0 0#5
    | 2 | 4 => if neg then .known p.nan flagNv else .known p.inf 0#5
    | 3 => .known (if neg then 0 else p.inf) 0#5
    | _ => .known p.nan flagNv
/-- The f32 error bound at y (R164), as units and exponent: 1 or 2 ulp, or 2^-24 or 2^-22 absolute. -/
def sfuBound (op : Nat) (x : FVal) (m : Nat) (e : Int) : Nat × Int :=
  let ulp := max (e + Nat.log2 m) (-126) - 23
  if op ≤ 2 then (1, ulp)
  else if op = 3 then (2, ulp)
  else if op = 4 then
    (match cmpV x (.fin false 3 (-2)), cmpV x (.fin false 3 (-1)) with
    | some .lt, _ => (2, ulp)
    | _, some .lt => (1, -22)
    | _, _ => (2, ulp))
  else if ulp + 1 < -24 then (1, -24) else (2, ulp)
/-- A proposed f32 result meets the bound. -/
def sfuMeets (v : FVal) (neg : Bool) (m : Nat) (e : Int) (b : Nat × Int) : Bool :=
  match v with
  | .fin n m' e' =>
    let q := min e (min e' b.2)
    decide ((unitsOf n m' e' q - unitsOf neg m e q).natAbs ≤ b.1 * 2 ^ (b.2 - q).toNat)
  | _ => false
/-- Flags of a result that is not at an exact point, by what is delivered (R163). -/
def sfuFlags (p : FP) (bits : Nat) : BitVec 5 :=
  let a := bits % 2 ^ (p.eb + p.fb)
  flagNx ||| flagIf (a == p.inf) flagOf ||| flagIf (decide (a < 2 ^ p.fb)) flagUf
/-- What ops 0 to 6 deliver: exact at exact points, correctly rounded at f16 and bf16, within the bound at f32 (log 15). -/
def sfuV (f : Fmt) (op x : Nat) : Nat × BitVec 5 :=
  let p := fpOf f
  let v := unpack p x
  match sfuExact p op v with
  | .known b fl => (b, fl)
  | .num neg m e pt =>
    let cr := roundTo p .rn neg m e (!pt)
    if pt && cr.2 == 0#5 then cr
    else if f = .f32 ∧ pt = false then
      let prop := (Config.sfuF32 op (BitVec.ofNat 32 x)).toNat
      let b := if sfuMeets (unpack p prop) neg m e (sfuBound op v m e) then prop else cr.1
      (b, sfuFlags p b)
    else (cr.1, sfuFlags p cr.1)
/-- The twiddle pair of k and n as 64 bits, and its flags (R165). -/
def sfuTwdV (k n : Nat) : Nat × BitVec 5 :=
  let p := fpOf .f32
  if 31 < n then (p.nan + p.nan * 2 ^ 32, flagNv)
  else
    let N := 2 ^ n
    let r := 2 * (k % N) * 2 ^ fxP / N
    let h := r / 2 ^ (fxP - 1)
    let w := r % 2 ^ (fxP - 1)
    let c := fxTrig true h w
    let s := fxTrig false h w
    let put := fun (neg : Bool) (v : Nat) => if v = 0 then 0 else (roundTo p .rn neg v (-fxP) (w != 0)).1
    (put c.1 c.2 + put (!s.1) s.2 * 2 ^ 32, flagIf (w != 0) flagNx)

end Sys2Proof.Machine
end

