-- ==== Sys2Proof/Machine/Cvt.lean ====
section
/-! DEFINITION. Conversions, pack and unpack (R159 to R162), and special functions (R163 to R166). -/

namespace Sys2Proof.Machine

/-- Converts elements from width ws to width wd; the bits of d above them are zero (R159). -/
def convert (ws wd : Nat) (g : Nat → Nat × BitVec 5) (x : Word) : Word × BitVec 5 :=
  let n := 64 / max ws wd
  (BitVec.ofNat 64 (packNat wd (fun i => (g (subN x ws i)).1) n), orFlags ((List.range n).map (fun i => (g (subN x ws i)).2)))
/-- cvt between float formats (R160). -/
def execCvtFloatFloat (dst src : Fmt) (rm : Rm) (d a : Reg) (s : State) : Out :=
  vecFlag (.cvtFloatFloat dst src rm d a) d
    (fun rd => convert (fbits src) (fbits dst) (fun x => deliver (fpOf dst) rm (unpack (fpOf src) x)) (rd a)) s
/-- cvt from an integer (R160). -/
def execCvtIntFloat (dst : Fmt) (sgn : Bool) (w : Width) (rm : Rm) (d a : Reg) (s : State) : Out :=
  vecFlag (.cvtIntFloat dst sgn w rm d a) d
    (fun rd => convert (wbits w) (fbits dst) (fun x => ofIntV (fpOf dst) rm (if sgn then sInt (wbits w) x else (x : Int))) (rd a)) s
/-- cvt to an integer (R160). -/
def execCvtFloatInt (sgn : Bool) (w : Width) (src : Fmt) (rm : Rm) (d a : Reg) (s : State) : Out :=
  vecFlag (.cvtFloatInt sgn w src rm d a) d
    (fun rd => convert (fbits src) (wbits w) (fun x => toIntV rm sgn (wbits w) (unpack (fpOf src) x)) (rd a)) s

/-- Value i of the sixteen of a group of eight registers (R161). -/
def groupF32 (t : Train) (i : Nat) (a : Reg) (k : Nat) : Nat := subN (readReg t i (a + BitVec.ofNat 7 (k / 2))) 32 (k % 2)
/-- The number that a group of n registers holds. -/
def groupN (t : Train) (i : Nat) (a : Reg) (n : Nat) : Nat :=
  packNat 64 (fun j => (readReg t i (a + BitVec.ofNat 7 j)).toNat) n
/-- Writes a group of registers of a slot. -/
def writeGroup (t : Train) (x : Slot) (d : Reg) (l : List Word) : Slot := putRegs x (wIdx t d) l
/-- cvt.bxN.f32: pack (R161). -/
def execCvtBxPack (bx : Bx) (d a : Reg) (s : State) : Out :=
  runIns (.cvtBxPack bx d a) s (fun s iss t m =>
    let r := fun (i : Nat) => bxPack (bxM bx) (groupF32 t i a)
    settle s iss { mapSlots t (fun i x =>
      if inMask m i then writeGroup t x d ((List.range (bxRegs bx)).map (fun j => BitVec.ofNat 64 ((r i).1 / 2 ^ (64 * j)))) else x)
      with fflags := t.fflags ||| orFlags ((slotsOf m).map (fun i => (r i).2)) } [])
/-- cvt.f32.bxN: unpack, with no flag (R161). -/
def execCvtBxUnpack (bx : Bx) (d a : Reg) (s : State) : Out :=
  runIns (.cvtBxUnpack bx d a) s (fun s iss t m =>
    settle s iss (mapSlots t (fun i x =>
      if inMask m i then
        let blk := groupN t i a (bxRegs bx)
        writeGroup t x d ((List.range 8).map (fun j =>
          BitVec.ofNat 64 (bxUnpack (bxM bx) blk (2 * j) + bxUnpack (bxM bx) blk (2 * j + 1) * 2 ^ 32)))
      else x)) [])
/-- sfu.rcp (R164). -/
def execSfuRcp (f : Fmt) (d a : Reg) (s : State) : Out :=
  vecFlag (.sfuRcp f d a) d (fun rd => fmap f (fun i => sfuV f 0 (fpat f (rd a) i))) s
/-- sfu.rsqrt (R164). -/
def execSfuRsqrt (f : Fmt) (d a : Reg) (s : State) : Out :=
  vecFlag (.sfuRsqrt f d a) d (fun rd => fmap f (fun i => sfuV f 1 (fpat f (rd a) i))) s
/-- sfu.sqrt (R164). -/
def execSfuSqrt (f : Fmt) (d a : Reg) (s : State) : Out :=
  vecFlag (.sfuSqrt f d a) d (fun rd => fmap f (fun i => sfuV f 2 (fpat f (rd a) i))) s
/-- sfu.exp2 (R164). -/
def execSfuExp2 (f : Fmt) (d a : Reg) (s : State) : Out :=
  vecFlag (.sfuExp2 f d a) d (fun rd => fmap f (fun i => sfuV f 3 (fpat f (rd a) i))) s
/-- sfu.log2 (R164). -/
def execSfuLog2 (f : Fmt) (d a : Reg) (s : State) : Out :=
  vecFlag (.sfuLog2 f d a) d (fun rd => fmap f (fun i => sfuV f 4 (fpat f (rd a) i))) s
/-- sfu.sinpi (R164). -/
def execSfuSinpi (f : Fmt) (d a : Reg) (s : State) : Out :=
  vecFlag (.sfuSinpi f d a) d (fun rd => fmap f (fun i => sfuV f 5 (fpat f (rd a) i))) s
/-- sfu.cospi (R164). -/
def execSfuCospi (f : Fmt) (d a : Reg) (s : State) : Out :=
  vecFlag (.sfuCospi f d a) d (fun rd => fmap f (fun i => sfuV f 6 (fpat f (rd a) i))) s
/-- sfu.twd (R165). -/
def execSfuTwd (d a b : Reg) (s : State) : Out :=
  vecFlag (.sfuTwd d a b) d
    (fun rd => let r := sfuTwdV (subN (rd a) 32 0) (subN (rd b) 32 0); (BitVec.ofNat 64 r.1, r.2)) s

end Sys2Proof.Machine
end

