-- ==== Sys2Proof/Machine/Engine.lean ====
section
/-! DEFINITION. The copy engine at work: starting commands, landing their data, completion and failure (spec/09 R237, R254 to
R261, spec/11 R276; log 16). -/

namespace Sys2Proof.Machine

/-! Ends of commands. -/

/-- Ranges freed before their commands had ended go once the last such command or task is done (R221). -/
def sweepDraining (s : State) (team : Nat) : State :=
  match findTeam s team with
  | none => s
  | some tm =>
    if tm.draining.isEmpty then s
    else
      let ids := (teamCmds s team).map (·.id) ++ (teamTasks s team).map (·.id)
      reconsider (setTeam s { tm with draining := tm.draining.filter (fun a => ids.any (fun i => decide (i < a.num))) })
/-- Offset that a completion item carries: free where there is no object (log 25). -/
def itemOff (s : State) (obj : Option Nat) : Nat := obj.getD (Config.openInfo s.tick).toNat
/-- The engine has done with a command: others may leave the queue (R259). -/
def cmdGone (s : State) (c : Cmd) : State := postOnce (sweepDraining (dropEng (delCmd s c.id) c.id) c.team) (.copyStart c.core)
/-- An engine's read of an expired LAPSE granule sets the flag when its completion is written (R225). -/
def cmdLapse (s : State) (c : Cmd) : State :=
  if c.lapse then modTrain s c.tr (fun t => { t with lapsed := true }) else s
/-- A command completes: increments, presence, successor, count, completion item (R246, R256, R276, R402). -/
def cmdDone (s : State) (c : Cmd) (total succ : Nat) : State :=
  let s := landLines (sectIncs s c.team c.sects) c.team c.id c.lines
  let s := decSucc (cmdLapse (delCmd s c.id) c) c.team c.core succ
  let s := match c.obj with
    | some o => objCount s c.team o total c.tag
    | none => s
  let s := if ((c.desc.map (postBit c.fn)).getD false) then postItem s c.tr total 0 (itemOff s c.obj) else s
  cmdGone s c
/-- Half-sectors of scratch that a command had yet to write. -/
def cmdRest (c : Cmd) : List Nat :=
  if c.lines.isEmpty then [] else
  match c.desc with
  | none => []
  | some bs =>
    let halves := fun (ls : List Nat) => ls.flatMap (fun l => [2 * l, 2 * l + 1])
    match c.fn with
    | .copy | .fill =>
      let d := copyRaw (c.fn == .fill) bs
      nub ((List.range (d.count - c.pos)).flatMap (fun k =>
        let o := d.dstOff (c.pos + k)
        (List.range d.e).map (fun i => (o + i) / 32)))
    | .pfill => halves (c.lines.drop c.pos)
    | .ring => halves c.lines
    | .wld => []
/-- A command fails (R261): poison where it had yet to write, presence, the increments of what it wrote, and its report. -/
def cmdFailed (s : State) (id code : Nat) : State :=
  match findCmd s id with
  | none => s
  | some c => match findTeam s c.team with
    | none => delCmd s id
    | some tm =>
      let hs := (cmdRest c).filter (fun h => c.lines.contains (h / 2) && inScratchFor tm id (32 * h) 32)
      let s := landLines (scrPoison (sectIncs s c.team c.sects) c.team hs) c.team id c.lines
      let s := cmdLapse s c
      let s := match c.obj with
        | some o => objFail s c.team o code c.tag
        | none => failRecord s c.core tm.ctx code
      let s := if ((c.desc.map (postBit c.fn)).getD false) then postItem s c.tr 0 code (itemOff s c.obj) else s
      cmdGone s c
/-- COMMAND_FAIL (R261). -/
def execCommandFail (id code : Nat) (s : State) : Out := .next (cmdFailed s id code)

/-! Starting (R237, R254, R259). -/

/-- Every write that a command comes after has been performed at device scope (R322). -/
def needMet (s : State) (c : Cmd) : Bool := c.need.all (fun i => !s.reqs.any (fun r => r.id == i && isWrite r && !r.acked))
/-- Where a team's queued commands may start: not while it is halted or out (R390). -/
def teamHere (s : State) (team : Nat) : Bool := ((findTeam s team).map (fun tm => tm.life == .resident)).getD false
/-- The command that leaves a queue next: pfill first, then in issue order. -/
def nextCmd (s : State) (core : Nat) : Option Cmd :=
  let q := (queuedCmds s core).filter (fun c => teamHere s c.team)
  match q.find? (fun c => c.fn == .pfill) with
  | some c => some c
  | none => q.head?
def runningCmds (s : State) (core : Nat) : List Cmd := s.cmds.filter (fun c => c.core == core && c.stage == .running)
/-- A command whose descriptor has been read goes to work, or fails at once. -/
def cmdBegin (s : State) (c : Cmd) (bs : List Byte) : State :=
  match c.fn with
  | .copy | .fill => match copyD (c.fn == .fill) bs with
    | none => post s (.commandFail c.id 6)
    | some d => post s (if 2 ^ 32 ≤ d.total then .commandFail c.id 10 else .copyComplete c.id)
  | .pfill => post s (if (pfillD bs).isNone then .commandFail c.id 6 else .pfillLineLand c.id)
  | .ring => post s (if (ringD bs).isNone then .commandFail c.id 6 else .ringRotationStart c.id)
  | .wld => match wldD bs, (findTeam s c.team) with
    | some d, some tm => match resvOf tm d.res with
      | none => post s (.commandFail c.id 32)
      | some r => post s (if r.len < d.dst + d.rows * d.rowb then .commandFail c.id 41 else .wldComplete c.id)
    | _, _ => post s (.commandFail c.id 6)
/-- The descriptor is there: its lines are cleared, or the command is set aside until they have room, and its place in the engine is
another's (R237, R259). -/
def cmdClear (s : State) (c : Cmd) (bs : List Byte) : State :=
  let ls := destLines c.fn bs
  match findTeam s c.team with
  | none => s
  | some tm =>
    if ls.all (lineRoom tm) then
      cmdBegin (modCmd (modTeam s tm.id (fun tm => clearLines tm c.id ls)) c.id (fun c =>
        { c with desc := some bs, lines := ls, stage := .running })) c bs
    else postOnce (post (modCmd s c.id (fun c => { c with desc := some bs, stage := .aside })) (.copySetasideResume c.core)) (.copyStart c.core)
/-- A command has left the queue: a descriptor in device memory is read (R254), once its translation is there. -/
def cmdDesc (s : State) (c : Cmd) : State :=
  match c.desc with
  | some bs => cmdBegin s c bs
  | none => match findTeam s c.team with
    | none => s
    | some tm => match engLook s c.id c.core tm.ctx 0 (fld c.loc 0 63) (descLen c.fn) accRead with
      | (.bad t, s) => post s (.commandFail c.id (if t = 2 then 5 else 3))
      | (.wait, s) => post s (.copyComplete c.id)
      | (.ok kv, s) =>
        let s' := noteHalves s c.core tm.ctx 0 (nub (kv.map (fun p => p.1 / 32)))
        match readDie s (dieOf c.core) kv with
        | .bad d => post s' (.commandFail c.id (d + 1))
        | .ok bs => cmdClear (noteHbm s' tm.ctx c.team (kv.map (·.1))) c bs
/-- The oldest command set aside that can be taken up again, with its descriptor (R237). -/
def asideReady (s : State) (core : Nat) : Option (Cmd × List Byte) :=
  s.cmds.findSome? (fun c => match findTeam s c.team, c.desc with
    | some tm, some bs =>
      if c.core == core && c.stage == .aside && tm.life == .resident && (destLines c.fn bs).all (lineRoom tm) then some (c, bs) else none
    | _, _ => none)
/-- COPY_START (R259): a command set aside that can be taken up again goes ahead of those that queue (R237). -/
def copyStarted (s : State) (core : Nat) : State :=
  if 8 ≤ (runningCmds s core).length then s
  else match asideReady s core with
  | some (c, bs) => cmdClear (postOnce s (.copyStart core)) c bs
  | none => match nextCmd s core with
    | none => s
    | some c =>
      if !needMet s c then s
      else
        let s := wakePorts (modCmd s c.id (fun c => { c with stage := .running })) (fun t g => t.core == core && g == .copyCmd)
        let s := if (queuedCmds s core).isEmpty then s else postOnce s (.copyStart core)
        cmdDesc s c
@[inherit_doc copyStarted] def execCopyStart (core : Nat) (s : State) : Out := .next (copyStarted s core)
/-- COPY_SETASIDE_RESUME (R237): the oldest command set aside whose lines have room is taken up again. -/
def execCopySetasideResume (core : Nat) (s : State) : Out :=
  .next (if !s.cmds.any (fun c => c.core == core && c.stage == .aside) then s
    else
      let s := postOnce s (.copySetasideResume core)
      match asideReady s core with
      | some (c, bs) => if (runningCmds s core).length < 8 then cmdClear s c bs else s
      | none => s)

/-! Reading and writing by an engine. -/

/-- What an access by an engine finds: bytes, a wait, or a failure code; the state carries the records that it makes. -/
inductive EngRd where
  | ok (bs : List Byte) (lapsed : Bool)
  | wait
  | fail (code : Nat)
/-- Failure code of a read fault: poison, uncorrectable or an expired STRICT granule (R260). -/
def readCode (d : Nat) : Nat := if d = 2 then 8 else d + 1
/-- A byte that the command itself has written is read with its old value: one of the two, free (R256). -/
def readsOld (s : State) (c : Cmd) (k : Nat) : Bool := c.wrote.contains k && Config.copyOld s.tick k
/-- The byte that an old value gives a read under a key version (R256, R438); none for an uncorrectable error. -/
def oldByte (s : State) (c : Cmd) (k ver : Nat) : Option Byte :=
  let v := aget 0 c.oldk k
  if v = 0 ∨ v = ver then some (cget c.olds k) else Config.wrongKey s.tick k
/-- The bytes of a read, each location under its key version, that the command itself may have written: old or new (R256). -/
def mixOld (s : State) (c : Cmd) (kv : List (Nat × Nat)) (bs : List Byte) : Option (List Byte) :=
  allSome ((kv.zip bs).map (fun p => if readsOld s c p.1.1 then oldByte s c p.1.1 p.1.2 else some p.2))
/-- An old value is read in a granule that had expired: STRICT or LAPSE (R223). -/
def oldExpired (s : State) (c : Cmd) (ks : List Nat) (strict : Bool) : Bool :=
  ks.any (fun k => readsOld s c k && afind c.oldx k == some strict)
/-- Reads scratch for a command. -/
def engScrRead (s : State) (c : Cmd) (tm : Team) (off n : Nat) : EngRd × State :=
  if !linesIn tm c.id off n then (.fail 7, s)
  else if (linesOf off n).any (lineHolds tm c.id) then (.wait, s)
  else
    let s' := noteScrRead s tm off n
    let ks := (List.range n).map (fun i => scrKey tm.id (off + i))
    match scrRead s.now tm off n with
    | (.bad d, _) => (.fail (readCode d), s')
    | (.ok bs, l) =>
      if oldExpired s c ks true then (.fail 8, s')
      else match mixOld s c (ks.map (fun k => (k, 0))) bs with
        | none => (.fail 2, s')
        | some bs => (.ok bs (l || oldExpired s c ks false), s')
/-- Reads device memory for a command, as the other agents of its die do (R314). -/
def engDevRead (s : State) (c : Cmd) (ctx span off n : Nat) : EngRd × State :=
  match engLook s c.id c.core ctx span off n accRead with
  | (.bad t, s) => (.fail (if t = 2 then 5 else 3), s)
  | (.wait, s) => (.wait, s)
  | (.ok kv, s) =>
    let s' := noteHalves s c.core ctx span (nub (kv.map (fun p => p.1 / 32)))
    match readDie s (dieOf c.core) kv with
    | .bad d => (.fail (readCode d), s')
    | .ok bs => match mixOld s c kv bs with
      | none => (.fail 2, s')
      | some bs => (.ok bs false, noteHbm s' ctx c.team (kv.map (·.1)))
def engRead (s : State) (c : Cmd) (tm : Team) (scr : Bool) (span off n : Nat) : EngRd × State :=
  if scr then engScrRead s c tm off n else engDevRead s c tm.ctx span off n

/-- What a write by an engine comes to. -/
inductive EngWr where
  | ok (s : State)
  | wait (s : State)
  | fail (s : State) (code : Nat)
/-- A half-sector with an uncorrectable error is written in part (R260 code 11, R445). -/
def badPart (conds : List (Nat × HalfCond)) (ks : List Nat) : Bool :=
  (nub (ks.map (· / 32))).any (fun h => aget .clean conds h == .bad && decide ((ks.filter (fun k => k / 32 == h)).length < 32))
/-- Notes what a command has written, with the bytes that stood there; `ex` gives those in expired granules. -/
def noteOld (c : Cmd) (kos : List (Nat × Byte)) (ex : List (Nat × Bool)) : Cmd :=
  let new := kos.filter (fun p => !c.wrote.contains p.1)
  { c with
    wrote := c.wrote ++ new.map (·.1), olds := csetAt c.olds new
    oldx := c.oldx ++ ex.filter (fun p => !c.wrote.contains p.1) }
/-- The bytes of scratch that a write replaces: zero in a granule that has expired (R223, R256). -/
def scrOlds (now : Nat) (tm : Team) (offs : List Nat) : List (Nat × Byte) × List (Nat × Bool) :=
  let l := offs.map (fun o => (o, expired now tm (o / 256)))
  (l.map (fun p => (scrKey tm.id p.1, if p.2.isSome then 0#8 else cget tm.scratch p.1)),
    l.filterMap (fun p => p.2.map (fun b => (scrKey tm.id p.1, b))))
/-- Writes scratch for a command. DESIGN CHOICE (log 60): each element is a write of its own, which keeps the poison of a
half-sector that it does not write whole (R234, R256). -/
def engScrWrite (s : State) (c : Cmd) (tm : Team) (off : Nat) (bs : List Byte) : EngWr :=
  if !linesIn tm c.id off bs.length then .fail s 7
  else
    let offs := (List.range bs.length).map (fun i => off + i)
    let o := scrOlds s.now tm offs
    let s' := modCmd (scrWrite s tm.id (offs.zip bs)) c.id (fun c => noteOld c o.1 o.2)
    if badPart (revived s.now tm offs).scond offs then .fail s' 11 else .ok s'
/-- Writes device memory at its home, once the way there is free (R314, R320). -/
def engDevWrite (s : State) (c : Cmd) (ctx span off : Nat) (bs : List Byte) : EngWr :=
  match engLook s c.id c.core ctx span off bs.length accWrite with
  | (.bad t, s) => .fail s (if t = 2 then 5 else 4)
  | (.wait, s) => .wait s
  | (.ok kv, s) =>
    let ks := kv.map (·.1)
    if !engineMay s (dieOf c.core) ks then .wait s
    else
      let s' := modCmd (writeKeyed (noteHbm (unclock s ks) ctx c.team ks) ⟨c.core, ctx, span⟩ kv bs) c.id (fun c =>
        { noteOld c (ks.map (fun k => (k, cget s.mem k))) [] with
          oldk := c.oldk ++ (ks.filter (fun k => !c.wrote.contains k)).map (fun k => (k, if 2 ^ 52 ≤ k then 0 else aget 0 s.mkey (k / 64)))
          sects := nub (c.sects ++ (sectorsOf ctx span off bs.length).map (·.2)) })
      if badPart s.mcond ks then .fail s' 11 else .ok s'
def engWrite (s : State) (c : Cmd) (tm : Team) (scr : Bool) (span off : Nat) (bs : List Byte) : EngWr :=
  if scr then engScrWrite s c tm off bs else engDevWrite s c tm.ctx span off bs

/-- Bytes that the copy engine moves for a command are activity of its context, and so are their lines in scratch (R384, R457). -/
def noteMoved (s : State) (c : Cmd) (tm : Team) (n lines : Nat) : State :=
  noteTok s { coreTok tm.ctx c.team c.core with bytes := n, lines := lines }

/-! Copy and fill (R256). -/

/-- The element of a fill. -/
def fillBytes (d : CopyD) : List Byte := ((bytesN 8 d.src) ++ (bytesN 8 d.src)).take d.e
/-- Lands element `pos`. -/
def copyElem (s : State) (c : Cmd) (tm : Team) (d : CopyD) : EngWr :=
  let src := if c.fn = .fill then (EngRd.ok (fillBytes d) false, s) else engRead s c tm d.sscr d.sspan (d.srcOff c.pos) d.e
  match src with
  | (.wait, s) => .wait s
  | (.fail code, s) => .fail s code
  | (.ok bs l, s) =>
    match engWrite s c tm d.dscr d.dspan (d.dstOff c.pos) bs with
    | .ok s =>
      let ls := (if c.fn = .copy ∧ d.sscr then (linesOf (d.srcOff c.pos) d.e).length else 0) +
        (if d.dscr then (linesOf (d.dstOff c.pos) d.e).length else 0)
      .ok (modCmd (noteMoved s c tm d.e ls) c.id (fun c => { c with pos := c.pos + 1, lapse := c.lapse || l }))
    | r => r
/-- Lines whose last element has landed become present (R237). -/
def landSome (s : State) (id : Nat) (d : CopyD) : State :=
  match findCmd s id with
  | none => s
  | some c =>
    let rest := nub ((List.range (d.count - c.pos)).flatMap (fun k => linesOf (d.dstOff (c.pos + k)) d.e))
    let ls := c.lines.filter (fun l => !rest.contains l)
    landLines (modCmd s id (fun c => { c with lines := c.lines.filter (fun l => rest.contains l) })) c.team id ls
/-- Lands up to a number of elements, and completes after the last. -/
def copyRun (id : Nat) (d : CopyD) : Nat → State → State
  | 0, s => post (if d.dscr then landSome s id d else s) (.copyComplete id)
  | n + 1, s =>
    match findCmd s id with
    | none => s
    | some c => match findTeam s c.team with
      | none => delCmd s id
      | some tm =>
        if d.count ≤ c.pos then cmdDone s c d.total 0
        else match copyElem s c tm d with
          | .ok s => copyRun id d n s
          | .wait s => post (if d.dscr then landSome s id d else s) (.copyComplete id)
          | .fail s code => post s (.commandFail id code)
/-- COPY_COMPLETE (R256): elements land, a free number of them in one step, and the command completes with the last. -/
def execCopyComplete (id : Nat) (s : State) : Out :=
  .next (match findCmd s id with
    | none => s
    | some c => if c.desc.isNone then cmdDesc s c else match (c.desc.bind (copyD (c.fn == .fill))) with
      | none => post s (.commandFail id 6)
      | some d => copyRun id d (2 + Config.copyBurst s.tick % d.count) s)

/-! pfill (R257). -/

/-- PFILL_LINE_LAND: one line lands and becomes present. -/
def execPfillLineLand (id : Nat) (s : State) : Out :=
  .next (match findCmd s id with
    | none => s
    | some c => match findTeam s c.team, c.desc.bind pfillD with
      | some tm, some d =>
        match engDevRead s c tm.ctx d.sspan ((d.src + 64 * c.pos) % 2 ^ 64) 64 with
        | (.wait, s) => post s (.pfillLineLand id)
        | (.fail code, s) => post s (.commandFail id code)
        | (.ok bs _, s) => match engScrWrite s c tm (d.dst + 64 * c.pos) bs with
          | .wait s => post s (.pfillLineLand id)
          | .fail s code => post s (.commandFail id code)
          | .ok s =>
            let s := landLines (modCmd (noteMoved s c tm 64 1) id (fun c => { c with pos := c.pos + 1 })) c.team id [d.dst / 64 + c.pos]
            post s (if c.pos + 1 < d.lines then .pfillLineLand id else .pfillComplete id)
      | _, _ => delCmd s id)
/-- PFILL_COMPLETE: its bytes are counted. -/
def execPfillComplete (id : Nat) (s : State) : Out :=
  .next (match findCmd s id with
    | none => s
    | some c => match c.desc.bind pfillD with
      | some d => cmdDone s c (64 * d.lines) 0
      | none => s)

/-! acp.ring (R258). -/

/-- The teams of a command's formation, by ring position; one that is being killed has left. -/
def ringTeams (s : State) (tm : Team) : List Team :=
  s.teams.filter (fun o => tm.form.isSome && o.form == tm.form && o.life != .dying true && o.life != .dying false)
/-- The command of a team in a rotation. -/
def ringCmd (s : State) (o : Team) (rot : Nat) : Option Cmd := s.cmds.find? (fun c => c.fn == .ring && c.team == o.id && c.rot == rot)
/-- A command stands ready in its rotation, its descriptor read. -/
def ringUp (c : Cmd) : Bool := c.stage == .running && ((c.desc.bind ringD).isSome)
/-- The neighbour that sends to a position. -/
def ringFrom (p : Nat) (dir : Bool) : Nat := if dir then (p + 1) % 8 else (p + 7) % 8
/-- Each core's source is read, and handed to the command that receives it; a source that fails takes both with it (log 16). -/
def ringSend (s : State) (ts : List Team) (c : Cmd) : State :=
  match findTeam s c.team, c.desc.bind ringD with
  | some tm, some d =>
    let peer := (ts.find? (fun o => posOf o.core == ringFrom (posOf tm.core) d.dir))
    match peer, peer.bind (fun o => ringCmd s o c.rot) with
    | some o, some pc => match pc.desc.bind ringD with
      | none => s
      | some pd => match engScrRead s pc o pd.src pd.bytes with
        | (.ok bs l, s) =>
          post (modCmd (modCmd s pc.id (fun k => { k with lapse := k.lapse || l })) c.id (fun k =>
            { k with pos := 1, olds := csetAll [] 0 bs })) (.ringRotationComplete c.id)
        | (.fail code, s) =>
          post (post (modCmd s c.id (fun k => { k with pos := 1 })) (.commandFail pc.id code)) (.commandFail c.id code)
        | (.wait, s) => s
    | _, _ => s
  | _, _ => s
/-- A source line of the rotation is not present. -/
def ringHeld (s : State) (c : Cmd) : Bool :=
  match findTeam s c.team, c.desc.bind ringD with
  | some tm, some d => (linesOf d.src d.bytes).any (lineHolds tm c.id)
  | _, _ => false
/-- RING_ROTATION_START: the rotation starts when all eight commands are there and agree. DESIGN CHOICE (log 60): where one of the
eight has failed by itself the others fail as a mismatch does, with code 13. -/
def ringStarted (s : State) (id : Nat) : State :=
  match findCmd s id with
  | none => s
  | some c => match findTeam s c.team with
    | none => delCmd s id
    | some tm =>
      if c.pos ≠ 0 then s
      else
        let ts := ringTeams s tm
        let cs := ts.filterMap (fun o => ringCmd s o c.rot)
        let joined := ts.all (fun o => decide (c.rot < o.rings))
        if ts.length < 8 then post s (.commandFail id 14)
        else if !joined ∨ !(cs.all ringUp) then post s (.ringRotationStart id)
        else
          let same := cs.all (fun k => match k.desc.bind ringD, c.desc.bind ringD with
            | some a, some b => a.dir == b.dir && a.bytes == b.bytes
            | _, _ => false)
          if cs.length < 8 ∨ !same then cs.foldl (fun s k => post (modCmd s k.id (fun k => { k with pos := 1 })) (.commandFail k.id 13)) s
          else if cs.any (ringHeld s) then post s (.ringRotationStart id)
          else cs.foldl (fun s k => ringSend s ts k) s
@[inherit_doc ringStarted] def execRingRotationStart (id : Nat) (s : State) : Out := .next (ringStarted s id)
/-- RING_ROTATION_COMPLETE: the command's destination has received its bytes. -/
def execRingRotationComplete (id : Nat) (s : State) : Out :=
  .next (match findCmd s id with
    | none => s
    | some c => match findTeam s c.team, c.desc.bind ringD with
      | some tm, some d =>
        -- a command that is to fail counts nothing
        if s.agenda.any (fun i => match i with
          | .commandFail j _ => j == id
          | _ => false) then s
        else match engScrWrite s c tm d.dst (cgetAll c.olds 0 d.bytes) with
        | .ok s => cmdDone (noteMoved s c tm d.bytes ((linesOf d.src d.bytes).length + (linesOf d.dst d.bytes).length)) c d.bytes 0
        | .fail s code => post s (.commandFail id code)
        | .wait s => s
      | _, _ => delCmd s id)

/-! mx.wld (R276). -/

/-- The bytes of a reservation take a row, a part of their half-sectors or the whole (R234, R445). -/
def resvWrite (r : Resv) (off : Nat) (bs : List Byte) : Resv :=
  let hs := (List.range ((off + bs.length + 31) / 32 - off / 32)).map (fun i => off / 32 + i)
  { r with
    bytes := csetAll r.bytes off bs
    cond := hs.foldl (fun l h => setCond l h (condWrite (aget .clean l h)
      (decide (off ≤ 32 * h ∧ 32 * h + 32 ≤ off + bs.length)))) r.cond }
/-- Lands up to a number of rows. -/
def wldRun (id : Nat) (d : WldD) : Nat → State → State
  | 0, s => post s (.wldComplete id)
  | n + 1, s =>
    match findCmd s id with
    | none => s
    | some c => match findTeam s c.team with
      | none => delCmd s id
      | some tm =>
        if d.rows ≤ c.pos then cmdDone s c (d.rows * d.rowb) d.succ
        else match engRead s c tm d.sscr d.sspan ((d.src + c.pos * d.strd) % 2 ^ 64) d.rowb with
          | (.wait, s) => post s (.wldComplete id)
          | (.fail code, s) => post s (.commandFail id code)
          | (.ok bs l, s) =>
            let s := modTeam s c.team (fun tm => { tm with resv := tm.resv.map (fun r =>
              if r.num = d.res then resvWrite r (d.dst + c.pos * d.rowb) bs else r) })
            wldRun id d n (modCmd (noteMoved s c tm d.rowb (if d.sscr then (linesOf (d.src + c.pos * d.strd) d.rowb).length else 0)) id (fun c => { c with pos := c.pos + 1, lapse := c.lapse || l }))
/-- WLD_COMPLETE (R276): rows land, a free number of them in one step, and the command completes with the last. -/
def execWldComplete (id : Nat) (s : State) : Out :=
  .next (match findCmd s id with
    | none => s
    | some c => match c.desc.bind wldD with
      | none => post s (.commandFail id 6)
      | some d => wldRun id d (2 + Config.copyBurst s.tick % d.rows) s)

end Sys2Proof.Machine
end

