-- ==== Sys2Proof/Machine/MxNum.lean ====
section
/-! DEFINITION. The arithmetic of a matrix cell: stored blocks, the sum of R62, and cp32 (spec/02 R60 to R64, spec/11 R269 to
R271). -/

namespace Sys2Proof.Machine

/-- Width of a stored code: sixteen bits for f16 and bf16, else the sign and M magnitude bits. -/
def codeBits (fmt : Nat) : Nat :=
  if fmt = 12 then 3 else if fmt = 13 then 5 else if fmt = 14 then 8 else 16
/-- Bits of a stored block before its codes, the mask apart. -/
def headBits (fmt : Nat) : Nat := if fmt < 12 then 0 else 16
/-- Bits set among those of a mask group below element `t`. -/
def maskBelow (mask g t : Nat) : Nat := sumN ((List.range t).map (fun u => bitsN mask (4 * g + u) 1))
/-- A pair-sparse block expanded to the dense one (R270); none where a group names three elements or more. -/
def expandBlock (fmt blk : Nat) : Option Nat :=
  let h := headBits fmt
  let w := codeBits fmt
  let mask := bitsN blk h 16
  if (List.range 4).any (fun g => decide (2 < maskBelow mask g 4)) then none
  else
    some (blk % 2 ^ h + packNat w (fun i =>
      let g := i / 4
      if bitsN mask i 1 = 1 then bitsN blk (h + 16 + w * (2 * g + maskBelow mask g (i % 4))) w else 0) 16 * 2 ^ h)
/-- Multiplies a value by 2^n. -/
def scaleV (n : Int) : FVal → FVal
  | .fin s m e => .fin s m (e + n)
  | v => v
/-- The sixteen values of a dense block, scaled (R53, R54, R271). -/
def blockVals (fmt : Nat) (sadj : Int) (blk : Nat) : List FVal :=
  (List.range 16).map (fun i => scaleV sadj (
    if fmt = 8 then unpack (fpOf .f16) (bitsN blk (16 * i) 16)
    else if fmt = 9 then unpack (fpOf .bf16) (bitsN blk (16 * i) 16)
    else bxVal (codeBits fmt - 1) blk i))
/-- The exact sum of products: a NaN, an infinity, or a number; an exact zero is +0 (R62, R63). -/
def dotV (a b : List FVal) : FVal :=
  (a.zip b).foldl (fun acc p => match prodV p.1 p.2 with
    | none => .nan false
    | some z => match acc, z with
      | .nan s, _ => .nan s
      | _, .nan s => .nan s
      | .inf x, .inf y => if x = y then .inf x else .nan false
      | .inf x, _ => .inf x
      | _, .inf y => .inf y
      | .fin n m e, .fin n' m' e' => match sumV .rn n m e n' m' e' with
        | .fin s k q => .fin (s && decide (k ≠ 0)) k q
        | v => v) (.fin false 0 0)
/-- One block step in fa26: part := rn(part + rn(d)). -/
def partStep (part : Nat) (d : FVal) : Nat :=
  (addV fpFa26 .rn (unpack fpFa26 part) (unpack fpFa26 (deliver fpFa26 .rn d).1)).1
/-- promote in fa26 mode. -/
def promoteF (acc part : Nat) : Nat := (addV (fpOf .f32) .rn (unpack (fpOf .f32) acc) (unpack fpFa26 part)).1
/-- The sum of two values, exact; used where neither is a NaN or infinity. -/
def exactAdd (x y : FVal) : FVal :=
  match x, y with
  | .fin n m e, .fin n' m' e' => sumV .rn n m e n' m' e'
  | _, _ => .nan false
/-- promote in cp32 mode, on (sum, comp). -/
def promoteC (acc : Nat × Nat) (part : Nat) : Nat × Nat :=
  let f := unpack (fpOf .f32)
  let y := (addV (fpOf .f32) .rn (unpack fpFa26 part) (f acc.2)).1
  let t := (addV (fpOf .f32) .rn (f acc.1) (f y)).1
  match f t with
  | .fin _ _ _ => (t, (deliver (fpOf .f32) .rn (exactAdd (exactAdd (f acc.1) (f y)) (negV (f t)))).1)
  | _ => (t, 0)
/-- The value of one output element by the order of R62: `ab` are its K pairs of blocks, in order. -/
def cellSum (cp : Bool) (P : Nat) (init : Nat) (ab : List (List FVal × List FVal)) : Nat × Nat :=
  let K := ab.length
  ((ab.zipIdx).foldl (fun (st : (Nat × Nat) × Nat) p =>
    let part := partStep st.2 (dotV p.1.1 p.1.2)
    if (p.2 + 1) % P = 0 ∨ p.2 + 1 = K then
      ((if cp then promoteC st.1 part else (promoteF st.1.1 part, 0)), 0)
    else (st.1, part)) ((init, 0), 0)).1
/-- cp32 read as one f32 (R61). -/
def cpRead (v : Nat × Nat) : Nat := (addV (fpOf .f32) .rn (unpack (fpOf .f32) v.1) (unpack (fpOf .f32) v.2)).1

end Sys2Proof.Machine
end

