-- ==== Sys2Proof/Machine/Matrix.lean ====
section
/-! DEFINITION. Tile tasks at work: starting, tiles, add-on-store units, completion and failure (spec/11 R281 to R293, spec/24
R449). -/

namespace Sys2Proof.Machine

/-! Ends of tasks (R290, R291). -/

/-- The scheduler of a core looks at its queue again. -/
def taskGone (s : State) (k : Task) : State :=
  postOnce (sweepDraining (dropEng (delTask s k.id) k.id) k.team) (.taskStart k.core)
/-- Elements (row, column) of the output in the order of R287, from a place in it on: `at0` counts rows of tiles. -/
def elemsFrom (r : Rec) (at0 : Nat) : List (Nat × Nat) :=
  (List.range (r.N * r.M * 64 - at0)).flatMap (fun x =>
    let row := at0 + x
    let tile := row / 64
    (List.range 64).map (fun j => (64 * (tile % r.M) + row % 64, 64 * (tile / r.M) + j)))
/-- Half-sectors of scratch that a task had yet to write. -/
def taskRest (tm : Team) (k : Task) (r : Rec) : List Nat :=
  if r.dscr then
    let pend := k.units.flatMap (fun u => u.flatMap (fun e => e.keys.map (fun a => (a - scrKey tm.id 0) / 32)))
    nub (pend ++ ((elemsFrom r k.tile).drop k.cols).flatMap (fun e =>
      let o := cellOff r e.1 e.2
      (List.range (elemBytes r)).map (fun i => (o + i) / 32)))
  else []
/-- A task of a killed team: what it had sent has landed, and nothing of it is reported (R293). -/
def taskStopped (s : State) (k : Task) : State := taskGone (sectIncs s k.team k.sects) k
/-- The team of a task is being killed. -/
def Team.isDying (tm : Team) : Bool := tm.life == .dying true || tm.life == .dying false
/-- Some byte of a scratch line is still to be written by a task (R237). -/
def linePending (tm : Team) (k : Task) (r : Rec) (l : Nat) : Bool :=
  k.units.any (fun u => u.any (fun e => (e.keys.headD 0 - scrKey tm.id 0) / 64 == l || (e.keys.headD 0 + 3 - scrKey tm.id 0) / 64 == l)) ||
  ((elemsFrom r k.tile).drop k.cols).any (fun e => (linesOf (cellOff r e.1 e.2) (elemBytes r)).contains l)
/-- Lines that a task has written for the last time become present (R237, R288). -/
def taskLand (s : State) (id : Nat) (r : Rec) (ls : List Nat) : State :=
  match findTask s id with
  | none => s
  | some k => match findTeam s k.team with
    | none => s
    | some tm =>
      let dn := ls.filter (fun l => k.lines.contains l && !linePending tm k r l)
      if dn.isEmpty then s
      else landLines (modTask s id (fun k => { k with lines := k.lines.filter (fun l => !dn.contains l) })) k.team id dn
/-- TASK_FAIL (R291); of a killed team's task the units that it has sent still land (R293). -/
def execTaskFail (id code : Nat) (s : State) : Out :=
  .next (match findTask s id with
    | none => s
    | some k => match findTeam s k.team with
      | none => delTask s id
      | some tm =>
        if tm.isDying then (if k.units.isEmpty then taskStopped s k else s) else
        let r := recOf k.snap
        let s := recordPut s k.team tm.ctx k.loc (fun w => recState w 5 code)
        let hs := (taskRest tm k r).filter (fun h => k.lines.contains (h / 2) && inScratchFor tm id (32 * h) 32)
        let s := landLines (scrPoison (sectIncs s k.team k.sects) k.team hs) k.team id k.lines
        let s := match r.obj with
          | some o => objFail s k.team o code k.tag
          | none => failRecord s k.core tm.ctx code
        taskGone (if r.post then postItem s k.armTr 0 code (itemOff s r.obj) else s) k)
/-- A finished task that was drawn leaves its sample to the auditor (R449). -/
def putSample (s : State) (tm : Team) (k : Task) : State :=
  match k.samp with
  | some shot =>
    let (id, s) := fresh s
    post { s with samples := s.samples ++ [⟨id, tm.ctx, k.core, k.eng, k.loc, k.sig, shot⟩] } (.auditReplay id)
  | none => s
/-- TASK_COMPLETE (R290), once every element has drained. -/
def execTaskComplete (id : Nat) (s : State) : Out :=
  .next (match findTask s id with
    | none => s
    | some k => match findTeam s k.team with
      | none => delTask s id
      | some tm =>
        let r := recOf k.snap
        if k.units ≠ [] ∨ k.tile < r.N * r.M * 64 then s
        else if tm.isDying then taskStopped s k
        else
          let s := landLines (sectIncs s k.team k.sects) k.team id k.lines
          let s := recordPut s k.team tm.ctx k.loc (fun w => if k.under then recState w 5 39 else recState w 4 0)
          let s := r.succ.foldl (fun s x => decSucc s k.team k.core x) (delTask s id)
          let total := r.M * r.N * 4096 * elemBytes r
          let s := match r.obj with
            | some o => objCount s k.team o total k.tag
            | none => s
          let s := if k.under then failRecord s k.core tm.ctx 39 else s
          let s := if r.post then postItem s k.armTr total 0 (itemOff s r.obj) else s
          taskGone (putSample s tm k) k)

/-! Starting (R283, R284). -/

/-- The lowest free engine of a core (R283). -/
def freeEngine (s : State) (core : Nat) : Option Nat :=
  (List.range 4).find? (fun e => engineUp s core e && !s.tasks.any (fun k => k.core == core && k.stage == .running && k.eng == e))
/-- Draws a starting task as an audit sample: whether it is one, and the state with a skip counted (R448, R449). -/
def drawSample (s : State) (ctx : Nat) : Bool × State :=
  match findCtx s ctx with
  | none => (false, s)
  | some c =>
    if c.audOn && (c.audN == 0#5 || Config.sampleDraw s.tick) then
      if Config.auditFull s.tick then (false, modCtx s ctx (fun c => { c with skipped := min (c.skipped + 1) 0xFFFF }))
      else (true, s)
    else (false, s)
/-- The snapshot of a starting task: its record and its reservations (R449). -/
def shotOf (tm : Team) (snap : List Byte) : Option Shot := (recRes tm (recOf snap)).map (fun p => ⟨snap, p.1, p.2.1, p.2.2⟩)
/-- TASK_START (R283): the oldest record of the queue starts on the lowest free engine. -/
def taskStarted (s : State) (core : Nat) : State :=
  match freeEngine s core, (readyTasks s core).find? (fun k => teamHere s k.team) with
  | some e, some k => match findTeam s k.team with
    | none => s
    | some tm =>
      let s := recordPut s k.team tm.ctx k.loc (fun w => recState w 3 (bitsN w 24 8))
      let (samp, s) := drawSample s tm.ctx
      let s := modTask s k.id (fun k => { k with stage := .running, eng := e, samp := if samp then shotOf tm k.snap else none })
      let s := wakePorts s (fun t g => t.core == core && g == .tileTask)
      post (postOnce s (.taskStart core)) (.tileDrain k.id)
  | _, _ => s
@[inherit_doc taskStarted] def execTaskStart (core : Nat) (s : State) : Out := .next (taskStarted s core)
/-- A task held for its lines may be enqueued: its team is there, and its lines have room (R237). -/
def heldFits (s : State) (core : Nat) (k : Task) : Bool :=
  k.core == core && k.stage == .held && teamHere s k.team &&
    ((findTeam s k.team).map (fun tm => k.lines.all (lineRoom tm))).getD false
/-- TASK_HELD_ENQUEUE (R237, R284): the oldest task held for its lines that now has them is enqueued, and a held decrement is made
once the ready queue has room. -/
def heldEnqueued (s : State) (core : Nat) : State :=
  let s := match s.tasks.find? (heldFits s core) with
    | none => s
    | some k =>
      if readyRoom s core then
        let (id, s) := fresh s
        let s := modTeam (delTask s k.id) k.team (fun tm => clearLines tm id k.lines)
        postOnce { s with tasks := s.tasks ++ [{ k with id := id, stage := .queued }] } (.taskStart core)
      else s
  let s := match s.heldDecs.find? (fun h => h.core == core && h.c != 0 && teamHere s h.team) with
    | none => s
    | some h =>
      if readyRoom s core then decrement { s with heldDecs := s.heldDecs.erase h } h.team core h.loc h.c else s
  if s.tasks.any (fun k => k.core == core && k.stage == .held) || s.heldDecs.any (fun h => h.core == core && h.c != 0) then
    postOnce s (.taskHeldEnqueue core)
  else s
@[inherit_doc heldEnqueued] def execTaskHeldEnqueue (core : Nat) (s : State) : Out := .next (heldEnqueued s core)

/-! Tiles (R287, R288). -/

/-- Bytes of a part of a row of a reservation, by blocks. -/
def rowOff (v : Resv) (row : Nat) : Nat := row * v.pitch * blockBytes v.kind v.fmt
def blockAt (v : Resv) (row k : Nat) : Nat :=
  let bb := blockBytes v.kind v.fmt
  leN (cgetAll v.bytes (rowOff v row + k * bb) bb)
/-- The dense form of a stored block; none for a bad mask. -/
def denseAt (v : Resv) (row k : Nat) : Option Nat :=
  if v.kind = 1 then expandBlock v.fmt (blockAt v row k) else some (blockAt v row k)
/-- The half-sectors that a strip of the rows of a reservation occupies. -/
def rowsHalves (v : Resv) (row n lo bytes : Nat) : List Nat :=
  if v.cond.isEmpty then []
  else nub ((List.range n).flatMap (fun i =>
    let o := rowOff v (row + i) + lo
    (List.range ((o + bytes + 31) / 32 - o / 32)).map (fun h => o / 32 + h)))
/-- The worst condition among them: 0, 1 or 2. -/
def rowsCond (v : Resv) (row n lo bytes : Nat) : Nat :=
  worst ((rowsHalves v row n lo bytes).map (fun h => condRead (aget .clean v.cond h)))
/-- Records of the half-sectors of the operand buffer that an engine reads (R444, R446), and the self-test of the engine (R450). -/
def noteResv (s : State) (core eng ctx : Nat) (v : Resv) (hs : List Nat) : State :=
  hs.foldl (fun s h =>
    let e : ErrRec := { errRec 1 1 core ctx with unit := eng }
    let u := HwUnit.engine core eng
    let tested := fun (s : State) => unitError s core (unitNum u) u
    match aget HalfCond.clean v.cond h with
    | .clean => s
    | .single _ => tested (corrected s (unitNum u) e)
    | .poison => addErr s { e with kind := 3, cause := 128 }
    | .poisonSingle _ => addErr (tested (corrected s (unitNum u) e)) { e with kind := 3, cause := 128 }
    | .bad => addErr (tested s) { e with kind := 2, cause := 129 }) s
/-- The records of a tile's operands, as its first row reads them. -/
def noteTile (s : State) (k : Task) (ctx : Nat) (a b : Resv) (c : Option Resv) (r : Rec) (m n : Nat) : State :=
  if k.tile % 64 ≠ 0 then s
  else
    let s := noteResv s k.core k.eng ctx a (rowsHalves a (64 * m) 64 0 (r.K * blockBytes a.kind a.fmt))
    let s := noteResv s k.core k.eng ctx b (rowsHalves b (64 * n) 64 0 (r.K * blockBytes b.kind b.fmt))
    match c with
    | some c => noteResv s k.core k.eng ctx c (rowsHalves c (64 * m) 64 (256 * n) 256)
    | none => s
/-- The failure that the reading of a tile's operands meets, if any (R270, R292). -/
def tileFault (a b : Resv) (c : Option Resv) (r : Rec) (m n : Nat) : Option Nat :=
  let ka := r.K * blockBytes a.kind a.fmt
  let kb := r.K * blockBytes b.kind b.fmt
  let conds := [rowsCond a (64 * m) 64 0 ka, rowsCond b (64 * n) 64 0 kb] ++ (match c with
    | some c => [rowsCond c (64 * m) 64 (256 * n) 256]
    | none => [])
  match worst conds with
  | 1 => some 1
  | 2 => some 2
  | _ =>
    if (List.range 64).any (fun j => (List.range r.K).any (fun k => (denseAt b (64 * n + j) k).isNone)) then some 36 else none
/-- The values of a row of blocks. -/
def rowVals (v : Resv) (row K : Nat) : List (List FVal) :=
  (List.range K).map (fun k => blockVals v.fmt v.sadj ((denseAt v row k).getD 0))
/-- What element (i, j) drains: its 4 or 8 bytes as a number (R288). -/
def cellValue (a b : Resv) (c : Option Resv) (r : Rec) (i j : Nat) : Nat :=
  let init := match c with
    | some c => leN (cgetAll c.bytes (rowOff c i + 4 * j) 4)
    | none => 0
  let v := cellSum r.cp32 r.P init ((rowVals a i r.K).zip (rowVals b j r.K))
  if r.drain = 2 then v.2 * 2 ^ 32 + v.1 else if r.cp32 then cpRead v else v.1

/-- Audit signature of an element (R449). -/
def sigStep (sig : Word) (x : Nat) : Word := BitVec.ofNat 64 (sig.toNat * 0x100000001B3 + x)
/-- The signature of a snapshot: every element in the order of R287 (R449). -/
def shotSig (x : Shot) : Word :=
  let r := recOf x.snap
  (elemsFrom r 0).foldl (fun g e => sigStep g (cellValue x.a x.b x.c r e.1 e.2)) 0#64

/-- A drain write of one element. -/
def drainElem (s : State) (k : Task) (tm : Team) (r : Rec) (i j v : Nat) : EngWr :=
  let off := cellOff r i j
  let bs := bytesN (elemBytes r) v
  if r.dscr then
    if !linesIn tm k.id off bs.length then .fail s 7
    else
      let offs := (List.range bs.length).map (fun x => off + x)
      let s' := scrWrite s tm.id (offs.zip bs)
      if badPart (revived s.now tm offs).scond offs then .fail s' 11 else .ok s'
  else match engLook s k.id k.core tm.ctx r.dspan off bs.length accWrite with
    | (.bad t, s) => .fail s (if t = 2 then 5 else 4)
    | (.wait, s) => .wait s
    | (.ok kv, s) =>
      let ks := kv.map (·.1)
      if !engineMay s (dieOf k.core) ks then .wait s
      else
        let s' := modTask (writeKeyed (noteHbm (unclock s ks) tm.ctx tm.id ks) ⟨k.core, tm.ctx, r.dspan⟩ kv bs) k.id (fun k =>
          { k with sects := nub (k.sects ++ (sectorsOf tm.ctx r.dspan off bs.length).map (·.2)) })
        if badPart s.mcond ks then .fail s' 11 else .ok s'
/-- Drains elements of a row from a column on, until one must wait or fails. -/
def drainRow (k : Task) (r : Rec) (i : Nat) : List (Nat × Nat) → State → EngWr
  | [], s => .ok s
  | (j, v) :: rest, s =>
    match findTeam s k.team with
    | none => .ok s
    | some tm => match drainElem s k tm r i j v with
      | .ok s => drainRow k r i rest (modTask s k.id (fun k => { k with cols := k.cols + 1 }))
      | e => e
/-- The elements of a row as parts of add-on-store units, or the failure of one (R289). -/
def unitElems (s : State) (k : Task) (tm : Team) (r : Rec) (i : Nat) (vs : List (Nat × Nat)) : Except Nat (List UElem) :=
  vs.foldl (fun acc p => match acc with
    | .error c => .error c
    | .ok l =>
      let off := cellOff r i p.1
      if r.dscr then
        if !linesIn tm k.id off 4 then .error 7
        else .ok (l ++ [⟨(List.range 4).map (fun x => scrKey tm.id (off + x)), 0, BitVec.ofNat 32 p.2, []⟩])
      else match engTrans s k.core tm.ctx r.dspan off 4 accAtomic with
        | .error (t, _) => .error (if t = 2 then 5 else 4)
        | .ok kv => .ok (l ++ [⟨kv.map (·.1), (kv.headD (0, 0)).2, BitVec.ofNat 32 p.2,
            (sectorsOf tm.ctx r.dspan off 4).map (·.2)⟩])) (.ok [])
/-- The elements of a tile as units, by their 256-byte regions. -/
def unitsOf256 (es : List UElem) : List (List UElem) :=
  es.foldl (fun us e =>
    let region := fun (u : List UElem) => (u.headD ⟨[], 0, 0#32, []⟩).keys.headD 0 / 256 == e.keys.headD 0 / 256
    if us.any region then us.map (fun u => if region u then u ++ [e] else u) else us ++ [[e]]) []
/-- The state after a row has drained. -/
def rowDone (s : State) (k : Task) (r : Rec) (vs : List (Nat × Nat)) (rows : Nat) : State :=
  let s := modTask s k.id (fun k => { k with tile := k.tile + rows, cols := 0, sig := vs.foldl (fun g p => sigStep g p.2) k.sig })
  post s (if k.tile + rows < r.N * r.M * 64 then .tileDrain k.id else .taskComplete k.id)
/-- The pages that the elements of a tile's units lie in are there, as the engine's buffer is filled for them; none while the fault
service is asked for one (R243, R430). -/
def unitLook (s : State) (k : Task) (tm : Team) (r : Rec) (es : List (Nat × Nat)) : Bool × State :=
  if r.dscr then (true, s)
  else es.foldl (fun acc e =>
    if acc.1 then match engLook acc.2 k.id k.core tm.ctx r.dspan (cellOff r e.1 e.2) 4 accAtomic with
      | (.wait, s) => (false, s)
      | (_, s) => (true, s)
    else acc) (true, s)
/-- The units of one tile (R289). -/
def tileUnits (s : State) (k : Task) (tm : Team) (a b : Resv) (c : Option Resv) (r : Rec) (m n : Nat) : State :=
  let rows := (List.range 64).map (fun x => (64 * m + x, (List.range 64).map (fun y =>
    (64 * n + y, cellValue a b c r (64 * m + x) (64 * n + y)))))
  let res := rows.foldl (fun (acc : Except Nat (List UElem)) row => match acc with
    | .error e => .error e
    | .ok l => (unitElems s k tm r row.1 row.2).map (fun p => l ++ p)) (.ok [])
  match res with
  | .error code => post s (.taskFail k.id code)
  | .ok es =>
    let s := modTask s k.id (fun k => { k with units := k.units ++ unitsOf256 es })
    postOnce (rowDone s k r (rows.flatMap (·.2)) 64) (.addOnStoreUnit k.id)
/-- A tile's block steps, one for each block of its contracted dimension (R267), as activity, and the scratch lines of what drains. -/
def noteSteps (s : State) (k : Task) (tm : Team) (steps lines : Nat) : State :=
  noteTok s { coreTok tm.ctx k.team k.core with steps := steps, lines := lines }
/-- TILE_DRAIN (R287, R288), which the task of a killed team does no more (R293): each row of a tile reads and checks the tile's operands, which an mx.wld may change meanwhile; a store
drains row by row, an add-on-store sends its units. -/
def tileDrained (s : State) (id : Nat) : State :=
  match findTask s id with
  | none => s
  | some k => match findTeam s k.team with
    | none => delTask s id
    | some tm =>
      if tm.isDying then s else
      let r := recOf k.snap
      let tile := k.tile / 64
      let m := tile % r.M
      let n := tile / r.M
      match recRes tm r with
      | none => post s (.taskFail id 32)
      | some (a, b, c) =>
        let bad := tileFault a b c r m n
        let s := noteTile s k tm.ctx a b c r m n
        match bad with
        | some code => post s (.taskFail id code)
        | none =>
          if r.drain = 1 then
            match unitLook s k tm r ((List.range 64).flatMap (fun x => (List.range 64).map (fun y => (64 * m + x, 64 * n + y)))) with
            | (true, s) => tileUnits (noteSteps s k tm r.K 0) k tm a b c r m n
            | (false, s) => post s (.tileDrain id)
          else
            let i := 64 * m + k.tile % 64
            let vs := (List.range 64).map (fun y => (64 * n + y, cellValue a b c r i (64 * n + y)))
            match drainRow k r i (vs.drop k.cols) s with
            | .ok s =>
              let ls := if r.dscr then nub (vs.flatMap (fun p => linesOf (cellOff r i p.1) (elemBytes r))) else []
              let s := rowDone (noteSteps s k tm (if k.tile % 64 = 0 then r.K else 0) ls.length) k r vs 1
              if r.dscr then taskLand s id r ls else s
            | .wait s => post s (.tileDrain id)
            | .fail s code => post s (.taskFail id code)
@[inherit_doc tileDrained] def execTileDrain (id : Nat) (s : State) : Out := .next (tileDrained s id)

/-! Add-on-store units (R289). -/

/-- mem := round_rn(mem + value) at f32. -/
def addF32 (old v : Nat) : Nat := (addV (fpOf .f32) .rn (unpack (fpOf .f32) old) (unpack (fpOf .f32) v)).1
/-- Applies the elements of a unit in their order, as one update; a failure code where a read or write meets an error. -/
def unitApply (s : State) (k : Task) (tm : Team) (scr : Bool) : List UElem → Except Nat State
  | [] => .ok s
  | e :: rest =>
    if scr then
      let off := e.keys.headD 0 - scrKey tm.id 0
      match findTeam s tm.id with
      | none => .ok s
      | some now => match scrRead s.now now off 4 with
        | (.bad d, _) => .error (if d = 1 then 11 else readCode d)
        | (.ok bs, l) =>
          let s := scrWrite s tm.id (((bytesN 4 (addF32 (leN bs) e.v.toNat)).zipIdx).map (fun p => (off + p.2, p.1)))
          unitApply (if l then modTrain s k.armTr (fun t => { t with lapsed := true }) else s) k tm scr rest
    else
      match readHome s (e.keys.map (fun a => (a, e.ver))) with
      | .bad d => .error (if d = 1 then 11 else readCode d)
      | .ok bs => unitApply (writeHome (noteHbm (unclock s e.keys) tm.ctx tm.id e.keys) ⟨k.core, tm.ctx, (recOf k.snap).dspan⟩ (e.keys.zip (bytesN 4 (addF32 (leN bs) e.v.toNat))) e.ver) k tm scr rest
/-- Records of the half-sectors that a unit reads, where it meets an error (R444, R446). -/
def noteUnit (s : State) (k : Task) (tm : Team) (scr : Bool) (u : List UElem) : State :=
  if scr then u.foldl (fun s e => noteScrRead s tm (e.keys.headD 0 - scrKey tm.id 0) 4) s
  else noteHalves s k.core tm.ctx (recOf k.snap).dspan (nub ((u.flatMap (·.keys)).map (· / 32)))
/-- ADD_ON_STORE_UNIT (R289): one of the units that are on their way, in an order that is free (R7), is applied. -/
def execAddOnStoreUnit (id : Nat) (s : State) : Out :=
  .next (match findTask s id with
    | none => s
    | some k => match findTeam s k.team with
      | none => delTask s id
      | some tm =>
        let n := Config.pick s.tick k.units.length % k.units.length
        match k.units[n]? with
        | none => s
        | some u =>
          let scr := (recOf k.snap).dscr
          if !scr && !engineMay s (dieOf k.core) (u.flatMap (·.keys)) then
            post s (.addOnStoreUnit id)
          else match unitApply s k tm scr u with
            | .error code =>
              let s := noteUnit s k tm scr u
              if tm.isDying then
                post (modTask s id (fun k => { k with units := k.units.eraseIdx n }))
                  (if 1 < k.units.length then .addOnStoreUnit id else .taskComplete id)
              else post s (.taskFail id code)
            | .ok s =>
              let s := modTask s id (fun k => { k with
                units := k.units.eraseIdx n, sects := nub (k.sects ++ u.flatMap (·.sects)) })
              let s := if scr then taskLand s id (recOf k.snap) (nub (u.flatMap (fun e => e.keys.map (fun a => (a - scrKey tm.id 0) / 64)))) else s
              if 1 < k.units.length then post s (.addOnStoreUnit id) else postOnce s (.taskComplete id))

end Sys2Proof.Machine
end

