-- ==== Sys2Proof/Machine/Evict.lean ====
section
/-! DEFINITION. Pre-emption, eviction and re-admission; migration; the end of teams and launches (spec/19 R387, R390 to R392,
spec/08 R209 to R213, spec/17 R360). -/

namespace Sys2Proof.Machine

/-! Halting and spilling (R387, R390). -/

/-- A train is halted; its mooring wait ends with p7 = 0 (R211). -/
def haltTrain (t : Train) : Train :=
  match t.migr with
  | .waiting _ =>
    let t := mapSlots (setMoved t false) (fun _ x => match x.wait with
      | .mooring _ => waitDone x
      | _ => x)
    { t with migr := .none, halted := true }
  | _ => { t with halted := true }
/-- Changes the trains of a team. -/
def mapTeam (s : State) (team : Nat) (f : Train → Train) : State :=
  { s with trains := s.trains.map (fun t => if t.team = team && t.prol.isNone then f t else t) }
/-- PREEMPT_REQUEST (R387): every train of the team halts at the boundary at which it stands; a team on its way back halts
once it is there, and the entry into a handler finishes first (R421). -/
def preempted (s : State) (team : Nat) : State :=
  match findTeam s team with
  | none => s
  | some tm =>
    if tm.life = .restoring then post s (.preemptRequest team)
    else if (teamTrains s team).any (fun t => t.trap.isSome) then post s (.preemptRequest team)
    else if tm.life ≠ .resident ∨ trainsLeft s team = 0 then modTeam s team (fun tm => { tm with victimOf := none })
    else
      let y := yieldsNow s tm
      let s := setTeam s { tm with life := .halting, yielded := y, yieldFor := if !y then [] else if tm.yielded then tm.yieldFor else
        (s.teams.filter (fun o => o.life == .spilled)).map (·.id) }
      post (mapTeam s team haltTrain) (.evictSpill team)
@[inherit_doc preempted] def execPreemptRequest (team : Nat) (s : State) : Out := .next (preempted s team)

/-- Commands and tasks of a team that are under way. -/
def engineWork (s : State) (team : Nat) : List Nat :=
  (s.cmds.filter (fun c => c.team == team && c.stage == .running)).map (·.id) ++
    (s.tasks.filter (fun k => k.team == team && k.stage == .running)).map (·.id)
/-- Redirect entries that still stand: of teams that are away, or that came back before the work that they had then had ended
(R391). -/
def liveRedirects (s : State) : List Redirect :=
  s.redirects.filter (fun p => match p.work with
    | none => (findTeam s p.team).isSome
    | some l => l.any (fun i => (engineWork s p.team).contains i))
/-- Work of a team that still writes its scratch: it lands before the spill (R390). -/
def scratchBusy (s : State) (team : Nat) : Bool :=
  s.cmds.any (fun c => c.team == team && c.stage == .running && !c.lines.isEmpty && !(c.fn == .ring && c.pos == 0)) ||
  s.tasks.any (fun k => k.team == team && k.stage == .running && (recOf k.snap).dscr)
/-- EVICT_SPILL (R390): the replies are back, what writes the scratch has landed and a redirect entry is there; the store
goes out. A rotation that has not started stands in the image as a queued command. -/
def evictSpilled (s : State) (team : Nat) : State :=
  match findTeam s team with
  | none => s
  | some tm =>
    if tm.life ≠ .halting then s
    else
      let ts := teamTrains s team
      let die := dieOf tm.core
      let red := (liveRedirects s).filter (fun p => !(p.team == team && p.die == die))
      let busy := ts.any (fun t => awaiting { s with reqs := s.reqs.filter (fun r => !isSettle r) } t.uid || t.migr != .none || swrPending s t.uid || t.trap.isSome) || scratchBusy s team ||
        decide (1024 ≤ (red.filter (fun p => p.die == die)).length)
      if busy then post s (.evictSpill team)
      else
        let s := { s with
          redirects := red ++ [⟨die, team, none⟩]
          cmds := s.cmds.map (fun c =>
            if c.team = team && c.fn == .ring && c.stage == .running && c.pos == 0 then { c with stage := .queued } else c) }
        post (setTeam (postOnce s (.copyStart tm.core)) { tm with life := .spilling }) (.spillDone team)
@[inherit_doc evictSpilled] def execEvictSpill (team : Nat) (s : State) : Out := .next (evictSpilled s team)
/-- A half-sector as it goes into a spill image: a single error is corrected, an uncorrectable one is marked poison (R444, R445). -/
def spilledCond : HalfCond → HalfCond
  | .single _ => .clean
  | .poisonSingle _ | .bad => .poison
  | c => c
def spilledConds (l : List (Nat × HalfCond)) : List (Nat × HalfCond) :=
  (l.map (fun p => (p.1, spilledCond p.2))).filter (fun p => p.2 != .clean)
/-- What a spill reads in error: poison is not consumed by it, and a bit error that it carries is corrected (R444, R445). -/
def spillSees (l : List (Nat × HalfCond)) : List (Nat × HalfCond) :=
  (l.filter (fun p => p.2 != .poison)).map (fun p => (p.1, match p.2 with
    | .poisonSingle b => .single b
    | c => c))
/-- Records of the registers of a slot that a spill reads in error. -/
def spillRegs (s : State) (t : Train) (i : Nat) : State :=
  let seen := spillSees (slotAt t i).rcond
  seen.foldl (fun s p => noteReg s (modSlot t i (fun x => { x with rcond := seen })) i p.1) s
/-- Records of the store, the registers and the reservations of a team as its spill reads them (R444, R446). DESIGN CHOICE (log 33): what
is read of the operand buffer names engine 0. -/
def spillNotes (s : State) (tm : Team) : State :=
  let seen := spillSees tm.scond
  let s := seen.foldl (fun s p => noteScr s { tm with scond := seen } p.1) s
  let s := (teamTrains s tm.id).foldl (fun s t => (List.range 32).foldl (fun s i => spillRegs s t i) s) s
  tm.resv.foldl (fun s r => noteResv s tm.core 0 tm.ctx { r with cond := spillSees r.cond } ((spillSees r.cond).map (·.1))) s
/-- The store and the registers of a team pass into its image, with the records of what is read in error. -/
def spillConds (s : State) (tm : Team) : State :=
  let s := spillNotes s tm
  let s := modTeam s tm.id (fun tm => { tm with
    scond := spilledConds tm.scond, resv := tm.resv.map (fun r => { r with cond := spilledConds r.cond }), img := [] })
  mapTeam s tm.id (fun t => mapSlots t (fun _ x => { x with rcond := spilledConds x.rcond }))
/-- SPILL_DONE (R274, R390): its running tasks and loads of the operand buffer have ended, and the team waits outside. -/
def spillDone (s : State) (team : Nat) : State :=
  match findTeam s team with
  | none => s
  | some tm =>
    if tm.life ≠ .spilling then s
    else if s.tasks.any (fun k => k.team == team && k.stage == .running) ||
        s.cmds.any (fun c => c.team == team && c.stage == .running && c.fn == .wld) then post s (.spillDone team)
    else
      let s := spillConds s tm
      post (reconsider (modTeam s team (fun tm => { tm with life := .spilled, waitFrom := s.now, noneFrom := s.now, stallAt := 0, victimOf := none })))
        (.teamBlocking team (s.now + us50))
@[inherit_doc spillDone] def execSpillDone (team : Nat) (s : State) : Out := .next (spillDone s team)
/-- REDIRECT_COUNT (R391): a count or a failure for an object reaches its image, or the object once the team is back. -/
def execRedirectCount (team obj bytes : Nat) (tag : Bool) (code : Nat) (s : State) : Out :=
  .next (if code = 0 then objCountNow s team obj bytes tag else objFailNow s team obj code tag)

/-! Coming back (R392). -/

/-- A slot's wait is looked at again. -/
def recheckSlot (s : State) (t : Train) (tm : Team) (x : Slot) : Slot :=
  match x.wait with
  | .presence ls => if ls.any (lineAbsent tm) then x else waitRetry x
  | .miss _ _ _ | .dlaunch => waitRetry x
  | .barrier h p => match afind t.lastBar h with
    | some (q, true) => if p = q then leaveBar s t h x else x
    | _ => x
  | _ => x
/-- Events that a slot's wait looks for again. -/
def recheckPosts (s : State) (t : Train) (i : Nat) : State :=
  match (slotAt t i).wait with
  | .port _ => postOnce s (.queuePortWake t.uid i)
  | .watch _ _ _ _ _ => postOnce s (.waitwWake t.uid i)
  | .rel _ | .fence _ _ _ => postOnce s (.fenceResume t.uid)
  | .obj off _ _ => wakeObj s t.team off ((findTeam s t.team).map (fun tm => (objOf tm off).phase) |>.getD false)
  | _ => s
/-- Writes that the readers of a die see and their homes have not applied: a train that leaves the die may have seen them (R303,
R314). -/
def dieWrites (s : State) (die upTo : Nat) : List Nat :=
  (s.reqs.filter (fun r => earlyVisible r && onWay r && dieOf r.core == die && decide (r.id < upTo))).map (·.id)
/-- A settle or compare that the halt cancelled is made again (R387, R411). -/
def settleAgain (s : State) (team : Nat) : State :=
  let mine := fun (r : Req) => isSettle r && !r.replied && s.trains.any (fun t => t.uid == r.tr && t.team == team && t.prol.isNone)
  (s.reqs.filter mine).foldl (fun s r => postOnce s (.btReply r.id))
    { s with reqs := s.reqs.map (fun r => if mine r then { r with flt := 0 } else r) }
/-- An error in an image's team record or PC tables, as it is restored: 4:12 poison, 4:13 uncorrectable (R415, R458). -/
def imageFault (tm : Team) : Option Nat :=
  match worst (tm.img.map (fun p => condRead p.2)) with
  | 1 => some 140
  | 2 => some 141
  | _ => none
/-- Records of the half-sectors of an image's team record and PC tables, which lie in an HBM stack of the team's die (R390, R444, R446):
which stack, and the address, are free. -/
def noteImage (s : State) (tm : Team) (core : Nat) : State :=
  let a := Config.openInfo s.tick
  let e : ErrRec := { errRec 1 1 core tm.ctx with socket := 8 + 3 * tm.home + a.toNat % 3, addr := a }
  tm.img.foldl (fun s p => match p.2 with
    | .clean => s
    | .single _ => corrected s e.socket e
    | .poison => addErr s { e with kind := 3, cause := 140 }
    | .poisonSingle _ => addErr (corrected s e.socket e) { e with kind := 3, cause := 140 }
    | .bad => addErr s { e with kind := 2, cause := 141 }) s
/-- Counts and failures for the objects of a team that are on their way to its image (R391). -/
def countsComing (s : State) (team : Nat) : Bool :=
  s.agenda.any (fun i => match i with
    | .redirectCount t _ _ _ _ => t == team
    | _ => false)
/-- The redirect entries of a team that is back: freed, or kept until the work that it has in progress has ended (R391). -/
def redirectsBack (s : State) (team : Nat) : List Redirect :=
  let w := engineWork s team
  s.redirects.filterMap (fun p => if p.team ≠ team then some p else match p.work with
    | none => if w.isEmpty then none else some { p with work := some w }
    | some _ => some p)
/-- READMIT: once what was counted for the team has reached its image, that is restored on its core, queued work is issued again in its
order, and every wait is looked at. -/
def readmitted (s : State) (team core : Nat) : State :=
  match findTeam s team with
  | none => s
  | some tm =>
    if tm.life ≠ .restoring ∨ tm.core ≠ core then s
    else if countsComing s team then post s (.readmit team core)
    else
    let s := noteImage s tm core
    match imageFault tm with
    | some c => killTeam (addErr s { errRec 5 2 core tm.ctx with cause := c }) team
    | none =>
      let seen := if dieOf core = tm.home then [] else dieWrites s tm.home s.nextId
      let tm := { tm with life := .resident, home := dieOf core, victimOf := none,
                          img := [],
                          preempt := tm.preempt && s.agenda.contains (.preemptRequest team), yielded := false, yieldFor := [] }
      let s := setTeam s tm
      let s : State := { s with
        teams := s.teams.map (fun x => { x with yieldFor := x.yieldFor.filter (· != team) })
        redirects := redirectsBack s team }
      let mine := fun (c : Cmd) => c.team == team && c.stage != .running
      let kept := fun (k : Task) => k.team == team && k.stage != .running
      let s := { s with
        cmds := s.cmds.filter (fun c => !mine c) ++ (s.cmds.filter mine).map (fun c => { c with core := core })
        tasks := s.tasks.filter (fun k => !kept k) ++ (s.tasks.filter kept).map (fun k => { k with core := core })
        heldDecs := s.heldDecs.map (fun h => if h.team = team ∧ h.c ≠ 0 then { h with core := core } else h) }
      let s := mapTeam s team (fun t => mapSlots { t with halted := false, aging := 0, canSince := none } (fun _ x =>
        { recheckSlot s t tm x with seen := nub (unapplied s x.seen ++ seen) }))
      let s := (teamTrains s team).foldl (fun s t =>
        (List.range 32).foldl (fun s i => recheckPosts s t i) s) (settleAgain s team)
      let s := postOnce (postOnce (postOnce (postOnce s (.copyStart core)) (.copySetasideResume core)) (.taskStart core)) (.taskHeldEnqueue core)
      reconsider s
@[inherit_doc readmitted] def execReadmit (team core : Nat) (s : State) : Out := .next (readmitted s team core)

/-! Migration (R209, R211). -/

/-- The core of a die with a free mooring slot and the lowest load (R209). DESIGN CHOICE (log 54): the core must also have free
store for the train's registers, and be neither fenced nor stopped, which the rule does not name. -/
def mooringCore (s : State) (die bytes : Nat) : Option Nat :=
  leastBy (pload s) ((dieCores die).filter (fun c =>
    !(coreOf s c).fenced && !(coreOf s c).stopped && decide (moored s c < 4) && decide (bytes ≤ coreFree s c)))
/-- A waiting train takes a mooring slot that is free, and is on its way; without one the state goes to `f`. -/
def granted (s : State) (tr : Nat) (f : State → Train → State) : State :=
  match findTrain s tr with
  | none => s
  | some t => match t.migr with
    | .waiting h => match mooringCore s h (t.A * 256) with
      | none => f s t
      | some c =>
        let t := mapSlots { t with migr := .transit c s.nextId } (fun _ x => match x.wait with
          | .mooring _ => { x with wait := .transit c }
          | _ => x)
        post (setTrain s t) (.migrLand tr)
    | _ => s
/-- MIGR_GRANT: a mooring slot is free, and the train is on its way. -/
def execMigrGrant (tr : Nat) (s : State) : Out := .next (granted s tr (fun s _ => post s (.migrGrant tr)))
/-- MIGR_WAIT_TIMEOUT: no slot was free for 4,800 cycles, and the train stays; one that is free is taken (R209). -/
def execMigrWaitTimeout (tr due : Nat) (s : State) : Out :=
  .next (if ((findTrain s tr).map (fun t => t.lastIss + 4800 == due)).getD false then
      granted (atTime s due) tr (fun s t => setTrain s { haltTrain t with halted := t.halted })
    else s)
/-- MIGR_LAND (R320: a migration passes a held crossing): once its stores and atomics are performed at device scope the train resumes in its mooring slot, with its team;
a halt asked for meanwhile holds it there (R211), and from a core that has been fenced its team is evicted (R451). -/
def execMigrLand (tr : Nat) (s : State) : Out :=
  .next (match findTrain s tr with
    | none => s
    | some t => match t.migr with
      | .transit c upTo =>
        if !(unackedWrites s tr).isEmpty then post s (.migrLand tr)
        else
          let seen := dieWrites s (dieOf t.core) upTo
          let t := mapSlots t (fun _ x => { x with seen := nub (unapplied s x.seen ++ seen) })
          let used := coreSlots s c
          let t := mapSlots (setMoved t true) (fun _ x => match x.wait with
            | .transit _ => waitDone x
            | _ => x)
          let t := { t with core := c, migr := .none, aging := 0, canSince := none,
                            resident := ([64, 65, 66, 67].find? (fun r => !used.contains r)).getD 64 }
          let tslot := freeTslot s c
          let s := reconsider (modTeam (setTrain s t) t.team (fun tm => { tm with core := c, home := dieOf c, tslot := tslot }))
          if (coreOf s c).fenced then postOnce s (.preemptRequest t.team) else s
      | _ => s)

/-! The end of teams and launches (R213, R360). -/

/-- TEAM_RETIRE (R213): its trains have retired, its engine work has ended and its changes of the forest are made; everything of the team is freed. -/
def teamRetired (s : State) (team : Nat) : State :=
  match findTeam s team with
  | none => s
  | some tm =>
    if trainsLeft s team ≠ 0 then s
    else if !(teamCmds s team).isEmpty || !(teamTasks s team).isEmpty || s.heldDecs.any (fun h => h.team == team && h.c != 0) ||
        !(changesOf s team).isEmpty then
      post s (.teamRetire team)
    else
      freeTeam (ringOrphans s tm) tm
@[inherit_doc teamRetired] def execTeamRetire (team : Nat) (s : State) : Out := .next (teamRetired s team)
/-- Writes of trains that are gone, still on their way. -/
def orphanWrites (s : State) : Bool := s.reqs.any (fun r => isWrite r && !r.acked && r.tr != 0 && (findTrain s r.tr).isNone)
/-- LAUNCH_COMPLETE (R360): every write is performed at system scope, and the done word is written. -/
def launchCompleted (s : State) (launch : Nat) : State :=
  match findLaunch s launch with
  | none => s
  | some l =>
    if orphanWrites s || (l.done && !ioClear s) then post s (.launchComplete launch)
    else
      let s := if l.done then
          match feWrite s l.ctx 0 l.dadr.toNat (bytesN 8 l.dval.toNat) with
          | .ok s => s
          | .error c => addErr (feMark s l.ctx 0 l.dadr.toNat 8) { errRec 13 1 0xFF l.ctx with cause := c, addr := l.dadr }
        else s
      { s with
        launches := s.launches.filter (fun x => decide (x.id ≠ launch))
        queues := s.queues.map (fun q => { q with launches := q.launches.filter (fun i => decide (i ≠ launch)) }) }
@[inherit_doc launchCompleted] def execLaunchComplete (launch : Nat) (s : State) : Out := .next (launchCompleted s launch)

end Sys2Proof.Machine
end

