-- ==== Sys2Proof/Machine/Fabric.lean ====
section
/-! DEFINITION. Requests on their way: loads and their replies, writes through the die stages and crossings to their homes,
acknowledgements, and the replies of the bridle engines (spec/12 R301 to R320, spec/20 R402 to R411; logs 8, 10). -/

namespace Sys2Proof.Machine

/-- Things that may go on once writes of a train have moved or reads have returned. -/
def writeMoved (s : State) (tr : Nat) : State :=
  let s := match findTrain s tr with
    | none => s
    | some t => if t.slots.any (fun x => match x.wait with
        | .fence _ _ _ | .rel _ => true
        | _ => false) then postOnce s (.fenceResume tr) else s
  let s := wakePorts s (fun t g => t.uid == tr && g == .tileTask)
  (s.cmds.filter (fun c => c.stage == .queued && !c.need.isEmpty)).foldl (fun s c => postOnce s (.copyStart c.core)) s
/-! Late faults (R236, R416; log 8). -/

/-- A request comes back with a fault. -/
def lateFault (s : State) (r : Req) (c : Nat) : State :=
  let s := { s with reqs := s.reqs.filter (fun q => !(q.tr == r.tr && q.grp == r.grp && q.slot == r.slot && hasReply q && q.id != r.id)) }
  lateSettle (modReq s r.id (fun r => { r with flt := c, replied := true })) r.tr r.grp
/-- A reply has been made: the requests of the slot's access are done. -/
def replyDone (s : State) (r : Req) : State :=
  let s := { s with reqs := s.reqs.filterMap (fun q =>
    if q.tr = r.tr ∧ q.grp = r.grp ∧ q.slot = r.slot ∧ hasReply q = true then
      (match q.kind with
        | .atom _ _ _ _ _ _ => if q.acked then none else some { q with replied := true }
        | _ => none)
    else some q) }
  writeMoved (lateSettle s r.tr r.grp) r.tr
/-- The record that a late push names is there for the scheduler, as far as its page goes (R285, R430). -/
def lateLook (s : State) (t : Train) (r : Req) (n : Nat) (v : Word) : Bool × State :=
  match afind t.ports n with
  | some .tileTask => match pushWalk s t v with
    | some _ => askLook s r.id t.core (ctxOf s t) 0 (fld v 0 63) 64 accAtomic
    | none => (true, s)
  | _ => (true, s)
/-- Delivers a value to where the request says; a port that has no room yet, or whose turn it is not, waits (R230). -/
def deliverReply (s : State) (r : Req) (v : BitVec 128) (again : Instr) : State :=
  match findTrain s r.tr with
  | none => delReq s r.id
  | some t => match r.dst with
    | .q n =>
      if lowerPush s r.tr r.slot r.pc r.rcount n then post s again
      else match lateLook s t r n (lo64 v) with
      | (false, s) => post s again
      | (true, s) => match pushChk s (modSlot t r.slot (fun x => { x with walked := true })) r.slot n (lo64 v) with
        | .ok => replyDone (wakePort (pushDo s r.tr r.slot n (lo64 v)) r.tr n) r
        | .park | .walk _ _ => post s again
        | .fault c => lateFault s r (192 + c)
    | _ => replyDone (noteParts (modTrain s r.tr (fun t => putDst t r.slot r.dst v)) t) r

/-! Loads (R230, R303, R304, R312, R314). -/

/-- The bytes of a slot's access once all its parts are there, in their order. -/
def loadBytes (s : State) (r : Req) : Option (List Byte) :=
  let ps := s.reqs.filter (fun q => q.tr == r.tr && q.grp == r.grp && q.slot == r.slot && hasReply q)
  let parts := ps.map (fun q => match q.kind with
    | .load _ lo (some bs) => some (lo, bs)
    | _ => none)
  (allSome parts).map (fun l => ((l.filter (fun p => p.1 == 0)) ++ (l.filter (fun p => p.1 != 0))).flatMap (·.2))
/-- The lines of a request served at their home count as its context's (R384). -/
def reqHbm (s : State) (r : Req) : State :=
  if r.tr = 0 then s else noteHbm s r.ctx (((findTrain s r.tr).map (·.team)).getD 0) r.keys
/-- A read by a slot has been made: it takes what the writers of its bytes released (R310). -/
def readClock (s : State) (r : Req) : State := modTrain s r.tr (fun t => modSlot t r.slot (fun x => clockRead s r.core r.tr x r.keys))
/-- The acquire that follows a read (R301). -/
def readAcq (s : State) (r : Req) : State :=
  match r.blk with
  | some sc => modTrain s r.tr (fun t => modSlot t r.slot (fun x => acquire x sc))
  | none => s
/-- Both, for a load, whose value is fixed as it is delivered. -/
def readTook (s : State) (r : Req) : State := readAcq (readClock s r) r
/-- LOAD_REPLY (R230, R236, R314). -/
def loadReplied (s : State) (id : Nat) : State :=
  match findReq s id with
  | none => s
  | some r =>
    match r.kind with
    | .load ty lo none =>
      if loadBlocked s r then post s (.loadReply id)
      else
        let kv := r.keys.zip r.keyIds
        let s' := noteHalves s r.core r.ctx (addrSpan r.va) (nub (r.keys.map (· / 32)))
        match if homeLoad r then readHome s kv else readDie s (dieOf r.core) kv with
        | .bad d => lateFault s' r (128 + d)
        | .ok bs =>
          let s := readTook (modReq (reqHbm s' r) id (fun r => { r with kind := .load ty lo (some bs) })) r
          match loadBytes s r with
          | none => s
          | some bs => deliverReply s r (extend ty (leN bs)) (.loadReply id)
    | .load ty _ (some _) =>
      match loadBytes s r with
      | none => s
      | some bs => deliverReply s r (extend ty (leN bs)) (.loadReply id)
    | .atom _ _ _ _ _ old =>
      if r.stage ≠ .applied ∨ r.replied = true then s
      else if r.flt ≠ 0 then lateFault s r r.flt
      else deliverReply (readAcq s r) r old (.loadReply id)
    | _ => s
@[inherit_doc loadReplied] def execLoadReply (id : Nat) (s : State) : Out := .next (loadReplied s id)

/-! Writes (R303, R314, R315). -/

/-- A write may not yet enter its die stage: an earlier access of its slot to the bytes, or a write that happens before it
to the bytes, has not gone before. -/
def freshBlocked (s : State) (r : Req) : Bool :=
  s.reqs.any (fun w => w.id != r.id && overlap w.keys r.keys &&
    ((isWrite w && w.stage == .fresh && (r.after.contains w.id || (w.tr == r.tr && w.slot == r.slot && decide (w.id < r.id)))) ||
     (w.tr == r.tr && w.slot == r.slot && decide (w.id < r.id) && !w.replied && (match w.kind with
        | .load _ _ none => true
        | _ => false))))
/-- A write may not yet be applied (R315): a write that happens before it has not been, nor one to its bytes that went
before it from its die. -/
def homeBlocked (s : State) (r : Req) : Bool :=
  !(unapplied s r.after).isEmpty ||
  s.reqs.any (fun w => w.id != r.id && isWrite w && w.stage != .applied && w.stage != .fresh && overlap w.keys r.keys &&
    dieOf w.core == dieOf r.core && decide (w.entry < r.entry))
/-- Puts an entry into a crossing queue. -/
def enterXing (s : State) (a b : Nat) (x : Xing) : State :=
  let s := if s.xings.any (fun p => p.1 == (a, b)) then
      { s with xings := s.xings.map (fun p => if p.1 = (a, b) then (p.1, p.2 ++ [x]) else p) }
    else { s with xings := s.xings ++ [((a, b), [x])] }
  postOnce s (.crossingDeliver a b)
def reqHome (r : Req) : Nat := homeDie (r.keys.headD 0)
def reqWho (r : Req) : Who := ⟨r.core, r.ctx, addrSpan r.va⟩
/-- The atomic operation at its home (R240, R241): its old value, or a fault with nothing written; operands that a link has passed on as
poison are consumed as poison (R445). -/
def applyAtom (s : State) (r : Req) (op : AtomOp) (w : AWidth) (v c : BitVec 128) (ret : Bool) : State :=
  if r.link = .poison then modReq s r.id (fun r => { r with flt := 128 }) else
  let s' := noteHalves s r.core r.ctx (addrSpan r.va) (nub (r.keys.map (· / 32)))
  match readHome s (r.keys.zip r.keyIds) with
  | .bad d => modReq s' r.id (fun r => { r with flt := 128 + d })
  | .ok bs =>
    let old := leN bs
    let s := writeHome s' (reqWho r) (r.keys.zip (bytesN (atomBytes w) (atomNew op w old v.toNat c.toNat))) (r.keyIds.headD 0)
    modReq (bridleIncs s r.sects) r.id (fun r => { r with kind := .atom op w v c ret (BitVec.ofNat 128 old) })
/-- Poison at the half-sectors of a write, with its increments (R235, R402, R445). -/
def poisonHome (s : State) (r : Req) : State :=
  bridleIncs (wakeWatch { s with mcond := (nub (r.keys.map (· / 32))).foldl (fun l h => aset l h .poison) s.mcond } r.keys) r.sects
/-- A write is applied at its home: its bytes or its poison, its increments and its releases (R234, R235, R402, R445). The last of
the parts that write a half-sector whole makes it so; the read of an atomic takes what stood before its write (R310). -/
def applyWrite (s : State) (r : Req) : State :=
  let s := match r.kind with
    | .store d =>
      if r.link = .poison then poisonHome s r else
      let left := r.cover.filter (fun h => partsLeft s r h (fun p => p.stage == .applied))
      bridleIncs (writeParts s (reqWho r) (r.keys.zip d) (r.keyIds.headD 0) (r.cover.filter (fun h => !left.contains h)) left) r.sects
    | .poison => poisonHome s r
    | .atom op w v c ret _ => applyAtom (readClock s r) r op w v c ret
    | _ => s
  let s := modReq s r.id (fun r => { r with stage := .applied })
  let s := match r.kind with
    | .atom _ _ _ _ _ _ => post s (.loadReply r.id)
    | _ => s
  clockPut s r.core r.tr r.rel r.keys none r.id
/-- WRITE_HOME_APPLY (R314): a write enters its die stage, and from there is applied. -/
def writeStep (s : State) (id : Nat) : State :=
  match findReq s id with
  | none => s
  | some r =>
    let die := dieOf r.core
    let home := reqHome r
    match r.stage with
    | .fresh =>
      if freshBlocked s r then post s (.writeHomeApply id)
      else
        let (e, s) := fresh s
        let s := modReq s id (fun r => { r with entry := e, stage := if home = die then .home else .crossing })
        let s := if earlyVisible r then clockPut s r.core r.tr r.rel r.keys (some die) r.id else s
        let s := if home = die then post s (.writeHomeApply id) else enterXing s die home (.write id)
        writeMoved s r.tr
    | .home =>
      if homeBlocked s r then post s (.writeHomeApply id)
      else
        let s := applyWrite (reqHbm s r) r
        let s := if home = die then post s (.writeAck id) else enterXing s home die (.ack id)
        writeMoved s r.tr
    | _ => s
@[inherit_doc writeStep] def execWriteHomeApply (id : Nat) (s : State) : Out := .next (writeStep s id)
/-- A write is acknowledged to its slot (R301). -/
def writeAcked (s : State) (id : Nat) : State :=
  match findReq s id with
  | none => s
  | some r =>
    let s := if hasReply r && !r.replied then modReq s id (fun r => { r with acked := true }) else delReq s id
    writeMoved s r.tr
@[inherit_doc writeAcked] def execWriteAck (id : Nat) (s : State) : Out := .next (writeAcked s id)
/-- The link by which a write comes to its home: of a die, or of a port of the I/O die (log 59). -/
def linkOf (key : Nat) : Nat := if key < 2 ^ 52 then key / 2 ^ 38 % 4 else 4 + key / 2 ^ 52
/-- A write comes off a link: a single error of its flit is corrected; an uncorrectable one is passed on as poison (R444, R445). The
record names the half-sector and the link, which is tested (R446, R450). -/
def linkArrive (s : State) (r : Req) : State :=
  let k := r.keys.headD 0
  let u := HwUnit.link (linkOf k)
  let e := { halfRec 1 r.core r.ctx (addrSpan r.va) (k % 2 ^ 52 / 32) with socket := socketOf k, unit := unitField u }
  let tested := fun (s : State) => unitError s 0xFF (unitNum u) u
  match r.link with
  | .clean | .poison => s
  | .single _ => modReq (tested (corrected s (unitNum u) e)) r.id (fun r => { r with link := .clean })
  | .poisonSingle _ => modReq (tested (corrected s (unitNum u) e)) r.id (fun r => { r with link := .poison })
  | .bad => modReq (tested (addErr s { e with kind := 2, cause := 129 })) r.id (fun r => { r with link := .poison })
/-- CROSSING_DELIVER (R319, R320): the oldest entry of a crossing that no hold stands on is delivered, and acts before any behind
it: a write is applied unless the home holds it back (R315), an acknowledgement reaches its slot. -/
def delivered (s : State) (src dst : Nat) : State :=
  if heldPair s src dst then s
  else match (s.xings.find? (fun p => p.1 == (src, dst))).map (·.2) with
    | some (x :: rest) =>
      let s := { s with xings := s.xings.map (fun p => if p.1 = (src, dst) then (p.1, rest) else p) }
      let s := match x with
        | .write id =>
          let s := match findReq s id with
            | some r => linkArrive s r
            | none => s
          writeStep (modReq s id (fun r => { r with stage := .home })) id
        | .ack id => writeAcked s id
      if rest.isEmpty then s else postOnce s (.crossingDeliver src dst)
    | _ => s
@[inherit_doc delivered] def execCrossingDeliver (src dst : Nat) (s : State) : Out := .next (delivered s src dst)

/-! Replies of the bridle engines (R405 to R411). -/

/-- A structural change of the context is under way, begun by another request (R405). -/
def changing (s : State) (ctx id : Nat) : Bool :=
  s.reqs.any (fun q => q.id != id && q.entry == 1 && (match q.kind with
    | .bt _ => q.ctx == ctx
    | _ => false))
/-- The slot's earlier writes are performed at device scope, and what it has acquired is applied. -/
def btReady (s : State) (r : Req) : Bool :=
  !(s.reqs.any (fun w => w.tr == r.tr && w.slot == r.slot && isWrite w && !w.acked && decide (w.id < r.id)))
/-- A settle or compare of a halted train is cancelled: it is made again at resume (R387, R411). -/
def btCancelled (s : State) (r : Req) : Bool :=
  isSettle r && ((findTrain s r.tr).map (·.halted)).getD false
/-- The slots of one instruction act in ascending order (R405), and the requests of one slot in the order of its program (R409):
none before this one has yet to act, but for what a halt has cancelled (R411). -/
def btTurn (s : State) (r : Req) : Bool :=
  !(s.reqs.any (fun q => (q.grp == r.grp || (q.tr == r.tr && q.slot == r.slot && (match q.kind with
      | .bt _ => true
      | _ => false))) && decide (q.id < r.id) && q.entry == 0 && !q.replied && !btCancelled s q))
/-- A settle or compare (R409, R410): it waits for its writes, rolls the subtree up, and acquires at device scope. -/
def settled (s : State) (r : Req) (ctx n : Nat) (f : Word → Word) : State :=
  match findCtx s ctx with
  | none => lateFault s r 256
  | some c =>
    if r.flt ≠ 0 then lateFault s r r.flt
    else if btReady s r = false ∨ unapplied s r.after ≠ [] ∨
        (nodeLive c n && (subtree c n).any (fun k => decide (2 ≤ (nodeOf c k).state))) = true then post s (.btReply r.id)
    else if !nodeLive c n then lateFault s r 256
    else
      let s := drainTree s ctx n false
      let v := ((findCtx s ctx).map (fun c => (nodeOf c n).count)).getD 0
      let s := modTrain s r.tr (fun t => modSlot t r.slot (fun x => acquire x .dev))
      deliverReply s r ((0#64) ++ f (BitVec.ofNat 64 v)) (.btReply r.id)
/-- A change in two parts: begun once no other is under way, then ended (R405, R407, R408). -/
def changed (s : State) (r : Req) (ctx n state : Nat) (fault : Option Nat) (fin : State → State) : State :=
  if r.entry = 1 then deliverReply (fin s) r 0#128 (.btReply r.id)
  else if btReady s r = false ∨ changing s ctx r.id = true then post s (.btReply r.id)
  else match fault with
    | some d => lateFault s r (256 + d)
    | none => post (modReq (beginChange s ctx n state) r.id (fun r => { r with entry := 1 })) (.btReply r.id)
/-- BT_REPLY (R405). -/
def btReplied (s : State) (id : Nat) : State :=
  match findReq s id with
  | none => s
  | some r =>
    let ctx := r.ctx
    match r.kind with
    | .bt op =>
      if (findTrain s r.tr).isNone then delReq s id
      else if btCancelled s r = true then s
      else if r.entry = 0 ∧ btTurn s r = false then post s (.btReply id)
      else match op with
      | .enroll va v =>
        -- once made, the reply carries the node number and waits only for its port
        if r.entry = 2 then deliverReply s r ((0#64) ++ r.va.extractLsb' 0 64) (.btReply id)
        else if btReady s r = false ∨ changing s ctx id = true then post s (.btReply id)
        else match btFault s ctx op with
          | some d => lateFault s r (256 + d)
          | none =>
            let (s, n) := doEnroll s ctx va v
            let r' := { r with entry := 2, va := (0#16) ++ n }
            deliverReply (modReq s id (fun _ => r')) r' ((0#64) ++ n) (.btReply id)
      | .unenroll n => changed s r ctx n 3 (btFault s ctx op) (fun s => voidSettles (endUnenroll s ctx n) ctx n)
      | .reparent n p => changed s r ctx n 2 (btFault s ctx op) (fun s => endReparent s ctx n (fld p 0 16))
      | .settle n => settled s r ctx n (fun c => c)
      | .cmp n v => settled s r ctx n (fun c => c - v)
      | .read n => match findCtx s ctx with
        | none => lateFault s r 256
        | some c =>
          if !nodeLive c n then lateFault s r 256
          else deliverReply s r ((0#64) ++ BitVec.ofNat 64 (nodeOf c n).count) (.btReply id)
    | _ => s
@[inherit_doc btReplied] def execBtReply (id : Nat) (s : State) : Out := .next (btReplied s id)

end Sys2Proof.Machine
end

