-- ==== Sys2Proof/Machine/Errors.lean ====
section
/-! DEFINITION. Errors, audits, self-test, repairs and ageing, and remote accesses that fail (spec/23 R437, spec/24; logs 16,
20, 23). -/

namespace Sys2Proof.Machine

/-! Error records (R446, R447). -/

/-- The 64 bytes of a record with its sequence number. -/
def recBytes (e : ErrRec) (seq : Nat) : List Byte :=
  bytesN 8 (e.kind * 2 ^ 56 + e.sev * 2 ^ 54 + e.socket * 2 ^ 43 + e.core * 2 ^ 32 + e.ctx * 2 ^ 16 + e.cause) ++
    bytesN 8 e.addr.toNat ++ bytesN 8 (e.span * 2 ^ 48 + e.unit % 2 ^ 16 * 2 ^ 32 + e.code % 2 ^ 32) ++ bytesN 8 e.time ++
    bytesN 8 seq ++ [0, 1, 2].flatMap (fun i => bytesN 8 (e.detail.getD i 0#64).toNat)
/-- Writes words of a context's span 0 for the policy core; nothing where they cannot be written. -/
def policyPut (s : State) (ctx off : Nat) (bs : List Byte) : State :=
  match transNow s ctx 0 off bs.length accWrite with
  | .error _ => s
  | .ok kv => writeKeyed s (.front ctx) kv bs
/-- A word of a context's span 0, 0 where it cannot be read. -/
def policyRead (s : State) (ctx off n : Nat) : Nat :=
  match feRead s ctx 0 off n with
  | .ok bs => leN bs
  | .error _ => 0
/-- Writes a record into a context's ring; over one that the host has not marked read it is dropped and counted. The host
marks a record read by clearing its first 8 bytes (log 26). -/
def ringPut (s : State) (c : Ctx) (bs : List Byte) : State :=
  if c.ringRecs = 0 then s
  else
    let idx := c.ringOff.toNat + 64 * c.ringRecs
    let w := policyRead s c.num idx 8
    let at_ := c.ringOff.toNat + 64 * (w % c.ringRecs)
    if policyRead s c.num at_ 8 ≠ 0 then policyPut s c.num (idx + 8) (bytesN 8 (policyRead s c.num (idx + 8) 8 + 1))
    else policyPut (policyPut s c.num at_ bs) c.num idx (bytesN 8 (w + 1))
/-- ERROR_RECORD_POST (R447): the oldest record takes its sequence number and goes to the ring of its context. -/
def execErrorRecordPost (s : State) : Out :=
  .next (match s.errs with
    | [] => s
    | e :: rest =>
      let seq := s.seq
      let s := { s with errs := rest, seq := seq + 1 }
      let s := match findCtx s e.ctx with
        | some c => ringPut s c (recBytes e seq)
        | none => s
      if s.errs.isEmpty then s else postOnce s .errorRecordPost)
/-- CORRECTED_RECORD_FLUSH (R447): the held record of a unit goes out with its count and the time of its first error. -/
def execCorrectedRecordFlush (unit due : Nat) (s : State) : Out :=
  let s := atTime s due
  .next (match s.held.find? (fun h => h.unit == unit && h.due == due) with
    | none => s
    | some h =>
      postOnce { s with
        held := s.held.filter (fun x => !(x.unit == unit && x.due == due))
        errs := s.errs ++ [{ h.body with detail := [BitVec.ofNat 64 h.count] }] } .errorRecordPost)

/-! Audits (R448, R449). -/

/-- AUDIT_SET (R448): a reserved fraction changes nothing (log 43). -/
def execAuditSet (ctx : Nat) (on : Bool) (n : BitVec 5) (s : State) : Out :=
  .next (mailbox s (fun s => if 16 < n.toNat then s else modCtx s ctx (fun c => { c with audOn := on, audN := n })))
/-- A core that a replay may run on: another one with a free engine, on another die when one has one (R449). -/
def replayPlace (s : State) (core : Nat) : Option (Nat × Nat) :=
  let free := fun (ds : List Nat) => (ds.flatMap dieCores).findSome? (fun c =>
    if c = core ∨ s.corAlive.getLsbD (dieOf c) = false then none else (freeEngine s c).map (fun e => (c, e)))
  match free ([0, 1, 2, 3].filter (· ≠ dieOf core)) with
  | some p => some p
  | none => free [dieOf core]
/-- AUDIT_REPLAY (R449): the snapshot is replayed where an engine is free; a mismatch is recorded and both engines tested. -/
def execAuditReplay (id : Nat) (s : State) : Out :=
  .next (match s.samples.find? (fun x => x.id == id) with
    | none => s
    | some x => match replayPlace s x.core with
      | none => post s (.auditReplay id)
      | some p =>
        let sig := Config.replaySignature s.tick (shotSig x.shot)
        let s := modCtx { s with samples := s.samples.filter (fun y => decide (y.id ≠ id)) } x.ctx
          (fun c => { c with checked := min (c.checked + 1) 0xFFFFFFFF })
        if sig = x.sig then s
        else
          let s := addErr s { errRec 7 1 x.core x.ctx with detail := [x.loc &&& 0x7FFFFFFFFFFFFFFF#64, x.sig, sig] }
          postOnce (postOnce s (.selfTest (.engine x.core x.eng))) (.selfTest (.engine p.1 p.2)))

/-! Bit errors (R444). -/

/-- Flips one of the 272 bits of a half-sector. -/
def flipIn (l : List (Nat × HalfCond)) (h bit : Nat) : List (Nat × HalfCond) := setCond l h (condFlip (aget .clean l h) (bit % 272))
/-- BIT_ERROR (R444). -/
def execBitError (place : HalfPlace) (bit : Nat) (s : State) : Out :=
  .next (match place with
    | .dev h => { s with mcond := flipIn s.mcond h bit }
    | .flit id => modReq s id (fun r => if isWrite r ∧ r.stage = .crossing then { r with link := condFlip r.link bit } else r)
    | .img team h => modTeam s team (fun tm => if tm.life = .spilled then { tm with img := flipIn tm.img h bit } else tm)
    | .scr team h => modTeam s team (fun tm => { tm with scond := flipIn tm.scond h bit })
    | .reg tr slot h => modTrain s tr (fun t =>
        if 32 ≤ slot ∨ (t.A ≤ 4 * h ∧ (h < 1024 ∨ 1027 < h)) then t else modSlot t slot (fun x => { x with rcond := flipIn x.rcond h bit }))
    | .buf team res h => modTeam s team (fun tm => { tm with
        resv := tm.resv.map (fun r => if r.num = res then { r with cond := flipIn r.cond h bit } else r) }))

/-! Self-test and retirement (R450 to R453). -/

/-- SELF_TEST (R450): an engine under test is out of the free set; the result is free (log 20). -/
def execSelfTest (u : HwUnit) (s : State) : Out :=
  let s := match u with
    | .engine c e => modCore s c (fun k => { k with testing := if k.testing.contains e then k.testing else k.testing ++ [e] })
    | _ => s
  .next (post s (.selfTestComplete u (Config.faultLasting s.tick)))
/-- Cycles of 24 hours, and of 100 ms. -/
def dayCycles : Nat := Config.us * 86400000000
@[inherit_doc dayCycles] def drainCycles : Nat := Config.us * 100000
/-- SELF_TEST_COMPLETE (R450): a fault that the test reproduces, or the eighth error within 24 hours, is lasting. -/
def execSelfTestComplete (u : HwUnit) (lasting : Bool) (s : State) : Out :=
  let s := match u with
    | .engine c e => postOnce (modCore s c (fun k => { k with testing := k.testing.filter (· ≠ e) })) (.taskStart c)
    | _ => s
  let n := ((coreOf s (unitCore u)).errors.filter (fun p => p.1 == unitNum u && decide (s.now ≤ p.2 + dayCycles))).length
  .next (if lasting || decide (8 ≤ n) then post s (.unitRetire u) else s)
/-- Teams that stand on a core, or whose train is on its way there. -/
def occupied (s : State) (core : Nat) : Bool :=
  s.teams.any (fun tm => onCore tm core) || s.trains.any (fun t => match t.migr with
    | .transit c _ => c == core
    | _ => false)
/-- Pre-emption of the teams of a core (R387). -/
def evictCore (s : State) (core : Nat) (pre : Bool) : State := evictTeams s (fun tm => onCore tm core) pre
/-- Fencing (R451): the core's column is zero, and its teams go elsewhere. -/
def fenceCore (s : State) (core : Nat) : State :=
  let s := modCore s core (fun k => { k with fenced := true })
  evictCore { s with margin := aset s.margin core (marginOf s core ||| 1#64) } core false
/-- Banks that go dead with a unit (R29, R451). DESIGN CHOICE (log 41): R29 numbers the bus groups of a tier 0 to 7 and not the 32 of a
core, which are taken tier by tier. -/
def unitBanks : HwUnit → List Nat
  | .bank _ n => if n < 2048 then [n] else []
  | .bus _ g => if g < 32 then (List.range 64).map (fun i => g / 8 * 512 + g % 8 * 64 + i) else []
  | _ => []
/-- Records of a retirement: to firmware, and to each context that has a team on the core (R451). -/
def retireRecords (s : State) (u : HwUnit) (cap : Nat) (lanes : BitVec 32) : State :=
  let core := unitCore u
  let e := fun (ctx : Nat) => { errRec 9 0 core ctx with
    unit := unitField u, detail := [BitVec.ofNat 64 cap, BitVec.ofNat 64 lanes.toNat] }
  let ctxs := nub ((s.teams.filter (fun tm => onCore tm core)).map (·.ctx))
  ctxs.foldl (fun s c => addErr s (e c)) (addErr s (e 0xFF))
/-- UNIT_RETIRE (R451): a unit that is out already stays so; a link goes on at the next lower width. -/
def execUnitRetire (u : HwUnit) (s : State) : Out :=
  let core := unitCore u
  let k := coreOf s core
  let bs := (unitBanks u).filter (fun n => !k.dead.contains n && !k.retire.contains n)
  let dead := k.dead ++ k.retire ++ bs
  let asIs := fun (s : State) => retireRecords s u (oscap { k with dead := k.dead ++ k.retire }) (k.lanes &&& ~~~k.fuse)
  .next (match u with
    | .link p => { asIs s with links := aset s.links p (aget 0 s.links p + 1) }
    | .bank _ _ | .bus _ _ =>
      if bs.isEmpty then s
      else if oscap { k with dead := dead } < 7340032 then fenceCore (asIs s) core
      else
        let s := retireRecords s u (oscap { k with dead := dead }) (k.lanes &&& ~~~k.fuse)
        postOnce (modCore s core (fun k => { k with retire := k.retire ++ bs, stopped := true })) (.remapStep core)
    | .lane _ i =>
      if 32 ≤ i ∨ (k.lanes &&& ~~~k.fuse).getLsbD i = false then s
      else
        let fuse := k.fuse ||| (1#32 <<< i)
        if goodLanes { k with lanes := k.lanes &&& ~~~fuse } < 28 then fenceCore (asIs s) core
        else
          let s := retireRecords s u (oscap { k with dead := k.dead ++ k.retire }) (k.lanes &&& ~~~fuse)
          let s := modCore s core (fun k => { k with fuse := fuse, stopped := true })
          postOnce (evictCore s core true) (.coreQuiesce core)
    | .engine _ e =>
      if 4 ≤ e ∨ (marginOf s core).getLsbD (12 + e) = false then s
      else
        let s := { asIs s with margin := aset s.margin core (marginOf s core &&& ~~~(1#64 <<< (12 + e))) }
        if fld (marginOf s core) 12 4 = 0 then fenceCore s core else s
    | .copy _ => if k.fenced then s else fenceCore (asIs s) core)
/-- Admission to a core goes on once nothing of its repairs is left (R452, R453). -/
def reopen (s : State) (core : Nat) : State :=
  reconsider (modCore s core (fun k => { k with stopped := !k.retire.isEmpty || k.fuse != 0#32 || k.drain.isSome }))
/-- REMAP_STEP (R452): once every team of the core is spilled, the banks are dead and teams come back. -/
def execRemapStep (core : Nat) (s : State) : Out :=
  .next (
    if (coreOf s core).retire.isEmpty then s
    else if occupied s core then post (evictCore s core false) (.remapStep core)
    else reopen (modCore s core (fun k => { k with dead := k.dead ++ k.retire, retire := [] })) core)

/-! Plans (R456, R457). -/

/-- A margin word with a plan applied: one version more, none pending, engines and fence as they stand (R457). -/
def planWord (old new : Word) : Word :=
  BitVec.ofNat 64 ((fld old 56 8 + 1) % 256 * 2 ^ 56 + fld new 32 24 * 2 ^ 32 + fld old 12 4 * 2 ^ 12 + fld old 0 1)
/-- The last core that was to quiesce for the next token plan has done so: it is in force (R457). -/
def tokensMove (s : State) (core : Nat) : State :=
  if s.tokenWait.isEmpty then s
  else
    let w := s.tokenWait.filter (· ≠ core)
    let s := { s with tokenWait := w }
    if w.isEmpty then
      { s with margin := (List.range 8).foldl (fun l i =>
          aset l (224 + i) (if i = 7 then 0#64 else marginOf s (225 + i))) s.margin }
    else s
/-- Pending fusing and the plan take effect together at a quiesce. -/
def quiesceCore (s : State) (core : Nat) : State :=
  let k := coreOf s core
  let lanes := k.lanes &&& ~~~k.fuse
  let g := goodLanes { k with lanes := lanes }
  let s := modCore s core (fun k => { k with
    lanes := lanes, fuse := 0#32, plan := none, drain := none
    ctime := ctimeWord ((k.plan.map (·.2)).getD k.ctime) g })
  let s := match k.plan with
    | some p =>
      let s := { s with margin := aset s.margin core (planWord (marginOf s core) p.1) }
      if Config.planFences s.tick core then fenceCore s core else s
    | none => s
  reopen (tokensMove s core) core
/-- CORE_QUIESCE (R453, R456): one core of a die at a time; admission stops, teams retire or, after 100 ms or before a lane
is fused, are evicted. -/
def execCoreQuiesce (core : Nat) (s : State) : Out :=
  let k := coreOf s core
  .next (
    if k.plan.isNone ∧ k.fuse = 0#32 then s
    else match k.drain with
      | none =>
        if (dieCores (dieOf core)).any (fun c => (coreOf s c).drain.isSome) then post s (.coreQuiesce core)
        else post (modCore s core (fun k => { k with stopped := true, drain := some s.now })) (.coreQuiesce core)
      | some t =>
        if occupied s core then
          let s := if k.fuse ≠ 0#32 then evictCore s core true
            else if t + drainCycles ≤ s.now then evictCore s core false else s
          post s (.coreQuiesce core)
        else quiesceCore s core)
/-- DAILY_REPLAN (R456): cores that the tests find, or all for a new token plan, get a plan. -/
def execDailyReplan (s : State) : Out :=
  let all := (List.range 224).filter (fun c => s.corAlive.getLsbD (dieOf c) && !(coreOf s c).fenced)
  let swap := Config.tokenSwitch s.tick
  let s := if swap && s.tokenWait.isEmpty then { s with tokenWait := all } else s
  .next ((all.filter (fun c => swap || Config.dailyFinds s.tick c)).foldl (fun s c =>
    let s := modCore s c (fun k => { k with plan := some (Config.planMargin s.tick c, Config.planCtime s.tick c) })
    postOnce { s with margin := aset s.margin c (marginOf s c ||| 2#64) } (.coreQuiesce c)) s)

/-! Remote accesses that fail (R437). -/

/-- A request of a thread that a link could not deliver: a load or an atomic faults, a store is dropped. -/
def remoteReq (s : State) (r : Req) : State :=
  if r.keys.all (fun k => decide (k < 2 ^ 52)) || r.stage == .applied || r.replied then s
  else
  let s := { s with xings := s.xings.map (fun p => (p.1, p.2.filter (fun x => decide (x ≠ .write r.id)))) }
  match r.kind with
    | .load _ _ (some _) => s
    | .load _ _ none => lateFault s r 129
    | .atom _ _ _ _ _ _ => writeMoved (modReq (post s (.loadReply r.id)) r.id (fun r => { r with stage := .applied, flt := 129, acked := true })) r.tr
    | .store _ | .poison =>
      let s := addErr s { errRec 8 1 r.core r.ctx with
        addr := BitVec.ofNat 64 (r.keys.headD 0 % 2 ^ 52 / 32 * 32), span := addrSpan r.va, cause := 129 }
      writeMoved (delReq s r.id) r.tr
    | .bt _ => s
/-- A span of a context lies beyond a link. -/
def farSpan (s : State) (ctx span : Nat) : Bool :=
  ((findCtx s ctx).map (fun c => let k := bitsN (spanEntry s c span) 0 3; k == 2 || k == 3)).getD false
/-- The device-memory spans that a command reads and writes. -/
def cmdSpans (c : Cmd) : List Nat × List Nat :=
  let d := c.desc.getD []
  match c.fn with
  | .copy | .fill => match copyD (c.fn == .fill) d with
    | some x => (if x.sscr || c.fn == .fill then [] else [x.sspan], if x.dscr then [] else [x.dspan])
    | none => ([], [])
  | .pfill => (((pfillD d).map (·.sspan)).toList, [])
  | .ring => ([], [])
  | .wld => match wldD d with
    | some x => (if x.sscr then [] else [x.sspan], [])
    | none => ([], [])
/-- The slot whose poll of far memory has a number, with the address that it polls (R146, R437). -/
def farPoll (s : State) (id : Nat) : Option (Train × Nat × Addr) :=
  s.trains.findSome? (fun t => (List.range 32).findSome? (fun i => match (slotAt t i).wait with
    | .watch _ _ va _ (some n) => if n = id ∧ t.halted = false ∧ t.trap.isNone then some (t, i, va) else none
    | _ => none))
/-- The failure code of a command that a link has failed: 2 for its source, 11 for its destination, and where both are far either
(R260, R437). -/
def farCode (s : State) (ctx : Nat) (c : Cmd) : Option Nat :=
  let src := (cmdSpans c).1.any (farSpan s ctx)
  let dst := (cmdSpans c).2.any (farSpan s ctx)
  if src && dst then some (if Config.pick s.tick 2 % 2 = 0 then 2 else 11)
  else if src then some 2 else if dst then some 11 else none
/-- REMOTE_ACCESS_TIMEOUT (R437): of a request, of the poll of a waitw, of a running command, or of the drain of a tile task. -/
def execRemoteAccessTimeout (id : Nat) (s : State) : Out :=
  .next (match findReq s id with
    | some r => remoteReq s r
    | none => match findCmd s id with
      | some c =>
        let ctx := ((findTeam s c.team).map (·.ctx)).getD 0xFF
        if c.stage ≠ .running then s
        else match farCode s ctx c with
          | some code => post s (.commandFail id code)
          | none => s
      | none => match findTask s id with
        | some k =>
          let ctx := ((findTeam s k.team).map (·.ctx)).getD 0xFF
          let r := recOf k.snap
          if k.stage = .running ∧ r.dscr = false ∧ farSpan s ctx r.dspan = true then post s (.taskFail id 11) else s
        | none => match farPoll s id with
          | some (t, i, va) => waitFault s t.uid i (slotAt t i).pc (cause 4 1) 0#64 va
          | none => s)

end Sys2Proof.Machine
end

