-- ==== Sys2Proof/Machine/Imm.lean ====
section
/-! DEFINITION. The immediate forms iopi, shi and limm (R118 to R120). -/

namespace Sys2Proof.Machine

/-- An iopi immediate, sign-extended to 64 bits (R118). -/
def immW (imm : BitVec 31) : Word := imm.signExtend 64
/-- iopi.addi (R118). -/
def execIopiAddi (d a : Reg) (imm : BitVec 31) (s : State) : Out := vecOp (.iopiAddi d a imm) d (fun rd => rd a + immW imm) s
/-- iopi.andi (R118). -/
def execIopiAndi (d a : Reg) (imm : BitVec 31) (s : State) : Out := vecOp (.iopiAndi d a imm) d (fun rd => rd a &&& immW imm) s
/-- iopi.ori (R118). -/
def execIopiOri (d a : Reg) (imm : BitVec 31) (s : State) : Out := vecOp (.iopiOri d a imm) d (fun rd => rd a ||| immW imm) s
/-- iopi.xori (R118). -/
def execIopiXori (d a : Reg) (imm : BitVec 31) (s : State) : Out := vecOp (.iopiXori d a imm) d (fun rd => rd a ^^^ immW imm) s
/-- shi.shli by the amount field, used whole (R119). -/
def execShiShli (w : Width) (d a : Reg) (n : BitVec 8) (s : State) : Out :=
  vecOp (.shiShli w d a n) d (fun rd => map1 w (fun w u => shlF w u n.toNat) (rd a)) s
/-- shi.shri by the amount field, used whole (R119). -/
def execShiShri (w : Width) (d a : Reg) (n : BitVec 8) (s : State) : Out :=
  vecOp (.shiShri w d a n) d (fun rd => map1 w (fun w u => shrF w u n.toNat) (rd a)) s
/-- shi.sari by the amount field, used whole (R119). -/
def execShiSari (w : Width) (d a : Reg) (n : BitVec 8) (s : State) : Out :=
  vecOp (.shiSari w d a n) d (fun rd => map1 w (fun w u => sarF w u n.toNat) (rd a)) s
/-- shi.roli by the amount field, used whole (R119). -/
def execShiRoli (w : Width) (d a : Reg) (n : BitVec 8) (s : State) : Out :=
  vecOp (.shiRoli w d a n) d (fun rd => map1 w (fun w u => rolF w u n.toNat) (rd a)) s
/-- shi.rori by the amount field, used whole (R119). -/
def execShiRori (w : Width) (d a : Reg) (n : BitVec 8) (s : State) : Out :=
  vecOp (.shiRori w d a n) d (fun rd => map1 w (fun w u => rorF w u n.toNat) (rd a)) s
/-- The value of limm over the old d (R120): ins, set and sets of chunk c. -/
def limmIns (c : BitVec 2) (imm : BitVec 16) (old : Word) : Word :=
  (old &&& ~~~((0xFFFF#64) <<< (16 * c.toNat))) ||| (imm.setWidth 64) <<< (16 * c.toNat)
def limmSet (c : BitVec 2) (imm : BitVec 16) : Word := (imm.setWidth 64) <<< (16 * c.toNat)
def limmSets (c : BitVec 2) (imm : BitVec 16) : Word := (imm.signExtend 64) <<< (16 * c.toNat)
/-- limm is uniform with a k destination, and vector otherwise (R78, R120). -/
def limmOp (ins : Instr) (d : Reg) (f : (Reg → Word) → Word) (s : State) : Out :=
  if isK d then uniOp ins s (fun t m => writeK t d (f (readReg t (lowSlot m)))) else vecOp ins d f s
/-- limm.ins (R120). -/
def execLimmIns (d : Reg) (c : BitVec 2) (imm : BitVec 16) (s : State) : Out :=
  limmOp (.limmIns d c imm) d (fun rd => limmIns c imm (rd d)) s
/-- limm.set (R120). -/
def execLimmSet (d : Reg) (c : BitVec 2) (imm : BitVec 16) (s : State) : Out :=
  limmOp (.limmSet d c imm) d (fun _ => limmSet c imm) s
/-- limm.sets (R120). -/
def execLimmSets (d : Reg) (c : BitVec 2) (imm : BitVec 16) (s : State) : Out :=
  limmOp (.limmSets d c imm) d (fun _ => limmSets c imm) s

end Sys2Proof.Machine
end

