-- ==== Sys2Proof/Machine/Packet.lean ====
section
/-! DEFINITION. Packets as they are processed, and the prologue unit's launch forms (spec/17 R358 to R371). -/

namespace Sys2Proof.Machine

/-- The frame of a packet event: the packet at the head of a busy queue, of a type, once its wait flag lets it (R358). A queue
that is to be unmapped starts no packet, but an FFENCE in progress runs to its end (R373). `again` is the event itself. -/
def onPkt (s : State) (slot ty : Nat) (again : Instr) (f : State → QSlot → WPkt → State) : State :=
  match findQ s slot with
  | none => s
  | some q => match q.window with
    | [] => s
    | p :: _ =>
      if q.state ≠ 1 ∨ q.busy = false ∨ p.err ≠ 0 ∨ bitsN p.hdr 0 8 ≠ ty then s
      else if q.frozen ∧ ty ≠ 6 then saveQueue s slot
      else if (bitsN p.hdr 24 1 = 1 ∧ q.launches ≠ []) ∨ rptrWaits s q = true then post s again
      else f s q p
/-- Word `i` of a body, and bits of it. -/
def bodyW (p : WPkt) (i : Nat) : Nat := (p.body.getD i 0#64).toNat
def bodyF (p : WPkt) (i lo n : Nat) : Nat := bitsN (bodyW p i) lo n
/-- A faulted access of a packet (R371). -/
def accessExc (s : State) (slot c : Nat) : State := packetFault s slot (readExc c) c

/-- PACKET_NOP (R358). -/
def execPacketNop (slot : Nat) (s : State) : Out := .next (onPkt s slot 0 (.packetNop slot) (fun s _ _ => pktDone s slot))
/-- Bytes of words. -/
def bytesOf (ws : List Word) : List Byte := ws.flatMap (fun w => bytesN 8 w.toNat)
/-- PACKET_LAUNCH (R360). -/
def execPacketLaunch (slot : Nat) (s : State) : Out :=
  .next (onPkt s slot 1 (.packetLaunch slot) (fun s q p =>
    match acceptLaunch s q.ctx q.prio (some slot) (bytesOf p.body) with
    | .error c => packetFault s slot 8 c
    | .ok s => pktDone s slot))

/-! The prologue unit (R361, R368, R370). -/

/-- A run of a prologue: slot 0 of a train of its own, its registers zero but for the template (R368). -/
def prologueRun (uid slot entry : Nat) (k : List Word) : Train :=
  { uid := uid, team := 0, idx := 0, core := 256, resident := 0, A := 0, B := 0, cbase := entry, k := csetAll [] 0 k,
    fflags := 0#5, lapsed := false, prio := 0, aging := 0, canSince := none, yieldTo := 0, thand := 0#64, inHand := false,
    sstep := false, step := none, trap := none, tgrp := 0, fpc := 0#40,
    slots := { Slot.blank with st := .ready } :: List.replicate 31 Slot.blank, ports := [], compl := [], lastBar := [],
    declared := none, lastIss := 0, escape := none, migr := .none, halted := false, retired := false,
    prol := some (slot, entry, 0, 0) }
/-- PACKET_LAUNCH2 (R361): it waits for a free prologue unit. -/
def execPacketLaunch2 (slot : Nat) (s : State) : Out :=
  .next (onPkt s slot 2 (.packetLaunch2 slot) (fun s _ p =>
    if bodyW p 0 % 4 ≠ 0 then packetFault s slot 2 0
    else if 4 ≤ (s.trains.filter (fun t => t.prol.isSome)).length then post s (.packetLaunch2 slot)
    else
      let (uid, s) := fresh s
      { s with trains := s.trains ++ [prologueRun uid slot (bodyW p 0) (p.body.drop 1)] }))
/-- The run of a prologue is over. -/
def dropRun (s : State) (uid : Nat) : State := { s with trains := s.trains.filter (fun t => decide (t.uid ≠ uid)), iss := none }
/-- The frame of the launch forms: they are for the prologue unit, and trap 9:2 on a core (R149, R370). -/
def launchForm (ins : Instr) (f : State → Train → Nat × Nat × Nat × Nat → State) (s : State) : Out :=
  runIns ins s (fun s iss t m => match t.prol with
    | none => faultAll s iss t m (cause 9 2) 0#64
    | some p => f s t p)
/-- Commits the launch that k0 to k15 describe; a body that fails raises packet exception 8 (R370). -/
def commitRun (s : State) (t : Train) (slot : Nat) (done : State → State) : State :=
  match findQ s slot with
  | none => dropRun s t.uid
  | some q => match acceptLaunch s q.ctx q.prio (some slot) (bytesOf ((List.range 16).map (cget t.k))) with
    | .error c => packetFault (dropRun s t.uid) slot 8 c
    | .ok s => done s
/-- sys.lcommit (R370). -/
def execSysLcommit (s : State) : Out :=
  launchForm .sysLcommit (fun s t p => commitRun s t p.1 (fun s => pktDone (dropRun s t.uid) p.1)) s
/-- sys.lcancel (R370). -/
def execSysLcancel (s : State) : Out := launchForm .sysLcancel (fun s t p => pktDone (dropRun s t.uid) p.1) s
/-- sys.lrepeat (R370): a new run with the registers kept, up to 16 commits; a queue that is to be unmapped ends here (R375). -/
def execSysLrepeat (s : State) : Out :=
  launchForm .sysLrepeat (fun s t p => commitRun s t p.1 (fun s =>
    let frozen := ((findQ s p.1).map (·.frozen)).getD false
    if 16 ≤ p.2.2.1 + 1 then pktDone (dropRun s t.uid) p.1
    else if frozen then saveQueue (dropRun s t.uid) p.1
    else
      setTrain { s with iss := none } { t with
        slots := t.slots.map (fun x => if x.st = .ready then { x with pc := 0#40 } else x)
        prol := some (p.1, p.2.1, p.2.2.1 + 1, 0) })) s
/-- PROLOGUE_RUNAWAY (R369): a run that has issued 4,096 instructions. -/
def execPrologueRunaway (unit : Nat) (s : State) : Out :=
  .next (match findTrain s unit with
    | none => s
    | some t => match t.prol with
      | none => s
      | some p => if 4096 ≤ p.2.2.2 then packetFault s p.1 11 0 else s)

/-! IB, PRED and LOOP (R363). -/

/-- PACKET_IB: the fetcher runs on into the buffer. -/
def execPacketIb (slot : Nat) (s : State) : Out :=
  .next (onPkt s slot 3 (.packetIb slot) (fun s _ p =>
    if bodyW p 0 % 8 ≠ 0 ∨ bodyF p 1 32 32 ≠ 0 ∨ bodyF p 1 0 32 = 0 then packetFault s slot 2 0 else pktDone s slot))
/-- The test of PRED and WAITMEM, on natural 64-bit values (R362, R363). -/
def predTest (cond v cmp : Nat) : Bool :=
  match cond with
  | 0 => v == cmp | 1 => v != cmp | 2 => decide (v < cmp) | 3 => decide (cmp ≤ v) | _ => (v &&& cmp) != 0
/-- Fields of a PRED or WAITMEM that are out of range (R362, R364). -/
def predBad (p : WPkt) (resBits : Nat) : Bool := decide (bodyW p 0 % 8 ≠ 0 ∨ bodyF p 2 4 resBits ≠ 0 ∨ 4 < bodyF p 2 0 4)
/-- PACKET_PRED: the arm that is not taken has no effect. -/
def execPacketPred (slot : Nat) (s : State) : Out :=
  .next (onPkt s slot 4 (.packetPred slot) (fun s q p =>
    if predBad p 12 then packetFault s slot 2 0
    else if feBehind s q.ctx 0 (bodyW p 0) 8 then post s (.packetPred slot)
    else
      let rd := feRead s q.ctx 0 (bodyW p 0) 8
      let s := feNote s q.ctx 0 (bodyW p 0) 8
      match rd with
      | .error c => accessExc s slot c
      | .ok bs =>
        let arm := if predTest (bodyF p 2 0 4) (leN bs) (bodyW p 1) then p.elseA else p.thenA
        pktDone (modQ s slot (fun q => { q with dead := q.dead ++ [arm] })) slot))
/-- PACKET_LOOP: the fetcher runs through the body for each pass. -/
def execPacketLoop (slot : Nat) (s : State) : Out :=
  .next (onPkt s slot 5 (.packetLoop slot) (fun s _ p =>
    if bodyF p 0 32 32 ≠ 0 ∨ bodyF p 0 8 24 = 0 ∨ bodyF p 0 0 8 = 0 then packetFault s slot 2 0 else pktDone s slot))

/-! WAITMEM, WRITE, SIGNAL and FFENCE (R364, R366). -/

/-- PACKET_FFENCE: every earlier launch has completed, and earlier writes have been made; the next window is fetched anew. -/
def execPacketFfence (slot : Nat) (s : State) : Out :=
  .next (onPkt s slot 6 (.packetFfence slot) (fun s q _ =>
    if q.launches ≠ [] then post s (.packetFfence slot) else pktDone s slot))
/-- One read of a WAITMEM: it ends, or watches the word's line, with a poll for a word that is not in device memory. `again` is the
event itself. -/
def waitmemRead (s : State) (slot : Nat) (q : QSlot) (p : WPkt) (again : Instr) : State :=
  match transNow s q.ctx 0 (bodyW p 0) 8 accRead with
  | .error (t, _) => accessExc s slot (96 + 4 * t)
  | .ok kv =>
    if ioBehind s (kv.map (·.1)) || rptrWaits s q then post s again else
    let rd := readDie s 4 kv
    let s := feNote s q.ctx 0 (bodyW p 0) 8
    match rd with
    | .bad d => accessExc s slot (128 + d)
    | .ok bs =>
      if predTest (bodyF p 2 0 4) (leN bs) (bodyW p 1) then pktDone s slot
      else
        let ks := kv.map (·.1)
        let s := modQ s slot (fun q => { q with watch := some ks })
        if ks.any (fun k => decide (2 ^ 52 ≤ k)) then post s (.waitmemRecheck slot (s.now + Config.us)) else s
/-- PACKET_WAITMEM. -/
def execPacketWaitmem (slot : Nat) (s : State) : Out :=
  .next (onPkt s slot 7 (.packetWaitmem slot) (fun s q p =>
    if predBad p 60 then packetFault s slot 2 0 else waitmemRead s slot q p (.packetWaitmem slot)))
/-- WAITMEM_RECHECK (R364): the word is read again, after a change of its line or at a poll. -/
def execWaitmemRecheck (slot due : Nat) (s : State) : Out :=
  .next (match findQ s slot with
    | none => s
    | some q => match q.window with
      | p :: _ => if q.watch.isSome ∧ q.state = 1 ∧ bitsN p.hdr 0 8 = 7 then waitmemRead (atTime s due) slot q p (.waitmemRecheck slot due) else s
      | [] => s)
/-- PACKET_WRITE. -/
def execPacketWrite (slot : Nat) (s : State) : Out :=
  .next (onPkt s slot 8 (.packetWrite slot) (fun s q p =>
    if bodyW p 0 % 8 ≠ 0 then packetFault s slot 2 0
    else if !ioClear s then post s (.packetWrite slot)
    else match feWrite s q.ctx 0 (bodyW p 0) (bytesN 8 (bodyW p 1)) with
      | .error c => accessExc (feMark s q.ctx 0 (bodyW p 0) 8) slot c
      | .ok s => pktDone s slot))
/-- The team of a context that a signal names, by core and team slot: one that stands before one that is away. -/
def signalTeam (s : State) (ctx core tslot off : Nat) : Option Team :=
  let ts := s.teams.filter (fun tm => tm.ctx == ctx && tm.core == core && tm.tslot == tslot && isBobj tm off)
  match ts.find? (fun tm => onCore tm core) with
  | some tm => some tm
  | none => ts.head?
/-- PACKET_SIGNAL_BOBJ: an arrival of bytes at a barrier object, of its phase as it stands; at that of an evicted team it is made
in its image at once (R364, R391). -/
def execPacketSignalBobj (slot : Nat) (s : State) : Out :=
  .next (onPkt s slot 9 (.packetSignalBobj slot) (fun s q p =>
    if bodyF p 0 62 2 = 1 then s
    else if 2 ≤ bodyF p 0 62 2 ∨ bodyF p 0 23 25 ≠ 0 ∨ 2 ^ 32 ≤ bodyW p 1 then packetFault s slot 2 0
    else match signalTeam s q.ctx (bodyF p 0 54 8) (bodyF p 0 48 6) (bodyF p 0 0 23) with
      | none => packetFault s slot 13 0
      | some tm => pktDone (objCountNow s tm.id (bodyF p 0 0 23) (bodyW p 1) (objOf tm (bodyF p 0 0 23)).phase) slot))
/-- PACKET_SIGNAL_WAKE: a wake write. -/
def execPacketSignalWake (slot : Nat) (s : State) : Out :=
  .next (onPkt s slot 9 (.packetSignalWake slot) (fun s q p =>
    if bodyF p 0 62 2 ≠ 1 then s
    else if bodyF p 0 9 53 ≠ 0 then packetFault s slot 2 0
    else pktDone (wakeQueue s q.ctx (bodyF p 0 0 9) (bodyW p 1)) slot))

end Sys2Proof.Machine
end

