-- ==== Sys2Proof/Machine/Pfx.lean ====
section
/-! DEFINITION. Prefix words: each is read into the issue, and the chain goes on (R72 to R77, R135). -/

namespace Sys2Proof.Machine

/-- A prefix joins the chain of the word now issuing. -/
def joinChain (s : State) (f : Issue → Issue) : Out :=
  match s.iss with
  | none => .fault .noRun
  | some iss => .next { s with iss := some { f iss with wpc := iss.wpc + 4#40 } }
/-- rep: the repeats and steps of the next instruction (R73, R135). -/
def execRep (bs as_ ds : BitVec 2) (be ae de : Bool) (c : BitVec 6) (s : State) : Out :=
  joinChain s (fun iss => { iss with kinds := 0 :: iss.kinds, rep := some (.rep bs as_ ds be ae de c) })
/-- grd: the guard of the next count instructions (R75). -/
def execGrd (c : BitVec 3) (sense : Bool) (p : R3) (s : State) : Out :=
  joinChain s (fun iss => { iss with kinds := 1 :: iss.kinds, grd := some ⟨c.toNat + 1, sense, p⟩ })
/-- xim: the extension word of the next instruction (R76). -/
def execXim (e : BitVec 20) (s : State) : Out :=
  joinChain s (fun iss => { iss with kinds := 2 :: iss.kinds, ext := some e })

end Sys2Proof.Machine
end

