-- ==== Sys2Proof/Machine/Scal.lean ====
section
/-! DEFINITION. The uniform operations of scal (R126 to R128). -/

namespace Sys2Proof.Machine

/-- scal addF, at 64 bits (R126). -/
def execScalAdd (d a b : Reg) (s : State) : Out :=
  uniOp (.scalAdd d a b) s (fun t _ => writeK t d (map2 .w64 addF (readReg t 0 a) (readReg t 0 b)))
/-- scal subF, at 64 bits (R126). -/
def execScalSub (d a b : Reg) (s : State) : Out :=
  uniOp (.scalSub d a b) s (fun t _ => writeK t d (map2 .w64 subF (readReg t 0 a) (readReg t 0 b)))
/-- scal mulF, at 64 bits (R126). -/
def execScalMul (d a b : Reg) (s : State) : Out :=
  uniOp (.scalMul d a b) s (fun t _ => writeK t d (map2 .w64 mulF (readReg t 0 a) (readReg t 0 b)))
/-- scal shlF, at 64 bits (R126). -/
def execScalShl (d a b : Reg) (s : State) : Out :=
  uniOp (.scalShl d a b) s (fun t _ => writeK t d (map2 .w64 shlF (readReg t 0 a) (readReg t 0 b)))
/-- scal shrF, at 64 bits (R126). -/
def execScalShr (d a b : Reg) (s : State) : Out :=
  uniOp (.scalShr d a b) s (fun t _ => writeK t d (map2 .w64 shrF (readReg t 0 a) (readReg t 0 b)))
/-- scal sarF, at 64 bits (R126). -/
def execScalSar (d a b : Reg) (s : State) : Out :=
  uniOp (.scalSar d a b) s (fun t _ => writeK t d (map2 .w64 sarF (readReg t 0 a) (readReg t 0 b)))
/-- scal minI, at 64 bits (R126). -/
def execScalMinI (d a b : Reg) (s : State) : Out :=
  uniOp (.scalMinI d a b) s (fun t _ => writeK t d (map2 .w64 minI (readReg t 0 a) (readReg t 0 b)))
/-- scal minN, at 64 bits (R126). -/
def execScalMinN (d a b : Reg) (s : State) : Out :=
  uniOp (.scalMinN d a b) s (fun t _ => writeK t d (map2 .w64 minN (readReg t 0 a) (readReg t 0 b)))
/-- scal maxI, at 64 bits (R126). -/
def execScalMaxI (d a b : Reg) (s : State) : Out :=
  uniOp (.scalMaxI d a b) s (fun t _ => writeK t d (map2 .w64 maxI (readReg t 0 a) (readReg t 0 b)))
/-- scal maxN, at 64 bits (R126). -/
def execScalMaxN (d a b : Reg) (s : State) : Out :=
  uniOp (.scalMaxN d a b) s (fun t _ => writeK t d (map2 .w64 maxN (readReg t 0 a) (readReg t 0 b)))
/-- scal.and (R126). -/
def execScalAnd (d a b : Reg) (s : State) : Out :=
  uniOp (.scalAnd d a b) s (fun t _ => writeK t d (readReg t 0 a &&& readReg t 0 b))
/-- scal.or (R126). -/
def execScalOr (d a b : Reg) (s : State) : Out :=
  uniOp (.scalOr d a b) s (fun t _ => writeK t d (readReg t 0 a ||| readReg t 0 b))
/-- scal.xor (R126). -/
def execScalXor (d a b : Reg) (s : State) : Out :=
  uniOp (.scalXor d a b) s (fun t _ => writeK t d (readReg t 0 a ^^^ readReg t 0 b))
/-- scal.rdlane: the w register of the slot that b names, whatever its state (R127); a slot number above 31 traps 1:5 for
the whole run, since class 1 is decided for it (R416). -/
def execScalRdlane (d a b : Reg) (s : State) : Out :=
  runIns (.scalRdlane d a b) s (fun s iss t m =>
    let n := (readReg t 0 b).toNat
    if 31 < n then faultAll s iss t m (cause 1 5) (BitVec.ofNat 64 n)
    else settle s iss (writeK t d (readReg t n a)) [])
/-- scal.bcast: k register a into w register d of each active slot (R128). -/
def execScalBcast (d a : Reg) (s : State) : Out :=
  uniOp (.scalBcast d a) s (fun t m => writeUni t m d (readReg t 0 a))

end Sys2Proof.Machine
end

