-- ==== Sys2Proof/Machine/Sequencer.lean ====
section
/-! DEFINITION. Background engines: the retention sequencer and the roll-up of the bridle tree (spec/01 R38, spec/09 R224,
spec/20 R403, spec/24 R445, R454). -/

namespace Sys2Proof.Machine

/-- What a refresh read does to a half-sector (R444, R445, R454). -/
def refreshHalf (s : State) (team h : Nat) : State :=
  match findTeam s team with
  | none => s
  | some tm =>
    let put := fun (s : State) (c : HalfCond) => modTeam s team (fun tm => { tm with scond := setCond tm.scond h c })
    match aget .clean tm.scond h with
    | .clean | .poison => s
    | .single _ => put (noteScr s tm h) .clean
    | .poisonSingle _ =>
      put (noteScr s { tm with scond := [(h, .single 0)] } h) .poison
    | .bad => put (noteScr s tm h) .poison
/-- A refresh of a half-sector of a slot's registers, which are KEEP (R38, R223). -/
def refreshReg (s : State) (t : Train) (i h : Nat) : State :=
  let put := fun (s : State) (c : HalfCond) => modTrain s t.uid (fun t => modSlot t i (fun x => { x with rcond := setCond x.rcond h c }))
  match aget HalfCond.clean (slotAt t i).rcond h with
  | .clean | .poison => s
  | .single _ => put (noteReg s t i h) .clean
  | .poisonSingle _ => put (noteReg s (modSlot t i (fun x => { x with rcond := [(h, .single 0)] })) i h) .poison
  | .bad => put (noteReg s t i h) .poison
/-- RETENTION_REFRESH (R38): a KEEP granule is read and written back; numbers from 65,536 on name the registers of a slot: 65,536 for
each train of the team, by its index and one, and the slot. -/
def execRetentionRefresh (team granule : Nat) (s : State) : Out :=
  .next (match findTeam s team with
    | none => s
    | some tm => if 65536 ≤ granule then
      match (teamTrains s team).find? (fun t => t.idx == granule / 65536 - 1) with
      | none => s
      | some t => ((slotAt t (granule % 32)).rcond.map (·.1)).foldl (fun s h => match findTrain s t.uid with
        | some t => refreshReg s t (granule % 32) h
        | none => s) s
      else match anyAlloc tm (256 * granule) with
      | none => s
      | some a => if a.ret = .keep then (List.range 8).foldl (fun s i => refreshHalf s team (8 * granule + i)) s else s)
/-- RETENTION_MARK_EXPIRED (R224). -/
def execRetentionMarkExpired (team granule : Nat) (s : State) : Out :=
  .next (modTeam s team (fun tm =>
    if (expired s.now tm granule).isSome && !tm.marked.contains granule then { tm with marked := tm.marked ++ [granule] } else tm))
/-- BRIDLE_ROLLUP (R403): of a live node; of one under change it waits. -/
def execBridleRollup (ctx node : Nat) (s : State) : Out :=
  .next (match findCtx s ctx with
    | none => s
    | some c =>
      if (nodeOf c node).state = 1 then rollNode s ctx node
      else if (nodeOf c node).state = 0 then s else post s (.bridleRollup ctx node))

end Sys2Proof.Machine
end

