-- ==== Sys2Proof/Machine/Wakes.lean ====
section
/-! DEFINITION. Events of a train that stands still: presence and port wakes, the escape, aging and trap entry (spec/08
R187, R190, spec/09 R238, R246, spec/22 R420). -/

namespace Sys2Proof.Machine

/-- PRESENCE_WAKE (R238): slots that waited for a line of their team's scratch make their access again once every line of
it is present. -/
def presenceWoken (s : State) (team line : Nat) : State :=
  match findTeam s team with
  | none => s
  | some tm =>
    if lineAbsent tm line then s
    else { s with trains := s.trains.map (fun t =>
      if t.team = team && !t.halted then
        mapSlots t (fun _ x => match x.wait with
          | .presence ls => if ls.any (lineAbsent tm) then x else waitRetry x
          | _ => x)
      else t) }
@[inherit_doc presenceWoken] def execPresenceWake (team line : Nat) (s : State) : Out := .next (presenceWoken s team line)

/-- A port on which a slot waits can serve it, as far as its target shows. -/
def portServes (s : State) (t : Train) (i q : Nat) : Bool :=
  match afind t.ports q with
  | none => true
  | some g =>
    if isPop g then (popChk s t i q).1 != .park
    else match g with
      | .stageOut => pushChk s t i q 0#64 != .park
      | _ => true
/-- QUEUE_PORT_WAKE (R68, R246): a slot parked on a port tries again. -/
def execQueuePortWake (tr slot : Nat) (s : State) : Out :=
  .next (match findTrain s tr with
    | none => s
    | some t => match (slotAt t slot).wait with
      | .port q => if t.halted || !portServes s t slot q then s else modTrain s tr (fun t => modSlot t slot waitRetry)
      | _ => s)

/-- ESCAPE_ISSUE (R187): the train's next issue is the run at the slot that has been left out 256 times. -/
def execEscapeIssue (tr : Nat) (s : State) : Out :=
  .next (match findTrain s tr with
    | none => s
    | some t => modTrain s tr (fun u => { u with escape := escapeSlot s t }))
/-- AGING_STEP (R190): one step for 4,096 cycles without being chosen, and the count begins anew. -/
def execAgingStep (tr : Nat) (s : State) : Out :=
  .next (modTrain s tr (fun t => match t.canSince with
    | some c => if c + 4096 ≤ s.now then { t with aging := t.aging + 1, canSince := some (c + 4096) } else t
    | none => t))
/-- TRAP_ENTRY (R420): the handler is entered once nothing of the train is on its way back, also where a halt is asked for,
which waits for it (R421); a stepped instruction that has
completed after a wait traps (R424). -/
def execTrapEntry (tr : Nat) (s : State) : Out :=
  .next (match findTrain s tr with
    | none => s
    | some t => match t.trap with
      | none => if t.sstep && stepOver t && !t.halted then stepTrap s t else s
      | some p => if entryWaits s tr then post s (.trapEntry tr) else setTrain s (enterTrain t p))

end Sys2Proof.Machine
end

