-- ==== Sys2Proof/Machine/Dispatch.lean ====
section
/-! DEFINITION. One arm for each instruction: a direct call of its meaning, or its rejection by name. -/

namespace Sys2Proof.Machine
open Sys2Proof

def exec (i : Instr) (s : State) : Host.Outcome State Fault Refusal :=
  match i with
  | .sysTrap n => Sys2Proof.Machine.execSysTrap n s
  | .sysSrd d spec a => Sys2Proof.Machine.execSysSrd d spec a s
  | .sysSwr spec a b => Sys2Proof.Machine.execSysSwr spec a b s
  | .sysFence kind sc => Sys2Proof.Machine.execSysFence kind sc s
  | .sysWaitw scr an b => Sys2Proof.Machine.execSysWaitw scr an b s
  | .sysDlaunch a => Sys2Proof.Machine.execSysDlaunch a s
  | .rep bstep astep dstep ben aen den count => Sys2Proof.Machine.execRep bstep astep dstep ben aen den count s
  | .grd count sense p => Sys2Proof.Machine.execGrd count sense p s
  | .xim e => Sys2Proof.Machine.execXim e s
  | .ctlWin n => Sys2Proof.Machine.execCtlWin n s
  | .ctlOsalloc d a kind ret => Sys2Proof.Machine.execCtlOsalloc d a kind ret s
  | .ctlOsfree a => Sys2Proof.Machine.execCtlOsfree a s
  | .ctlBar h b => Sys2Proof.Machine.execCtlBar h b s
  | .ctlBarr h b => Sys2Proof.Machine.execCtlBarr h b s
  | .ctlBarw h => Sys2Proof.Machine.execCtlBarw h s
  | .ctlPrio n => Sys2Proof.Machine.execCtlPrio n s
  | .ctlMigr an => Sys2Proof.Machine.execCtlMigr an s
  | .ctlQbind q a => Sys2Proof.Machine.execCtlQbind q a s
  | .ctlQunbind q => Sys2Proof.Machine.execCtlQunbind q s
  | .ctlQlen d q => Sys2Proof.Machine.execCtlQlen d q s
  | .bra p sense off => Sys2Proof.Machine.execBra p sense off s
  | .jmpJmp off => Sys2Proof.Machine.execJmpJmp off s
  | .jmpCall d off => Sys2Proof.Machine.execJmpCall d off s
  | .jmpRet a => Sys2Proof.Machine.execJmpRet a s
  | .jmpJmpr a => Sys2Proof.Machine.execJmpJmpr a s
  | .jmpCallr d a => Sys2Proof.Machine.execJmpCallr d a s
  | .iopAdd w d a b => Sys2Proof.Machine.execIopAdd w d a b s
  | .iopSub w d a b => Sys2Proof.Machine.execIopSub w d a b s
  | .iopMul w d a b => Sys2Proof.Machine.execIopMul w d a b s
  | .iopMinI w d a b => Sys2Proof.Machine.execIopMinI w d a b s
  | .iopMinN w d a b => Sys2Proof.Machine.execIopMinN w d a b s
  | .iopMaxI w d a b => Sys2Proof.Machine.execIopMaxI w d a b s
  | .iopMaxN w d a b => Sys2Proof.Machine.execIopMaxN w d a b s
  | .iopAddsI w d a b => Sys2Proof.Machine.execIopAddsI w d a b s
  | .iopAddsN w d a b => Sys2Proof.Machine.execIopAddsN w d a b s
  | .iopSubsI w d a b => Sys2Proof.Machine.execIopSubsI w d a b s
  | .iopSubsN w d a b => Sys2Proof.Machine.execIopSubsN w d a b s
  | .iopShl w d a b => Sys2Proof.Machine.execIopShl w d a b s
  | .iopShr w d a b => Sys2Proof.Machine.execIopShr w d a b s
  | .iopSar w d a b => Sys2Proof.Machine.execIopSar w d a b s
  | .iopMulhI w d a b => Sys2Proof.Machine.execIopMulhI w d a b s
  | .iopMulhN w d a b => Sys2Proof.Machine.execIopMulhN w d a b s
  | .iopRol w d a b => Sys2Proof.Machine.execIopRol w d a b s
  | .iopRor w d a b => Sys2Proof.Machine.execIopRor w d a b s
  | .iopAvgN w d a b => Sys2Proof.Machine.execIopAvgN w d a b s
  | .iopAbs w d a => Sys2Proof.Machine.execIopAbs w d a s
  | .iopAnd d a b => Sys2Proof.Machine.execIopAnd d a b s
  | .iopOr d a b => Sys2Proof.Machine.execIopOr d a b s
  | .iopXor d a b => Sys2Proof.Machine.execIopXor d a b s
  | .iopAndn d a b => Sys2Proof.Machine.execIopAndn d a b s
  | .iopiAddi d a imm => Sys2Proof.Machine.execIopiAddi d a imm s
  | .iopiAndi d a imm => Sys2Proof.Machine.execIopiAndi d a imm s
  | .iopiOri d a imm => Sys2Proof.Machine.execIopiOri d a imm s
  | .iopiXori d a imm => Sys2Proof.Machine.execIopiXori d a imm s
  | .shiShli w d a n => Sys2Proof.Machine.execShiShli w d a n s
  | .shiShri w d a n => Sys2Proof.Machine.execShiShri w d a n s
  | .shiSari w d a n => Sys2Proof.Machine.execShiSari w d a n s
  | .shiRoli w d a n => Sys2Proof.Machine.execShiRoli w d a n s
  | .shiRori w d a n => Sys2Proof.Machine.execShiRori w d a n s
  | .limmIns d c imm => Sys2Proof.Machine.execLimmIns d c imm s
  | .limmSet d c imm => Sys2Proof.Machine.execLimmSet d c imm s
  | .limmSets d c imm => Sys2Proof.Machine.execLimmSets d c imm s
  | .bitBextI w d a b => Sys2Proof.Machine.execBitBextI w d a b s
  | .bitBextN w d a b => Sys2Proof.Machine.execBitBextN w d a b s
  | .bitBins w d a b => Sys2Proof.Machine.execBitBins w d a b s
  | .bitPopc w d a => Sys2Proof.Machine.execBitPopc w d a s
  | .bitClz w d a => Sys2Proof.Machine.execBitClz w d a s
  | .bitCtz w d a => Sys2Proof.Machine.execBitCtz w d a s
  | .bitBrev w d a => Sys2Proof.Machine.execBitBrev w d a s
  | .bitBperm d a b => Sys2Proof.Machine.execBitBperm d a b s
  | .cmp p cond ty comb a b => Sys2Proof.Machine.execCmp p cond ty comb a b s
  | .scalAdd d a b => Sys2Proof.Machine.execScalAdd d a b s
  | .scalSub d a b => Sys2Proof.Machine.execScalSub d a b s
  | .scalMul d a b => Sys2Proof.Machine.execScalMul d a b s
  | .scalAnd d a b => Sys2Proof.Machine.execScalAnd d a b s
  | .scalOr d a b => Sys2Proof.Machine.execScalOr d a b s
  | .scalXor d a b => Sys2Proof.Machine.execScalXor d a b s
  | .scalShl d a b => Sys2Proof.Machine.execScalShl d a b s
  | .scalShr d a b => Sys2Proof.Machine.execScalShr d a b s
  | .scalSar d a b => Sys2Proof.Machine.execScalSar d a b s
  | .scalMinI d a b => Sys2Proof.Machine.execScalMinI d a b s
  | .scalMinN d a b => Sys2Proof.Machine.execScalMinN d a b s
  | .scalMaxI d a b => Sys2Proof.Machine.execScalMaxI d a b s
  | .scalMaxN d a b => Sys2Proof.Machine.execScalMaxN d a b s
  | .scalRdlane d a b => Sys2Proof.Machine.execScalRdlane d a b s
  | .scalBcast d a => Sys2Proof.Machine.execScalBcast d a s
  | .fopAdd f rm d a b => Sys2Proof.Machine.execFopAdd f rm d a b s
  | .fopSub f rm d a b => Sys2Proof.Machine.execFopSub f rm d a b s
  | .fopMul f rm d a b => Sys2Proof.Machine.execFopMul f rm d a b s
  | .fopDiv f rm d a b => Sys2Proof.Machine.execFopDiv f rm d a b s
  | .fopSqrt f rm d a => Sys2Proof.Machine.execFopSqrt f rm d a s
  | .fopMin f d a b => Sys2Proof.Machine.execFopMin f d a b s
  | .fopMax f d a b => Sys2Proof.Machine.execFopMax f d a b s
  | .fopAbs f d a => Sys2Proof.Machine.execFopAbs f d a s
  | .fopNeg f d a => Sys2Proof.Machine.execFopNeg f d a s
  | .fopCopysign f d a b => Sys2Proof.Machine.execFopCopysign f d a b s
  | .fmaFma f rm d a b => Sys2Proof.Machine.execFmaFma f rm d a b s
  | .fmaFms f rm d a b => Sys2Proof.Machine.execFmaFms f rm d a b s
  | .fmaFnma f rm d a b => Sys2Proof.Machine.execFmaFnma f rm d a b s
  | .fmaFnms f rm d a b => Sys2Proof.Machine.execFmaFnms f rm d a b s
  | .cvtFloatFloat dst src rm d a => Sys2Proof.Machine.execCvtFloatFloat dst src rm d a s
  | .cvtIntFloat dst sgn w rm d a => Sys2Proof.Machine.execCvtIntFloat dst sgn w rm d a s
  | .cvtFloatInt sgn w src rm d a => Sys2Proof.Machine.execCvtFloatInt sgn w src rm d a s
  | .cvtBxPack x d a => Sys2Proof.Machine.execCvtBxPack x d a s
  | .cvtBxUnpack x d a => Sys2Proof.Machine.execCvtBxUnpack x d a s
  | .sfuRcp f d a => Sys2Proof.Machine.execSfuRcp f d a s
  | .sfuRsqrt f d a => Sys2Proof.Machine.execSfuRsqrt f d a s
  | .sfuSqrt f d a => Sys2Proof.Machine.execSfuSqrt f d a s
  | .sfuExp2 f d a => Sys2Proof.Machine.execSfuExp2 f d a s
  | .sfuLog2 f d a => Sys2Proof.Machine.execSfuLog2 f d a s
  | .sfuSinpi f d a => Sys2Proof.Machine.execSfuSinpi f d a s
  | .sfuCospi f d a => Sys2Proof.Machine.execSfuCospi f d a s
  | .sfuTwd d a b => Sys2Proof.Machine.execSfuTwd d a b s
  | .xlShfl w d a b mk => Sys2Proof.Machine.execXlShfl w d a b mk s
  | .xlShflx w d a b mk => Sys2Proof.Machine.execXlShflx w d a b mk s
  | .xlShflu w d a b mk => Sys2Proof.Machine.execXlShflu w d a b mk s
  | .xlShfld w d a b mk => Sys2Proof.Machine.execXlShfld w d a b mk s
  | .xlBal d p mk => Sys2Proof.Machine.execXlBal d p mk s
  | .xlVoteAny d p mk => Sys2Proof.Machine.execXlVoteAny d p mk s
  | .xlVoteAll d p mk => Sys2Proof.Machine.execXlVoteAll d p mk s
  | .xlVoteEq w d a mk => Sys2Proof.Machine.execXlVoteEq w d a mk s
  | .xlQx d a c mk => Sys2Proof.Machine.execXlQx d a c mk s
  | .xlRed d a op ty mk => Sys2Proof.Machine.execXlRed d a op ty mk s
  | .xlScan excl d a op ty mk => Sys2Proof.Machine.execXlScan excl d a op ty mk s
  | .ld ty scr ord d an off => Sys2Proof.Machine.execLd ty scr ord d an off s
  | .ldx ty scr ord d an x off => Sys2Proof.Machine.execLdx ty scr ord d an x off s
  | .st ty scr ord d an off => Sys2Proof.Machine.execSt ty scr ord d an off s
  | .stPoison scr ord an off => Sys2Proof.Machine.execStPoison scr ord an off s
  | .stx ty scr ord d an x off => Sys2Proof.Machine.execStx ty scr ord d an x off s
  | .atomAdd w sp ret d an src => Sys2Proof.Machine.execAtomAdd w sp ret d an src s
  | .atomMinI w sp ret d an src => Sys2Proof.Machine.execAtomMinI w sp ret d an src s
  | .atomMinN w sp ret d an src => Sys2Proof.Machine.execAtomMinN w sp ret d an src s
  | .atomMaxI w sp ret d an src => Sys2Proof.Machine.execAtomMaxI w sp ret d an src s
  | .atomMaxN w sp ret d an src => Sys2Proof.Machine.execAtomMaxN w sp ret d an src s
  | .atomAnd w sp ret d an src => Sys2Proof.Machine.execAtomAnd w sp ret d an src s
  | .atomOr w sp ret d an src => Sys2Proof.Machine.execAtomOr w sp ret d an src s
  | .atomXor w sp ret d an src => Sys2Proof.Machine.execAtomXor w sp ret d an src s
  | .atomSwap w sp ret d an src => Sys2Proof.Machine.execAtomSwap w sp ret d an src s
  | .atomCas w sp ret d an src => Sys2Proof.Machine.execAtomCas w sp ret d an src s
  | .atomFadd w sp ret d an src => Sys2Proof.Machine.execAtomFadd w sp ret d an src s
  | .adrAdda ad as_ sh b => Sys2Proof.Machine.execAdrAdda ad as_ sh b s
  | .adrAddai ad as_ imm => Sys2Proof.Machine.execAdrAddai ad as_ imm s
  | .adrMovawReg ad a b => Sys2Proof.Machine.execAdrMovawReg ad a b s
  | .adrMovawImm ad a span => Sys2Proof.Machine.execAdrMovawImm ad a span s
  | .adrMovwa d as_ part => Sys2Proof.Machine.execAdrMovwa d as_ part s
  | .adrSpna ad b => Sys2Proof.Machine.execAdrSpna ad b s
  | .adrCmpa p as1 as2 cond => Sys2Proof.Machine.execAdrCmpa p as1 as2 cond s
  | .acpCopy a b => Sys2Proof.Machine.execAcpCopy a b s
  | .acpFill a b => Sys2Proof.Machine.execAcpFill a b s
  | .acpRing a b => Sys2Proof.Machine.execAcpRing a b s
  | .acpPfill a b => Sys2Proof.Machine.execAcpPfill a b s
  | .mxRes d a => Sys2Proof.Machine.execMxRes d a s
  | .mxRel a => Sys2Proof.Machine.execMxRel a s
  | .mxWld a b => Sys2Proof.Machine.execMxWld a b s
  | .mxTask an => Sys2Proof.Machine.execMxTask an s
  | .mxDep an b => Sys2Proof.Machine.execMxDep an b s
  | .boInit a b => Sys2Proof.Machine.execBoInit a b s
  | .boExpect a b => Sys2Proof.Machine.execBoExpect a b s
  | .boArrive a b => Sys2Proof.Machine.execBoArrive a b s
  | .boWait a b => Sys2Proof.Machine.execBoWait a b s
  | .boTest d a => Sys2Proof.Machine.execBoTest d a s
  | .boErr d a => Sys2Proof.Machine.execBoErr d a s
  | .btEnroll d an b => Sys2Proof.Machine.execBtEnroll d an b s
  | .btUnenroll a => Sys2Proof.Machine.execBtUnenroll a s
  | .btReparent a b => Sys2Proof.Machine.execBtReparent a b s
  | .btSettle d a => Sys2Proof.Machine.execBtSettle d a s
  | .btRead d a => Sys2Proof.Machine.execBtRead d a s
  | .btCmp d a b => Sys2Proof.Machine.execBtCmp d a b s
  | .btReply id => Sys2Proof.Machine.execBtReply id s
  | .specialRegWrite tr spec idx v => Sys2Proof.Machine.execSpecialRegWrite tr spec idx v s
  | .pholdWrite v => Sys2Proof.Machine.execPholdWrite v s
  | .pholdExpire due => Sys2Proof.Machine.execPholdExpire due s
  | .loadReply id => Sys2Proof.Machine.execLoadReply id s
  | .writeHomeApply id => Sys2Proof.Machine.execWriteHomeApply id s
  | .crossingDeliver src dst => Sys2Proof.Machine.execCrossingDeliver src dst s
  | .writeAck id => Sys2Proof.Machine.execWriteAck id s
  | .fenceResume tr => Sys2Proof.Machine.execFenceResume tr s
  | .spinWake tr m due => Sys2Proof.Machine.execSpinWake tr m due s
  | .yieldWindowEnd tr due => Sys2Proof.Machine.execYieldWindowEnd tr due s
  | .waitwWake tr slot => Sys2Proof.Machine.execWaitwWake tr slot s
  | .waitwPoll tr slot due => Sys2Proof.Machine.execWaitwPoll tr slot due s
  | .presenceWake team line => Sys2Proof.Machine.execPresenceWake team line s
  | .queuePortWake tr slot => Sys2Proof.Machine.execQueuePortWake tr slot s
  | .escapeIssue tr => Sys2Proof.Machine.execEscapeIssue tr s
  | .agingStep tr => Sys2Proof.Machine.execAgingStep tr s
  | .translationWalkDone id => Sys2Proof.Machine.execTranslationWalkDone id s
  | .translationWalkFail id => Sys2Proof.Machine.execTranslationWalkFail id s
  | .trapEntry tr => Sys2Proof.Machine.execTrapEntry tr s
  | .copyStart core => Sys2Proof.Machine.execCopyStart core s
  | .copySetasideResume core => Sys2Proof.Machine.execCopySetasideResume core s
  | .copyComplete id => Sys2Proof.Machine.execCopyComplete id s
  | .pfillLineLand id => Sys2Proof.Machine.execPfillLineLand id s
  | .pfillComplete id => Sys2Proof.Machine.execPfillComplete id s
  | .ringRotationStart id => Sys2Proof.Machine.execRingRotationStart id s
  | .ringRotationComplete id => Sys2Proof.Machine.execRingRotationComplete id s
  | .wldComplete id => Sys2Proof.Machine.execWldComplete id s
  | .commandFail id code => Sys2Proof.Machine.execCommandFail id code s
  | .taskHeldEnqueue core => Sys2Proof.Machine.execTaskHeldEnqueue core s
  | .taskStart core => Sys2Proof.Machine.execTaskStart core s
  | .tileDrain id => Sys2Proof.Machine.execTileDrain id s
  | .addOnStoreUnit id => Sys2Proof.Machine.execAddOnStoreUnit id s
  | .taskComplete id => Sys2Proof.Machine.execTaskComplete id s
  | .taskFail id code => Sys2Proof.Machine.execTaskFail id code s
  | .retentionRefresh team granule => Sys2Proof.Machine.execRetentionRefresh team granule s
  | .retentionMarkExpired team granule => Sys2Proof.Machine.execRetentionMarkExpired team granule s
  | .bridleRollup ctx node => Sys2Proof.Machine.execBridleRollup ctx node s
  | .migrGrant tr => Sys2Proof.Machine.execMigrGrant tr s
  | .migrWaitTimeout tr due => Sys2Proof.Machine.execMigrWaitTimeout tr due s
  | .migrLand tr => Sys2Proof.Machine.execMigrLand tr s
  | .teamRetire team => Sys2Proof.Machine.execTeamRetire team s
  | .launchComplete launch => Sys2Proof.Machine.execLaunchComplete launch s
  | .admissionDecision die => Sys2Proof.Machine.execAdmissionDecision die s
  | .teamBlocking id due => Sys2Proof.Machine.execTeamBlocking id due s
  | .teamYield team => Sys2Proof.Machine.execTeamYield team s
  | .preemptRequest team => Sys2Proof.Machine.execPreemptRequest team s
  | .evictSpill team => Sys2Proof.Machine.execEvictSpill team s
  | .spillDone team => Sys2Proof.Machine.execSpillDone team s
  | .readmit team core => Sys2Proof.Machine.execReadmit team core s
  | .redirectCount team obj bytes tag code => Sys2Proof.Machine.execRedirectCount team obj bytes tag code s
  | .packetWindowFetch slot => Sys2Proof.Machine.execPacketWindowFetch slot s
  | .packetNop slot => Sys2Proof.Machine.execPacketNop slot s
  | .packetLaunch slot => Sys2Proof.Machine.execPacketLaunch slot s
  | .packetLaunch2 slot => Sys2Proof.Machine.execPacketLaunch2 slot s
  | .packetIb slot => Sys2Proof.Machine.execPacketIb slot s
  | .packetPred slot => Sys2Proof.Machine.execPacketPred slot s
  | .packetLoop slot => Sys2Proof.Machine.execPacketLoop slot s
  | .packetFfence slot => Sys2Proof.Machine.execPacketFfence slot s
  | .packetWaitmem slot => Sys2Proof.Machine.execPacketWaitmem slot s
  | .waitmemRecheck slot due => Sys2Proof.Machine.execWaitmemRecheck slot due s
  | .packetWrite slot => Sys2Proof.Machine.execPacketWrite slot s
  | .packetSignalBobj slot => Sys2Proof.Machine.execPacketSignalBobj slot s
  | .packetSignalWake slot => Sys2Proof.Machine.execPacketSignalWake slot s
  | .prologueRunaway unit => Sys2Proof.Machine.execPrologueRunaway unit s
  | .dlaunchProcess ctx => Sys2Proof.Machine.execDlaunchProcess ctx s
  | .remoteAccessTimeout id => Sys2Proof.Machine.execRemoteAccessTimeout id s
  | .correctedRecordFlush unit due => Sys2Proof.Machine.execCorrectedRecordFlush unit due s
  | .auditReplay id => Sys2Proof.Machine.execAuditReplay id s
  | .selfTest u => Sys2Proof.Machine.execSelfTest u s
  | .unitRetire u => Sys2Proof.Machine.execUnitRetire u s
  | .remapStep core => Sys2Proof.Machine.execRemapStep core s
  | .coreQuiesce core => Sys2Proof.Machine.execCoreQuiesce core s
  | .sharedTranslationHit id => Sys2Proof.Machine.execSharedTranslationHit id s
  | .selfTestComplete u lasting => Sys2Proof.Machine.execSelfTestComplete u lasting s
  | .sysNop => Sys2Proof.Machine.execSysNop s
  | .sysExit => Sys2Proof.Machine.execSysExit s
  | .sysEret => Sys2Proof.Machine.execSysEret s
  | .sysBrk => Sys2Proof.Machine.execSysBrk s
  | .sysSpin => Sys2Proof.Machine.execSysSpin s
  | .sysYield => Sys2Proof.Machine.execSysYield s
  | .sysLcommit => Sys2Proof.Machine.execSysLcommit s
  | .sysLcancel => Sys2Proof.Machine.execSysLcancel s
  | .sysLrepeat => Sys2Proof.Machine.execSysLrepeat s
  | .deviceBoot => Sys2Proof.Machine.execDeviceBoot s
  | .errorRecordPost => Sys2Proof.Machine.execErrorRecordPost s
  | .dailyReplan => Sys2Proof.Machine.execDailyReplan s
  | .contextCreate c => Sys2Proof.Machine.execContextCreate c s
  | .budgetWrite ctx b => Sys2Proof.Machine.execBudgetWrite ctx b s
  | .hostAccess acc => Sys2Proof.Machine.execHostAccess acc s
  | .keySlotLoad msg => Sys2Proof.Machine.execKeySlotLoad msg s
  | .attestationReport nonce => Sys2Proof.Machine.execAttestationReport nonce s
  | .auditSet ctx on n => Sys2Proof.Machine.execAuditSet ctx on n s
  | .bitError place bit => Sys2Proof.Machine.execBitError place bit s
  | .queueMap ctx desc slot => Sys2Proof.Machine.execQueueMap ctx desc slot s
  | .queueUnmap slot => Sys2Proof.Machine.execQueueUnmap slot s
  | .queueRemap ctx desc slot => Sys2Proof.Machine.execQueueRemap ctx desc slot s
  | .wakeWrite ctx slot v => Sys2Proof.Machine.execWakeWrite ctx slot v s
  | .contextStop ctx => Sys2Proof.Machine.execContextStop ctx s
  | .contextSuspend ctx => Sys2Proof.Machine.execContextSuspend ctx s
  | .contextResume ctx => Sys2Proof.Machine.execContextResume ctx s
  | .contextTeardown ctx => Sys2Proof.Machine.execContextTeardown ctx s
  | .faultServiceReply id pa entry => Sys2Proof.Machine.execFaultServiceReply id pa entry s
  | .translationInvalidate ctx pa entry => Sys2Proof.Machine.execTranslationInvalidate ctx pa entry s

end Sys2Proof.Machine
end

