-- ==== Sys2Proof/Machine/Fetch.lean ====
section
/-! DEFINITION. A device that stands at one word: what `withFetchWord` loads (log 3). -/

namespace Sys2Proof.Machine

/-- A context whose span 0 has the tables of `fetchMem`. -/
def fetchCtx : Ctx :=
  { num := 0, budget := ⟨0xFFFFFFFF#32, 0xFFFFFFFF#32, 0xFFFF#16, 3584#16, 7#3, 20#16, 40#16, false⟩, oskey := 0#32, thand := 0#64,
    spanPa := 0x140000, spanLen := 1, nmax := 0, nodePa := 0, nodes := [], owner := 0#64, lastSeq := 0, ringOff := 0#64,
    ringRecs := 0, audOn := false, audN := 0#5, checked := 0, skipped := 0, stall := 0, stopped := false,
    suspended := false, closing := false, dlq := [] }
/-- The span entry, one table of each level and a code page at offset 0x10000, which holds the word. -/
def fetchMem (mem : List Host.Cell) (w : Nat) : List Host.Cell :=
  let put := fun (m : List Host.Cell) (a n x : Nat) => csetAll m a (bytesN n x)
  let m := put mem 0x100000 8 (0x110000 + 1)
  let m := put m 0x110000 8 (0x120000 + 1)
  let m := put m 0x120000 8 (0x130000 + 1)
  let m := put m 0x130008 8 (0x200000 + 31)
  let m := put m 0x140000 16 (0x10 * 2 ^ 80 + 1)
  put m 0x200000 4 w
def fetchSlot : Slot := { Slot.blank with st := .ready }
def fetchTrain (uid team : Nat) : Train :=
  { uid := uid, team := team, idx := 0, core := 0, resident := 0, A := 128, B := 0, cbase := 0x10000, k := [], fflags := 0#5,
    lapsed := false, prio := 8, aging := 0, canSince := none, yieldTo := 0, thand := 0#64, inHand := false, sstep := false, tgrp := 0, fpc := 0#40,
    step := none, trap := none, slots := List.replicate 32 fetchSlot, ports := [], compl := [], lastBar := [], declared := none,
    lastIss := 0, escape := none, migr := .none, halted := false, retired := false, prol := none }
def fetchTeam (id : Nat) : Team :=
  { id := id, ctx := 0, launch := 0, stage := 0, num := 0, fpos := 0, form := none, core := 0, home := 0, tslot := 0,
    life := .resident, dprio := 0, yielded := false, yieldFor := [], preempt := false, victimOf := none, waitFrom := 0, noneFrom := 0,
    stallAt := 0, allocs := [], scratch := [], scond := [], absent := [], wrote := [], marked := [],
    bobjs := [], nb := 0, bars := [], resv := [], rings := 0, draining := [], img := [], ghosts := [] }
/-- The device with one resident train of 32 threads that stands at a word, and nothing else due. -/
def fetchState (s : State) (w : Nat) : State :=
  { s with
    booted := true, memAlive := 15#4, corAlive := 15#4, keys := aset s.keys 0 1, mem := fetchMem s.mem w, mcond := [],
    mkey := [], reqs := [], clocks := [], cores := [], ctxs := [fetchCtx], teams := [fetchTeam s.nextId],
    trains := [fetchTrain (s.nextId + 1) s.nextId], nextId := s.nextId + 2, inputs := [], agenda := [], iss := none }

end Sys2Proof.Machine
end

