-- ==== Sys2Proof/Machine/Step.lean ====
section
/-! DEFINITION. One step of the device: the next happening, and its execution. -/

namespace Sys2Proof.Machine

/-- One step: what `plan` says comes next is executed; `after` then looks at the teams that wait. -/
def step (s : State) : Host.Outcome State Fault Refusal :=
  match plan s with
  | .run i s' => after s' (exec i s')
  | .next s' => .next s'

/-- The state with an instruction word stored where the next step fetches (log 3). -/
def State.withFetchWord (s : State) (nbits w : Nat) : State := fetchState s (w % 2 ^ nbits)

end Sys2Proof.Machine
end

