-- ==== Sys2Proof/Safety.lean ====
section
/-! DEFINITION. The terms that claims use: when an instruction issues without an operand fault, what one that completes
leaves of its train and of the device, and the invariants of the machine. -/

namespace Sys2Proof.Machine

/-- `i` is the word now issuing, by the run of `iss` on the train `t` of 32 slots: each operand field is admitted (R69,
R193), no register half-sector is in error (R445), no trap of the train waits for its entry (R420), and it is not under single step
(R424). -/
structure Issues (i : Instr) (s : State) (iss : Issue) (t : Train) : Prop where
  issue  : s.iss = some iss
  train  : findTrain s iss.tr = some t
  fields : fieldFault t i = none
  sound  : ∀ x ∈ t.slots, x.rcond = []
  bad    : iss.bad = []
  width  : t.slots.length = 32
  calm   : t.trap = none
  free   : t.sstep = false

/-- Nothing of the device changes but one train: every other train, every byte of memory and every other part stands, and
the issue is over. -/
structure OnlyTrain (s s' : State) (t t' : Train) : Prop where
  state : s' = { setTrain s t' with iss := none }
  uid   : t'.uid = t.uid
  bytes : ∀ a, cget s'.mem a = cget s.mem a

/-- Slot `n` after an instruction that its run completes at `pc`, apart from its registers, address registers and
predicates: a slot of the run moves on, or to its next repeat (R135); another keeps all but its count of issues that left
it out (R187). -/
def SlotMoved (iss : Issue) (t t' : Train) (n : Nat) (pc : Pc) : Prop :=
  let x := slotAt t n
  let x' := slotAt t' n
  x' = { (if inMask iss.slots n then slotDone iss pc x else { x with skip := if x.st = .ready then x.skip + 1 else x.skip })
    with regs := x'.regs, areg := x'.areg, pred := x'.pred }

/-- The train after an instruction that its run completes: only the parts that a clause of its own speaks of, and the marks
of the scheduler, may differ (R187, R190). -/
structure Completed (s : State) (iss : Issue) (t t' : Train) (pc : Nat → Pc) : Prop where
  rest  : t' = { t with slots := t'.slots, k := t'.k, fflags := t'.fflags, aging := 0, canSince := none, lastIss := s.now,
                        escape := none }
  slots : t'.slots.length = 32
  moved : ∀ n < 32, SlotMoved iss t t' n (pc n)

/-- Registers of every slot as given by slot and allocation register. -/
def RegsAre (t' : Train) (f : Nat → Nat → Word) : Prop := ∀ n < 32, ∀ r, cget (slotAt t' n).regs r = f n r
/-- Address registers of every slot as given. -/
def AddrsAre (t' : Train) (f : Nat → Nat → Addr) : Prop := ∀ n < 32, ∀ r, cget (slotAt t' n).areg r = f n r
/-- Predicates of every slot as given. -/
def PredsAre (t' : Train) (f : Nat → R3 → Bool) : Prop := ∀ n < 32, ∀ p, slotPred (slotAt t' n) p = f n p
/-- k registers as given. -/
def KsAre (t' : Train) (f : Nat → Word) : Prop := ∀ r, cget t'.k r = f r

/-- The parts of a train's registers that stand. -/
def KeepsRegs (t t' : Train) : Prop := RegsAre t' (fun n r => cget (slotAt t n).regs r)
@[inherit_doc KeepsRegs] def KeepsAddrs (t t' : Train) : Prop := AddrsAre t' (fun n r => cget (slotAt t n).areg r)
@[inherit_doc KeepsRegs] def KeepsPreds (t t' : Train) : Prop := ∀ n < 32, (slotAt t' n).pred = (slotAt t n).pred

/-- The ports that `i` names let slot `n`, the one active slot, go on (R68): each port that it pops holds a word, the port that
it pushes to has room for `v`, and no lower slot waits at the same word. -/
structure PortsReady (i : Instr) (d : Reg) (v : Word) (s : State) (iss : Issue) (t : Train) (n : Nat) : Prop where
  one   : slotsOf (activeMask iss t) = [n]
  pops  : ∀ q ∈ popPorts i, (popChk s t n q).1 = .ok
  push  : isQ d = true → pushPorts i ≠ [] →
    pushChk ((popPorts i).foldl (fun s q => popDo s t.uid n q) s) t n (portOf d) v = .ok
  first : lowerWaits s t.uid n iss.start (parkCount iss (slotAt t n)) = false

/-- A vector instruction with port fields completes in its one active slot: each port is popped once and its item feeds every
field that names it; the result is pushed to a port d, or written to a w register; zr takes nothing (R68). `more` is the
rest of its effect on the train. -/
def VecPorts (i : Instr) (d : Reg) (v : State → Train → Nat → Word) (more : State → Train → Nat → Train → Train) : Prop :=
  ∀ s iss t n, Issues i s iss t → portFree i = false → PortsReady i d (v s t n) s iss t n →
    let s1 := makePops s iss.tr n (popPorts i)
    let s2 := if isQ d && !(pushPorts i).isEmpty then wakePort (pushDo s1 iss.tr n (portOf d) (v s t n)) iss.tr (portOf d)
      else modTrain s1 iss.tr (fun u => writeW u n d (v s t n))
    let s3 := modTrain s2 iss.tr (more s t n)
    ∀ u, findTrain s3 iss.tr = some u → exec i s = .next (settle s3 iss u [])

/-- A vector instruction without port fields completes: each active slot's d takes one word, a function of the train and the
slot, of which a register of a trap frame keeps its read-only bits (R418); zr takes nothing; flags, k registers, address registers and
predicates stand (R67, R68, R111). -/
def VecSlots (i : Instr) (d : Reg) (f : Train → Nat → Word) : Prop :=
  ∀ s iss t, Issues i s iss t → portFree i = true →
    ∃ s' t', exec i s = .next s' ∧ OnlyTrain s s' t t' ∧ Completed s iss t t' (fun _ => nextPc iss) ∧
      RegsAre t' (fun n r => if inMask (activeMask iss t) n ∧ isW d ∧ r = wIdx t d then putVal (slotAt t n) r (f t n)
        else cget (slotAt t n).regs r) ∧
      KeepsAddrs t t' ∧ KeepsPreds t t' ∧ t'.k = t.k ∧ t'.fflags = t.fflags

/-- A vector instruction whose result is a function of what its fields read, in all its forms. -/
def VecWord (i : Instr) (d : Reg) (f : (Reg → Word) → Word) : Prop :=
  VecSlots i d (fun t n => f (readReg t n)) ∧ VecPorts i d (fun s t n => f (readAny s t n)) (fun _ _ _ u => u)

/-- A vector operation of width `w`, in all its forms: sub-element `e` of d is a function of sub-element `e` of each source
(R40, R111). -/
def VecElems (i : Instr) (d : Reg) (w : Nat) (f : (Reg → Nat) → Nat) : Prop :=
  ∃ g : (Reg → Word) → Word, VecWord i d g ∧ ∀ rd, ∀ e < 64 / w, subN (g rd) w e = f (fun r => subN (rd r) w e)

/-- A vector instruction with a result and flags, in all its forms: the flags that the active slots raise are merged into
fflags, and none is cleared (R50). -/
def VecFlags (i : Instr) (d : Reg) (f : (Reg → Word) → Word × BitVec 5) : Prop :=
  (∀ s iss t, Issues i s iss t → portFree i = true →
    ∃ s' t', exec i s = .next s' ∧ OnlyTrain s s' t t' ∧ Completed s iss t t' (fun _ => nextPc iss) ∧
      RegsAre t' (fun n r => if inMask (activeMask iss t) n ∧ isW d ∧ r = wIdx t d then putVal (slotAt t n) r (f (readReg t n)).1
        else cget (slotAt t n).regs r) ∧
      KeepsAddrs t t' ∧ KeepsPreds t t' ∧ t'.k = t.k ∧
      (∀ b : Nat, t'.fflags.getLsbD b = true ↔
        t.fflags.getLsbD b = true ∨ ∃ n < 32, inMask (activeMask iss t) n = true ∧ (f (readReg t n)).2.getLsbD b = true)) ∧
  VecPorts i d (fun s t n => (f (readAny s t n)).1) (fun s t n u => { u with fflags := u.fflags ||| (f (readAny s t n)).2 })

/-- A vector instruction that changes only address register `ad` of its active slots, from the values that its fields read,
in all its forms. -/
def VecAddr (i : Instr) (ad : R3) (f : (Reg → Word) → Slot → Addr) : Prop :=
  (∀ s iss t, Issues i s iss t → portFree i = true →
    ∃ s' t', exec i s = .next s' ∧ OnlyTrain s s' t t' ∧ Completed s iss t t' (fun _ => nextPc iss) ∧
      AddrsAre t' (fun n r => if inMask (activeMask iss t) n ∧ r = ad.toNat then f (readReg t n) (slotAt t n)
        else cget (slotAt t n).areg r) ∧
      KeepsRegs t t' ∧ KeepsPreds t t' ∧ t'.k = t.k ∧ t'.fflags = t.fflags) ∧
  VecPorts i 127#7 (fun _ _ _ => 0#64) (fun s t n u => modSlot u n (fun x => putA x ad (f (readAny s t n) x)))

/-- A vector instruction that writes predicate `p` of its active slots and raises flags, in all its forms. -/
def VecPred (i : Instr) (p : R3) (f : (Reg → Word) → Slot → Bool) (fl : (Reg → Word) → BitVec 5) : Prop :=
  p ≠ 0#3 →
  (∀ s iss t, Issues i s iss t → portFree i = true →
    ∃ s' t', exec i s = .next s' ∧ OnlyTrain s s' t t' ∧ Completed s iss t t' (fun _ => nextPc iss) ∧
      PredsAre t' (fun n q => if inMask (activeMask iss t) n ∧ q = p then f (readReg t n) (slotAt t n)
        else slotPred (slotAt t n) q) ∧
      KeepsRegs t t' ∧ KeepsAddrs t t' ∧ t'.k = t.k ∧
      (∀ b : Nat, t'.fflags.getLsbD b = true ↔
        t.fflags.getLsbD b = true ∨ ∃ n < 32, inMask (activeMask iss t) n = true ∧ (fl (readReg t n)).getLsbD b = true)) ∧
  VecPorts i 127#7 (fun _ _ _ => 0#64) (fun s t n u =>
    { modSlot u n (fun x => setPred x p (f (readAny s t n) x)) with fflags := u.fflags ||| fl (readAny s t n) })

/-- A uniform instruction with an active slot completes: k register d takes a value once; zr takes nothing (R67, R68,
R113). -/
def UniK (i : Instr) (d : Reg) (f : Train → Word) : Prop :=
  ∀ s iss t, Issues i s iss t → activeMask iss t ≠ 0#32 →
    ∃ s' t', exec i s = .next s' ∧ OnlyTrain s s' t t' ∧ Completed s iss t t' (fun _ => nextPc iss) ∧
      KsAre t' (fun r => if isK d ∧ r = d.toNat - 96 then f t else cget t.k r) ∧
      KeepsRegs t t' ∧ KeepsAddrs t t' ∧ KeepsPreds t t' ∧ t'.fflags = t.fflags

/-- An instruction without register fields to write completes and changes nothing but the places of its run. -/
def NoEffect (i : Instr) : Prop :=
  ∀ s iss t, Issues i s iss t →
    ∃ s' t', exec i s = .next s' ∧ OnlyTrain s s' t t' ∧ Completed s iss t t' (fun _ => nextPc iss) ∧
      KeepsRegs t t' ∧ KeepsAddrs t t' ∧ KeepsPreds t t' ∧ t'.k = t.k ∧ t'.fflags = t.fflags

/-- Nothing of the device changes but the train of a number. -/
def InTrain (s s' : State) (uid : Nat) : Prop :=
  s' = { s with trains := s'.trains } ∧ ∀ u, u ≠ uid → findTrain s' u = findTrain s u

/-- An xl word with its members all in the run (R169 to R171): every live member issues now, an explicit mask names no slot that
has exited, each active slot is a member, and nothing waits for members. -/
structure XlReady (i : Instr) (mk : Option (BitVec 5)) (qx : Bool) (s : State) (iss : Issue) (t : Train) : Prop where
  issues : Issues i s iss t
  ports  : portFree i = true
  named  : (xlMembers t qx mk).1 = true → ∀ n, inMask (xlMembers t qx mk).2 n = true → (slotAt t n).st ≠ .exited
  here   : ∀ n, inMask (xlMembers t qx mk).2 n = true → slotLive (slotAt t n) = true → inMask iss.slots n = true
  inside : ∀ n, inMask (activeMask iss t) n = true → inMask (xlMembers t qx mk).2 n = true
  alone  : ∀ x ∈ t.slots, ∀ e m p g, x.wait ≠ .member e m p g

/-- Slot `n` takes a result of an xl word: an active slot, or for qx a helper that is a member (R172, R176). -/
def xlTakes (iss : Issue) (t : Train) (mk : Option (BitVec 5)) (qx : Bool) (n : Nat) : Bool :=
  inMask (activeMask iss t) n || (qx && inMask (xlMembers t qx mk).2 n && decide ((slotAt t n).st = .helper))
/-- What slot `n` supplies as a source of an xl word: zero where it is no member or is not there (R172). -/
def xlSrc (iss : Issue) (t : Train) (mk : Option (BitVec 5)) (qx : Bool) (r : Reg) (n : Nat) : Word :=
  if inMask (xlMembers t qx mk).2 n && (inMask iss.slots n || (qx && decide ((slotAt t n).st = .helper))) then readReg t n r else 0#64

/-- An xl word whose members are all in the run completes: each slot that takes a result has d set to a function of the train, the
active slots, what the slots supply, and its own place; flags are merged, and the rest stands. -/
def XlWord (i : Instr) (d : Reg) (mk : Option (BitVec 5)) (qx : Bool) (ok : Train → Nat → Prop)
    (f : Train → Mask → (Reg → Nat → Word) → Nat → Word) (fl : Train → Mask → BitVec 5) : Prop :=
  ∀ s iss t, XlReady i mk qx s iss t → (∀ n, inMask (activeMask iss t) n = true → ok t n) →
    ∃ s' t', exec i s = .next s' ∧ OnlyTrain s s' t t' ∧ Completed s iss t t' (fun _ => nextPc iss) ∧
      RegsAre t' (fun n r => if xlTakes iss t mk qx n ∧ isW d ∧ r = wIdx t d then
          putVal (slotAt t n) r (f t (activeMask iss t) (xlSrc iss t mk qx) n)
        else cget (slotAt t n).regs r) ∧
      KeepsAddrs t t' ∧ KeepsPreds t t' ∧ t'.k = t.k ∧ t'.fflags = t.fflags ||| fl t (activeMask iss t)

/-- The same by sub-elements of width `w`: sub-element `j` of slot `n` is a function of what the slots supply. -/
def XlElems (i : Instr) (d : Reg) (mk : Option (BitVec 5)) (w : Nat) (ok : Train → Nat → Prop)
    (f : Train → (Nat → Nat → Nat) → Nat → Nat → Nat) (a : Reg) : Prop :=
  ∃ g : Train → Mask → (Reg → Nat → Word) → Nat → Word, XlWord i d mk false ok g (fun _ _ => 0#5) ∧
    ∀ t act src, ∀ n < 32, ∀ j < 64 / w, subN (g t act src n) w j = f t (fun n j => subN (src a n) w j) n j

/-- A target that a branch or jump may take (R132). -/
def TargetOk (x : Int) : Prop := x % 4 = 0 ∧ 0 ≤ x ∧ x ≤ 2 ^ 40 - 4

/-- A branch or jump whose targets are good completes: each active slot stands at its target, the other slots of the run at
the next word, and the link register, where there is one, takes the place of the next word (R131). -/
def Jumps (i : Instr) (link : Option Reg) (f : Issue → Train → Nat → Int) : Prop :=
  ∀ s iss t, Issues i s iss t → (∀ n < 32, inMask (activeMask iss t) n = true → TargetOk (f iss t n)) →
    ∃ s' t', exec i s = .next s' ∧ OnlyTrain s s' t t' ∧
      Completed s iss t t' (fun n => if inMask (activeMask iss t) n then BitVec.ofInt 40 (f iss t n) else nextPc iss) ∧
      RegsAre t' (fun n r => if inMask (activeMask iss t) n ∧ link.map (wIdx t) = some r then
          putVal (slotAt t n) r (BitVec.ofNat 64 (iss.wpc.toNat + 4))
        else cget (slotAt t n).regs r) ∧
      KeepsAddrs t t' ∧ KeepsPreds t t' ∧ t'.k = t.k ∧ t'.fflags = t.fflags

/-- A train as a run leaves it at a trap: slots that have not completed stand at the word, the others of the run have gone on,
and no register has changed (R416). -/
structure Stopped (s : State) (iss : Issue) (t u : Train) (pm : Mask) : Prop where
  rest  : u = { t with slots := u.slots, aging := 0, canSince := none, lastIss := s.now, escape := none }
  slots : u.slots.length = 32
  stand : ∀ n < 32, slotAt u n =
    if inMask iss.slots n then (if inMask pm n then slotStay iss (slotAt t n) else slotDone iss (nextPc iss) (slotAt t n))
    else { slotAt t n with skip := if (slotAt t n).st = .ready then (slotAt t n).skip + 1 else (slotAt t n).skip }

/-- A trap is taken at once: a handler is installed, the train is not in it and is no prologue run, and no reply or posted write of
it is still to come (R49, R420). -/
structure MayEnter (s : State) (t : Train) : Prop where
  prol    : t.prol = none
  handler : t.thand.getLsbD 40 = true
  outside : t.inHand = false
  quiet   : entryWaits s t.uid = false

/-- Slot `n` alone is to make its instruction: no other slot has parked at it, and no reply to it has come back with a fault
(R416). -/
structure ByItself (s : State) (t : Train) (n : Nat) : Prop where
  alone : ∀ k < 32, k ≠ n → (slotAt t k).again = 0 ∨ (slotAt t k).again ≠ insOf (slotAt t n) s.nextId
  clean : ∀ r ∈ s.reqs, r.tr = t.uid → r.grp = insOf (slotAt t n) s.nextId → r.flt = 0

/-- The instruction raises a trap, and the train enters its handler: cause, trap mask, pend mask, info word and addresses of
the frame; apart from the train the device stands as `s0` (R416, R420). -/
def TrapsLeaving (i : Instr) (s s0 : State) (iss : Issue) (t : Train) (c : BitVec 9) (tm pm : Mask) (info : Word)
    (fa : Cells 80) : Prop :=
  ∃ u, exec i s = .next { setTrain s0 (enterTrain u ⟨c, iss.start, tm, pm, info, fa⟩) with iss := none } ∧ Stopped s iss t u pm
/-- The same, where nothing else of the device changes. -/
def TrapsWith (i : Instr) (s : State) (iss : Issue) (t : Train) (c : BitVec 9) (tm pm : Mask) (info : Word) (fa : Cells 80) : Prop :=
  TrapsLeaving i s s iss t c tm pm info fa

/-- The device reads the word of `iss` next, of a train on a core, in the state `s0`, to which time has passed and the choice been
noted: the word is in the chain of that issue, or the device has nothing else to do and the train of `iss` alone can issue (R72,
R184 to R190). -/
structure NextWord (s s0 : State) (iss : Issue) (t : Train) : Prop where
  train : findTrain s0 iss.tr = some t
  core  : t.prol = none
  now   : (s.iss = some iss ∧ s0 = advance s) ∨
    (s.iss = none ∧ agingDue (advance s) = none ∧ ∃ pipe u x, options (trackAble (advance s)) = [.issue t.core pipe [u]] ∧
      s0 = noteChoice (trackAble (advance s)) t.core pipe u ∧ escapeSlot s0 u = none ∧ headSlot s0 u = some x ∧ iss = issueOf u x)

/-- Packet `p` is at the head of a busy, mapped queue, sound, its wait flag has nothing to wait for (R358), and what the I/O die has
queued is out of the way of its read pointer (R303). -/
structure AtHead (s : State) (slot : Nat) (q : QSlot) (p : WPkt) (rest : List WPkt) : Prop where
  queue  : findQ s slot = some q
  head   : q.window = p :: rest
  mapped : q.state = 1
  busy   : q.busy = true
  sound  : p.err = 0
  thaw   : q.frozen = false
  wait   : bitsN p.hdr 24 1 = 1 → q.launches = []
  out    : rptrWaits s q = false

/-- Memory stands in its canonical form (R296): addresses rise, and no zero is listed. -/
def Memory.wf (m : List Host.Cell) : Bool := cwf m
/-- The invariant that every step keeps. -/
def State.Inv (s : State) : Prop := Memory.wf s.mem = true

end Sys2Proof.Machine
end

