-- ==== Sys2Proof/Certificates/Slice0/Obligations.lean ====
section
/-! DEFINITION. The statements for the provers. Each says of its docstring's rules what the machine does; a value that the spec
leaves open is named with its log entry. -/

open Sys2Proof Sys2Proof.Machine

/-! Encoding and the step. -/

/-- R65 to R93: words of the families, as the spec writes them out, decode to their instructions, with an extension where an
xim word stands before them. -/
def Obligations.WordsDecode : Prop :=
  ∀ x ∈ [((none : Option Nat), 0x00800000, Instr.sysEret), (none, 0x00600100, .sysTrap 2#5), (none, 0x01000580, .sysFence .rel .die),
    (none, 0x00C07F82, .sysSrd 1#7 2#7 127#7), (none, 0x01400105, .sysWaitw false 2#3 5#7), (none, 0x01E00000, .sysLrepeat),
    (none, 0x09000002, .grd 0#3 false 2#3), (none, 0x08000143, .rep 0#2 0#2 0#2 true false true 3#6), (none, 0x0A000001, .xim 1#20),
    (none, 0x1038B0A9, .ctlOsalloc 98#7 97#7 .scr (.lapse 2)), (none, 0x106001FF, .ctlBar 3#6 127#7),
    (none, 0x111EB280, .ctlQbind 122#7 101#7), (none, 0x197FFFFB, .bra 1#3 false (BitVec.ofInt 43 (-5))),
    (none, 0x22007800, .jmpRet 30#7), (none, 0x2FC1C3ED, .iopXor 7#7 7#7 109#7), (none, 0x3070E7FF, .iopiAddi 7#7 7#7 (BitVec.ofInt 31 (-1))),
    (none, 0x3850CA28, .shiSari .w32 5#7 6#7 40#8), (none, 0x40468000, .limmSets 4#7 1#2 0x8000#16),
    (none, 0x48C04103, .bitBextN .w32 1#7 2#7 3#7), (none, 0x51240103, .cmp 1#3 .ltI (.int .w32) .set 2#7 3#7),
    (none, 0x59B884E1, .scalRdlane 98#7 9#7 97#7), (some 1, 0x64404103, .fopMul .f32 .rz 1#7 2#7 3#7),
    (none, 0x7685000A, .cvtBxPack .bx6 20#7 0#7), (none, 0x7100411A, .cvtFloatInt true .w32 .f32 .rz 1#7 2#7),
    (none, 0x7B004100, .sfuExp2 .f16 1#7 2#7), (none, 0x7F818205, .sfuTwd 6#7 4#7 5#7), (none, 0x80410286, .xlShfl .w32 4#7 5#7 6#7 none),
    (none, 0x8480410A, .xlRed 1#7 2#7 .add (.f .f32) none), (none, 0x85218382, .xlScan true 6#7 7#7 .add (.i .w32) none),
    (none, 0x8842C008, .ld .b64 false .plain 4#7 1#3 8#28), (none, 0x90548382, .ldx .b32 false .plain 5#7 2#3 7#7 2#7),
    (none, 0x9874A003, .st .b32 true .plain 7#7 2#3 3#28), (none, 0x9814D000, .st .b64 false (.strong .dev) 1#7 2#3 0#28),
    (none, 0xA8420485, .atomAdd .a32 (.dev .dev) true 4#7 1#3 5#7), (none, 0xA806CE06, .atomOr .a64 .scratch false 0#7 3#3 6#7),
    (none, 0xB0258004, .adrAdda 1#3 1#3 3 4#7), (none, 0xB8003266, .acpCopy 100#7 102#7), (none, 0xC0403266, .mxWld 100#7 102#7),
    (none, 0xC0800163, .mxDep 2#3 99#7), (none, 0xC86031FF, .boWait 99#7 127#7), (none, 0xD00100E2, .btEnroll 4#7 1#3 98#7),
    (none, 0xD0A23189, .btCmp 8#7 99#7 9#7)],
    decodeN x.1 x.2.1 = .ok x.2.2 ∧ (x.1 = none → decodeTableWord 32 x.2.1 = some x.2.2)

/-- R65, R82, R94, R96: what decodes is well-formed, no word is an event, and a word of a major, func, prefix kind, extended
op or store type that no table assigns is refused with the detail of that field. -/
def Obligations.DecodedWords : Prop :=
  (∀ x w i, w < 2 ^ 32 → (∀ e, x = some e → e < 2 ^ 20) → decodeN x w = .ok i → i.wf = true ∧ (encodeN i).isSome = true) ∧
  (∀ i : Instr, i.wf = true → (encodeN i).isSome = true) ∧
  (∀ x w, w < 2 ^ 32 → 27 ≤ w / 2 ^ 27 → decodeN x w = .error 0) ∧
  (∀ x w, w < 2 ^ 27 → w / 2 ^ 21 = 0 ∨ 15 < w / 2 ^ 21 → decodeN x w = .error 1) ∧
  (∀ x w, w / 2 ^ 27 = 1 → 2 < w / 2 ^ 24 % 8 → decodeN x w = .error 16) ∧
  (∀ x w, w / 2 ^ 27 = 2 → 10 < w / 2 ^ 21 % 64 → decodeN x w = .error 1) ∧
  (∀ x w, w / 2 ^ 27 = 3 → w / 2 ^ 24 % 8 = 0 → w / 2 ^ 23 % 2 = 1 → decodeN x w = .error 11) ∧
  (∀ x w, w / 2 ^ 27 = 4 → 4 < w / 2 ^ 24 % 8 → decodeN x w = .error 1) ∧
  (∀ x w, w / 2 ^ 27 = 7 → 4 < w / 2 ^ 10 % 8 → decodeN x w = .error 1) ∧
  (∀ x w, w / 2 ^ 27 = 8 → w / 2 ^ 16 % 4 = 3 → decodeN x w = .error 10) ∧
  (∀ x w, w / 2 ^ 27 = 10 → w / 2 ^ 24 % 8 = 0 → decodeN x w = .error 11) ∧
  (∀ x w, w / 2 ^ 27 = 11 → 14 < w / 2 ^ 21 % 64 → decodeN x w = .error 1) ∧
  (∀ x w, w / 2 ^ 27 = 16 → 10 < w / 2 ^ 23 % 16 → decodeN x w = .error 1) ∧
  (∀ x w, w / 2 ^ 27 = 21 → 10 < w / 2 ^ 13 % 16 → decodeN x w = .error 1) ∧
  (∀ x w, w / 2 ^ 27 = 22 → 5 < w / 2 ^ 24 % 8 → decodeN x w = .error 1) ∧
  (∀ e w, w / 2 ^ 27 = 5 → w / 2 ^ 23 % 16 = 14 → 6 ≤ e % 8 → decodeN (some e) w = .error 21) ∧
  (∀ x w, w / 2 ^ 27 = 9 → 7 < w / 2 ^ 23 % 16 → decodeN x w = .error 1) ∧
  (∀ x w, w / 2 ^ 27 = 12 → 9 < w / 2 ^ 21 % 16 → decodeN x w = .error 1) ∧
  (∀ x w, w / 2 ^ 27 = 19 → 5 < w / 2 ^ 14 % 8 → decodeN x w = .error 6) ∧
  (∀ x w, w / 2 ^ 27 = 20 → 4 < w / 2 ^ 14 % 8 → decodeN x w = .error 6) ∧
  (∀ x w, w / 2 ^ 27 = 23 → 3 < w / 2 ^ 21 % 64 → decodeN x w = .error 1) ∧
  (∀ x w, w / 2 ^ 27 = 24 → 4 < w / 2 ^ 21 % 64 → decodeN x w = .error 1) ∧
  (∀ x w, w / 2 ^ 27 = 25 ∨ w / 2 ^ 27 = 26 → 5 < w / 2 ^ 21 % 64 → decodeN x w = .error 1)

/-- R65 to R93: decoding what the encoder writes gives the instruction back, for every well-formed instruction and every
value of its fields; the word has 32 bits and its extension 20. -/
def Obligations.DecodeEncode : Prop := ∀ i : Instr, i.wf = true →
  ∃ x w, encodeN i = some (x, w) ∧ w < 2 ^ 32 ∧ (∀ e, x = some e → e < 2 ^ 20) ∧ decodeN x w = .ok i ∧
    (∀ e, x = some e → decodeN none (1 * 2 ^ 27 + 2 * 2 ^ 24 + e) = .ok (.xim (BitVec.ofNat 20 e)))

/-- R65, R72, R77, R94, R95, R135, R368: a step that reads a word runs what the word decodes to. A prefix joins the chain; an
instruction is executed with the fields of its repeat; a word that no table assigns, or that may not stand in its place,
traps for every slot of the run before any effect, with the lowest detail at fault. A prologue's word runs where the unit
admits it. An event that is due alone is what happens next. The choice among happenings is the model's (log 4). -/
def Obligations.StepRunsDecoded : Prop :=
  (∀ s s0 iss t w key ver, NextWord s s0 iss t → fetchWord s0 t iss.wpc = .word w key ver →
    let s1 := { fillICache s0 t.core (ctxOf s0 t) key ver with iss := some iss }
    let low := fun (d : Nat) => match wordPlace iss t w with
      | some n => min d n
      | none => d
    (w / 2 ^ 27 % 32 = 1 →
      (∀ i, decodeN none w = .ok i → (prefixKind i).bind (prefixFault iss t) = none → step s = after s1 (exec i s1)) ∧
      (∀ i d, decodeN none w = .ok i → (prefixKind i).bind (prefixFault iss t) = some d →
        step s = .next (faultAll s1 iss t iss.slots (cause 0 d) 0#64)) ∧
      (∀ d, decodeN none w = .error d → step s = .next (faultAll s1 iss t iss.slots (cause 0 (low d)) 0#64))) ∧
    (w / 2 ^ 27 % 32 ≠ 1 →
      (∀ i, decodeN (iss.ext.map (·.toNat)) w = .ok i → placeFault iss t i = none →
        let j := atRepeat iss.rep (repLeft iss (slotAt t (lowSlot iss.slots))) i
        step s = after (noteIssue s1 iss t j) (exec j (noteIssue s1 iss t j)) ∧ (iss.rep = none → j = i)) ∧
      (∀ d, decodeN (iss.ext.map (·.toNat)) w = .error d →
        step s = .next (faultAll s1 iss t iss.slots (cause 0 (low d)) 0#64)) ∧
      (∀ i d, decodeN (iss.ext.map (·.toNat)) w = .ok i → placeFault iss t i = some d →
        step s = .next (faultAll s1 iss t iss.slots (cause 0 d) 0#64)))) ∧
  (∀ s iss t p w key ver, s.iss = some iss → findTrain s iss.tr = some t → t.prol = some p →
    fetchWord (advance s) t iss.wpc = .word w key ver →
    (∀ i, decodeN none w = .ok i → prologueOk i = true →
      let s1 := modTrain { advance s with iss := some iss } t.uid (fun t =>
        { t with prol := some (p.1, p.2.1, p.2.2.1, p.2.2.2 + 1) })
      step s = after s1 (exec i s1)) ∧
    ((∀ i, decodeN none w = .ok i → prologueOk i = false) →
      step s = .next (packetFault { advance s with iss := none } p.1 9 (prologueCause t w)))) ∧
  (∀ s i, let s1 := trackAble (advance s)
    s.iss = none → agingDue (advance s) = none → s.agenda = [i] → options s1 = [.agenda 0] →
    let s2 := { s1 with agenda := [] }
    step s = after s2 (exec i s2)) ∧
  (∀ s t, ∃ ts, after s (.next t) = .next { t with teams := ts } ∧
    ts.map (fun tm => { tm with noneFrom := 0 }) = t.teams.map (fun tm => { tm with noneFrom := 0 })) ∧
  (∀ s f, after s (.fault f) = .fault f) ∧ ∀ s r, after s (.refused r) = .refused r

/-- R31, R296, R320, R434, R440: the device after reset. No context, queue, team or train stands, no key is loaded, no
crossing is held, and bring-up is to come. What the spec leaves to firmware is the model's choice: every lane good, reference
timing, every bank live, no die alive (log 1); memory lists nothing (log 2). -/
def Obligations.ResetState : Prop :=
  let s := State.reset
  State.Inv s ∧ (∀ a, cget s.mem a = 0#8) ∧ s.booted = false ∧ s.ctxs = [] ∧ s.queues = [] ∧ s.launches = [] ∧ s.teams = [] ∧
  s.trains = [] ∧ s.reqs = [] ∧ s.cmds = [] ∧ s.tasks = [] ∧ s.errs = [] ∧ s.iss = none ∧ s.agenda = [.deviceBoot] ∧
  s.hold = ⟨0#16, 0⟩ ∧ (∀ k, keyVersion s k = 0) ∧ s.memAlive = 0#4 ∧ s.corAlive = 0#4 ∧
  (∀ c, (coreOf s c).lanes = 0xFFFFFFFF#32 ∧ oscap (coreOf s c) = 8388608 ∧ (coreOf s c).fenced = false ∧
    ∀ f ∈ ctimeFields, fld (coreOf s c).ctime f.1 f.2.1 = f.2.2) ∧
  (∀ s', step s = .next s' → s'.trains = [] ∧ s'.ctxs = [])

/-- R296: every step keeps device memory in its canonical form, and so does every instruction and event. The form is the
model's (log 2). -/
def Obligations.StepsKeepMemory : Prop :=
  (∀ i s s', State.Inv s → exec i s = .next s' → State.Inv s') ∧ (∀ s s', State.Inv s → step s = .next s' → State.Inv s')

/-- R182, R184: every step keeps each train at 32 slots. -/
def Obligations.StepsKeepSlots : Prop := ∀ s s', (∀ t ∈ s.trains, t.slots.length = 32) → step s = .next s' →
  ∀ t ∈ s'.trains, t.slots.length = 32

/-! Numbers and vector instructions (R40 to R130). -/

/-- R40: sub-element i of a register occupies bits [w(i + 1) - 1 : wi], and in memory, stored at a byte, begins wi/8 bytes
on; it is written by itself, and the others stand. -/
def Obligations.SubElements : Prop := ∀ (wd : Width) (r : Word) (i : Nat),
  let w := wbits wd
  i < 64 / w →
  (w = 8 ∨ w = 16 ∨ w = 32 ∨ w = 64) ∧ (64 / w = 8 ∨ 64 / w = 4 ∨ 64 / w = 2 ∨ 64 / w = 1) ∧
  (∀ j, (subN r w i).testBit j = (decide (j < w) && r.getLsbD (w * i + j))) ∧
  (∀ (m : Cells 8) a, leN (cgetAll (csetAll m a (bytesN 8 r.toNat)) (a + w * i / 8) (w / 8)) = subN r w i) ∧
  (∀ f : Nat → Nat, (∀ j, f j < 2 ^ w) → subN (packW w f) w i = f i)

/-- R115, R117: iop forms each sub-element from those of its sources, modulo 2^w; the shift amount is the low 8 bits of the
sub-element, taken whole; nothing crosses into a neighbour; and, beside d, nothing changes. R115: the 64-bit logic of iop. -/
def Obligations.IopForms : Prop :=
  (∀ (w : Width) (d a b : Reg),
    VecElems (.iopAdd w d a b) d (wbits w) (fun v => (v a + v b) % 2 ^ wbits w) ∧
    VecElems (.iopSub w d a b) d (wbits w) (fun v => (v a + (2 ^ wbits w - v b)) % 2 ^ wbits w) ∧
    VecElems (.iopMul w d a b) d (wbits w) (fun v => v a * v b % 2 ^ wbits w) ∧
    VecElems (.iopMinI w d a b) d (wbits w) (fun v => wrapN (wbits w) (min (sInt (wbits w) (v a)) (sInt (wbits w) (v b)))) ∧
    VecElems (.iopMaxI w d a b) d (wbits w) (fun v => wrapN (wbits w) (max (sInt (wbits w) (v a)) (sInt (wbits w) (v b)))) ∧
    VecElems (.iopMinN w d a b) d (wbits w) (fun v => min (v a) (v b)) ∧
    VecElems (.iopMaxN w d a b) d (wbits w) (fun v => max (v a) (v b)) ∧
    VecElems (.iopAddsI w d a b) d (wbits w) (fun v => wrapN (wbits w)
      (max (-2 ^ (wbits w - 1)) (min (2 ^ (wbits w - 1) - 1) (sInt (wbits w) (v a) + sInt (wbits w) (v b))))) ∧
    VecElems (.iopSubsI w d a b) d (wbits w) (fun v => wrapN (wbits w)
      (max (-2 ^ (wbits w - 1)) (min (2 ^ (wbits w - 1) - 1) (sInt (wbits w) (v a) - sInt (wbits w) (v b))))) ∧
    VecElems (.iopAddsN w d a b) d (wbits w) (fun v => min (v a + v b) (2 ^ wbits w - 1)) ∧
    VecElems (.iopSubsN w d a b) d (wbits w) (fun v => v a - v b) ∧
    VecElems (.iopShl w d a b) d (wbits w)
      (fun v => if wbits w ≤ v b % 256 then 0 else v a * 2 ^ (v b % 256) % 2 ^ wbits w) ∧
    VecElems (.iopShr w d a b) d (wbits w) (fun v => if wbits w ≤ v b % 256 then 0 else v a / 2 ^ (v b % 256)) ∧
    VecElems (.iopSar w d a b) d (wbits w)
      (fun v => wrapN (wbits w) (sInt (wbits w) (v a) / 2 ^ min (v b % 256) (wbits w - 1))) ∧
    VecElems (.iopMulhI w d a b) d (wbits w)
      (fun v => wrapN (wbits w) (sInt (wbits w) (v a) * sInt (wbits w) (v b) / 2 ^ wbits w)) ∧
    VecElems (.iopMulhN w d a b) d (wbits w) (fun v => v a * v b / 2 ^ wbits w) ∧
    VecElems (.iopRol w d a b) d (wbits w) (fun v =>
      v a * 2 ^ (v b % 256 % wbits w) % 2 ^ wbits w + v a / 2 ^ (wbits w - v b % 256 % wbits w)) ∧
    VecElems (.iopRor w d a b) d (wbits w) (fun v =>
      v a / 2 ^ (v b % 256 % wbits w) + v a * 2 ^ (wbits w - v b % 256 % wbits w) % 2 ^ wbits w) ∧
    VecElems (.iopAvgN w d a b) d (wbits w) (fun v => (v a + v b + 1) / 2) ∧
    VecElems (.iopAbs w d a) d (wbits w) (fun v => (sInt (wbits w) (v a)).natAbs)) ∧
  (∀ (d a b : Reg),
    VecWord (.iopAnd d a b) d (fun rd => rd a &&& rd b) ∧
    VecWord (.iopOr d a b) d (fun rd => rd a ||| rd b) ∧
    VecWord (.iopXor d a b) d (fun rd => rd a ^^^ rd b) ∧
    VecWord (.iopAndn d a b) d (fun rd => rd a &&& ~~~ rd b))

/-- R118: iopi combines a with its sign-extended immediate, always at 64 bits. R119: shi shifts and rotates each sub-element
by its amount field, 0 to 255, used whole. R120: limm writes chunk c of d: for each active slot, or once for the run where d
is a k register. -/
def Obligations.ImmediateForms : Prop :=
  (∀ (d a : Reg) (imm : BitVec 31),
    VecWord (.iopiAddi d a imm) d (fun rd => BitVec.ofInt 64 ((rd a).toInt + imm.toInt)) ∧
    VecWord (.iopiAndi d a imm) d (fun rd => rd a &&& BitVec.ofInt 64 imm.toInt) ∧
    VecWord (.iopiOri d a imm) d (fun rd => rd a ||| BitVec.ofInt 64 imm.toInt) ∧
    VecWord (.iopiXori d a imm) d (fun rd => rd a ^^^ BitVec.ofInt 64 imm.toInt)) ∧
  (∀ (w : Width) (d a : Reg) (n : BitVec 8),
    VecElems (.shiShli w d a n) d (wbits w) (fun v => if wbits w ≤ n.toNat then 0 else v a * 2 ^ n.toNat % 2 ^ wbits w) ∧
    VecElems (.shiShri w d a n) d (wbits w) (fun v => if wbits w ≤ n.toNat then 0 else v a / 2 ^ n.toNat) ∧
    VecElems (.shiSari w d a n) d (wbits w) (fun v => wrapN (wbits w) (sInt (wbits w) (v a) / 2 ^ min n.toNat (wbits w - 1))) ∧
    VecElems (.shiRoli w d a n) d (wbits w) (fun v =>
      v a * 2 ^ (n.toNat % wbits w) % 2 ^ wbits w + v a / 2 ^ (wbits w - n.toNat % wbits w)) ∧
    VecElems (.shiRori w d a n) d (wbits w) (fun v =>
      v a / 2 ^ (n.toNat % wbits w) + v a * 2 ^ (wbits w - n.toNat % wbits w) % 2 ^ wbits w)) ∧
  (∀ (d : Reg) (c : BitVec 2) (imm : BitVec 16),
    let ins := fun (o : Word) => (o &&& ~~~(0xFFFF#64 <<< (16 * c.toNat))) ||| (BitVec.ofNat 64 imm.toNat) <<< (16 * c.toNat)
    let set := (BitVec.ofNat 64 imm.toNat) <<< (16 * c.toNat)
    let sets := (BitVec.ofInt 64 imm.toInt) <<< (16 * c.toNat)
    (isK d = false → VecWord (.limmIns d c imm) d (fun rd => ins (rd d)) ∧ VecWord (.limmSet d c imm) d (fun _ => set) ∧
      VecWord (.limmSets d c imm) d (fun _ => sets)) ∧
    (isK d = true → UniK (.limmIns d c imm) d (fun t => ins (readReg t 0 d)) ∧ UniK (.limmSet d c imm) d (fun _ => set) ∧
      UniK (.limmSets d c imm) d (fun _ => sets)))

/-- R121 to R123: the bit family, for each sub-element; a field is cut at the top of its sub-element, and bperm picks bytes
of a, then of the old d. -/
def Obligations.BitSubElements : Prop := ∀ (w : Width) (d a b : Reg),
  let pos := fun (v : Reg → Nat) => v b % wbits w
  let len := fun (v : Reg → Nat) => min (v b / wbits w % (2 * wbits w)) (wbits w - pos v)
  VecElems (.bitBextN w d a b) d (wbits w) (fun v => v a / 2 ^ pos v % 2 ^ len v) ∧
  VecElems (.bitBextI w d a b) d (wbits w) (fun v =>
    if len v = 0 then 0 else wrapN (wbits w) (sInt (len v) (v a / 2 ^ pos v % 2 ^ len v))) ∧
  VecElems (.bitBins w d a b) d (wbits w) (fun v =>
    v d % 2 ^ pos v + v a % 2 ^ len v * 2 ^ pos v + v d / 2 ^ (pos v + len v) * 2 ^ (pos v + len v)) ∧
  VecElems (.bitPopc w d a) d (wbits w) (fun v => ((List.range (wbits w)).filter (fun j => (v a).testBit j)).length) ∧
  VecElems (.bitClz w d a) d (wbits w) (fun v => if v a = 0 then wbits w else wbits w - 1 - Nat.log2 (v a)) ∧
  VecElems (.bitCtz w d a) d (wbits w) (fun v =>
    ((List.range (wbits w)).find? (fun j => (v a).testBit j)).getD (wbits w)) ∧
  VecElems (.bitBrev w d a) d (wbits w) (fun v =>
    sumN ((List.range (wbits w)).map (fun j => if (v a).testBit j then 2 ^ (wbits w - 1 - j) else 0))) ∧
  VecWord (.bitBperm d a b) d (fun rd => packW 8 (fun i =>
    let c := subN (rd b) 8 i
    if 128 ≤ c then 0 else ((rd a).toNat + (rd d).toNat * 2 ^ 64) / 2 ^ (8 * (c % 16)) % 256))

/-- R124: cmp of integers compares sub-element 0, combines the result into predicate p, and raises no flag. R125: cmp of
floats compares exact values of sub-element 0, and raises invalid for any NaN under lt, le, gt and ge, for a signalling one
under the others. -/
def Obligations.Comparisons : Prop :=
  (∀ (p : R3) (w : Width) (m : Combine) (a b : Reg),
    let holds := fun (c : Cond) (r : Nat → Nat → Bool) =>
      VecPred (.cmp p c (.int w) m a b) p
        (fun rd x => combine m (slotPred x p) (r (subN (rd a) (wbits w) 0) (subN (rd b) (wbits w) 0))) (fun _ => 0#5)
    let s := sInt (wbits w)
    holds .eq (fun u v => decide (u = v)) ∧ holds .ne (fun u v => decide (u ≠ v)) ∧
    holds .ltI (fun u v => decide (s u < s v)) ∧ holds .leI (fun u v => decide (s u ≤ s v)) ∧
    holds .gtI (fun u v => decide (s u > s v)) ∧ holds .geI (fun u v => decide (s u ≥ s v)) ∧
    holds .ltN (fun u v => decide (u < v)) ∧ holds .leN (fun u v => decide (u ≤ v)) ∧
    holds .gtN (fun u v => decide (u > v)) ∧ holds .geN (fun u v => decide (u ≥ v)) ∧
    holds .test (fun u v => decide (u &&& v ≠ 0))) ∧
  (∀ (p : R3) (f : Fmt) (m : Combine) (a b : Reg),
    let val := fun (r : Word) => unpack (fpOf f) (subN r (fbits f) 0)
    let nan := fun (u v : FVal) => u.isNan || v.isNan
    let sig := fun (u v : FVal) => u.isSig || v.isSig
    let holds := fun (c : Cond) (r : FVal → FVal → Bool) (inv : FVal → FVal → Bool) =>
      VecPred (.cmp p c (.flt f) m a b) p
        (fun rd x => combine m (slotPred x p) (r (val (rd a)) (val (rd b))))
        (fun rd => if inv (val (rd a)) (val (rd b)) then 16#5 else 0#5)
    holds .feq (fun u v => decide (cmpV u v = some .eq)) sig ∧
    holds .fne (fun u v => decide (cmpV u v ≠ some .eq)) sig ∧
    holds .flt (fun u v => decide (cmpV u v = some .lt)) nan ∧
    holds .fle (fun u v => decide (cmpV u v = some .lt ∨ cmpV u v = some .eq)) nan ∧
    holds .fgt (fun u v => decide (cmpV u v = some .gt)) nan ∧
    holds .fge (fun u v => decide (cmpV u v = some .gt ∨ cmpV u v = some .eq)) nan ∧
    holds .fun_ nan sig ∧
    holds .ford (fun u v => !nan u v) sig)

/-- R129, R130: the adr forms act on the offset modulo 2^64 and carry the span; movaw and spna set a span, movwa reads one
part, and cmpa compares all 80 bits. R126, R128: scal acts once for the run at 64 bits, on k registers and zr; bcast writes a
k register into w register d of each active slot. R127: rdlane copies the w register of the slot that b names, whatever the
state of that slot. -/
def Obligations.AddressForms : Prop :=
  (∀ (ad as1 as2 : R3) (d a b : Reg) (sh : Fin 5) (imm : BitVec 38) (span : BitVec 13) (part : Bool)
      (c : ACond),
    VecAddr (.adrAdda ad as1 sh b) ad (fun rd x =>
      mkAddr (aSpan (getA x as1)) (BitVec.ofInt 64 ((aOff (getA x as1)).toInt + (rd b).toInt * 2 ^ sh.val))) ∧
    VecAddr (.adrAddai ad as1 imm) ad (fun _ x =>
      mkAddr (aSpan (getA x as1)) (BitVec.ofInt 64 ((aOff (getA x as1)).toInt + imm.toInt))) ∧
    VecAddr (.adrMovawReg ad a b) ad (fun rd _ => mkAddr (BitVec.ofNat 16 (rd b).toNat) (rd a)) ∧
    VecAddr (.adrMovawImm ad a span) ad (fun rd _ => mkAddr (BitVec.ofNat 16 span.toNat) (rd a)) ∧
    VecAddr (.adrSpna ad b) ad (fun rd x => mkAddr (BitVec.ofNat 16 (rd b).toNat) (aOff (getA x ad))) ∧
    (VecSlots (.adrMovwa d as1 part) d (fun t n =>
        if part then BitVec.ofNat 64 (aSpan (readA t n as1)).toNat else aOff (readA t n as1)) ∧
      VecPorts (.adrMovwa d as1 part) d (fun _ t n =>
        if part then BitVec.ofNat 64 (aSpan (readA t n as1)).toNat else aOff (readA t n as1)) (fun _ _ _ u => u)) ∧
    (ad ≠ 0#3 → ∀ s iss t, Issues (.adrCmpa ad as1 as2 c) s iss t →
      ∃ s' t', exec (.adrCmpa ad as1 as2 c) s = .next s' ∧ OnlyTrain s s' t t' ∧ Completed s iss t t' (fun _ => nextPc iss) ∧
        PredsAre t' (fun n q => if inMask (activeMask iss t) n ∧ q = ad then
            (match c with
              | .eq => decide (getA (slotAt t n) as1 = getA (slotAt t n) as2)
              | .ne => decide (getA (slotAt t n) as1 ≠ getA (slotAt t n) as2)
              | .lt => decide ((getA (slotAt t n) as1).toNat < (getA (slotAt t n) as2).toNat)
              | .le => decide ((getA (slotAt t n) as1).toNat ≤ (getA (slotAt t n) as2).toNat))
          else slotPred (slotAt t n) q) ∧
        KeepsRegs t t' ∧ KeepsAddrs t t' ∧ t'.k = t.k ∧ t'.fflags = t.fflags)) ∧
  (∀ (d a b : Reg),
    let n := fun (t : Train) (r : Reg) => (readReg t 0 r).toNat
    let z := fun (t : Train) (r : Reg) => (readReg t 0 r).toInt
    UniK (.scalAdd d a b) d (fun t => BitVec.ofNat 64 (n t a + n t b)) ∧
    UniK (.scalSub d a b) d (fun t => BitVec.ofInt 64 (n t a - n t b)) ∧
    UniK (.scalMul d a b) d (fun t => BitVec.ofNat 64 (n t a * n t b)) ∧
    UniK (.scalAnd d a b) d (fun t => readReg t 0 a &&& readReg t 0 b) ∧
    UniK (.scalOr d a b) d (fun t => readReg t 0 a ||| readReg t 0 b) ∧
    UniK (.scalXor d a b) d (fun t => readReg t 0 a ^^^ readReg t 0 b) ∧
    UniK (.scalShl d a b) d (fun t => if 64 ≤ n t b % 256 then 0#64 else BitVec.ofNat 64 (n t a * 2 ^ (n t b % 256))) ∧
    UniK (.scalShr d a b) d (fun t => if 64 ≤ n t b % 256 then 0#64 else BitVec.ofNat 64 (n t a / 2 ^ (n t b % 256))) ∧
    UniK (.scalSar d a b) d (fun t => BitVec.ofInt 64 (z t a / 2 ^ min (n t b % 256) 63)) ∧
    UniK (.scalMinI d a b) d (fun t => BitVec.ofInt 64 (min (z t a) (z t b))) ∧
    UniK (.scalMinN d a b) d (fun t => BitVec.ofNat 64 (min (n t a) (n t b))) ∧
    UniK (.scalMaxI d a b) d (fun t => BitVec.ofInt 64 (max (z t a) (z t b))) ∧
    UniK (.scalMaxN d a b) d (fun t => BitVec.ofNat 64 (max (n t a) (n t b))) ∧
    VecWord (.scalBcast d a) d (fun rd => rd a)) ∧
  (∀ (d a b : Reg) s iss t, Issues (.scalRdlane d a b) s iss t →
    activeMask iss t ≠ 0#32 → (readReg t 0 b).toNat ≤ 31 →
      ∃ s' t', exec (.scalRdlane d a b) s = .next s' ∧ OnlyTrain s s' t t' ∧ Completed s iss t t' (fun _ => nextPc iss) ∧
        KsAre t' (fun r => if isK d ∧ r = d.toNat - 96 then cget (slotAt t (readReg t 0 b).toNat).regs (wIdx t a)
          else cget t.k r) ∧
        KeepsRegs t t' ∧ KeepsAddrs t t' ∧ KeepsPreds t t' ∧ t'.fflags = t.fflags)

/-! Floats and conversions (R43 to R56, R150 to R166). -/

/-- R151, R153, R157: the arithmetic of fop and fma on each sub-element: the exact result rounded once to the format by rm,
with the flags of all sub-elements merged into fflags. R154, R155: min, max, abs, neg and copysign on each sub-element. One
NaN of a min or max gives the other operand as it stands; the sign forms give the canonical NaN for a NaN in x; signalling
NaNs raise nv, and nothing else is raised. -/
def Obligations.FloatForms : Prop :=
  (∀ (f : Fmt) (rm : Rm) (d a b : Reg),
    let p := fpOf f
    let x := fun (r : Word) (i : Nat) => unpack p (subN r (fbits f) i)
    let each := fun (g : Nat → Nat × BitVec 5) =>
      (packW (fbits f) (fun i => (g i).1), orFlags ((List.range (64 / fbits f)).map (fun i => (g i).2)))
    VecFlags (.fopAdd f rm d a b) d (fun rd => each (fun i => addV p rm (x (rd a) i) (x (rd b) i))) ∧
    VecFlags (.fopSub f rm d a b) d (fun rd => each (fun i => addV p rm (x (rd a) i) (negV (x (rd b) i)))) ∧
    VecFlags (.fopMul f rm d a b) d (fun rd => each (fun i => mulV p rm (x (rd a) i) (x (rd b) i))) ∧
    VecFlags (.fopDiv f rm d a b) d (fun rd => each (fun i => divV p rm (x (rd a) i) (x (rd b) i))) ∧
    VecFlags (.fopSqrt f rm d a) d (fun rd => each (fun i => sqrtV p rm (x (rd a) i))) ∧
    VecFlags (.fmaFma f rm d a b) d (fun rd => each (fun i => fmaV p rm false (x (rd a) i) (x (rd b) i) (x (rd d) i))) ∧
    VecFlags (.fmaFms f rm d a b) d (fun rd => each (fun i => fmaV p rm false (x (rd a) i) (x (rd b) i) (negV (x (rd d) i)))) ∧
    VecFlags (.fmaFnma f rm d a b) d (fun rd => each (fun i => fmaV p rm true (x (rd a) i) (x (rd b) i) (x (rd d) i))) ∧
    VecFlags (.fmaFnms f rm d a b) d (fun rd => each (fun i => fmaV p rm true (x (rd a) i) (x (rd b) i) (negV (x (rd d) i))))) ∧
  (∀ (f : Fmt) (d a b : Reg),
    let p := fpOf f
    let nan := fun (u : Nat) => (unpack p u).isNan
    let sig := fun (u : Nat) => (unpack p u).isSig
    let top := 2 ^ (fbits f - 1)
    let ele := fun (g : Nat → Nat → Nat × Bool) (rd : Reg → Word) =>
      let at_ := fun (i : Nat) => g (subN (rd a) (fbits f) i) (subN (rd b) (fbits f) i)
      (packW (fbits f) (fun i => (at_ i).1), if (List.range (64 / fbits f)).any (fun i => (at_ i).2) then 16#5 else 0#5)
    let pick := fun (first : Ordering → Bool) (u v : Nat) =>
      (if nan u ∧ nan v then p.nan else if nan u then v else if nan v then u
        else match cmpV (unpack p u) (unpack p v) with
          | some .eq => if first (if (unpack p u).isNeg then .lt else .gt) then u else v
          | some o => if first o then u else v
          | none => u, sig u || sig v)
    VecFlags (.fopMin f d a b) d (ele (pick (fun o => decide (o = Ordering.lt)))) ∧
    VecFlags (.fopMax f d a b) d (ele (pick (fun o => decide (o = Ordering.gt)))) ∧
    VecFlags (.fopAbs f d a) d (ele (fun u _ => (if nan u then p.nan else u % top, sig u))) ∧
    VecFlags (.fopNeg f d a) d (ele (fun u _ => (if nan u then p.nan else (u + top) % (2 * top), sig u))) ∧
    VecFlags (.fopCopysign f d a b) d
      (ele (fun u v => (if nan u then p.nan else u % top + v / top * top, sig u || sig v))))

/-- R43 to R46, R52: the exact value of a pattern that is no NaN is delivered in its own format as that pattern, under every
rounding mode and with no flag; a NaN as the canonical one. -/
def Obligations.DeliveryIsExact : Prop := ∀ (f : Fmt) (rm : Rm) (u : Nat), u < 2 ^ fbits f →
  ((unpack (fpOf f) u).isNan = false → deliver (fpOf f) rm (unpack (fpOf f) u) = (u, 0#5)) ∧
  ((unpack (fpOf f) u).isNan = true → (deliver (fpOf f) rm (unpack (fpOf f) u)).1 = (fpOf f).nan)

/-- R45, R48, R51: a result is the exact value rounded once by rm. V/D is the k-th power of the value in units of the
format's smallest subnormal, w t the value of the pattern t in those units, infinity standing one step above the largest
finite number; the value lies between the patterns t and t + 1, and rm takes one of them. Flags: inexact, overflow, and
underflow below the smallest normal number, apart from the last half step before it, where the mode decides. -/
def Obligations.RoundsOnce : Prop := ∀ (f : Fmt),
  let p := fpOf f
  let w := fun (t : Nat) => if t < 2 ^ p.fb then t else (2 ^ p.fb + t % 2 ^ p.fb) * 2 ^ (t / 2 ^ p.fb - 1)
  let rounds := fun (k : Nat) (neg : Bool) (V D : Nat) (out : Rm → Nat × BitVec 5) => ∃ t, t < p.inf ∧ w t ^ k * D ≤ V ∧
    (t + 1 < p.inf → V < w (t + 1) ^ k * D) ∧ ∀ rm,
      let mid := (w t + w (t + 1)) ^ k * D
      let up : Prop := match rm with
        | .rz => False
        | .ru => neg = false
        | .rd => neg = true
        | .rn => mid < 2 ^ k * V ∨ (mid = 2 ^ k * V ∧ t % 2 = 1)
        | .rna => mid ≤ 2 ^ k * V
      let exact : Prop := V = w t ^ k * D
      ((exact ∨ ¬up) → (out rm).1 = p.sign neg + t) ∧ (¬exact → up → (out rm).1 = p.sign neg + (t + 1)) ∧
      ((out rm).2.getLsbD 0 = true ↔ ¬exact) ∧
      ((out rm).2.getLsbD 2 = true ↔ ¬exact ∧ t + 1 = p.inf ∧ (up ∨ w p.inf ^ k * D ≤ V)) ∧
      (2 ^ (p.fb * k) * D ≤ V → (out rm).2.getLsbD 1 = false) ∧
      (V * 2 ^ ((p.fb + 1) * k) ≤ (2 ^ p.fb * (2 ^ (p.fb + 1) - 1)) ^ k * D → (out rm).2.getLsbD 1 = (out rm).2.getLsbD 0) ∧
      (out rm).2.getLsbD 3 = false ∧ (out rm).2.getLsbD 4 = false
  let grow := fun (e : Int) => 2 ^ e.toNat
  ∀ (a b : Bool) (m n : Nat) (e g : Int),
    (m ≠ 0 → rounds 1 a (m * grow (e - p.qmin)) (grow (p.qmin - e)) (fun rm => deliver p rm (.fin a m e))) ∧
    (m * n ≠ 0 → rounds 1 (a != b) (m * n * grow (e + g - p.qmin)) (grow (p.qmin - (e + g)))
      (fun rm => mulV p rm (.fin a m e) (.fin b n g))) ∧
    (m * n ≠ 0 → rounds 1 (a != b) (m * grow (e - g - p.qmin)) (n * grow (p.qmin - (e - g)))
      (fun rm => divV p rm (.fin a m e) (.fin b n g))) ∧
    (m ≠ 0 → rounds 2 false (m * grow (e - 2 * p.qmin)) (grow (2 * p.qmin - e)) (fun rm => sqrtV p rm (.fin false m e))) ∧
    (let q := min e g
     let z : Int := (if a then -1 else 1) * (m * grow (e - q)) + (if b then -1 else 1) * (n * grow (g - q))
     z ≠ 0 → rounds 1 (decide (z < 0)) (z.natAbs * grow (q - p.qmin)) (grow (p.qmin - q))
      (fun rm => addV p rm (.fin a m e) (.fin b n g))) ∧
    (∀ (rm : Rm) (neg c : Bool) (k : Nat) (h : Int), fmaV p rm neg (.fin a m e) (.fin b n g) (.fin c k h) =
      addV p rm (.fin ((a != b) != neg) (m * n) (e + g)) (.fin c k h))

/-- R159, R160: conversions: element i of the source converts to element i of d, and the bits of d above the last element are
zero; a float to an integer saturates with nv, and a NaN gives 0 with nv. R161: pack forms one block from sixteen f32 values
in eight registers and writes its registers, zero bits included; unpack writes the sixteen values of a block and raises no
flag. -/
def Obligations.Conversions : Prop :=
  (∀ (dst src : Fmt) (sgn : Bool) (w : Width) (rm : Rm) (d a : Reg),
    let conv := fun (ws wd : Nat) (g : Nat → Nat × BitVec 5) (r : Word) =>
      (BitVec.ofNat 64 (packNat wd (fun i => (g (subN r ws i)).1) (64 / max ws wd)),
        orFlags ((List.range (64 / max ws wd)).map (fun i => (g (subN r ws i)).2)))
    let int := fun (u : Nat) => if sgn then sInt (wbits w) u else (u : Int)
    VecFlags (.cvtFloatFloat dst src rm d a) d
      (fun rd => conv (fbits src) (fbits dst) (fun u => deliver (fpOf dst) rm (unpack (fpOf src) u)) (rd a)) ∧
    VecFlags (.cvtIntFloat dst sgn w rm d a) d
      (fun rd => conv (wbits w) (fbits dst)
        (fun u => deliver (fpOf dst) rm (.fin (decide (int u < 0)) (int u).natAbs 0)) (rd a)) ∧
    VecFlags (.cvtFloatInt sgn w src rm d a) d
      (fun rd => conv (fbits src) (wbits w) (fun u =>
        let n := wbits w
        let top : Int := if sgn then 2 ^ (n - 1) - 1 else 2 ^ n - 1
        let bot : Int := if sgn then -2 ^ (n - 1) else 0
        match unpack (fpOf src) u with
        | .nan _ => (0, 16#5)
        | .inf neg => (wrapN n (if neg then bot else top), 16#5)
        | .fin neg m e =>
          let q := quantize rm neg m e false 0
          let z : Int := if neg then -(q.1 : Int) else q.1
          if z < bot then (wrapN n bot, 16#5) else if top < z then (wrapN n top, 16#5)
          else (wrapN n z, if q.2 then 0#5 else 1#5)) (rd a))) ∧
  (∀ (x : Bx) (d a : Reg) s iss t,
    let n := bxRegs x
    let f32 := fun (i j : Nat) => subN (cget (slotAt t i).regs (wIdx t a + j / 2)) 32 (j % 2)
    let blk := fun (i : Nat) => packNat 64 (fun j => (cget (slotAt t i).regs (wIdx t a + j)).toNat) n
    let el := fun (i j : Nat) => bxUnpack (bxM x) (blk i) j
    (groupOk n d = true → groupOk 8 a = true → Issues (.cvtBxPack x d a) s iss t →
      ∃ s' t', exec (.cvtBxPack x d a) s = .next s' ∧ OnlyTrain s s' t t' ∧ Completed s iss t t' (fun _ => nextPc iss) ∧
        RegsAre t' (fun i r => if inMask (activeMask iss t) i ∧ wIdx t d ≤ r ∧ r < wIdx t d + n then
            putVal (slotAt t i) r (BitVec.ofNat 64 ((bxPack (bxM x) (f32 i)).1 / 2 ^ (64 * (r - wIdx t d))))
          else cget (slotAt t i).regs r) ∧
        KeepsAddrs t t' ∧ KeepsPreds t t' ∧ t'.k = t.k ∧
        (∀ b : Nat, t'.fflags.getLsbD b = true ↔ t.fflags.getLsbD b = true ∨
          ∃ i < 32, inMask (activeMask iss t) i = true ∧ (bxPack (bxM x) (f32 i)).2.getLsbD b = true)) ∧
    (groupOk 8 d = true → groupOk n a = true → Issues (.cvtBxUnpack x d a) s iss t →
      ∃ s' t', exec (.cvtBxUnpack x d a) s = .next s' ∧ OnlyTrain s s' t t' ∧ Completed s iss t t' (fun _ => nextPc iss) ∧
        RegsAre t' (fun i r => if inMask (activeMask iss t) i ∧ wIdx t d ≤ r ∧ r < wIdx t d + 8 then
            putVal (slotAt t i) r (BitVec.ofNat 64 (el i (2 * (r - wIdx t d)) + el i (2 * (r - wIdx t d) + 1) * 2 ^ 32))
          else cget (slotAt t i).regs r) ∧
        KeepsAddrs t t' ∧ KeepsPreds t t' ∧ t'.k = t.k ∧ t'.fflags = t.fflags))

/-- R163 to R166: sfu on each sub-element, with the flags of all, and the twiddle pair of sub-elements 0. R164, R165: the
special values of the functions in every format of sfu, and of twd: poles, infinities and inputs outside the domain. Results
inside the error bounds are free (log 15); that the flag rows of R163 hold for zeros and for inputs outside the domain too is
the model's reading (log 52). -/
def Obligations.SpecialFunctions : Prop :=
  (∀ (f : Fmt) (d a b : Reg),
    let each := fun (op : Nat) (rd : Reg → Word) =>
      (packW (fbits f) (fun i => (sfuV f op (subN (rd a) (fbits f) i)).1),
        orFlags ((List.range (64 / fbits f)).map (fun i => (sfuV f op (subN (rd a) (fbits f) i)).2)))
    VecFlags (.sfuRcp f d a) d (each 0) ∧ VecFlags (.sfuRsqrt f d a) d (each 1) ∧ VecFlags (.sfuSqrt f d a) d (each 2) ∧
    VecFlags (.sfuExp2 f d a) d (each 3) ∧ VecFlags (.sfuLog2 f d a) d (each 4) ∧ VecFlags (.sfuSinpi f d a) d (each 5) ∧
    VecFlags (.sfuCospi f d a) d (each 6) ∧
    VecFlags (.sfuTwd d a b) d (fun rd =>
      let r := sfuTwdV (subN (rd a) 32 0) (subN (rd b) 32 0)
      (BitVec.ofNat 64 r.1, r.2))) ∧
  (∀ (f : Fmt), f ≠ .f64 →
    let p := fpOf f
    let neg := 2 ^ (fbits f - 1)
    sfuV f 0 0 = (p.inf, 13#5) ∧ sfuV f 0 neg = (neg + p.inf, 13#5) ∧ sfuV f 0 p.inf = (0, 0#5) ∧
    sfuV f 1 0 = (p.inf, 13#5) ∧ sfuV f 1 neg = (neg + p.inf, 13#5) ∧ sfuV f 1 p.inf = (0, 0#5) ∧
    sfuV f 2 0 = (0, 1#5) ∧ sfuV f 2 neg = (neg, 1#5) ∧ sfuV f 2 p.inf = (p.inf, 0#5) ∧
    sfuV f 3 (neg + p.inf) = (0, 0#5) ∧ sfuV f 3 p.inf = (p.inf, 0#5) ∧
    sfuV f 4 0 = (neg + p.inf, 13#5) ∧ sfuV f 4 neg = (neg + p.inf, 13#5) ∧ sfuV f 4 p.inf = (p.inf, 0#5) ∧
    sfuV f 5 p.inf = (p.nan, 16#5) ∧ sfuV f 6 (neg + p.inf) = (p.nan, 16#5) ∧
    (∀ op ∈ [1, 2, 4], (∀ u, neg < u → u < neg + p.inf → sfuV f op u = (p.nan, 17#5)) ∧
      sfuV f op (neg + p.inf) = (p.nan, 16#5)) ∧
    (∀ op < 7, ∀ u < 2 ^ fbits f, (unpack p u).isNan = true →
      sfuV f op u = (p.nan, if (unpack p u).isSig then 16#5 else 0#5)) ∧
    (∀ k n, 31 < n → sfuTwdV k n = ((fpOf .f32).nan * (2 ^ 32 + 1), 16#5)))

/-! Cross-lane instructions (R167 to R180). -/

/-- R172 to R174: the shuffles. A selector of shfl, or of shflx with its place, names slot v / 8 and sub-element v % 8; shflu
and shfld move by whole sub-elements across the train, and keep the slot's own value at the ends. R172, R176: qx takes the
word of another slot of the quad; helper slots are members, supply their registers and take results. The reading of members
is the model's (log 11). -/
def Obligations.XlShuffles : Prop :=
  (∀ (w : Width) (d a b : Reg) (mk : Option (BitVec 5)),
    let W := wbits w
    let N := 64 / W
    let byte := fun (t : Train) (n j : Nat) => (readReg t n b).toNat / 2 ^ (8 * j) % 256
    XlElems (.xlShfl w d a b mk) d mk W (fun t n => ∀ j < N, byte t n j % 8 < N)
      (fun t src n j => src (byte t n j / 8) (byte t n j % 8)) a ∧
    XlElems (.xlShflx w d a b mk) d mk W (fun t n => byte t n 0 % 8 < N)
      (fun t src n j => src ((8 * n + j ^^^ byte t n 0) / 8) ((8 * n + j ^^^ byte t n 0) % 8)) a ∧
    XlElems (.xlShflu w d a b mk) d mk W (fun _ _ => True)
      (fun t src n j =>
        if n * N + j < byte t n 0 then subN (readReg t n a) W j
        else src ((n * N + j - byte t n 0) / N) ((n * N + j - byte t n 0) % N)) a ∧
    XlElems (.xlShfld w d a b mk) d mk W (fun _ _ => True)
      (fun t src n j =>
        if 32 * N ≤ n * N + j + byte t n 0 then subN (readReg t n a) W j
        else src ((n * N + j + byte t n 0) / N) ((n * N + j + byte t n 0) % N)) a) ∧
  (∀ (d a : Reg) (c : Qx) (mk : Option (BitVec 5)),
    let from_ := fun (n : Nat) => 4 * (n / 4) + (match c with
      | .xor1 => [1, 0, 3, 2].getD (n % 4) 0 | .xor2 => [2, 3, 0, 1].getD (n % 4) 0 | .xor3 => [3, 2, 1, 0].getD (n % 4) 0
      | .b0 => 0 | .b1 => 1 | .b2 => 2 | .b3 => 3)
    XlWord (.xlQx d a c mk) d mk true (fun _ _ => True) (fun _ _ src n => src a (from_ n)) (fun _ _ => 0#5))

/-- R175: ballot and votes over the active slots; each active slot takes the same word. R177, R178: red combines what the
active slots contribute, the identity for the others, through five levels of neighbours, and every active slot takes the
result; scan through five levels of doubling distance, inclusive or, moved by one slot, exclusive; a NaN that a scan delivers
is the canonical one. For sums of integers that is the sum modulo 2^w. The reading of members is the model's (log 11). -/
def Obligations.XlReductions : Prop :=
  (∀ (w : Width) (d a : Reg) (p : R3) (mk : Option (BitVec 5)),
    let none := fun (_ : Train) (_ : Mask) => 0#5
    let all := fun (_ : Train) (_ : Nat) => True
    (∃ g, XlWord (.xlBal d p mk) d mk false all g none ∧ ∀ t act src n, ∀ j < 64,
      (g t act src n).getLsbD j = (inMask act j && slotPred (slotAt t j) p)) ∧
    XlWord (.xlVoteAny d p mk) d mk false all
      (fun t act _ _ => if (slotsOf act).any (fun n => slotPred (slotAt t n) p) then 1#64 else 0#64) none ∧
    XlWord (.xlVoteAll d p mk) d mk false all
      (fun t act _ _ => if (slotsOf act).all (fun n => slotPred (slotAt t n) p) then 1#64 else 0#64) none ∧
    (∃ g, XlWord (.xlVoteEq w d a mk) d mk false all g none ∧ ∀ t act src n, ∀ j < 64,
      ((g t act src n).getLsbD j = true ↔ j < 64 / wbits w ∧ ∀ x, inMask act x = true → ∀ y, inMask act y = true →
        subN (readReg t x a) (wbits w) j = subN (readReg t y a) (wbits w) j))) ∧
  (∀ (d a : Reg) (op : RedOp) (ty : Ty) (excl : Bool) (mk : Option (BitVec 5)),
    let w := tyBits ty
    let canon := fun (u : Nat) => match ty with
      | .f f => if (unpack (fpOf f) u).isNan then (fpOf f).nan else u
      | _ => u
    let ins := fun (t : Train) (act : Mask) (j : Nat) => (List.range 32).map (fun n =>
      (if inMask act n then subN (readReg t n a) w j else redIdent op ty, 0#5))
    (∃ fl, XlWord (.xlRed d a op ty mk) d mk false (fun _ _ => True)
      (fun t act _ _ => packW w (fun j => (redTree op ty (ins t act j)).1)) fl ∧
      ∀ t act, ∀ b : Nat, (fl t act).getLsbD b = true ↔ ∃ j < 64 / w, (redTree op ty (ins t act j)).2.getLsbD b = true) ∧
    (∃ fl, XlWord (.xlScan excl d a op ty mk) d mk false (fun _ _ => True)
      (fun t act _ n => packW w (fun j => canon (
        if excl then (if n = 0 then redIdent op ty else ((scanNet op ty (ins t act j)).getD (n - 1) (0, 0#5)).1)
        else ((scanNet op ty (ins t act j)).getD n (0, 0#5)).1))) fl ∧
      ∀ t act, ∀ b : Nat, (fl t act).getLsbD b = true ↔
        ∃ j < 64 / w, ∃ p ∈ scanNet op ty (ins t act j), p.2.getLsbD b = true) ∧
    (op = .add → (∀ f, ty ≠ .f f) → ∀ l : List (Nat × BitVec 5), l.length = 32 → (∀ p ∈ l, p.1 < 2 ^ w) →
      (redTree .add ty l).1 = (l.map (·.1)).sum % 2 ^ w ∧
      ∀ n < 32, ((scanNet .add ty l).getD n (0, 0#5)).1 = ((l.take (n + 1)).map (·.1)).sum % 2 ^ w))

/-- R169 to R171: a run at an xl word of any form waits while a live member is elsewhere; with an explicit mask that names a
slot that has exited the whole run traps 2:2. Helper slots may be members of qx alone. The reading of members is the model's
(log 11), and so is the PC that a member error reports (log 48). -/
def Obligations.XlMembers : Prop := ∀ (w : Width) (d a b : Reg) (p : R3) (c : Qx) (op : RedOp) (ty : Ty) (excl : Bool)
    (mk : Option (BitVec 5)) s iss t,
  ∀ f ∈ [(Instr.xlShfl w d a b mk, false), (.xlShflx w d a b mk, false), (.xlShflu w d a b mk, false), (.xlShfld w d a b mk, false),
    (.xlBal d p mk, false), (.xlVoteAny d p mk, false), (.xlVoteAll d p mk, false), (.xlVoteEq w d a mk, false),
    (.xlQx d a c mk, true), (.xlRed d a op ty mk, false), (.xlScan excl d a op ty mk, false)],
  let i := f.1
  let mem := (xlMembers t f.2 mk).2
  Issues i s iss t → (∀ x ∈ t.slots, ∀ e m p g, x.wait ≠ .member e m p g) →
  (∀ n, inMask mem n = true → (slotAt t n).st = .helper → f.2 = true) ∧
  (mk ≠ none → (∃ n, inMask mem n = true ∧ (slotAt t n).st = .exited) → iss.slots ≠ 0#32 → MayEnter s t →
    TrapsWith i s iss t (cause 2 2) iss.slots iss.slots 0#64 []) ∧
  ((∀ n, inMask mem n = true → (slotAt t n).st ≠ .exited) →
    (∃ n, inMask mem n = true ∧ slotLive (slotAt t n) = true ∧ (slotAt t n).st ≠ .member ∧ inMask iss.slots n = false) →
    ∃ s' t', exec i s = .next s' ∧ OnlyTrain s s' t t' ∧ KeepsRegs t t' ∧ KeepsAddrs t t' ∧ KeepsPreds t t' ∧ t'.k = t.k ∧
      t'.fflags = t.fflags ∧ ∀ n, inMask iss.slots n = true → slotAt t' n =
        slotPark iss .member (.member mk.isSome mem iss.wpc (issGuard iss (slotAt t n))) (nextPc iss) (slotAt t n))

/-! Control flow, prefixes, traps and the sys family (R131 to R149, R416 to R424). -/

/-- R131: bra and the jmp forms. R132, R416: a jump to a register with a bad target in an active slot traps: 2:0 where a
target is not a multiple of 4, else 2:1; the trap mask holds the slots of that cause, no slot of the run changes its PC, and
no link is written. -/
def Obligations.BranchesAndJumps : Prop :=
  (∀ (p : R3) (sense : Bool) (far : BitVec 43) (off : BitVec 37) (d a : Reg),
    let next := fun (iss : Issue) => (iss.wpc.toNat : Int) + 4
    let reg := fun (t : Train) (n : Nat) => ((readReg t n a).toNat : Int)
    Jumps (.bra p sense far) none
      (fun iss t n => if slotPred (slotAt t n) p = sense then next iss else next iss + 4 * far.toInt) ∧
    Jumps (.jmpJmp off) none (fun iss _ _ => next iss + 4 * off.toInt) ∧
    Jumps (.jmpCall d off) (some d) (fun iss _ _ => next iss + 4 * off.toInt) ∧
    Jumps (.jmpRet a) none (fun _ t n => reg t n) ∧
    Jumps (.jmpJmpr a) none (fun _ t n => reg t n) ∧
    Jumps (.jmpCallr d a) (some d) (fun _ t n => reg t n)) ∧
  (∀ (d a : Reg) s iss t,
    let tg := fun (n : Nat) => ((readReg t n a).toNat : Int)
    let mis := maskOf (fun n => inMask (activeMask iss t) n && decide (tg n % 4 ≠ 0))
    let far := maskOf (fun n => inMask (activeMask iss t) n && decide (tg n % 4 = 0) && decide (2 ^ 40 - 4 < tg n))
    ∀ i ∈ [Instr.jmpRet a, .jmpJmpr a, .jmpCallr d a], Issues i s iss t → MayEnter s t →
      (mis ≠ 0#32 → TrapsWith i s iss t (cause 2 0) mis iss.slots 0#64 []) ∧
      (mis = 0#32 → far ≠ 0#32 → TrapsWith i s iss t (cause 2 1) far iss.slots 0#64 []))

/-- R73, R75 to R77, R135: each prefix word joins the chain of the word now issuing, which goes on at the next word. R139,
R147: nop has no effect; yield holds the train back for 16 cycles; spin parks the active slots for 64 cycles and begins a
declared wait. R140, R212: exit retires the active slots, and the other slots of the run go on; with no live slot left the
train retires. -/
def Obligations.PrefixesIdleAndExit : Prop :=
  (∀ (bs as_ ds : BitVec 2) (be ae de : Bool) (c : BitVec 6) (g : BitVec 3) (sense : Bool) (p : R3)
      (e : BitVec 20) s iss, s.iss = some iss →
    exec (.rep bs as_ ds be ae de c) s = .next { s with iss := some { iss with
      kinds := 0 :: iss.kinds, rep := some (.rep bs as_ ds be ae de c), wpc := iss.wpc + 4#40 } } ∧
    exec (.grd g sense p) s = .next { s with iss := some { iss with
      kinds := 1 :: iss.kinds, grd := some ⟨g.toNat + 1, sense, p⟩, wpc := iss.wpc + 4#40 } } ∧
    exec (.xim e) s = .next { s with iss := some { iss with kinds := 2 :: iss.kinds, ext := some e, wpc := iss.wpc + 4#40 } }) ∧
  (NoEffect .sysNop ∧
    (∀ s iss t, Issues .sysYield s iss t → activeMask iss t ≠ 0#32 →
      ∃ s1 t', exec .sysYield s = .next (post s1 (.yieldWindowEnd t.uid (s.now + 16))) ∧ OnlyTrain s s1 t t' ∧
        Completed s iss { t with yieldTo := s.now + 16 } t' (fun _ => nextPc iss) ∧ KeepsRegs t t' ∧ KeepsAddrs t t' ∧
        KeepsPreds t t' ∧ t'.k = t.k ∧ t'.fflags = t.fflags) ∧
    (∀ s iss t, Issues .sysSpin s iss t → activeMask iss t ≠ 0#32 →
      ∃ s1 t', exec .sysSpin s = .next (post s1 (.spinWake t.uid (activeMask iss t) (s.now + 64))) ∧ OnlyTrain s s1 t t' ∧
        t'.declared = some (t.declared.getD s.now) ∧ t'.k = t.k ∧ t'.fflags = t.fflags ∧
        ∀ n < 32, inMask (activeMask iss t) n = true →
          slotAt t' n = slotPark iss .wait (.spin (s.now + 64)) (nextPc iss) (slotAt t n))) ∧
  (∀ s iss t, Issues .sysExit s iss t → activeMask iss t ≠ 0#32 →
    (∀ x ∈ t.slots, x.st ≠ .member ∧ ∀ e m pc g, x.wait ≠ .member e m pc g) →
      ∃ s1 t', OnlyTrain s s1 t t' ∧ t'.declared = none ∧ t'.slots.length = 32 ∧ t'.k = t.k ∧ t'.fflags = t.fflags ∧
        (∀ n < 32, slotAt t' n =
          if inMask (activeMask iss t) n then slotPark iss .exited .none (nextPc iss) (slotAt t n)
          else if inMask iss.slots n then slotDone iss (nextPc iss) (slotAt t n)
          else { slotAt t n with skip := if (slotAt t n).st = .ready then (slotAt t n).skip + 1 else (slotAt t n).skip }) ∧
        exec .sysExit s = .next (if t'.slots.any slotLive then s1 else retireTrain s1 t.uid))

/-- R141, R422: trap and brk raise their cause for the active slots, with an empty pend mask: every slot of the run has
completed, and resumes at the next word. R69, R193, R415, R416: an operand field that names a register which its position
does not admit, or one beyond the allocation, traps the whole run before any effect, with the lowest detail at fault and its
info word. -/
def Obligations.TrapsAreTaken : Prop :=
  (∀ (n : BitVec 5) s iss t, activeMask iss t ≠ 0#32 → MayEnter s t →
    (Issues (.sysTrap n) s iss t → TrapsWith (.sysTrap n) s iss t (cause 10 n.toNat) (activeMask iss t) 0#32 0#64 []) ∧
    (Issues .sysBrk s iss t → TrapsWith .sysBrk s iss t (cause 11 0) (activeMask iss t) 0#32 0#64 [])) ∧
  (∀ (i : Instr) s iss t d info, s.iss = some iss → findTrain s iss.tr = some t →
    fieldFault t i = some (d, info) → iss.bad = [] → iss.slots ≠ 0#32 → t.slots.length = 32 → MayEnter s t →
      TrapsWith i s iss t (cause 1 d) iss.slots iss.slots (BitVec.ofNat 64 info) [])

/-- R417, R418, R420: entering a handler writes the frame into registers A - 16 to A - 1 of all 32 slots, moves the window to
A - 32, and sends every live slot to the handler without prefix state; registers outside the frame, k registers, fflags,
lapsed, address registers and predicates stand. R11: a write in the frame leaves its read-only and reserved bits as they are.
R49, R420: a trap without a handler, or inside one, kills the team and posts a record of its cause; one that meets replies
still to come, or a posted write of a special register, waits for them, and TRAP_ENTRY then enters the handler. That bits of
the frame which are read-only or reserved ignore a handler's writes is the model's reading of R11 (log 50). -/
def Obligations.TrapEntry : Prop :=
  (∀ (t : Train) (p : PTrap), t.slots.length = 32 → 32 ≤ t.A →
    let t' := enterTrain t p
    let w := fun (n r : Nat) => cget (slotAt t' n).regs (t.A - 32 + r)
    let word := fun (j : Nat) => w (j / 4) (28 + j % 4)
    let train := fun (j : Nat) => if j = 3 then 0xFFFFFFFF#64 else if j = 4 then 0x3FF#64 else if j = 6 then 0x1F#64
      else if j = 7 then 1#64 else if j = 8 then 0x10F#64 else if 10 ≤ j ∧ j ≤ 17 then 0xFFFFFFFFFFFFFFFF#64 else 0#64
    let open_ := fun (n j : Nat) => if j = 0 then 0xFFFFFFFFFFF#64 else if j = 1 then 0xFFFFFE#64
      else if j < 10 then 0xFFFFFFFFFFFFFFFF#64 else if j < 12 then 0#64 else train (4 * n + (j - 12))
    t'.B = t.A - 32 ∧ t'.inHand = true ∧ t'.A = t.A ∧ t'.k = t.k ∧ t'.fflags = t.fflags ∧ t'.lapsed = t.lapsed ∧
    t'.thand = t.thand ∧ t'.slots.length = 32 ∧
    (∀ n < 32,
      let x := slotAt t n
      let y := slotAt t' n
      (slotLive x = true → y.pc = BitVec.ofNat 40 (4 * (t.thand.toNat / 4 % 2 ^ 38)) ∧ y.st = .ready ∧ y.rcount = 0 ∧
        y.guard = Guard.none ∧ y.wait = .none) ∧
      (slotLive x = false → y.pc = x.pc ∧ y.st = x.st) ∧ y.areg = x.areg ∧ y.pred = x.pred ∧
      (∀ r, r < t.A - 16 ∨ t.A ≤ r → cget y.regs r = cget x.regs r) ∧
      w n 16 = BitVec.ofNat 64 (stCode x.st * 2 ^ 40 + x.pc.toNat) ∧
      w n 17 = BitVec.ofNat 64 (repcnt x * 2 ^ 8 + x.pred.toNat / 2 * 2) ∧
      (∀ j < 4, w n (18 + 2 * j) = aOff (cget x.areg j) ∧ w n (19 + 2 * j) = BitVec.ofNat 64 (aSpan (cget x.areg j)).toNat) ∧
      w n 26 = aOff (cget p.faddr n) ∧ w n 27 = BitVec.ofNat 64 (aSpan (cget p.faddr n)).toNat ∧
      (∀ r v, r < t.A - 16 ∨ t.A ≤ r → putVal y r v = v) ∧
      ∀ j < 16, ∀ v b, (putVal y (t.A - 16 + j) v).getLsbD b = if (open_ n j).getLsbD b then v.getLsbD b else (w n (16 + j)).getLsbD b) ∧
    (word 0 = BitVec.ofNat 64 p.cause.toNat ∧ word 1 = BitVec.ofNat 64 p.fpc.toNat ∧
      word 2 = BitVec.ofNat 64 p.tmask.toNat ∧ word 3 = BitVec.ofNat 64 p.pmask.toNat ∧ word 4 = BitVec.ofNat 64 t.B ∧
      word 6 = BitVec.ofNat 64 t.fflags.toNat ∧ word 7 = (if t.lapsed then 1#64 else 0#64) ∧
      word 8 = BitVec.ofNat 64 t.prio ∧ word 9 = p.info ∧ (∀ j < 8, word (10 + j) = cget t.k j) ∧
      word 5 = 0#64 ∧ ∀ j, 18 ≤ j → j < 128 → word j = 0#64)) ∧
  (∀ s t p, findTrain s t.uid = some t → t.prol = none →
    ((t.thand.getLsbD 40 = false ∨ t.inHand = true) →
      raiseTrap s t.uid p = killTeam (addErr s { errRec 5 2 t.core (ctxOf s t) with
        cause := p.cause.toNat, addr := BitVec.ofNat 64 p.fpc.toNat, code := p.tmask.toNat }) t.team) ∧
    (t.thand.getLsbD 40 = true → t.inHand = false → entryWaits s t.uid = true →
      raiseTrap s t.uid p = post (modTrain s t.uid (fun t => { t with trap := some p, sstep := false })) (.trapEntry t.uid)) ∧
    (t.trap = some p → entryWaits s t.uid = false → exec (.trapEntry t.uid) s = .next (setTrain s (enterTrain t p))))

/-- R423: eret by every live slot of a train in its handler puts the frame back: each live slot at its saved PC, or at the
faulting PC where the pend mask names it, with its predicates, prefix state and a0 to a3, and the train's k0 to k7, window
base, fflags, lapsed and priority; the train leaves its handler. Slots that the frame saves as exited or as waiting at a
barrier come below. R418, R420, R423: a handler that edits nothing gives the train back as it was: what enterTrain saves,
eret restores, and the slots of the pend mask stand at the faulting PC. R198, R423, R461: a slot that the frame saves as
exited is exited; another that the pend mask names makes the instruction at the faulting PC again; one saved as waiting at a
barrier goes on where the phase of its train's last arrival has completed, and else waits for it again without arriving.
R424: under single step an instruction that its whole run completes traps 11:1, with the next word as fpc, the run as trap
mask and nothing to repeat. The use of the saved PCs is the model's reading (log 11), and so is the trap mask of a single
step (log 46). -/
def Obligations.TrapReturn : Prop :=
  (∀ s iss t, Issues .sysEret s iss t → activeMask iss t = liveMask t →
    activeMask iss t ≠ 0#32 → t.inHand = true → eretFault t = none →
    (∀ n < 32, slotLive (slotAt t n) = true → fld (savedWord t n 0) 40 4 ≠ 7 ∧ fld (savedWord t n 0) 40 4 ≠ 4) →
      ∃ t', exec .sysEret s = .next { setTrain s t' with iss := none } ∧ t'.inHand = false ∧ t'.uid = t.uid ∧ t'.A = t.A ∧
        t'.B = fld (savedTrain t 4) 0 10 ∧ t'.fflags = BitVec.ofNat 5 (savedTrain t 6).toNat ∧
        t'.lapsed = (savedTrain t 7).getLsbD 0 ∧ t'.prio = fld (savedTrain t 8) 0 4 ∧ t'.aging = 0 ∧
        (∀ j, cget t'.k j = if j < 8 then savedTrain t (10 + j) else cget t.k j) ∧
        (∀ n < 32, slotLive (slotAt t n) = false → slotAt t' n = { slotAt t n with frame := [] }) ∧
        (∀ n < 32, slotLive (slotAt t n) = true →
          let x := slotAt t' n
          let w := savedWord t n
          x.pc = (if (savedTrain t 3).getLsbD n then t.fpc else BitVec.ofNat 40 (w 0).toNat) ∧ x.st = .ready ∧ x.wait = .none ∧ x.rcount = fld (w 1) 8 7 ∧
          (∀ p : R3, p ≠ 0#3 → slotPred x p = (w 1).getLsbD p.toNat) ∧
          (x.guard.cnt = fld (w 1) 20 4 ∧ (fld (w 1) 20 4 ≠ 0 →
            x.guard.sense = (w 1).getLsbD 19 ∧ x.guard.pred.toNat = fld (w 1) 16 3)) ∧
          x.regs = (slotAt t n).regs ∧ x.frame = [] ∧
          (∀ j, cget x.areg j = if j < 4 then mkAddr (BitVec.ofNat 16 (w (3 + 2 * j)).toNat) (w (2 + 2 * j))
            else cget (slotAt t n).areg j))) ∧
  (∀ s (t : Train) (p : PTrap), t.slots.length = 32 → 32 ≤ t.A → t.B < 1024 →
    t.prio < 16 →
    (∀ x ∈ t.slots, x.rcount < 128 ∧ x.guard.cnt < 16 ∧ (x.guard.cnt = 0 → x.guard = Guard.none) ∧
      x.pred.getLsbD 0 = false ∧ x.st ≠ .barrier) →
    let t' := eretTrain s (enterTrain t p)
    t'.B = t.B ∧ (∀ j, cget t'.k j = cget t.k j) ∧ t'.fflags = t.fflags ∧ t'.lapsed = t.lapsed ∧ t'.prio = t.prio ∧
    t'.inHand = false ∧
    (∀ n < 32,
      let x := slotAt t n
      let y := slotAt t' n
      y.pc = (if slotLive x = true ∧ inMask p.pmask n = true then p.fpc else x.pc) ∧ y.pred = x.pred ∧ (∀ j, cget y.areg j = cget x.areg j) ∧
      (slotLive x = true → y.guard = x.guard ∧ y.rcount = x.rcount) ∧
      ∀ r, r < t.A - 16 ∨ t.A ≤ r → cget y.regs r = cget x.regs r)) ∧
  (∀ s t i (x : Slot), slotLive x = true →
    let y := resumeSlot s t i x
    let w := savedWord t i
    let again := (savedTrain t 3).getLsbD i
    let pc := BitVec.ofNat 40 (w 0).toNat
    (fld (w 0) 40 4 = 7 → y.st = .exited ∧ (again = false → y.pc = pc)) ∧
    (again = true → fld (w 0) 40 4 ≠ 7 → y.st = .ready ∧ y.wait = .none ∧ y.pc = t.fpc) ∧
    (again = false → fld (w 0) 40 4 = 4 → ∀ b (h : BitVec 6), behindPrefixes s t 4 pc none none none = some b →
      (b.ins = .ctlBarw h ∨ ∃ r, b.ins = .ctlBar h r) →
      (barPassed t h.toNat = true → y.st = .ready ∧ y.wait = .none ∧ y.pc = if 1 < fld (w 1) 8 7 then pc else b.npc) ∧
      (∀ p, afind t.lastBar h.toNat = some (p, false) → y.st = .barrier ∧ y.wait = .barrier h.toNat p ∧ y.pc = pc))) ∧
  (∀ s iss t, s.iss = some iss → findTrain s iss.tr = some t → t.slots.length = 32 →
    iss.bad = [] → (∀ x ∈ t.slots, x.rcond = []) → t.sstep = true → t.step = none → iss.rep = none → iss.slots ≠ 0#32 →
    (nextPc iss).toNat ≤ 2 ^ 40 - 4 → MayEnter s t →
    ∃ u, Stopped s iss t { u with step := none } 0#32 ∧ exec .sysNop s =
      .next { setTrain s (enterTrain u ⟨cause 11 1, nextPc iss, iss.slots, 0#32, 0#64, []⟩) with iss := none })

/-- R81, R137 to R142: what the special registers hold. R78, R142: srd gives each active slot, or once the k register, the
word of the special register that its index names; with ports, the one active slot pops its index and pushes its value; zr
takes nothing. R137, R142, R143, R320: an index beyond the words of a special register traps 1:4 for the whole run, with the
index as info; outside a debug context reading phold traps 9:0 and writing it 9:1, for the active slots. The info words that
the spec leaves open are free (log 25); with a k destination, or none, the index is that of the lowest active slot, which is
the model's (log 49). -/
def Obligations.SpecialRegisters : Prop :=
  (∀ s iss t (i idx : Nat),
    let v := fun (spec : Reg) => specVal s iss t i spec idx
    v 0#7 = BitVec.ofNat 64 (coreOf s t.core).lanes.toNat ∧ v 1#7 = (coreOf s t.core).ctime ∧ v 2#7 = BitVec.ofNat 64 i ∧
    v 3#7 = BitVec.ofNat 64 (t.resident % 128 * 256 + t.idx % 32) ∧
    v 5#7 = BitVec.ofNat 64 (ringOf t.core * 8192 + posOf t.core * 1024 + dieOf t.core * 256 + t.core) ∧
    v 6#7 = BitVec.ofNat 64 (dieOf t.core) ∧ v 11#7 = (if t.lapsed then 1#64 else 0#64) ∧
    v 12#7 = BitVec.ofNat 64 t.fflags.toNat ∧ v 16#7 = t.thand ∧
    v 17#7 = BitVec.ofNat 64 (s.memAlive.toNat * 16 + s.corAlive.toNat) ∧
    (v 10#7 = BitVec.ofNat 64 (repcnt (slotDone iss (nextPc iss) (slotAt t i)))) ∧
    (∀ tm, findTeam s t.team = some tm → v 4#7 = BitVec.ofNat 64 (tm.fpos % 8 * 2 ^ 40 + tm.stage % 8 * 2 ^ 32 + tm.num % 2 ^ 32)) ∧
    (∀ c, findCtx s (ctxOf s t) = some c → v 9#7 = BitVec.ofNat 64 c.oskey.toNat ∧ v 15#7 = BitVec.ofNat 64 c.stall)) ∧
  (∀ (d spec a : Reg) s iss t, Issues (.sysSrd d spec a) s iss t →
    activeMask iss t ≠ 0#32 → (spec = specPhold → debugTrain s t = true) →
    (portFree (.sysSrd d spec a) = true → isK d = false →
      (∀ n, inMask (activeMask iss t) n = true → (readReg t n a).toNat < specWords spec) →
      ∃ s' t', exec (.sysSrd d spec a) s = .next s' ∧ OnlyTrain s s' t t' ∧ Completed s iss t t' (fun _ => nextPc iss) ∧
        RegsAre t' (fun n r => if inMask (activeMask iss t) n ∧ isW d ∧ r = wIdx t d then
            putVal (slotAt t n) r (specVal s iss t n spec (readReg t n a).toNat) else cget (slotAt t n).regs r) ∧
        KeepsAddrs t t' ∧ KeepsPreds t t' ∧ t'.k = t.k ∧ t'.fflags = t.fflags) ∧
    (isW d = false → isQ d = false → isQ a = false → (readReg t (lowSlot (activeMask iss t)) a).toNat < specWords spec →
      ∃ s' t', exec (.sysSrd d spec a) s = .next s' ∧ OnlyTrain s s' t t' ∧ Completed s iss t t' (fun _ => nextPc iss) ∧
        KsAre t' (fun r => if isK d ∧ r = d.toNat - 96 then
            specVal s iss t (lowSlot (activeMask iss t)) spec (readReg t (lowSlot (activeMask iss t)) a).toNat
          else cget t.k r) ∧
        KeepsRegs t t' ∧ KeepsAddrs t t' ∧ KeepsPreds t t' ∧ t'.fflags = t.fflags) ∧
    (∀ n, portFree (.sysSrd d spec a) = false → isK d = false → (readAny s t n a).toNat < specWords spec →
      let v := specVal s iss t n spec (readAny s t n a).toNat
      PortsReady (.sysSrd d spec a) d v s iss t n →
      let s1 := makePops s iss.tr n (popPorts (.sysSrd d spec a))
      let s2 := if isQ d then wakePort (pushDo s1 iss.tr n (portOf d) v) iss.tr (portOf d) else modTrain s1 iss.tr (fun u => writeW u n d v)
      ∀ u, findTrain s2 iss.tr = some u → exec (.sysSrd d spec a) s = .next (settle s2 iss u []))) ∧
  (∀ (d spec a b : Reg) s iss t, MayEnter s t → activeMask iss t ≠ 0#32 →
    (Issues (.sysSrd d spec a) s iss t → isQ a = false → ∀ n, (slotsOf (activeMask iss t)).head? = some n →
      (specWords spec ≤ (readReg t n a).toNat →
        TrapsWith (.sysSrd d spec a) s iss t (cause 1 4) iss.slots iss.slots (readReg t n a) []) ∧
      (spec = specPhold → isZ a = true → debugTrain s t = false →
        TrapsWith (.sysSrd d spec a) s iss t (cause 9 0) (activeMask iss t) (activeMask iss t) 0#64 [])) ∧
    (Issues (.sysSwr spec a b) s iss t →
      (specWords spec ≤ (readReg t 0 b).toNat →
        TrapsWith (.sysSwr spec a b) s iss t (cause 1 4) iss.slots iss.slots (readReg t 0 b) []) ∧
      (spec = specPhold → (readReg t 0 b).toNat = 0 → debugTrain s t = false →
        TrapsWith (.sysSwr spec a b) s iss t (cause 9 1) (activeMask iss t) (activeMask iss t) 0#64 [])))

/-- R49, R143, R226, R320, R419: swr posts its write, which the train waits for; a write to another register is ignored. The
posted writes of lapsed, fflags and thand change their register alone; a write of phold sets the held pairs for its cycles,
and every crossing goes on once they end. That the write is an event of its own is the model's (log 27). -/
def Obligations.SpecialWrites : Prop :=
  (∀ (spec a b : Reg) s iss t, Issues (.sysSwr spec a b) s iss t → activeMask iss t ≠ 0#32 →
    (readReg t 0 b).toNat < specWords spec → (spec = specPhold → debugTrain s t = true) →
    ∃ s1 t', OnlyTrain s s1 t t' ∧ Completed s iss t t' (fun _ => nextPc iss) ∧ KeepsRegs t t' ∧ KeepsAddrs t t' ∧
      KeepsPreds t t' ∧ t'.k = t.k ∧ t'.fflags = t.fflags ∧ t'.lapsed = t.lapsed ∧ t'.thand = t.thand ∧
      exec (.sysSwr spec a b) s = .next (
        if spec = specPhold then post s1 (.pholdWrite (readReg t 0 a))
        else if spec = 11#7 ∨ spec = 12#7 ∨ spec = 16#7 then
          post s1 (.specialRegWrite t.uid spec (readReg t 0 b).toNat (readReg t 0 a))
        else s1)) ∧
  (∀ (v : Word) (idx : Nat) s t, findTrain s t.uid = some t →
    exec (.specialRegWrite t.uid 11#7 idx v) s = .next (modTrain s t.uid (fun u => { u with lapsed := v.getLsbD 0 })) ∧
    exec (.specialRegWrite t.uid 12#7 idx v) s = .next (modTrain s t.uid (fun u => { u with fflags := BitVec.ofNat 5 v.toNat })) ∧
    exec (.specialRegWrite t.uid 16#7 idx v) s =
      .next (modTrain s t.uid (fun u => { u with thand := BitVec.ofNat 64 (v.toNat / 4 % 2 ^ 39 * 4) }))) ∧
  (∀ (v : Word) s,
    let n := v.toNat / 2 ^ 32 % 2 ^ 24
    let s1 := { s with hold := ⟨BitVec.ofNat 16 v.toNat, s.now + n⟩ }
    exec (.pholdWrite v) s = .next (if n = 0 then kickXings s1 else kickXings (post s1 (.pholdExpire (s.now + n))))) ∧
  (∀ (due : Nat) s, s.hold.until_ ≤ due → exec (.pholdExpire due) s = .next (kickXings (atTime s due))) ∧
  (∀ (due : Nat) s, due < s.hold.until_ → s.now < s.hold.until_ → exec (.pholdExpire due) s = .next (atTime s due))

/-- R145, R301, R302: a fence whose active slots have nothing to wait for completes, and each active slot takes or gives what
its kind says; a fence with something to wait for parks the whole run, and goes on once nothing is left. R146, R147: waitw in
its one active slot goes on where the word that it reads differs from its comparand; where it is equal the slot waits, a
declared wait begins, and a word outside device memory is polled each microsecond. A read that must wait, as the first of a
far word does, is made by the wake. A wake reads the word again. -/
def Obligations.FencesAndWaits : Prop :=
  ((∀ kind sc s iss t, Issues (.sysFence kind sc) s iss t → activeMask iss t ≠ 0#32 →
      ((∀ n, inMask (activeMask iss t) n = true → fencePending s t.uid n kind sc = false) →
        ∃ s' t', exec (.sysFence kind sc) s = .next s' ∧ OnlyTrain s s' t t' ∧ t'.slots.length = 32 ∧ t'.k = t.k ∧
          t'.fflags = t.fflags ∧
          ∀ n < 32, inMask iss.slots n = true → ∃ hb rel, slotAt t' n =
            { slotDone iss (nextPc iss) (slotAt t n) with hb := hb, rel := rel } ∧ (∀ w ∈ (slotAt t n).hb, w ∈ hb) ∧
            (kind = .acq → rel = (slotAt t n).rel) ∧
            (kind ≠ .rel → inMask (activeMask iss t) n = true → ∀ r ∈ (slotAt t n).acq, scopeNum r.sc ≤ scopeNum sc →
              ∀ w ∈ r.ids, w ∈ hb)) ∧
      (∀ m, inMask (activeMask iss t) m = true → fencePending s t.uid m kind sc = true →
        ∃ s' t', exec (.sysFence kind sc) s = .next s' ∧ OnlyTrain s s' t t' ∧ t'.k = t.k ∧ t'.fflags = t.fflags ∧
          ∀ n < 32, inMask iss.slots n = true →
            slotAt t' n = slotPark iss .wait (.fence kind sc (activeMask iss t)) (nextPc iss) (slotAt t n))) ∧
    (∀ s t, findTrain s t.uid = some t → t.halted = false → t.slots.length = 32 →
      ∃ s' t', exec (.fenceResume t.uid) s = .next s' ∧ InTrain s s' t.uid ∧ findTrain s' t.uid = some t' ∧ t'.k = t.k ∧
        t'.fflags = t.fflags ∧ ∀ n < 32,
          let x := slotAt t n
          let x' := slotAt t' n
          x'.regs = x.regs ∧ x'.areg = x.areg ∧ x'.pred = x.pred ∧
          (∀ k sc m, x.wait = .fence k sc m →
            if (slotsOf m).any (fun i => fencePending s t.uid i k sc) = true then x'.st = x.st ∧ x'.wait = x.wait ∧ x'.pc = x.pc
            else x'.st = .ready ∧ x'.wait = .none ∧ x'.pc = (waitDone x).pc) ∧
          (∀ sc, x.wait = .rel sc →
            if relPending s t.uid n sc = true then x'.st = x.st ∧ x'.wait = x.wait ∧ x'.pc = x.pc
            else x'.st = .ready ∧ x'.wait = .none ∧ x'.pc = x.pc))) ∧
  ((∀ scr an b s iss t n, Issues (.sysWaitw scr an b) s iss t → slotsOf (activeMask iss t) = [n] →
      let s0 := { s with nextId := s.nextId + 1 }
      let va := readA t n an
      let cmp := readAny s t n b
      let ins := insOf (slotAt t n) s.nextId
      let parks := fun (s2 : State) (u : Train) (keys : List Nat) (k : Option Nat) =>
        settle s2 iss (modSlot { u with declared := some (u.declared.getD s.now) } n (fun x => { x with again := insOf x s.nextId }))
          [(n, .park .wait (.watch scr keys va cmp k) (nextPc iss))]
      portStop iss (s0, []) t n (popPorts (.sysWaitw scr an b)) none = none →
      (∀ v keys polled l s1 u, waitRead s0 t n scr va (nextPc iss) true = (.val v keys polled l, s1) →
        let s2 := waitTook s1 t.uid n keys l
        (v ≠ cmp → findTrain (makePops s2 t.uid n (popPorts (.sysWaitw scr an b))) t.uid = some u →
          exec (.sysWaitw scr an b) s = .next (settle (makePops s2 t.uid n (popPorts (.sysWaitw scr an b))) iss u [])) ∧
        (v = cmp → findTrain s2 t.uid = some u → lateBad s t.uid ins = [] → exec (.sysWaitw scr an b) s =
          .next (parks (if polled.isSome then post s2 (.waitwPoll t.uid n (s2.now + Config.us)) else s2) u keys polled))) ∧
      (∀ k s1 u, waitRead s0 t n scr va (nextPc iss) true = (.own k, s1) → findTrain s1 t.uid = some u → lateBad s t.uid ins = [] →
        exec (.sysWaitw scr an b) s = .next (parks (post s1 (.waitwWake t.uid n)) u [] k))) ∧
    (∀ s t i scr k0 va cmp p0 v keys polled l s1, findTrain s t.uid = some t → t.halted = false → t.trap = none →
      (slotAt t i).wait = .watch scr k0 va cmp p0 → waitRead s t i scr va (slotAt t i).npc false = (.val v keys polled l, s1) →
      let s2 := waitTook s1 t.uid i keys l
      let goes := makePops (modTrain s2 t.uid (fun u => modSlot u i waitDone)) t.uid i (parkedPops s2 t (slotAt t i))
      let stays := modTrain s2 t.uid (fun u => modSlot u i (fun x => { x with wait := .watch scr keys va cmp polled }))
      let after := if v ≠ cmp then goes else if polled.isSome then post stays (.waitwPoll t.uid i (s2.now + Config.us)) else stays
      exec (.waitwWake t.uid i) s = .next after ∧
      ∀ due s0, atTime s0 due = s → exec (.waitwPoll t.uid i due) s0 = .next after) ∧
    (∀ s t m due, findTrain s t.uid = some t → due ≤ s.now →
      exec (.spinWake t.uid m due) s = .next (modTrain s t.uid (fun u => mapSlots u (fun i x =>
        if inMask m i = true ∧ x.wait = .spin due then waitDone x else x))) ∧
      exec (.yieldWindowEnd t.uid due) s = .next (modTrain s t.uid (fun u => if u.yieldTo = due then { u with yieldTo := 0 } else u))))

/-- R148: dlaunch adds its descriptor to the context's queue once its train's writes are performed; a full queue parks the
run in a declared wait. R149, R370: on a core the launch forms trap 9:2. In a prologue run lcancel ends the packet without a
launch; lcommit and lrepeat commit the launch that k0 to k15 describe, and lrepeat begins the prologue again, up to 16
commits in all. -/
def Obligations.LaunchesFromPrograms : Prop :=
  (∀ (a : Reg) s iss t c tm, Issues (.sysDlaunch a) s iss t → activeMask iss t ≠ 0#32 →
    findCtx s (ctxOf s t) = some c → findTeam s t.team = some tm → (readReg t 0 a).toNat % 64 = 0 → unackedWrites s t.uid = [] →
    (c.dlq.length < 64 →
      ∃ s1 t', OnlyTrain (modCtx s c.num (fun c => { c with dlq := c.dlq ++ [(readReg t 0 a, tm.dprio)] })) s1 t t' ∧
        Completed s iss t t' (fun _ => nextPc iss) ∧ KeepsRegs t t' ∧ KeepsAddrs t t' ∧ KeepsPreds t t' ∧ t'.k = t.k ∧
        t'.fflags = t.fflags ∧ exec (.sysDlaunch a) s = .next (post s1 (.dlaunchProcess c.num))) ∧
    (64 ≤ c.dlq.length →
      ∃ s' t', exec (.sysDlaunch a) s = .next s' ∧ OnlyTrain s s' t t' ∧ t'.declared = some (t.declared.getD s.now) ∧
        ∀ n < 32, inMask iss.slots n = true → slotAt t' n = slotPark iss .wait .dlaunch (nextPc iss) (slotAt t n))) ∧
  ((∀ s iss t, activeMask iss t ≠ 0#32 → MayEnter s t → ∀ i ∈ [Instr.sysLcommit, .sysLcancel, .sysLrepeat], Issues i s iss t →
      TrapsWith i s iss t (cause 9 2) (activeMask iss t) (activeMask iss t) 0#64 []) ∧
    (∀ s iss t slot entry n m, Issues .sysLcancel s iss t → activeMask iss t ≠ 0#32 → t.prol = some (slot, entry, n, m) →
      exec .sysLcancel s = .next (pktDone (dropRun s t.uid) slot)) ∧
    (∀ s iss t slot entry n m q s1, activeMask iss t ≠ 0#32 → t.prol = some (slot, entry, n, m) → findQ s slot = some q →
      acceptLaunch s q.ctx q.prio (some slot) (bytesOf ((List.range 16).map (cget t.k))) = .ok s1 →
      (Issues .sysLcommit s iss t → exec .sysLcommit s = .next (pktDone (dropRun s1 t.uid) slot)) ∧
      (Issues .sysLrepeat s iss t → n < 15 → ((findQ s1 slot).map (·.frozen)).getD false = false →
        exec .sysLrepeat s = .next (setTrain { s1 with iss := none } { t with
          slots := t.slots.map (fun x => if x.st = .ready then { x with pc := 0#40 } else x), prol := some (slot, entry, n + 1, 0) })) ∧
      (Issues .sysLrepeat s iss t → 15 ≤ n → exec .sysLrepeat s = .next (pktDone (dropRun s1 t.uid) slot))))

/-! The ctl family (R193 to R211, R217 to R221, R244 to R248). -/

/-- R217 to R222: a register allocation resizes the train; another grants a range that no live range overlaps, under a number
that no live allocation bears, its bytes zero; the result is the size or the handle, and 0 where the core cannot supply the
store. R221: osfree ends the allocation that its handle names, with the barrier objects in it; a word that is no live handle
traps 5:3. Place, number and open info words are free (logs 14 and 25). -/
def Obligations.Allocations : Prop :=
  (∀ (d a : Reg) kind ret s iss t tm, Issues (.ctlOsalloc d a kind ret) s iss t →
    activeMask iss t ≠ 0#32 → findTeam s t.team = some tm →
    let size := (readReg t 0 a).toNat
    let bytes := allocBytes kind size
    let m := activeMask iss t
    (∀ c det, allocFault s t tm kind size = some (c, det) → MayEnter s t →
      TrapsWith (.ctlOsalloc d a kind ret) s iss t (cause c det) m m (if c = 1 then Config.openInfo s.tick else 0#64) []) ∧
    (allocFault s t tm kind size = none →
      (kind = .reg → bytes ≤ t.A * 256 + coreFree s t.core → ∃ s1, exec (.ctlOsalloc d a kind ret) s = .next s1 ∧
        let s' := settle s iss (resizeTrain (writeUni t m d (BitVec.ofNat 64 size)) size) []
        s1 = if size < t.A then reconsider s' else s') ∧
      (kind ≠ .reg → bytes ≤ coreFree s t.core → ∀ base, placeRange s.tick tm bytes = some base → ∃ al : Alloc,
        al.kind = kind ∧ al.ret = ret ∧ al.size = bytes ∧ al.base = base ∧ al.granted = s.now ∧ 1 ≤ al.num ∧ al.num ≤ 255 ∧
        (∀ x ∈ tm.allocs, x.num ≠ al.num) ∧ base + bytes ≤ 2 ^ 23 ∧
        (∀ x ∈ tm.allocs, base + bytes ≤ x.base ∨ x.base + x.size ≤ base) ∧
        (∀ o, base ≤ o → o < base + bytes → cget (grantRange tm al).scratch o = 0#8) ∧
        (∀ o, o < base ∨ base + bytes ≤ o → cget (grantRange tm al).scratch o = cget tm.scratch o) ∧
        exec (.ctlOsalloc d a kind ret) s = .next (settle (setTeam s (grantRange tm al)) iss
          (writeUni t m d (BitVec.ofNat 64 (Machine.kindCode kind * 2 ^ 40 + al.num * 2 ^ 32 + base))) [])) ∧
      ((kind = .reg → t.A * 256 + coreFree s t.core < bytes) → (kind ≠ .reg → coreFree s t.core < bytes) →
        exec (.ctlOsalloc d a kind ret) s = .next (settle s iss (writeUni t m d 0#64) [])))) ∧
  (∀ (a : Reg) s iss t tm, Issues (.ctlOsfree a) s iss t → activeMask iss t ≠ 0#32 →
    findTeam s t.team = some tm →
    let h := readReg t 0 a
    ((∀ x ∈ tm.allocs, handleOf x ≠ h) → MayEnter s t →
      TrapsWith (.ctlOsfree a) s iss t (cause 5 3) (activeMask iss t) (activeMask iss t) 0#64 []) ∧
    (∀ al, tm.allocs.find? (fun x => handleOf x == h) = some al → teamCmds s tm.id = [] → teamTasks s tm.id = [] →
      exec (.ctlOsfree a) s = .next (reconsider (freedWatch (settle (setTeam s { tm with
        allocs := tm.allocs.filter (fun x => handleOf x != h)
        bobjs := tm.bobjs.filter (fun p => !inAlloc al p.1) }) iss t []) tm.id al.base (al.base + al.size)))))

/-- R197 to R200: an arrival counts, and the one that fills the phase begins the next, marks its arrivals and wakes its
waiters; bar waits for its own phase, barr goes on, and barw waits for the phase of the train's last arrival; an arrival
comes after every access of its train, and the one thing that barw changes beside its train is that later accesses wait for
reads on their way. Which of several details is reported is the model's (log 48). -/
def Obligations.NamedBarriers : Prop := ∀ (h : BitVec 6) (b : Reg) s iss t tm, findTeam s t.team = some tm →
  activeMask iss t ≠ 0#32 → (∀ x ∈ t.slots, x.wait = .none) →
  let m := activeMask iss t
  let c := (barCount t b).getD 0
  let o := barOf tm h.toNat
  let full := decide (barNeed s tm.id c ≤ o.arrived + 1)
  let goes := fun (x x' : Slot) => x'.regs = x.regs ∧ x'.st = .ready ∧ x'.wait = .none ∧ x'.pc = (slotDone iss (nextPc iss) x).pc
  let waits := fun (p : Bool) (x x' : Slot) => x'.regs = x.regs ∧ x'.st = .barrier ∧ x'.wait = .barrier h.toNat p ∧ x'.pc = x.pc
  (∀ i ∈ [Instr.ctlBar h b, .ctlBarr h b], Issues i s iss t →
    (∀ d, barFault s t tm m h.toNat (some (barCount t b)) = some d → MayEnter s t →
      TrapsWith i s iss t (cause 2 d) m m 0#64 []) ∧
    (barFault s t tm m h.toNat (some (barCount t b)) = none →
      (∀ n < 32, relPending s t.uid n .core = false) →
      ∃ s' t' tm', exec i s = .next s' ∧ findTrain s' t.uid = some t' ∧ findTeam s' tm.id = some tm' ∧
        s' = { s with trains := s'.trains, teams := s'.teams, clocks := s'.clocks, iss := none } ∧
        tm' = { tm with bars := tm'.bars } ∧
        barOf tm' h.toNat = (if full then ⟨!o.phase, 0, none⟩ else ⟨o.phase, o.arrived + 1, some c⟩) ∧
        afind t'.lastBar h.toNat = some (o.phase, full) ∧ t'.declared = none ∧ t'.k = t.k ∧ t'.fflags = t.fflags ∧
        (∀ n, inMask m n = true → if i = .ctlBar h b ∧ full = false then waits o.phase (slotAt t n) (slotAt t' n)
          else goes (slotAt t n) (slotAt t' n)) ∧
        ∀ u, findTrain s u.uid = some u → u.uid ≠ t.uid → ∃ u', findTrain s' u.uid = some u' ∧ u'.k = u.k ∧
          ∀ n < u.slots.length, (slotAt u' n).st =
            if full = true ∧ u.team = tm.id ∧ u.halted = false ∧ (slotAt u n).wait = .barrier h.toNat o.phase then .ready
            else (slotAt u n).st)) ∧
  (Issues (.ctlBarw h) s iss t → h.toNat < tm.nb → m = liveMask t →
    ∃ s' t', exec (.ctlBarw h) s = .next s' ∧ s' = { setTrain s t' with reqs := s'.reqs, iss := none } ∧ t'.uid = t.uid ∧
      t'.k = t.k ∧ t'.fflags = t.fflags ∧
      s'.reqs.map (fun r => { r with blk := none }) = s.reqs.map (fun r => { r with blk := none }) ∧
      ∀ n, inMask m n = true → match afind t.lastBar h.toNat with
        | some (p, false) => waits p (slotAt t n) (slotAt t' n)
        | _ => goes (slotAt t n) (slotAt t' n))

/-- R209: migr moves nothing where its address is homed on the train's own die, off the package or on a die without cores,
and clears p7 of every slot; else the train asks for a core of the home die, and waits at most 4,800 cycles. A train that is
not alone, or holds anything, traps 2:10. R209 to R211: a train that waits for a mooring slot is given the least loaded core
that has one, or stays, where none has been free for 4,800 cycles, with p7 clear; once its writes are performed it lands in
its slot with p7 set, and each slot goes on. What the core of destination needs beside a mooring slot is the model's (log
54). -/
def Obligations.Migration : Prop :=
  (∀ (an : R3) s iss t tm, Issues (.ctlMigr an) s iss t → activeMask iss t ≠ 0#32 →
    findTeam s t.team = some tm → activeMask iss t = liveMask t →
    let n := lowSlot (activeMask iss t)
    ((1 < trainsLeft s tm.id ∨ tm.allocs ≠ [] ∨ 0 < tm.nb ∨ t.ports ≠ []) → MayEnter s t →
      TrapsWith (.ctlMigr an) s iss t (cause 2 10) (activeMask iss t) (activeMask iss t) 0#64 []) ∧
    (trainsLeft s tm.id ≤ 1 → tm.allocs = [] → tm.nb = 0 → t.ports = [] → ∀ key ver,
      devLook s t (slotAt t n) (readA t n an) 1 accRead = (.ok [(key, ver)], s) →
      if 2 ^ 52 ≤ key ∨ homeDie key = dieOf t.core ∨ s.corAlive.getLsbD (homeDie key) = false then
        ∃ s' t', exec (.ctlMigr an) s = .next s' ∧ OnlyTrain s s' t t' ∧ Completed s iss t t' (fun _ => nextPc iss) ∧
          PredsAre t' (fun n q => if (slotAt t n).st ≠ .exited ∧ (slotAt t n).st ≠ .absent ∧ q = 7#3 then false
            else slotPred (slotAt t n) q) ∧
          KeepsRegs t t' ∧ KeepsAddrs t t' ∧ t'.k = t.k ∧ t'.fflags = t.fflags
      else
        ∃ s1 t', exec (.ctlMigr an) s = .next (post (post s1 (.migrGrant t.uid)) (.migrWaitTimeout t.uid (s.now + 4800))) ∧
          OnlyTrain s s1 t t' ∧ t'.migr = .waiting (homeDie key) ∧
          ∀ n, inMask (activeMask iss t) n = true →
            slotAt t' n = slotPark iss .migr (.mooring (homeDie key)) (nextPc iss) (slotAt t n))) ∧
  (∀ s t, findTrain s t.uid = some t → t.slots.length = 32 →
    (∀ h c, t.migr = .waiting h → mooringCore s h (t.A * 256) = some c →
      ∃ s1 t', exec (.migrGrant t.uid) s = .next (post s1 (.migrLand t.uid)) ∧ s1 = setTrain s t' ∧
        t' = { t with migr := .transit c s.nextId, slots := t'.slots } ∧
        ∀ n < 32, slotAt t' n = match (slotAt t n).wait with
          | .mooring _ => { slotAt t n with wait := .transit c }
          | _ => slotAt t n) ∧
    (∀ h, t.migr = .waiting h → mooringCore s h (t.A * 256) = none → exec (.migrGrant t.uid) s = .next (post s (.migrGrant t.uid))) ∧
    (∀ h due c, t.migr = .waiting h → t.lastIss + 4800 = due → mooringCore (atTime s due) h (t.A * 256) = some c →
      exec (.migrWaitTimeout t.uid due) s = exec (.migrGrant t.uid) (atTime s due)) ∧
    (∀ h due, t.migr = .waiting h → t.lastIss + 4800 = due → mooringCore (atTime s due) h (t.A * 256) = none →
      ∃ t', exec (.migrWaitTimeout t.uid due) s = .next (setTrain (atTime s due) t') ∧ t' = { t with migr := .none, slots := t'.slots } ∧
        ∀ n < 32, (∀ d, (slotAt t n).wait = .mooring d → (slotAt t' n).st = .ready ∧ (slotAt t' n).pc = (waitDone (slotAt t n)).pc) ∧
          ((slotAt t n).st ≠ .exited → (slotAt t n).st ≠ .absent → slotPred (slotAt t' n) 7#3 = false) ∧
          (slotAt t' n).regs = (slotAt t n).regs) ∧
    (∀ c upTo, t.migr = .transit c upTo → unackedWrites s t.uid = [] →
      ∃ s' t', exec (.migrLand t.uid) s = .next s' ∧ findTrain s' t.uid = some t' ∧ t'.core = c ∧ t'.migr = .none ∧ t'.aging = 0 ∧
        t'.k = t.k ∧ t'.A = t.A ∧ t'.B = t.B ∧ s'.mem = s.mem ∧ s'.reqs = s.reqs ∧
        ((coreOf s c).fenced = true → .preemptRequest t.team ∈ s'.agenda) ∧
        ∀ n < 32, (∀ d, (slotAt t n).wait = .transit d → (slotAt t' n).st = .ready ∧ (slotAt t' n).pc = (waitDone (slotAt t n)).pc) ∧
          ((slotAt t n).st ≠ .exited → (slotAt t n).st ≠ .absent → slotPred (slotAt t' n) 7#3 = true) ∧
          (slotAt t' n).regs = (slotAt t n).regs))

/-- R194, R202: win sets the window base, and traps 1:3 where no register of the window is allocated; prio sets the base
priority, in a handler in the frame too, and the aging steps begin anew. R244, R245, R247, R248: qbind binds a port that is
not bound, 6:5 where it is and 6:4 for a descriptor that names nothing; qunbind unbinds, 6:2 inside a partial item; qlen
counts what a port holds or has room for. The info word of 1:3 is free (log 25). -/
def Obligations.WindowPriorityAndPorts : Prop :=
  (∀ (n : BitVec 5) (p : BitVec 4) s iss t, activeMask iss t ≠ 0#32 →
    (Issues (.ctlWin n) s iss t → 32 * n.toNat < t.A →
      ∃ s' t', exec (.ctlWin n) s = .next s' ∧ OnlyTrain s s' t t' ∧ t'.B = 32 * n.toNat ∧
        Completed s iss { t with B := 32 * n.toNat } t' (fun _ => nextPc iss) ∧ KeepsRegs t t' ∧ KeepsAddrs t t' ∧
        KeepsPreds t t' ∧ t'.k = t.k ∧ t'.fflags = t.fflags) ∧
    (Issues (.ctlWin n) s iss t → t.A ≤ 32 * n.toNat → MayEnter s t →
      TrapsWith (.ctlWin n) s iss t (cause 1 3) (activeMask iss t) (activeMask iss t) (Config.openInfo s.tick) []) ∧
    (Issues (.ctlPrio p) s iss t →
      ∃ s' t', exec (.ctlPrio p) s = .next s' ∧ OnlyTrain s s' t t' ∧ t'.prio = p.toNat ∧ t'.aging = 0 ∧
        Completed s iss { t with prio := p.toNat } t' (fun _ => nextPc iss) ∧
        RegsAre t' (fun n r => if t.inHand = true ∧ n = 2 ∧ r = t.A - 4 then
            BitVec.ofNat 64 ((cget (slotAt t 2).regs (t.A - 4)).toNat / 16 * 16 + p.toNat)
          else cget (slotAt t n).regs r) ∧
        KeepsAddrs t t' ∧ KeepsPreds t t' ∧ t'.k = t.k ∧ t'.fflags = t.fflags)) ∧
  (∀ (q a d : Reg) s iss t, activeMask iss t ≠ 0#32 →
    let m := activeMask iss t
    let v := readReg t 0 a
    let n := portOf q
    let keeps := fun (t' : Train) => KeepsRegs t t' ∧ KeepsAddrs t t' ∧ KeepsPreds t t' ∧ t'.k = t.k ∧ t'.fflags = t.fflags
    (Issues (.ctlQbind q a) s iss t →
      (bindOf s t v = none → MayEnter s t → TrapsWith (.ctlQbind q a) s iss t (cause 6 4) m m 0#64 []) ∧
      (∀ g, bindOf s t v = some g →
        (afind t.ports n ≠ none → MayEnter s t → TrapsWith (.ctlQbind q a) s iss t (cause 6 5) m m 0#64 []) ∧
        (afind t.ports n = none → ∃ s' t', exec (.ctlQbind q a) s = .next s' ∧ OnlyTrain s s' t t' ∧ keeps t' ∧
          t'.ports = aset t.ports n g ∧ afind t'.ports n = some g ∧
          t'.compl = (match g with
            | .completions _ _ => []
            | _ => t.compl)))) ∧
    (v.toNat = 2 ^ 61 → bindOf s t v = some .copyCmd) ∧ (v.toNat = 2 ^ 62 → bindOf s t v = some .tileTask) ∧
    (v.toNat = 2 ^ 63 → (stageOf s t).2 ≠ 0 → bindOf s t v = some .stageIn) ∧
    (Issues (.ctlQunbind q) s iss t → (∀ x ∈ t.slots, partOf x n = [] ∧ x.wait ≠ .port n) →
      ∃ s' t', exec (.ctlQunbind q) s = .next s' ∧ OnlyTrain s s' t t' ∧ keeps t' ∧ t'.ports = adel t.ports n ∧
        afind t'.ports n = none) ∧
    (Issues (.ctlQunbind q) s iss t → afind t.ports n ≠ none → (∃ x ∈ t.slots, partOf x n ≠ []) → MayEnter s t →
      TrapsWith (.ctlQunbind q) s iss t (cause 6 2) m m 0#64 []) ∧
    (Issues (.ctlQlen d q) s iss t → isQ d = false →
      exec (.ctlQlen d q) s = .next (settle s iss (writeUni t m d (qlenVal s t n)) [])) ∧
    (afind t.ports n = none → qlenVal s t n = 0#64) ∧
    (afind t.ports n = some .copyCmd → qlenVal s t n = BitVec.ofNat 64 (2 ^ 62 + (64 - (queuedCmds s t.core).length))) ∧
    (afind t.ports n = some .tileTask → qlenVal s t n = BitVec.ofNat 64 (2 ^ 62 + (256 - (readyTasks s t.core).length))) ∧
    (∀ base depth, afind t.ports n = some (.completions base depth) → t.compl.length < 2 ^ 24 →
      qlenVal s t n = BitVec.ofNat 64 (2 ^ 62 + t.compl.length)))

/-! Memory accesses (R228 to R242, R299 to R320). -/

/-- R228, R230, R306: a load from scratch delivers the bytes at its address, little-endian and extended by its type, to w
registers of each active slot, or once to k registers; b128 fills a pair. A scratch store or another slot is not touched.
R230, R232, R243: a load from memory sends one request for each 64-byte line that it touches, for each active slot in turn;
its registers change as the replies come. A port d takes its item then; a port index is popped as the slot's request is sent.
That a load is asynchronous is the model's (log 8). -/
def Obligations.Loads : Prop :=
  (∀ (ty : LdTy) (ord : Ord) (d x : Reg) (an : R3) (o28 : BitVec 28) (o7 : BitVec 7) s iss t tm,
    let N := ldBytes ty
    let pair := ty = .b128
    ∀ i ∈ [Instr.ld ty true ord d an o28, .ldx ty true ord d an x o7], Issues i s iss t → portFree i = true →
    t.prol = none → findTeam s t.team = some tm → tm.scond = [] → activeMask iss t ≠ 0#32 →
    let a := fun (n : Nat) => match i with
      | .ld _ _ _ _ _ _ => effAddr t n an (o28.signExtend 64 * BitVec.ofNat 64 N)
      | _ => effAddr t n an (readReg t n x * BitVec.ofNat 64 N + o7.signExtend 64 * BitVec.ofNat 64 N)
    let v := fun (n : Nat) => extend ty (leN (cgetAll tm.scratch (addrOff (a n)) N))
    (∀ n ∈ accSlots (isK d) (activeMask iss t), inScratch tm (addrOff (a n)) N = true ∧
      (∀ l ∈ linesOf (addrOff (a n)) N, lineAbsent tm l = false) ∧ ∀ j < N, expired s.now tm ((addrOff (a n) + j) / 256) = none) →
    ∃ s' t', exec i s = .next s' ∧ findTrain s' t.uid = some t' ∧ (∀ u, u ≠ t.uid → findTrain s' u = findTrain s u) ∧
      s' = { s with trains := s'.trains, reqs := s'.reqs, nextId := s.nextId + 1, iss := none } ∧
      (isOrdered ord = false → s'.reqs = s.reqs) ∧
      RegsAre t' (fun n r =>
        if inMask (activeMask iss t) n ∧ isW d ∧ r = wIdx t d then putVal (slotAt t n) r (lo64 (v n))
        else if inMask (activeMask iss t) n ∧ isW d ∧ pair ∧ r = wIdx t d + 1 then putVal (slotAt t n) r (hi64 (v n))
        else cget (slotAt t n).regs r) ∧
      KsAre t' (fun r =>
        if isK d ∧ r = d.toNat - 96 then lo64 (v (lowSlot (activeMask iss t)))
        else if isK d ∧ pair ∧ r = d.toNat - 95 then hi64 (v (lowSlot (activeMask iss t))) else cget t.k r) ∧
      KeepsAddrs t t' ∧ KeepsPreds t t' ∧ t'.fflags = t.fflags ∧ t'.lapsed = t.lapsed ∧
      ∀ n, inMask iss.slots n = true → (slotAt t' n).pc = (slotDone iss (nextPc iss) (slotAt t n)).pc ∧ (slotAt t' n).st = .ready) ∧
  (∀ (ty : LdTy) (ord : Ord) (d x : Reg) (an : R3) (o28 : BitVec 28) (o7 : BitVec 7) s iss t,
    let N := ldBytes ty
    ∀ i ∈ [Instr.ld ty false ord d an o28, .ldx ty false ord d an x o7], Issues i s iss t → t.prol = none →
    activeMask iss t ≠ 0#32 →
    let slots := accSlots (isK d) (activeMask iss t)
    let a := fun (n : Nat) => match i with
      | .ld _ _ _ _ _ _ => effAddr t n an (o28.signExtend 64 * BitVec.ofNat 64 N)
      | _ => effAddr t n an (readAny s t n x * BitVec.ofNat 64 N + o7.signExtend 64 * BitVec.ofNat 64 N)
    lineLoad s t.core + 2 * slots.length ≤ 4096 →
    (isQ d = true → ∃ g, afind t.ports (portOf d) = some g ∧ isPop g = false ∧ (g = .stageOut → stageQueue s t g ≠ none)) →
    ∀ kv : Nat → List (Nat × Nat), (∀ n ∈ slots, devLook s t (slotAt t n) (a n) N accRead = (.ok (kv n), s)) →
    (popPorts i = [] → exec i s = .next (settle (slots.foldl (fun s1 n =>
        sendLoad s1 iss t n s.nextId ty ord (dstOf t d (ty == .b128)) (a n) N (kv n)) { s with nextId := s.nextId + 1 }) iss t [])) ∧
    (∀ n q, slotsOf (activeMask iss t) = [n] → popPorts i = [q] → (popChk s t n q).1 = .ok →
      lowerWaits s t.uid n iss.start (parkCount iss (slotAt t n)) = false →
      let s2 := makePops (sendLoad { s with nextId := s.nextId + 1 } iss t n s.nextId ty ord (dstOf t d (ty == .b128)) (a n) N
        (kv n)) iss.tr n [q]
      ∀ u, findTrain s2 iss.tr = some u → exec i s = .next (settle s2 iss u [])) ∧
    (∀ s1 n grp dst va kv1, addrOff va % 64 + N ≤ 64 → kv1.length = N → isOrdered ord = false →
      sendLoad s1 iss t n grp ty ord dst va N kv1 = post { s1 with nextId := s1.nextId + 1, reqs := s1.reqs ++
        [mkReq (ctxOf s1 t) iss t n (slotAt t n) s1.nextId (insOf (slotAt t n) grp) (.load ty 0 none) ord dst va kv1 []
          ((slotAt t n).hb ++ (slotAt t n).seen)] }
        (.loadReply s1.nextId)))

/-- R228, R231, R234, R306: a store to scratch writes the low bytes of its register or pair, little-endian, for each active
slot in ascending order as one write, and nothing else of scratch; a k register is stored once. An ordered store comes after
what its slot's release waits for. R231, R234, R314: a store to memory sends its bytes, for each active slot in ascending
order, one request for each line, with the half-sectors that they write whole together; memory itself stands until they are
applied at home. R235: st.poison by its one active slot marks the 32 bytes of its half-sector as poison, in scratch at once,
in memory by a request; it traps 9:3 outside a debug context. -/
def Obligations.Stores : Prop :=
  (∀ (ty : StTy) (ord : Ord) (d x : Reg) (an : R3) (o28 : BitVec 28) (o7 : BitVec 7) s iss t tm,
    let N := stBytes ty
    ∀ i ∈ [Instr.st ty true ord d an o28, .stx ty true ord d an x o7], Issues i s iss t → portFree i = true →
    t.prol = none → findTeam s t.team = some tm → activeMask iss t ≠ 0#32 →
    let slots := accSlots (isK d) (activeMask iss t)
    let a := fun (n : Nat) => match i with
      | .st _ _ _ _ _ _ => effAddr t n an (o28.signExtend 64 * BitVec.ofNat 64 N)
      | _ => effAddr t n an (readReg t n x * BitVec.ofNat 64 N + o7.signExtend 64 * BitVec.ofNat 64 N)
    let obs := fun (n : Nat) => (List.range N).map (fun j =>
      (addrOff (a n) + j, BitVec.ofNat 8 ((readPair t n d (ty == .b128)).toNat / 2 ^ (8 * j))))
    (∀ n ∈ slots, inScratch tm (addrOff (a n)) N = true ∧ (∀ l ∈ linesOf (addrOff (a n)) N, lineAbsent tm l = false) ∧
      (isOrdered ord = true → relPending s t.uid n (ordScope ord) = false)) →
    (∃ s' t' tm', exec i s = .next s' ∧ findTrain s' t.uid = some t' ∧ (∀ u, u ≠ t.uid → findTrain s' u = findTrain s u) ∧
      findTeam s' tm.id = some tm' ∧ (∀ k, k ≠ tm.id → findTeam s' k = findTeam s k) ∧
      s' = { s with trains := s'.trains, teams := s'.teams, clocks := s'.clocks, agenda := s'.agenda, nextId := s.nextId + 1,
                    iss := none, errs := s'.errs, held := s'.held, cores := s'.cores } ∧
      (tm.scond = [] → s'.errs = s.errs ∧ s'.held = s.held ∧ s'.cores = s.cores) ∧
      tm' = scrWriteTeam s.now tm (slots.flatMap obs) ∧
      KeepsRegs t t' ∧ KeepsAddrs t t' ∧ KeepsPreds t t' ∧ t'.k = t.k ∧ t'.fflags = t.fflags ∧ t'.declared = none ∧
      ∀ n, inMask iss.slots n = true → (slotAt t' n).pc = (slotDone iss (nextPc iss) (slotAt t n)).pc ∧ (slotAt t' n).st = .ready) ∧
    (∀ now m n, (∀ j < N, expired now m ((addrOff (a n) + j) / 256) = none) →
      (∀ j < N, cget (scrWriteTeam now m (obs n)).scratch (addrOff (a n) + j) =
        BitVec.ofNat 8 ((readPair t n d (ty == .b128)).toNat / 2 ^ (8 * j))) ∧
      ∀ o, (∀ j < N, o ≠ addrOff (a n) + j) → cget (scrWriteTeam now m (obs n)).scratch o = cget m.scratch o)) ∧
  (∀ (ty : StTy) (ord : Ord) (d x : Reg) (an : R3) (o28 : BitVec 28) (o7 : BitVec 7) s iss t,
    let N := stBytes ty
    ∀ i ∈ [Instr.st ty false ord d an o28, .stx ty false ord d an x o7], Issues i s iss t → portFree i = true →
    t.prol = none → activeMask iss t ≠ 0#32 → isOrdered ord = false →
    let slots := accSlots (isK d) (activeMask iss t)
    let a := fun (n : Nat) => match i with
      | .st _ _ _ _ _ _ => effAddr t n an (o28.signExtend 64 * BitVec.ofNat 64 N)
      | _ => effAddr t n an (readReg t n x * BitVec.ofNat 64 N + o7.signExtend 64 * BitVec.ofNat 64 N)
    lineLoad s t.core + 2 * slots.length ≤ 4096 →
    ∀ kv : Nat → List (Nat × Nat), (∀ n ∈ slots, devLook s t (slotAt t n) (a n) N accWrite = (.ok (kv n), s)) →
      exec i s = .next (settle (markCover (slots.foldl (fun s1 n =>
        sendStore s1 iss t n s.nextId ord (a n) (bytesN N (readPair t n d (ty == .b128)).toNat) (kv n))
        { s with nextId := s.nextId + 1 }) s.reqs.length) iss { t with declared := none } []) ∧
      (∀ s1 n, addrOff (a n) % 64 + N ≤ 64 → (kv n).length = N →
        sendStore s1 iss t n s.nextId ord (a n) (bytesN N (readPair t n d (ty == .b128)).toNat) (kv n) =
          post { s1 with nextId := s1.nextId + 1, reqs := s1.reqs ++ [mkReq (ctxOf s1 t) iss t n (slotAt t n) s1.nextId s.nextId
            (.store (bytesN N (readPair t n d (ty == .b128)).toNat)) ord .none (a n) (kv n)
            (sectorsOf (ctxOf s1 t) (addrSpan (a n)) (addrOff (a n) % 2 ^ 64) N)
            (afterOf s1 s.nextId (slotAt t n) ((kv n).map (·.1)))] } (.writeHomeApply s1.nextId))) ∧
  (∀ (scr : Bool) (ord : Ord) (an : R3) (off : BitVec 28) s iss t n,
    Issues (.stPoison scr ord an off) s iss t → slotsOf (activeMask iss t) = [n] → t.prol = none →
    let a := effAddr t n an (off.signExtend 64 * 32#64)
    (debugTrain s t = false → MayEnter s t →
      TrapsWith (.stPoison scr ord an off) s iss t (cause 9 3) (activeMask iss t) (activeMask iss t) 0#64 []) ∧
    (debugTrain s t = true → isOrdered ord = false → addrOff a % 32 = 0 →
      (∀ tm, scr = true → findTeam s t.team = some tm → scrCheck iss tm a 32 = none →
        ∃ s' tm', exec (.stPoison scr ord an off) s = .next s' ∧ findTeam s' tm.id = some tm' ∧
          (∀ o, condRead (aget HalfCond.clean tm'.scond (addrOff a / 32)) = 1 ∧
            (o ≠ addrOff a / 32 → expired s.now tm (o / 8) = none →
              aget HalfCond.clean tm'.scond o = aget HalfCond.clean tm.scond o)) ∧
          s'.mem = s.mem ∧ s'.reqs = s.reqs) ∧
      (∀ kv, scr = false → lineLoad s t.core + 2 ≤ 4096 → devLook s t (slotAt t n) a 32 accWrite = (.ok kv, s) →
        exec (.stPoison scr ord an off) s = .next (settle (markCover (post { s with nextId := s.nextId + 2, reqs := s.reqs ++
          [mkReq (ctxOf s t) iss t n (slotAt t n) (s.nextId + 1) s.nextId .poison ord .none a kv
            (sectorsOf (ctxOf s t) (addrSpan a) (addrOff a) 32)
            (afterOf s s.nextId (slotAt t n) (kv.map (·.1)))] } (.writeHomeApply (s.nextId + 1))) s.reqs.length)
          iss { t with declared := none } []))))

/-- R240: the value that each atomic leaves, from the old value and its sources. R228, R239 to R241, R243: an atomic on
scratch by its one active slot, ports apart, replaces the value at its address in one step, and d takes the old value where
the form returns it; on memory the slot sends a request that its home applies. That an atomic is asynchronous is the model's
(log 8). -/
def Obligations.Atomics : Prop :=
  (∀ (w : AWidth) (old v c : Nat),
    let n := 8 * atomBytes w
    let f := if w = .a32 then fpOf .f32 else fpOf .f64
    old < 2 ^ n → v < 2 ^ n → c < 2 ^ n →
    atomNew .add w old v c = (old + v) % 2 ^ n ∧
    atomNew .minI w old v c = wrapN n (min (sInt n old) (sInt n v)) ∧ atomNew .maxI w old v c = wrapN n (max (sInt n old) (sInt n v)) ∧
    atomNew .minN w old v c = min old v ∧ atomNew .maxN w old v c = max old v ∧
    atomNew .and w old v c = old &&& v ∧ atomNew .or w old v c = old ||| v ∧ atomNew .xor w old v c = old ^^^ v ∧
    atomNew .swap w old v c = v ∧ atomNew .cas w old v c = (if old = c then v else old) ∧
    atomNew .fadd w old v c = (addV f .rn (unpack f old) (unpack f v)).1) ∧
  (∀ (w : AWidth) (sp : ASpace) (ret : Bool) (d : Reg) (an : R3) (src : Reg) s iss t n,
    ∀ p ∈ [(Instr.atomAdd w sp ret d an src, AtomOp.add), (.atomMinI w sp ret d an src, .minI), (.atomMinN w sp ret d an src, .minN),
      (.atomMaxI w sp ret d an src, .maxI), (.atomMaxN w sp ret d an src, .maxN), (.atomAnd w sp ret d an src, .and),
      (.atomOr w sp ret d an src, .or), (.atomXor w sp ret d an src, .xor), (.atomSwap w sp ret d an src, .swap),
      (.atomCas w sp ret d an src, .cas), (.atomFadd w sp ret d an src, .fadd)],
    Issues p.1 s iss t → portFree p.1 = true → slotsOf (activeMask iss t) = [n] →
    let N := atomBytes w
    let a := readA t n an
    let val := fun (r : Reg) => (readPair t n r (w == .a128)).toNat % 2 ^ (8 * N)
    let back := ret || p.2 == .cas
    addrOff a % N = 0 →
    (∀ tm, sp = .scratch → findTeam s t.team = some tm → scrCheck iss tm a N = none → tm.scond = [] →
      (∀ j < N, expired s.now tm ((addrOff a + j) / 256) = none) →
      let old := leN (cgetAll tm.scratch (addrOff a) N)
      let new := atomNew p.2 w old (val src) (val d)
      ∃ s' t' tm', exec p.1 s = .next s' ∧ findTrain s' t.uid = some t' ∧ findTeam s' tm.id = some tm' ∧
        (∀ u, u ≠ t.uid → findTrain s' u = findTrain s u) ∧ (∀ k, k ≠ tm.id → findTeam s' k = findTeam s k) ∧
        s' = { s with trains := s'.trains, teams := s'.teams, clocks := s'.clocks, agenda := s'.agenda, nextId := s.nextId + 1,
                      iss := none } ∧
        (∀ j < N, cget tm'.scratch (addrOff a + j) = BitVec.ofNat 8 (new / 2 ^ (8 * j))) ∧
        (∀ o, (∀ j < N, o ≠ addrOff a + j) → cget tm'.scratch o = cget tm.scratch o) ∧
        RegsAre t' (fun m r =>
          if back ∧ m = n ∧ isW d ∧ r = wIdx t d then putVal (slotAt t n) r (BitVec.ofNat 64 old)
          else if back ∧ m = n ∧ isW d ∧ w = .a128 ∧ r = wIdx t d + 1 then putVal (slotAt t n) r (BitVec.ofNat 64 (old / 2 ^ 64))
          else cget (slotAt t m).regs r) ∧
        KeepsAddrs t t' ∧ KeepsPreds t t' ∧ t'.k = t.k ∧ t'.fflags = t.fflags) ∧
    (∀ sc kv, sp = .dev sc → lineLoad s t.core < 4096 → devLook s t (slotAt t n) a N accAtomic = (.ok kv, s) →
      exec p.1 s = .next (settle (post { s with nextId := s.nextId + 2, reqs := s.reqs ++
        [mkReq (ctxOf s t) iss t n (slotAt t n) (s.nextId + 1) (insOf (slotAt t n) s.nextId)
          (.atom p.2 w (BitVec.ofNat 128 (val src)) (BitVec.ofNat 128 (val d)) back 0#128) (.strong sc)
          (if back then dstOf t d (w == .a128) else .none) a kv (sectorsOf (ctxOf s t) (addrSpan a) (addrOff a) N)
          (beforeOf s (slotAt t n) (kv.map (·.1)))] } (.writeHomeApply (s.nextId + 1))) iss { t with declared := none } [])))

/-- R228, R236, R241, R415, R416: an access of the one active slot that its tables refuse traps with the cause of its access
and the level of the failed walk; a misaligned atomic traps 3:14; a scratch access outside live scratch traps 5:4. R355,
R368, R369, R426, R437: a load of the prologue unit is a request at system scope, and so is a store beyond a link; another
store is made at once, a write of the front end. An aligned store of 8 bytes into the wake window is a wake write. An access
that does not translate raises packet exception 10, and so does a store to an uncorrectable half-sector, which is left
poisoned. That the accesses of a prologue unit are requests, and that a fault waits for the walks of its instruction, are the
model's readings (logs 13, 8). -/
def Obligations.AccessFaults : Prop :=
  (∀ (lt : LdTy) (st : StTy) (w : AWidth) (sp : ASpace) (ret : Bool) (scr : Bool) (ord : Ord)
      (d src : Reg) (an : R3) (off : BitVec 28) s iss t n, slotsOf (activeMask iss t) = [n] → MayEnter s t → ByItself s t n →
    let m := activeMask iss t
    let s0 := { s with nextId := s.nextId + 1 }
    let la := effAddr t n an (off.signExtend 64 * BitVec.ofNat 64 (ldBytes lt))
    let sa := effAddr t n an (off.signExtend 64 * BitVec.ofNat 64 (stBytes st))
    let aa := readA t n an
    (Issues (.ld lt scr ord d an off) s iss t → portFree (.ld lt scr ord d an off) = true →
      (∀ ty l, scr = false → lineLoad s t.core + 2 ≤ 4096 → devLook s t (slotAt t n) la (ldBytes lt) accRead = (.bad ty l, s) →
        ty < 8 → TrapsLeaving (.ld lt scr ord d an off) s s0 iss t (cause 3 (4 * ty)) m m (BitVec.ofNat 64 l) (cset [] n la)) ∧
      (∀ tm, scr = true → findTeam s t.team = some tm → inScratch tm (addrOff la) (ldBytes lt) = false →
        TrapsLeaving (.ld lt scr ord d an off) s s0 iss t (cause 5 4) m m 0#64 [])) ∧
    (Issues (.st st scr ord d an off) s iss t → portFree (.st st scr ord d an off) = true →
      (∀ ty l, scr = false → lineLoad s t.core + 2 ≤ 4096 → devLook s t (slotAt t n) sa (stBytes st) accWrite = (.bad ty l, s) →
        ty < 8 → TrapsLeaving (.st st scr ord d an off) s s0 iss t (cause 3 (4 * ty + 1)) m m (BitVec.ofNat 64 l) (cset [] n sa)) ∧
      (∀ tm, scr = true → findTeam s t.team = some tm → inScratch tm (addrOff sa) (stBytes st) = false →
        TrapsLeaving (.st st scr ord d an off) s s0 iss t (cause 5 4) m m 0#64 [])) ∧
    (Issues (.atomAdd w sp ret d an src) s iss t → portFree (.atomAdd w sp ret d an src) = true →
      (∃ tm, findTeam s t.team = some tm) → lineLoad s t.core < 4096 → addrOff aa % atomBytes w ≠ 0 →
        TrapsLeaving (.atomAdd w sp ret d an src) s s0 iss t (cause 3 14) m m 5#64 (cset [] n aa))) ∧
  (∀ (lt : LdTy) (st : StTy) (ord : Ord) (d : Reg) (an : R3) (off : BitVec 28) s iss t,
    t.prol.isSome = true → activeMask iss t ≠ 0#32 →
    let la := effAddr t 0 an (off.signExtend 64 * BitVec.ofNat 64 (ldBytes lt))
    let sa := effAddr t 0 an (off.signExtend 64 * BitVec.ofNat 64 (stBytes st))
    let s0 := { s with nextId := s.nextId + 1 }
    let stops := fun (i : Instr) (s1 : State) (c : Nat) => ∃ s2, s2 = { s1 with trains := s2.trains, iss := none } ∧
      exec i s = .next (packetFault s2 (t.prol.getD (0, 0, 0, 0)).1 10 c)
    (Issues (.ld lt false ord d an off) s iss t →
      (∀ kv, transNow s (ctxOf s t) (addrSpan la) (addrOff la) (ldBytes lt) accRead = .ok kv → exec (.ld lt false ord d an off) s =
        .next (settle (sendLoad s0 iss t 0 s.nextId lt (.strong .sys) (dstOf t d false) la (ldBytes lt) kv) iss t [])) ∧
      (∀ k l, transNow s (ctxOf s t) (addrSpan la) (addrOff la) (ldBytes lt) accRead = .error (k, l) → k < 8 →
        stops (.ld lt false ord d an off) s (96 + 4 * k))) ∧
    (Issues (.st st false ord d an off) s iss t →
      let wake := wakeSpan s (ctxOf s t) (addrSpan sa) = true ∧ stBytes st = 8 ∧ addrOff sa % 8 = 0 ∧ addrOff sa < 4096
      let data := storeBytes s t 0 d (stBytes st)
      let sect := (sectorsOf (ctxOf s t) (addrSpan sa) (addrOff sa) data.length).take 1
      (¬ wake → ∀ kv, transNow s (ctxOf s t) (addrSpan sa) (addrOff sa) data.length accWrite = .ok kv →
        ((∀ p ∈ kv, p.1 < 2 ^ 52) → (∀ p ∈ kv, aget HalfCond.clean s.mcond (p.1 / 32) ≠ .bad) → exec (.st st false ord d an off) s =
          .next (settle (putHome s ⟨0xFF, ctxOf s t, addrSpan sa⟩ kv data sect) iss t [])) ∧
        ((∀ p ∈ kv, p.1 < 2 ^ 52) → (∃ p ∈ kv, aget HalfCond.clean s.mcond (p.1 / 32) = .bad) →
          stops (.st st false ord d an off) (feMark s (ctxOf s t) (addrSpan sa) (addrOff sa) data.length) 129) ∧
        ((∃ p ∈ kv, 2 ^ 52 ≤ p.1) → exec (.st st false ord d an off) s =
          .next (settle (sendStore s0 iss t 0 s.nextId (.strong .sys) sa data kv) iss t []))) ∧
      (¬ wake → ∀ k l, transNow s (ctxOf s t) (addrSpan sa) (addrOff sa) data.length accWrite = .error (k, l) → k < 8 →
        stops (.st st false ord d an off) s (96 + 4 * k + 1)) ∧
      (wake → exec (.st st false ord d an off) s =
        .next (settle (wakeQueue s (ctxOf s t) (addrOff sa / 8) (leN (storeBytes s t 0 d 8))) iss t []))))

/-- R230, R312, R314: the reply of a load that nothing holds back delivers the bytes that its home or its die shows, extended
by its type, to its register or pair; the request is over, and no other register and no byte of memory changes. That a load
is asynchronous is the model's (log 8). -/
def Obligations.LoadReplies : Prop := ∀ s (r : Req) ty t bs, findReq s r.id = some r → r.kind = .load ty 0 none →
  findTrain s r.tr = some t → t.slots.length = 32 → r.slot < 32 → loadBlocked s r = false →
  (if homeLoad r then readHome s (r.keys.zip r.keyIds) else readDie s (dieOf r.core) (r.keys.zip r.keyIds)) = .ok bs →
  (∀ q ∈ s.reqs, q.id = r.id → q = r) → (∀ q ∈ s.reqs, q.tr = r.tr → q.grp = r.grp → q.flt = 0 ∧ (q.slot = r.slot → q.id = r.id)) →
  (∀ n, r.dst ≠ .q n) →
  let v := extend ty (leN bs)
  ∃ s' t', exec (.loadReply r.id) s = .next s' ∧ findTrain s' r.tr = some t' ∧ findReq s' r.id = none ∧
    (∀ u, u ≠ r.tr → findTrain s' u = findTrain s u) ∧ s'.mem = s.mem ∧ s'.teams = s.teams ∧
    (∀ q, q ≠ r.id → (findReq s' q).isSome = (findReq s q).isSome) ∧
    RegsAre t' (fun n j => if n = r.slot then (match r.dst with
        | .w d p => if j = d then putVal (slotAt t n) j (lo64 v)
          else if p = true ∧ j = d + 1 then putVal (slotAt t n) j (hi64 v) else cget (slotAt t n).regs j
        | _ => cget (slotAt t n).regs j)
      else cget (slotAt t n).regs j) ∧
    KsAre t' (fun j => match r.dst with
      | .k d p => if j = d then lo64 v else if p = true ∧ j = d + 1 then hi64 v else cget t.k j
      | _ => cget t.k j) ∧
    KeepsAddrs t t' ∧ KeepsPreds t t' ∧ t'.fflags = t.fflags

/-- R231, R234, R235, R301, R303, R314, R315, R319: a write enters its die stage once no access of its slot to its bytes is
before it; from there it goes to its home, over a crossing where that is another die, whose entries act in their order as
they are delivered; it is applied once what happens before it is, and is acknowledged. Memory changes as it is applied, in
its bytes alone; what a link could not mend is passed on as poison. R240, R241, R314, R445: an atomic is one read and write
at its home; its old value is kept for the reply, which delivers it. One whose operands a link has passed on as poison writes
nothing, and its reply is the fault 4:0. What orders writes beyond their slot (logs 4, 10), and the numbers of links (log
59), are the model's. -/
def Obligations.WritesTravel : Prop :=
  ((∀ s (r : Req), findReq s r.id = some r → isWrite r = true → r.stage = .fresh → freshBlocked s r = false →
      let near := reqHome r = dieOf r.core
      ∃ s', exec (.writeHomeApply r.id) s = .next s' ∧ s'.mem = s.mem ∧ s'.trains = s.trains ∧ s'.teams = s.teams ∧
        s'.reqs = s.reqs.map (fun q => if q.id = r.id then { q with entry := s.nextId, stage := if near then .home else .crossing } else q) ∧
        (near → .writeHomeApply r.id ∈ s'.agenda) ∧ (¬near → .crossingDeliver (dieOf r.core) (reqHome r) ∈ s'.agenda ∧
          ∃ l, ((dieOf r.core, reqHome r), l ++ [Xing.write r.id]) ∈ s'.xings)) ∧
    (∀ s (r : Req) d, findReq s r.id = some r → r.kind = .store d → r.link ≠ .poison → r.stage = .home → homeBlocked s r = false →
      r.sects = [] →
      (∀ k ∈ r.keys, aget 0 s.mkey (k / 64) = 0 ∨ aget 0 s.mkey (k / 64) = r.keyIds.headD 0) →
      ∃ s', exec (.writeHomeApply r.id) s = .next s' ∧ s'.teams = s.teams ∧ s'.trains = s.trains ∧
        (∀ a, cget s'.mem a = cget (csetAt s.mem (r.keys.zip d)) a) ∧
        s'.reqs = s.reqs.map (fun q => if q.id = r.id then { q with stage := .applied } else q) ∧
        (reqHome r = dieOf r.core → .writeAck r.id ∈ s'.agenda)) ∧
    (∀ s (r : Req), findReq s r.id = some r → (r.kind = .poison ∨ ((∃ d, r.kind = .store d) ∧ r.link = .poison)) → r.stage = .home → homeBlocked s r = false → r.sects = [] →
      ∃ s', exec (.writeHomeApply r.id) s = .next s' ∧ s'.mem = s.mem ∧ s'.trains = s.trains ∧
        (∀ h, aget HalfCond.clean s'.mcond h = if ∃ k ∈ r.keys, k / 32 = h then .poison else aget HalfCond.clean s.mcond h)) ∧
    (∀ s a b x rest pre post_, heldPair s a b = false → s.xings = pre ++ ((a, b), x :: rest) :: post_ →
      (∀ p ∈ pre ++ post_, p.1 ≠ (a, b)) →
      let s0 := { s with xings := pre ++ ((a, b), rest) :: post_ }
      let then_ := fun (s2 : State) => if rest = [] then s2 else postOnce s2 (.crossingDeliver a b)
      match x with
        | .write id => ∀ r s2, findReq s id = some r → r.link = .clean ∨ r.link = .poison →
            exec (.writeHomeApply id) { s0 with reqs := s.reqs.map (fun q => if q.id = id then { q with stage := .home } else q) } = .next s2 →
            exec (.crossingDeliver a b) s = .next (then_ s2)
        | .ack id => ∀ s2, exec (.writeAck id) s0 = .next s2 → exec (.crossingDeliver a b) s = .next (then_ s2)) ∧
    (∀ s (r : Req), findReq s r.id = some r → (∀ q ∈ s.reqs, q.id = r.id → q = r) →
      let k := r.keys.headD 0
      let s' := linkArrive s r
      let at_ := BitVec.ofNat 64 (k % 2 ^ 52 / 32 * 32)
      s'.mem = s.mem ∧ s'.trains = s.trains ∧ findReq s' r.id = some { r with link := match r.link with
        | .clean | .single _ => .clean
        | _ => .poison } ∧
      (r.link = .bad → ∃ e ∈ s'.errs, e.kind = 2 ∧ e.cause = 129 ∧ e.addr = at_ ∧ e.unit = unitField (.link (linkOf k)) ∧ (r.core < 224 → e.core = r.core) ∧ e.ctx = r.ctx) ∧
      (((∃ b, r.link = .single b) ∨ ∃ b, r.link = .poisonSingle b) → (∃ h ∈ s'.held, h.unit = unitNum (.link (linkOf k)))) ∧
      (r.link ≠ .clean → r.link ≠ .poison → .selfTest (.link (linkOf k)) ∈ s'.agenda)) ∧
    (∀ s a b, heldPair s a b = true → exec (.crossingDeliver a b) s = .next s) ∧
    (∀ s (r : Req), findReq s r.id = some r →
      ∃ s', exec (.writeAck r.id) s = .next s' ∧ s'.mem = s.mem ∧ s'.trains = s.trains ∧ s'.reqs =
        if hasReply r = true ∧ r.replied = false then s.reqs.map (fun q => if q.id = r.id then { q with acked := true } else q)
        else s.reqs.filter (fun q => decide (q.id ≠ r.id)))) ∧
  (∀ s (r : Req) op w v c ret old0 bs, findReq s r.id = some r →
    r.kind = .atom op w v c ret old0 → (∀ q ∈ s.reqs, q.id = r.id → q = r) →
    (r.stage = .home → homeBlocked s r = false → r.link = .poison → ∃ s', exec (.writeHomeApply r.id) s = .next s' ∧ s'.mem = s.mem ∧
      findReq s' r.id = some { r with stage := .applied, flt := 128 } ∧ .loadReply r.id ∈ s'.agenda) ∧
    (r.stage = .home → homeBlocked s r = false → r.link ≠ .poison → r.sects = [] → readHome s (r.keys.zip r.keyIds) = .ok bs →
      (∀ k ∈ r.keys, aget 0 s.mkey (k / 64) = 0 ∨ aget 0 s.mkey (k / 64) = r.keyIds.headD 0) →
      ∃ s', exec (.writeHomeApply r.id) s = .next s' ∧ s'.teams = s.teams ∧
        (∀ u t, findTrain s u = some t → ∃ t', findTrain s' u = some t' ∧ t' = { t with slots := t'.slots } ∧
          ∀ n, slotAt t' n = { slotAt t n with acq := (slotAt t' n).acq }) ∧
        (∀ a, cget s'.mem a =
          cget (csetAt s.mem (r.keys.zip (bytesN (atomBytes w) (atomNew op w (leN bs) v.toNat c.toNat)))) a) ∧
        findReq s' r.id = some { r with stage := .applied, kind := .atom op w v c ret (BitVec.ofNat 128 (leN bs)) } ∧
        .loadReply r.id ∈ s'.agenda) ∧
    (r.stage = .applied → r.replied = false → (∀ q ∈ s.reqs, q.tr = r.tr → q.grp = r.grp → q.flt = 0 ∧ (q.slot = r.slot → q.id = r.id)) →
      (∀ n, r.dst ≠ .q n) → ∀ t, findTrain s r.tr = some t → t.slots.length = 32 → r.slot < 32 →
      ∃ s' t', exec (.loadReply r.id) s = .next s' ∧ s'.mem = s.mem ∧ findTrain s' r.tr = some t' ∧
        (∀ d, r.dst = .w d false → RegsAre t' (fun n j => if n = r.slot ∧ j = d then putVal (slotAt t n) j (lo64 old0) else cget (slotAt t n).regs j)) ∧
        (r.dst = .none → KeepsRegs t t') ∧ KeepsAddrs t t' ∧ KeepsPreds t t'))

/-- R68, R187, R190, R238, R246, R420: what wakes slots and trains that stand still. A line that is present lets its waiters
make their access again; a port that can serve does so for its slot; a run left out 256 times is the next; 4,096 cycles
without being chosen are one step of priority; and a trap is entered once nothing is on its way back, of a train that is to
halt too (R421). R242, R416, R429 to R431: the end of a walk that finds a leaf fills the caches and lets the slots that it
serves make their access again, and those of their instruction at fault that have waited for it; one that fails in a
forwarding span goes to the fault service, and in another its slots fault as they make the access again. The walks of
commands and tasks are asked about there too: declined, they fail as their access is made again. A change of an entry is
written and what was translated through it is forgotten. Pages that the entry passes from another context are zeroed (R455).
Which pages pass between contexts is the model choice of log 59; that slots at fault wait for the walks of their instruction
is its reading of R416 (log 8). -/
def Obligations.StandingWakes : Prop :=
  ((∀ s tm line, findTeam s tm.id = some tm → lineAbsent tm line = false →
      ∃ s', exec (.presenceWake tm.id line) s = .next s' ∧ s' = { s with trains := s'.trains } ∧
        ∀ t, findTrain s t.uid = some t → t.slots.length = 32 → ∃ t', findTrain s' t.uid = some t' ∧ t' = { t with slots := t'.slots } ∧
          ∀ n < 32, slotAt t' n = match (slotAt t n).wait with
            | .presence ls => if t.team = tm.id ∧ t.halted = false ∧ ∀ l ∈ ls, lineAbsent tm l = false then
                { slotAt t n with st := .ready, wait := .none } else slotAt t n
            | _ => slotAt t n) ∧
    (∀ s t n q, findTrain s t.uid = some t → t.halted = false → (slotAt t n).wait = .port q → portServes s t n q = true →
      exec (.queuePortWake t.uid n) s = .next (modTrain s t.uid (fun u => modSlot u n (fun x => { x with st := .ready, wait := .none })))) ∧
    (∀ s t n, findTrain s t.uid = some t → escapeSlot s t = some n →
      256 ≤ (slotAt t n).skip ∧ canRun t (slotAt t n) = true ∧
      exec (.escapeIssue t.uid) s = .next (modTrain s t.uid (fun u => { u with escape := some n })) ∧
      (lateIns s t.uid = none → headSlot s { t with escape := some n } = some (slotAt t n))) ∧
    (∀ s t c, findTrain s t.uid = some t → t.canSince = some c → c + 4096 ≤ s.now →
      ∃ s', exec (.agingStep t.uid) s = .next s' ∧ InTrain s s' t.uid ∧
        findTrain s' t.uid = some { t with aging := t.aging + 1, canSince := some (c + 4096) }) ∧
    (∀ s t p, findTrain s t.uid = some t → t.trap = some p →
      (entryWaits s t.uid = false → exec (.trapEntry t.uid) s = .next (setTrain s (enterTrain t p))) ∧
      (entryWaits s t.uid = true → exec (.trapEntry t.uid) s = .next (post s (.trapEntry t.uid))))) ∧
  ((∀ s w l, s.walks.find? (fun v => v.id == w.id) = some w → w.offered = false → w.eng = none → walking s w = true →
      walkNow s w = .ok l →
      (∀ t ∈ s.trains, t.halted = false ∧ t.slots.length = 32 ∧
        ∀ n, ∀ acc, (slotAt t n).wait = .miss w.id acc false → leafCheck s l acc = none) →
      (∀ t ∈ s.trains, (∀ x ∈ t.slots, ∀ v acc, x.wait ≠ .miss v acc true) ∨ ∀ x ∈ t.slots, ∀ v acc b, x.wait = .miss v acc b → v = w.id) →
      ∃ s', exec (.translationWalkDone w.id) s = .next s' ∧ s'.mem = s.mem ∧ s'.teams = s.teams ∧
        s'.walks = s.walks.filter (fun v => decide (v.id ≠ w.id)) ∧
        ∀ t, findTrain s t.uid = some t → ∃ t', findTrain s' t.uid = some t' ∧ ∀ n < 32, slotAt t' n =
          match (slotAt t n).wait with
          | .miss v _ false => if v = w.id then { slotAt t n with st := .ready, wait := .none } else slotAt t n
          | .miss _ _ true => { slotAt t n with st := .ready, wait := .none, walked := true }
          | _ => slotAt t n) ∧
    (∀ s w ty lv, s.walks.find? (fun v => v.id == w.id) = some w → walkNow s w = .bad ty lv →
      (∀ t ∈ s.trains, t.halted = false ∧ t.slots.length = 32) → (∃ t ∈ s.trains, ∃ n < 32, ∃ acc, (slotAt t n).wait = .miss w.id acc false) →
      let fwd := ((findCtx s w.ctx).map (fun c => spanFwd s c w.span)).getD false
      ∃ s', exec (.translationWalkFail w.id) s = .next s' ∧ s'.mem = s.mem ∧ s'.teams = s.teams ∧
        (fwd = true → s'.walks = s.walks.map (fun v => if v.id = w.id then { v with offered := true } else v) ∧ s'.trains = s.trains) ∧
        (fwd = false → s'.walks = s.walks.filter (fun v => decide (v.id ≠ w.id)))) ∧
    (∀ s w e, s.walks.find? (fun v => v.id == w.id) = some w → tlbHit (aget [] s.shared w.die) w.ctx w.span w.page = some e →
      (∀ t ∈ s.trains, t.halted = false ∧ t.slots.length = 32) →
      (∀ t ∈ s.trains, (∀ x ∈ t.slots, ∀ v acc, x.wait ≠ .miss v acc true) ∨ ∀ x ∈ t.slots, ∀ v acc b, x.wait = .miss v acc b → v = w.id) →
      ∃ s', exec (.sharedTranslationHit w.id) s = .next s' ∧ s'.mem = s.mem ∧
        s'.walks = s.walks.filter (fun v => decide (v.id ≠ w.id)) ∧
        ∀ t, findTrain s t.uid = some t → ∃ t', findTrain s' t.uid = some t' ∧ ∀ n < 32, slotAt t' n =
          match (slotAt t n).wait with
          | .miss v _ false => if v = w.id then { slotAt t n with st := .ready, wait := .none } else slotAt t n
          | .miss _ _ true => { slotAt t n with st := .ready, wait := .none, walked := true }
          | _ => slotAt t n) ∧
    (∀ s w pa, s.walks.find? (fun v => v.id == w.id) = some w → w.offered = true → w.eng.isSome = true →
      (∀ e : Word, exec (.faultServiceReply w.id pa (some e)) s = .next (dropWalk (changeEntry s w.ctx pa e) w.id)) ∧
      exec (.faultServiceReply w.id pa none) s =
        .next { s with walks := s.walks.map (fun v => if v.id = w.id then { v with offered := false } else v) }) ∧
    (∀ s w pa, s.walks.find? (fun v => v.id == w.id) = some w → w.offered = true → w.eng = none →
      (∀ e : Word, exec (.faultServiceReply w.id pa (some e)) s = .next (post { changeEntry s w.ctx pa e with
        walks := (changeEntry s w.ctx pa e).walks.map (fun v => if v.id = w.id then { v with offered := false } else v) }
        (.translationWalkDone w.id))) ∧
      exec (.faultServiceReply w.id pa none) s = .next (retryAll (dropWalk (onMiss s w.id (fun _ x => resolveMiss x)) w.id))) ∧
    (∀ s c pa (e : Word), findCtx s c.num = some c → s.booted = true →
        ∃ s', exec (.translationInvalidate c.num pa e) s = .next s' ∧ s'.trains = s.trains ∧ s'.walks = s.walks ∧
        (∀ a, cget s'.mem a = if pa ≤ a ∧ a < pa + 8 then BitVec.ofNat 8 (e.toNat / 2 ^ (8 * (a - pa)))
          else if passesTo s c pa e (a / 65536) = true then 0#8 else cget s.mem a) ∧
        (∀ h, passesTo s c pa e (h / 2048) = true → aget HalfCond.clean s'.mcond h = .clean) ∧
        (∀ p, hasPage (gained s c pa e) p = true → gaveUp s' c.num p = false) ∧
        ∀ k t, (t ∈ (coreOf s' k).tlb ↔ t ∈ (coreOf s k).tlb ∧ ¬(t.ctx = c.num ∧ pa ∈ pathOf s c t.span t.page)) ∧
          (t ∈ (coreOf s' k).etlb ↔ t ∈ (coreOf s k).etlb ∧ ¬(t.ctx = c.num ∧ pa ∈ pathOf s c t.span t.page))))

/-- R38, R223, R224, R454: the retention sequencer marks an expired granule once, and reads and writes back a KEEP granule: a
corrected error leaves it clean, an uncorrectable one leaves poison; no byte changes. Registers are refreshed so too. R444,
R445: a bit error makes a clean half-sector correctable, a second one in another bit uncorrectable, and poison stays poison
through one; whatever holds the half-sector, nothing else changes. That four registers of a slot make one half-sector, and
where its address registers and predicates stand, are the model's readings (log 22); the names of banks are free (log 33). -/
def Obligations.RetentionAndBitErrors : Prop :=
  (∀ s tm g, findTeam s tm.id = some tm →
    (∀ strict, expired s.now tm g = some strict → g ∉ tm.marked →
      ∃ s', exec (.retentionMarkExpired tm.id g) s = .next s' ∧ s' = { s with teams := s'.teams } ∧
        findTeam s' tm.id = some { tm with marked := tm.marked ++ [g] } ∧
        ∀ now, expired now { tm with marked := tm.marked ++ [g] } g = some strict) ∧
    (∀ a, g < 65536 → anyAlloc tm (256 * g) = some a → a.ret = .keep →
      ∃ s' tm', exec (.retentionRefresh tm.id g) s = .next s' ∧ findTeam s' tm.id = some tm' ∧ tm' = { tm with scond := tm'.scond } ∧
        s'.mem = s.mem ∧ s'.trains = s.trains ∧
        ∀ h, aget HalfCond.clean tm'.scond h = if h / 8 = g then (match aget HalfCond.clean tm.scond h with
          | .clean | .single _ => HalfCond.clean
          | _ => .poison) else aget HalfCond.clean tm.scond h) ∧
    (∀ t n, findTrain s t.uid = some t → (teamTrains s tm.id).find? (fun u => u.idx == t.idx) = some t → t.slots.length = 32 → n < 32 →
      ∃ s' t', exec (.retentionRefresh tm.id (65536 * (t.idx + 1) + n)) s = .next s' ∧ s'.mem = s.mem ∧ s'.teams = s.teams ∧
        findTrain s' t.uid = some t' ∧ t' = { t with slots := t'.slots } ∧
        (∀ m, slotAt t' m = { slotAt t m with rcond := (slotAt t' m).rcond } ∧ (m ≠ n → slotAt t' m = slotAt t m)) ∧
        ∀ h, aget HalfCond.clean (slotAt t' n).rcond h = match aget HalfCond.clean (slotAt t n).rcond h with
          | .clean | .single _ => HalfCond.clean
          | _ => .poison)) ∧
  (∀ (h b : Nat),
    let flip := fun (c : HalfCond) => match c with
      | .clean => HalfCond.single (b % 272)
      | .single x => if x = b % 272 then .clean else .bad
      | .poison => .poisonSingle (b % 272)
      | .poisonSingle x => if x = b % 272 then .poison else .bad
      | .bad => .bad
    let flipped := fun (l l' : List (Nat × HalfCond)) => ∀ k, aget HalfCond.clean l' k =
      if k = h then flip (aget HalfCond.clean l k) else aget HalfCond.clean l k
    (∀ s, ∃ m, exec (.bitError (.dev h) b) s = .next { s with mcond := m } ∧ flipped s.mcond m) ∧
    (∀ s tm, findTeam s tm.id = some tm → ∃ s' m, exec (.bitError (.scr tm.id h) b) s = .next s' ∧ s' = { s with teams := s'.teams } ∧
      findTeam s' tm.id = some { tm with scond := m } ∧ flipped tm.scond m) ∧
    (∀ s t n, findTrain s t.uid = some t → t.slots.length = 32 → n < 32 → (4 * h < t.A ∨ (1024 ≤ h ∧ h ≤ 1027)) →
      ∃ s' t' m, exec (.bitError (.reg t.uid n h) b) s = .next s' ∧ InTrain s s' t.uid ∧ findTrain s' t.uid = some t' ∧
        t' = { t with slots := t'.slots } ∧ (∀ i < 32, slotAt t' i = if i = n then { slotAt t n with rcond := m } else slotAt t i) ∧
        flipped (slotAt t n).rcond m) ∧
    (∀ s tm r, findTeam s tm.id = some tm → resvOf tm r.num = some r →
      ∃ s' tm' m, exec (.bitError (.buf tm.id r.num h) b) s = .next s' ∧ findTeam s' tm.id = some tm' ∧
        tm' = { tm with resv := tm'.resv } ∧ resvOf tm' r.num = some { r with cond := m } ∧ flipped r.cond m) ∧
    (∀ s tm, findTeam s tm.id = some tm → tm.life = .spilled → ∃ s' m, exec (.bitError (.img tm.id h) b) s = .next s' ∧
      s' = { s with teams := s'.teams } ∧ findTeam s' tm.id = some { tm with img := m } ∧ flipped tm.img m) ∧
    (∀ s r, findReq s r.id = some r → isWrite r = true → r.stage = .crossing → ∃ s', exec (.bitError (.flit r.id) b) s = .next s' ∧
      s' = { s with reqs := s'.reqs } ∧ findReq s' r.id = some { r with link := flip r.link }))

/-! Engines, barrier objects and the bridle tree (R249 to R293, R398 to R412). -/

/-- R252, R254 to R258, R276: a command whose location and object stand is queued at its core's engine behind its train's
writes, tagged with the phase of its object, and the run goes on; a bad location traps 7:0, an object that is none 6:6, and a
ring without its formation, or with a team of it on another ring, 7:1. R268, R272, R273: res gives the lowest free range of
the operand buffer under the lowest free number, or all ones; rel ends a reservation that nothing uses; a malformed request
traps 7:2, a number not held 7:3 and one in use 7:4. R280, R281, R285: task arms a well-formed record: with a count it stands
armed, without one it is enqueued; dep takes its count from a record. The decrement that brings an armed record to zero
enqueues it, and one beyond its count is an underflow; reserved bits stand. A record in memory is accessed once its page is
in the core's buffer (R243). R277, R279, R281 to R284: what arming and a decrement make of a record. Word 0 takes its new
value whole at its home, in scratch or in memory, and nothing beside it; a record that is armed keeps its count in state 1,
and one that is enqueued stands in state 2 and joins its core's queue with what it holds, or fails with its code in state 5.
A decrement does what decWord says, and waits where there is no room to enqueue. That a scratch descriptor or record in an
absent line makes its instruction wait is the model's (logs 32, 60); so are the codes of pushed commands (log 60), and which
order of checks reports (log 48). -/
def Obligations.EngineForms : Prop :=
  (∀ (a b : Reg) s iss t tm,
    ∀ p ∈ [(Instr.acpCopy a b, CmdFn.copy), (.acpFill a b, .fill), (.acpRing a b, .ring), (.acpPfill a b, .pfill), (.mxWld a b, .wld)],
    Issues p.1 s iss t → activeMask iss t ≠ 0#32 → findTeam s t.team = some tm →
    let loc := readReg t 0 a
    let obj := if isZ b then none else some (readReg t 0 b).toNat
    let m := activeMask iss t
    let good := fld loc 0 63 % 64 = 0 ∧ (loc.getLsbD 63 = true → inScratch tm (fld loc 0 63) (descLen p.2) = true)
    (¬good → MayEnter s t → TrapsWith p.1 s iss t (cause 7 0) m m 0#64 []) ∧
    (good → (∃ o, obj = some o ∧ isBobj tm o = false) → MayEnter s t → TrapsWith p.1 s iss t (cause 6 6) m m 0#64 []) ∧
    (good → (∀ o, obj = some o → isBobj tm o = true) → p.2 = .ring → ringOk s tm = false → MayEnter s t →
      TrapsWith p.1 s iss t (cause 7 1) m m 0#64 []) ∧
    (∀ s1 u, cmdIssue s t p.2 loc obj = .go s1 → findTrain s1 iss.tr = some u →
      exec p.1 s = .next (postOnce (settle s1 iss u []) (.copyStart u.core))) ∧
    (good → loc.getLsbD 63 = false → (∀ o, obj = some o → isBobj tm o = true) → (p.2 = .ring → ringOk s tm = true) →
      (queuedCmds s t.core).length < 64 →
      ∃ s1, cmdIssue s t p.2 loc obj = .go s1 ∧ findTrain s1 iss.tr = some { t with declared := none } ∧
        (p.2 ≠ .ring → s1.teams = s.teams) ∧
        s1 = { s with nextId := s.nextId + 1, teams := s1.teams, trains := s1.trains, cmds := s.cmds ++ [
          { id := s.nextId, fn := p.2, team := tm.id, tr := t.uid, core := t.core, loc := loc, desc := none, obj := obj
            tag := (match obj with
              | some o => (objOf tm o).phase
              | none => false)
            lines := [], stage := .queued, pos := 0, need := cmdNeed s t, sects := [], olds := [], lapse := false
            rot := if p.2 = .ring then tm.rings else 0, wrote := [], oldx := [], oldk := [] }] }) ∧
    (tm.form = none ∨ (∃ o ∈ s.teams, o.form = tm.form ∧ o.core / 8 ≠ tm.core / 8) → ringOk s tm = false)) ∧
  (∀ (d a : Reg) s iss t tm, activeMask iss t ≠ 0#32 → findTeam s t.team = some tm →
    let q := readReg t 0 a
    let m := activeMask iss t
    let len := (fld q 24 14 + 1) * 64
    let rs := coreResvs s t.core
    (Issues (.mxRes d a) s iss t → resvOk q = false → MayEnter s t → TrapsWith (.mxRes d a) s iss t (cause 7 2) m m 0#64 []) ∧
    (Issues (.mxRes d a) s iss t → resvOk q = true → ∀ base n, tm.resv.length < 64 → rs.length < 64 →
      base + len ≤ 2 ^ 20 → (∀ r ∈ rs, base + len ≤ r.base ∨ r.base + r.len ≤ base) → (base = 0 ∨ ∃ r ∈ rs, base = r.base + r.len) →
      (∀ b, b < base → (b = 0 ∨ ∃ r ∈ rs, b = r.base + r.len) → ∃ r ∈ rs, ¬(b + len ≤ r.base ∨ r.base + r.len ≤ b)) →
      n < 64 → resvOf tm n = none → (∀ k < n, resvOf tm k ≠ none) →
      exec (.mxRes d a) s = .next (settle (setTeam s { tm with resv := tm.resv ++
        [{ num := n, kind := fld q 62 2, fmt := fld q 58 4, sadj := sInt 8 (fld q 50 8), pitch := fld q 38 12 + 1, len := len,
           base := base, bytes := [], cond := [] }] }) iss { writeUni t m d (BitVec.ofNat 64 n) with declared := none } [])) ∧
    (Issues (.mxRes d a) s iss t → resvOk q = true → (64 ≤ tm.resv.length ∨ 64 ≤ rs.length ∨ resvPlace rs len = none) →
      exec (.mxRes d a) s = .next (settle s iss { writeUni t m d 0xFFFFFFFFFFFFFFFF#64 with declared := none } [])) ∧
    (Issues (.mxRel a) s iss t → resvOf tm q.toNat = none → MayEnter s t →
      TrapsWith (.mxRel a) s iss t (cause 7 3) m m 0#64 []) ∧
    (Issues (.mxRel a) s iss t → resvOf tm q.toNat ≠ none → resvBusy s tm q.toNat = true → MayEnter s t →
      TrapsWith (.mxRel a) s iss t (cause 7 4) m m 0#64 []) ∧
    (Issues (.mxRel a) s iss t → resvOf tm q.toNat ≠ none → resvBusy s tm q.toNat = false →
      exec (.mxRel a) s = .next (reconsider (settle (setTeam s { tm with resv := tm.resv.filter (fun r => decide (r.num ≠ q.toNat)) })
        iss { t with declared := none } [])))) ∧
  (∀ (an : R3) (b : Reg) s iss t tm, activeMask iss t ≠ 0#32 → findTeam s t.team = some tm →
    let m := activeMask iss t
    let va := readA t (lowSlot m) an
    let c := (readReg t 0 b).toNat
    (∀ i ∈ [Instr.mxTask an, .mxDep an b], Issues i s iss t → taskLocOk tm va = false → MayEnter s t →
      TrapsWith i s iss t (cause 7 5) m m 0#64 []) ∧
    (Issues (.mxTask an) s iss t → taskLocOk tm va = true → cmdNeed s t = [] → recAbsent tm (aOff va) = false →
      recMiss s iss t tm m (aOff va) accAtomic = none →
      let s0 := recNote s tm (aOff va) 64
      ∀ bs b0, recRead s tm (aOff va) 64 accRead = .ok bs → recRead s0 tm (aOff va) 8 accAtomic = .ok b0 →
      (∀ det, taskFault tm bs = some det → MayEnter s t → TrapsLeaving (.mxTask an) s s0 iss t (cause 7 det) m m 0#64 []) ∧
      (taskFault tm bs = none → ((recOf bs).count = 0 → readyRoom s0 t.core = true) →
        let s1 := armRecord s0 tm t (aOff va) (leN (bs.take 8))
        ∀ u, findTrain s1 iss.tr = some u → exec (.mxTask an) s =
          .next (settle s1 iss { u with declared := none, lapsed := u.lapsed || recLapsed s0 tm (aOff va) } []))) ∧
    (Issues (.mxDep an b) s iss t → taskLocOk tm va = true → (c = 0 ∨ 65535 < c) → MayEnter s t →
      TrapsWith (.mxDep an b) s iss t (cause 7 9) m m 0#64 []) ∧
    (Issues (.mxDep an b) s iss t → taskLocOk tm va = true → 1 ≤ c → c ≤ 65535 → cmdNeed s t = [] → recAbsent tm (aOff va) = false →
      recMiss s iss t tm m (aOff va) accAtomic = none → ∀ b0, recRead s tm (aOff va) 8 accAtomic = .ok b0 →
        let s1 := decrement s tm.id t.core (aOff va) c
        ∀ u, findTrain s1 iss.tr = some u → exec (.mxDep an b) s = .next (settle s1 iss { u with declared := none } [])) ∧
    (∀ n st r5 err r32 k : Nat, n < 65536 → st < 8 → r5 < 32 → err < 256 → r32 < 2 ^ 32 → 1 ≤ k → k ≤ 65535 →
      let word := fun (n st err : Nat) => n + st * 65536 + r5 * 2 ^ 19 + err * 2 ^ 24 + r32 * 2 ^ 32
      decWord (word n st err) k =
        if n < k then (if st = 3 then (word 0 3 err, false, true) else (word 0 5 39, false, true))
        else if st = 1 ∧ n = k then (word 0 2 err, true, false)
        else (word (n - k) st err, false, false))) ∧
  (∀ s (tm : Team) (t : Train) (loc : Word) (core k : Nat), findTeam s tm.id = some tm →
    let off := fld loc 0 63
    let bits := fun (w st err : Nat) => w % 2 ^ 16 + st * 2 ^ 16 + w / 2 ^ 19 % 2 ^ 5 * 2 ^ 19 + err * 2 ^ 24 + w / 2 ^ 32 % 2 ^ 32 * 2 ^ 32
    (∀ f : Nat → Nat, loc.getLsbD 63 = true →
      let s' := recordPut s tm.id tm.ctx loc f
      ∃ tm', findTeam s' tm.id = some tm' ∧ leN (cgetAll tm'.scratch off 8) = f (leN (cgetAll tm.scratch off 8)) % 2 ^ 64 ∧
        s'.mem = s.mem ∧ s'.tasks = s.tasks ∧ ∀ o, (o < off ∨ off + 8 ≤ o) → expired s.now tm (o / 256) = none →
          cget tm'.scratch o = cget tm.scratch o) ∧
    (∀ (f : Nat → Nat) c kv bs, loc.getLsbD 63 = false → findCtx s tm.ctx = some c → c.nodes = [] →
      transNow s tm.ctx 0 off 8 accAtomic = .ok kv → readHome s kv = .ok bs →
      (∀ p ∈ kv, aget 0 s.mkey (p.1 / 64) = 0 ∨ aget 0 s.mkey (p.1 / 64) = (kv.map (·.2)).headD 0) →
      let s' := recordPut s tm.id tm.ctx loc f
      s'.teams = s.teams ∧ s'.tasks = s.tasks ∧
        ∀ a, cget s'.mem a = cget (csetAt s.mem ((kv.map (·.1)).zip (bytesN 8 (f (leN bs))))) a) ∧
    (∀ w : Nat, w % 2 ^ 16 ≠ 0 →
      armRecord s tm t loc w = { recordPut s tm.id tm.ctx loc (fun w => bits w 1 (w / 2 ^ 24 % 256)) with
        heldDecs := (armRecord s tm t loc w).heldDecs } ∧
      ⟨t.uid, tm.id, loc, 0⟩ ∈ (armRecord s tm t loc w).heldDecs) ∧
    (∀ w : Nat, w % 2 ^ 16 = 0 → armRecord s tm t loc w =
      enqueue (recordPut s tm.id tm.ctx loc (fun w => bits w 2 (w / 2 ^ 24 % 256))) tm.id t.core t.uid loc) ∧
    (∀ bs, recRead s tm loc 64 accRead = .ok bs →
      let r := recOf bs
      let s0 := recNote s tm loc 64
      let tag := match r.obj with
        | some o => (objOf tm o).phase
        | none => false
      (enqCheck tm bs = 0 → ∃ q, (enqueue s tm.id core k loc).tasks = s.tasks ++ [q] ∧ q.id = s.nextId ∧ q.core = core ∧ q.team = tm.id ∧
        q.armTr = k ∧ q.loc = loc ∧ q.snap = bs ∧ q.obj = r.obj ∧ q.tag = tag ∧ q.lines = taskLines r ∧ q.tile = 0 ∧ q.units = [] ∧
        q.stage = (if (taskLines r).all (lineRoom tm) = true then .queued else .held)) ∧
      (enqCheck tm bs ≠ 0 → enqueue s tm.id core k loc =
        failObj (recordPut s0 tm.id tm.ctx loc (fun w => bits w 5 (enqCheck tm bs))) tm core (enqCheck tm bs) r.obj tag)) ∧
    (∀ bs, recLocOk tm loc = true → decLook s tm core loc = (true, s) → recRead s tm loc 8 accAtomic = .ok bs →
      let s0 := recNote s tm loc 8
      let r := decWord (leN (bs.take 8)) k
      let put := recordPut s0 tm.id tm.ctx loc (fun _ => r.1)
      decrement s tm.id core loc k =
        if r.2.1 = true then
          if readyRoom s0 core = true ∧ recAbsent tm loc = false then enqueue put tm.id core (armedBy put tm.id loc) loc
          else holdDec s0 tm.id core loc k
        else if r.2.2 = true then underflow put tm core loc (leN (bs.take 8) / 2 ^ 16 % 8) else put) ∧
    (recLocOk tm loc = false → decrement s tm.id core loc k = addErr s { errRec 6 1 core tm.ctx with code := 12, addr := loc }))

/-- R237, R254, R259: the engine takes the next queued command that has nothing to wait for, reads its descriptor, and sets
it to work; one set aside goes on once its lines have room, ahead of those that queue. R256, R257, R258, R276: a command
lands its data in order, and with the last of it it is done: its lines are present, its successor record is decremented, its
bytes are counted at its object, and its item is posted. R261: a command that fails poisons what it had yet to write of
present scratch, makes its lines present, and reports its code to its object, or in a record where it has none; it is gone
from the engine. R237, R246, R256, R260, R261: what completing and failing do. The lines of a command become present; one
that fails poisons first each half-sector that it had yet to write; a successor is decremented, the bytes are counted or the
failure reported at the object (in a record where there is none), and a descriptor's post bit posts an item to the issuing
train's port, which is dropped with a record where the port is full. The command is then gone, and another may leave the
queue. That elements land in order, several in one step, and that a rotation is one step, are the model's readings (log 16),
when lines and bytes count as activity is its choice (log 21), and an item without an object carries a free offset (log 25).
Lines of a malformed descriptor are those that its fields name (log 61); a full completion port drops an item (log 60). -/
def Obligations.CommandsAtWork : Prop :=
  (∀ s core c, (runningCmds s core).length < 8 →
    (asideReady s core = none → nextCmd s core = some c → needMet s c = true →
      ∃ s1, s1 = { s with cmds := s1.cmds, agenda := s1.agenda } ∧
        s1.cmds = s.cmds.map (fun k => if k.id = c.id then { k with stage := .running } else k) ∧
        exec (.copyStart core) s = .next (cmdDesc s1 c)) ∧
    (∀ s1 bs, c.desc = some bs → cmdDesc s1 c = cmdBegin s1 c bs) ∧
    (∀ s1 s2 tm kv bs, c.desc = none → findTeam s1 c.team = some tm → s1.mcond = [] →
      engLook s1 c.id c.core tm.ctx 0 (fld c.loc 0 63) (descLen c.fn) accRead = (.ok kv, s2) → readDie s2 (dieOf c.core) kv = .ok bs →
      (∀ l ∈ destLines c.fn bs, lineRoom tm l = true) →
      cmdDesc s1 c = cmdBegin (modCmd (modTeam (noteHbm s2 tm.ctx c.team (kv.map (·.1))) tm.id (fun tm => clearLines tm c.id (destLines c.fn bs))) c.id
        (fun k => { k with desc := some bs, lines := destLines c.fn bs, stage := .running })) c bs) ∧
    (asideReady s core = none → nextCmd s core = none → exec (.copyStart core) s = .next s) ∧
    (∀ tm bs, asideReady s core = some (c, bs) → findTeam s c.team = some tm → ∀ i ∈ [.copyStart core, .copySetasideResume core],
      exec i s = .next (cmdBegin (modCmd (modTeam (postOnce s i) tm.id (fun tm => clearLines tm c.id (destLines c.fn bs))) c.id
        (fun k => { k with desc := some bs, lines := destLines c.fn bs, stage := .running })) c bs)) ∧
    (∀ s1 bs, (cmdBegin s1 c bs).agenda = s1.agenda ++ [match c.fn with
      | .copy | .fill => (match copyD (c.fn == .fill) bs with
          | none => .commandFail c.id 6
          | some d => if 2 ^ 32 ≤ d.total then .commandFail c.id 10 else .copyComplete c.id)
      | .pfill => if pfillD bs = none then .commandFail c.id 6 else .pfillLineLand c.id
      | .ring => if (ringD bs).isNone then .commandFail c.id 6 else .ringRotationStart c.id
      | .wld => (match wldD bs, findTeam s1 c.team with
          | some d, some tm => (match resvOf tm d.res with
              | none => .commandFail c.id 32
              | some r => if r.len < d.dst + d.rows * d.rowb then .commandFail c.id 41 else .wldComplete c.id)
          | _, _ => .commandFail c.id 6)])) ∧
  (∀ s c tm, findCmd s c.id = some c → findTeam s c.team = some tm →
    (∀ d, c.desc.bind (copyD (c.fn == .fill)) = some d →
      (d.count ≤ c.pos → exec (.copyComplete c.id) s = .next (cmdDone s c d.total 0)) ∧
      (∀ s1, c.pos < d.count → copyElem s c tm d = .ok s1 → ∃ k,
        exec (.copyComplete c.id) s = .next (copyRun c.id d (k + 1) s1)) ∧
      (∀ s1, c.pos < d.count → copyElem s c tm d = .wait s1 → exec (.copyComplete c.id) s =
        .next (post (if d.dscr then landSome s1 c.id d else s1) (.copyComplete c.id))) ∧
      (∀ s1 code, c.pos < d.count → copyElem s c tm d = .fail s1 code →
        exec (.copyComplete c.id) s = .next (post s1 (.commandFail c.id code)))) ∧
    (∀ d, c.desc.bind pfillD = some d →
      (∀ bs l s1 s2, engDevRead s c tm.ctx d.sspan ((d.src + 64 * c.pos) % 2 ^ 64) 64 = (.ok bs l, s1) →
        engScrWrite s1 c tm (d.dst + 64 * c.pos) bs = .ok s2 →
        exec (.pfillLineLand c.id) s = .next (post
          (landLines (modCmd (noteMoved s2 c tm 64 1) c.id (fun k => { k with pos := k.pos + 1 })) c.team c.id [d.dst / 64 + c.pos])
          (if c.pos + 1 < d.lines then .pfillLineLand c.id else .pfillComplete c.id))) ∧
      exec (.pfillComplete c.id) s = .next (cmdDone s c (64 * d.lines) 0)) ∧
    (∀ d s1, c.desc.bind ringD = some d → (∀ i ∈ s.agenda, ∀ j k, i = .commandFail j k → j ≠ c.id) →
      engScrWrite s c tm d.dst (cgetAll c.olds 0 d.bytes) = .ok s1 →
      exec (.ringRotationComplete c.id) s = .next
        (cmdDone (noteMoved s1 c tm d.bytes ((linesOf d.src d.bytes).length + (linesOf d.dst d.bytes).length)) c d.bytes 0)) ∧
    (c.pos = 0 → c.fn = .ring → (ringTeams s tm).length < 8 →
      exec (.ringRotationStart c.id) s = .next (post s (.commandFail c.id 14))) ∧
    (c.pos = 0 → (ringTeams s tm).length = 8 → (∀ o ∈ ringTeams s tm, c.rot < o.rings) →
      let cs := (ringTeams s tm).filterMap (fun o => ringCmd s o c.rot)
      cs.length = 8 → (∀ k ∈ cs, ringUp k = true ∧ ringHeld s k = false) →
      (∀ d, c.desc.bind ringD = some d → ∀ k ∈ cs, ∃ e, k.desc.bind ringD = some e ∧ e.dir = d.dir ∧ e.bytes = d.bytes) →
      (c.desc.bind ringD).isSome = true →
      exec (.ringRotationStart c.id) s = .next (cs.foldl (fun s1 k => ringSend s1 (ringTeams s tm) k) s)) ∧
    (∀ d, c.desc.bind wldD = some d →
      (d.rows ≤ c.pos → exec (.wldComplete c.id) s = .next (cmdDone s c (d.rows * d.rowb) d.succ)) ∧
      (∀ bs l s1, c.pos < d.rows → engRead s c tm d.sscr d.sspan ((d.src + c.pos * d.strd) % 2 ^ 64) d.rowb = (.ok bs l, s1) → ∃ k,
        exec (.wldComplete c.id) s = .next (wldRun c.id d (k + 1) (modCmd (noteMoved (modTeam s1 c.team (fun tm => { tm with
          resv := tm.resv.map (fun r => if r.num = d.res then resvWrite r (d.dst + c.pos * d.rowb) bs else r) }))
          c tm d.rowb (if d.sscr then (linesOf (d.src + c.pos * d.strd) d.rowb).length else 0)) c.id
          (fun k => { k with pos := k.pos + 1, lapse := k.lapse || l })))))) ∧
  (∀ s c tm (code : Nat), findCmd s c.id = some c → findTeam s c.team = some tm →
    ∃ s', exec (.commandFail c.id code) s = .next s' ∧ findCmd s' c.id = none ∧
      (c.lines = [] → c.sects = [] → c.obj = none → c.lapse = false → c.desc = none → tm.draining = [] →
        c.core < 224 →
        s'.mem = s.mem ∧ s'.trains = s.trains ∧ .copyStart c.core ∈ s'.agenda ∧
        ∃ e ∈ s'.errs, e.kind = 6 ∧ e.sev = 1 ∧ e.core = c.core ∧ e.ctx = tm.ctx ∧ e.code = code ∧ e.addr = 0#64)) ∧
  (∀ s c tm, findCmd s c.id = some c → findTeam s c.team = some tm →
    let item := fun (x : State) (bytes code : Nat) =>
      if (c.desc.map (postBit c.fn)).getD false = true then postItem x c.tr bytes code (itemOff x c.obj) else x
    let landed := fun (tm1 : Team) => ∀ l, aget [] tm1.absent l =
      if l ∈ c.lines then (aget [] tm.absent l).filter (fun i => decide (i ≠ c.id)) else aget [] tm.absent l
    (∀ total succ, ∃ s1 tm1, findTeam s1 c.team = some tm1 ∧ tm1 = { tm with absent := tm1.absent } ∧ landed tm1 ∧
      (c.sects = [] → s1.mem = s.mem) ∧
      (c.lapse = true → ∀ t, findTrain s c.tr = some t → ∃ t', findTrain s1 c.tr = some t' ∧ t'.lapsed = true) ∧
      cmdDone s c total succ = cmdGone (item ((fun s2 => match c.obj with
        | some o => objCount s2 c.team o total c.tag
        | none => s2) (if bitsN succ 46 1 = 1 then decrement s1 c.team c.core (succLoc succ) 1 else s1)) total 0) c) ∧
    (∀ code : Nat, ∃ s1 tm1, findTeam s1 c.team = some tm1 ∧ landed tm1 ∧ (c.sects = [] → s1.mem = s.mem) ∧
      (∀ h ∈ cmdRest c, h / 2 ∈ c.lines → inScratchFor tm c.id (32 * h) 32 = true → aget HalfCond.clean tm1.scond h = .poison) ∧
      (∀ h, (h ∉ cmdRest c ∨ h / 2 ∉ c.lines) → expired s.now tm (h / 8) = none →
        aget HalfCond.clean tm1.scond h = aget HalfCond.clean tm.scond h) ∧
      (∀ o, expired s.now tm (o / 256) = none → cget tm1.scratch o = cget tm.scratch o) ∧
      exec (.commandFail c.id code) s = .next (cmdGone (item (match c.obj with
        | some o => objFail s1 c.team o code c.tag
        | none => addErr s1 { errRec 6 1 c.core tm.ctx with code := code }) 0 code) c)) ∧
    (∀ bs, c.desc = some bs → c.lines ≠ [] → ∀ h, h ∈ cmdRest c ↔ match c.fn with
      | .copy | .fill => ∃ k i, let d := copyRaw (c.fn == .fill) bs
          c.pos ≤ k ∧ k < d.count ∧ i < d.e ∧ h = (d.dstOff k + i) / 32
      | .pfill => h / 2 ∈ c.lines.drop c.pos
      | .ring => h / 2 ∈ c.lines
      | .wld => False) ∧
    (∀ s2, findCmd (cmdGone s2 c) c.id = none ∧ .copyStart c.core ∈ (cmdGone s2 c).agenda ∧
      (cmdGone s2 c).trains = s2.trains ∧ (cmdGone s2 c).mem = s2.mem ∧ ∀ w ∈ (cmdGone s2 c).walks, w.eng ≠ some c.id) ∧
    (∀ s2 t depth bytes code off, findTrain s2 c.tr = some t → t.retired = false →
      (∃ p ∈ t.ports, ∃ b, p.2 = .completions b depth) → (∀ p ∈ t.ports, ∀ b k, p.2 = .completions b k → k = depth) →
      (t.compl.length < depth → ∃ t', findTrain (postItem s2 c.tr bytes code off) c.tr = some t' ∧
        t' = { t with compl := t.compl ++ [BitVec.ofNat 64 (bytes % 2 ^ 32 * 2 ^ 32 + code * 2 ^ 24 + off % 2 ^ 23)] }) ∧
      (depth ≤ t.compl.length → postItem s2 c.tr bytes code off = addErr s2 (errRec 11 1 t.core (ctxOf s2 t)))))

/-- R281, R283, R284: the scheduler starts the oldest record of its queue on the lowest free engine, its record in state 3; a
task held for its lines is queued, under a number of its own, once they have room. R281, R290, R291, R293: a task whose
elements have all drained leaves its record in state 4, lands its lines, decrements its successors and counts M*N*4096
elements at its object; one that underflow has marked ends in state 5 with code 39. A task that fails leaves state 5 with its
code, poisons what it had yet to write, and reports it; either posts its item and is gone. Of a team that is being killed
neither is reported. The moment of an audit draw is the model's (log 20), and that a killed team's task reports nothing (log
29). -/
def Obligations.TasksStartAndEnd : Prop :=
  (∀ s core,
    (∀ e k tm, freeEngine s core = some e → (readyTasks s core).find? (fun k => teamHere s k.team) = some k →
      findTeam s k.team = some tm → ((findCtx s tm.ctx).map (·.audOn)).getD false = false →
      (∀ q ∈ s.tasks, q.id = k.id → q = k) →
      let s1 := recordPut s k.team tm.ctx k.loc (fun w => recState w 3 (bitsN w 24 8))
      ∃ s', exec (.taskStart core) s = .next s' ∧ s'.mem = s1.mem ∧ s'.teams = s1.teams ∧
        s'.tasks = s.tasks.map (fun q => if q.id = k.id then { q with stage := .running, eng := e, samp := none } else q) ∧
        .tileDrain k.id ∈ s'.agenda ∧ .taskStart core ∈ s'.agenda) ∧
    (∀ e k tm c a b cc, freeEngine s core = some e → (readyTasks s core).find? (fun k => teamHere s k.team) = some k →
      findTeam s k.team = some tm → findCtx s tm.ctx = some c → c.audOn = true → c.audN = 0#5 →
      (∀ q ∈ s.tasks, q.id = k.id → q = k) → recRes tm (recOf k.snap) = some (a, b, cc) →
      ∃ s', exec (.taskStart core) s = .next s' ∧ s'.tasks = s.tasks.map (fun q => if q.id = k.id then { q with
        stage := .running, eng := e, samp := if Config.auditFull s.tick then none else some ⟨k.snap, a, b, cc⟩ } else q)) ∧
    (freeEngine s core = none → exec (.taskStart core) s = .next s) ∧
    (∀ k tm, s.tasks.find? (heldFits s core) = some k → findTeam s k.team = some tm →
      (readyTasks s core).length < 256 → s.heldDecs = [] →
      (∀ q ∈ s.tasks, q.id = k.id → q = k) → (∀ q ∈ s.tasks, q.core = core → q.stage = .held → q = k) →
      exec (.taskHeldEnqueue core) s = .next (postOnce
        { modTeam { s with nextId := s.nextId + 1 } tm.id (fun tm => clearLines tm s.nextId k.lines) with
          tasks := s.tasks.filter (fun q => decide (q.id ≠ k.id)) ++ [{ k with id := s.nextId, stage := .queued }] } (.taskStart core)))) ∧
  (∀ s k tm, findTask s k.id = some k → findTeam s k.team = some tm →
    let r := recOf k.snap
    (tm.isDying = true → exec (.tileDrain k.id) s = .next s ∧
      (∀ code, exec (.taskFail k.id code) s = .next (if k.units.isEmpty = true then taskStopped s k else s)) ∧
      (k.units = [] → r.N * r.M * 64 ≤ k.tile → exec (.taskComplete k.id) s = .next (taskStopped s k))) ∧
    (tm.isDying = false → k.units = [] → r.N * r.M * 64 ≤ k.tile →
      let s1 := recordPut (landLines (sectIncs s k.team k.sects) k.team k.id k.lines) k.team tm.ctx k.loc
        (fun w => if k.under = true then recState w 5 39 else recState w 4 0)
      let s2 := r.succ.foldl (fun x f => if bitsN f 46 1 = 1 then decrement x k.team k.core (succLoc f) 1 else x) (delTask s1 k.id)
      let total := r.M * r.N * 4096 * (if r.drain = 2 then 8 else 4)
      let s3 := match r.obj with
        | some o => objCount s2 k.team o total k.tag
        | none => s2
      let s4 := if k.under = true then addErr s3 { errRec 6 1 k.core tm.ctx with code := 39 } else s3
      exec (.taskComplete k.id) s = .next (taskGone (putSample
        (if r.post = true then postItem s4 k.armTr total 0 (itemOff s4 r.obj) else s4) tm k) k)) ∧
    (k.samp = none → ∀ s1, putSample s1 tm k = s1) ∧
    (∀ s1, findTask (taskGone s1 k) k.id = none ∧ .taskStart k.core ∈ (taskGone s1 k).agenda ∧ (taskGone s1 k).mem = s1.mem) ∧
    (k.units ≠ [] ∨ k.tile < r.N * r.M * 64 → exec (.taskComplete k.id) s = .next s) ∧
    (∀ code : Nat, tm.isDying = false →
      let s1 := recordPut s k.team tm.ctx k.loc (fun w => recState w 5 code)
      ∃ s2 tm2 tm1, findTeam s1 k.team = some tm1 ∧ findTeam s2 k.team = some tm2 ∧ (k.sects = [] → s2.mem = s1.mem) ∧ s2.tasks = s1.tasks ∧
        (∀ l, aget [] tm2.absent l = if l ∈ k.lines then (aget [] tm1.absent l).filter (fun i => decide (i ≠ k.id)) else aget [] tm1.absent l) ∧
        (∀ h ∈ taskRest tm k r, h / 2 ∈ k.lines → inScratchFor tm k.id (32 * h) 32 = true → aget HalfCond.clean tm2.scond h = .poison) ∧
        (∀ h, (h ∉ taskRest tm k r ∨ h / 2 ∉ k.lines) → expired s1.now tm1 (h / 8) = none →
          aget HalfCond.clean tm2.scond h = aget HalfCond.clean tm1.scond h) ∧
        (let s3 := match r.obj with
          | some o => objFail s2 k.team o code k.tag
          | none => addErr s2 { errRec 6 1 k.core tm.ctx with code := code }
        exec (.taskFail k.id code) s = .next (taskGone
          (if r.post = true then postItem s3 k.armTr 0 code (itemOff s3 r.obj) else s3) k))) ∧
    (∀ h, h ∈ taskRest tm k r ↔ r.dscr = true ∧ ((∃ u ∈ k.units, ∃ e ∈ u, ∃ a ∈ e.keys, h = (a - scrKey tm.id 0) / 32) ∨
      ∃ e ∈ (elemsFrom r k.tile).drop k.cols, ∃ i < (if r.drain = 2 then 8 else 4), h = (cellOff r e.1 e.2 + i) / 32)))

/-- R269, R287 to R289, R292: each row reads the tile's operands, and one in error fails the task; a row of a tile drains its
64 elements in order, each the sum of its blocks as cellValue gives it; for an add-on-store the tile's elements join units of
256 bytes, and each unit is one update, mem := round(mem + value). R62, R63, R269 to R271: what a cell computes: K block
steps in order, each the exact sum of sixteen products rounded to fa26 and added to part, which is promoted every P blocks
and at the end, in f32 or as a cp32 pair. An operand's blocks stand where R269 puts them; a pair-sparse block expands by its
mask, and sadj scales. R288, R289: an element of a row goes to its place in the destination, or fails there; the elements of
an add-on-store tile go out as units, one for each 256-byte region that they touch. When block steps, lines of scratch and
lines of memory count as activity is the model's (log 21), and units land in a free order (log 4). -/
def Obligations.TilesDrain : Prop :=
  (∀ s k tm a b c, findTask s k.id = some k → findTeam s k.team = some tm →
    let r := recOf k.snap
    let m := k.tile / 64 % r.M
    let n := k.tile / 64 / r.M
    recRes tm r = some (a, b, c) → tm.isDying = false →
    let s0 := noteTile s k tm.ctx a b c r m n
    (∀ code, tileFault a b c r m n = some code → exec (.tileDrain k.id) s = .next (post s0 (.taskFail k.id code))) ∧
    (tileFault a b c r m n = none → r.drain ≠ 1 →
      let i := 64 * m + k.tile % 64
      let vs := (List.range 64).map (fun y => (64 * n + y, cellValue a b c r i (64 * n + y)))
      let rest := vs.drop k.cols
      (∀ s1, drainRow k r i rest s0 = .ok s1 →
        let ls := if r.dscr then nub (vs.flatMap (fun p => linesOf (cellOff r i p.1) (elemBytes r))) else []
        let s2 := post (modTask (noteSteps s1 k tm (if k.tile % 64 = 0 then r.K else 0) ls.length) k.id
            (fun q => { q with tile := q.tile + 1, cols := 0, sig := vs.foldl (fun g p => sigStep g p.2) q.sig }))
          (if k.tile + 1 < r.N * r.M * 64 then .tileDrain k.id else .taskComplete k.id)
        exec (.tileDrain k.id) s = .next (if r.dscr then taskLand s2 k.id r ls else s2)) ∧
      (∀ s1, drainRow k r i rest s0 = .wait s1 → exec (.tileDrain k.id) s = .next (post s1 (.tileDrain k.id))) ∧
      ∀ s1 code, drainRow k r i rest s0 = .fail s1 code → exec (.tileDrain k.id) s = .next (post s1 (.taskFail k.id code))) ∧
    (tileFault a b c r m n = none → r.drain = 1 → ∀ s1,
      let es := (List.range 64).flatMap (fun x => (List.range 64).map (fun y => (64 * m + x, 64 * n + y)))
      (unitLook s0 k tm r es = (true, s1) → exec (.tileDrain k.id) s = .next (tileUnits (noteSteps s1 k tm r.K 0) k tm a b c r m n)) ∧
      (unitLook s0 k tm r es = (false, s1) → exec (.tileDrain k.id) s = .next (post s1 (.tileDrain k.id)))) ∧
    (∀ e : UElem, (∀ q ∈ s.tasks, q.id = k.id → q = k) → k.units = [[e]] → r.dscr = false → engineMay s (dieOf k.core) e.keys = true → ∀ bs,
      readHome s (e.keys.map (fun x => (x, e.ver))) = .ok bs →
      let sum := (addV (fpOf .f32) .rn (unpack (fpOf .f32) (leN bs)) (unpack (fpOf .f32) e.v.toNat)).1
      exec (.addOnStoreUnit k.id) s = .next (postOnce (modTask (writeHome (noteHbm (unclock s e.keys) tm.ctx tm.id e.keys)
        ⟨k.core, tm.ctx, r.dspan⟩ (e.keys.zip (bytesN 4 sum)) e.ver) k.id (fun q =>
        { q with units := [], sects := nub (q.sects ++ e.sects) })) (.taskComplete k.id)))) ∧
  ((∀ (a b : Resv) (c : Option Resv) (r : Rec) (i j : Nat),
      let init := match c with
        | some c => leN (cgetAll c.bytes (i * c.pitch * blockBytes c.kind c.fmt + 4 * j) 4)
        | none => 0
      let f32 := fpOf .f32
      let sum := fun (x y : FVal) => (addV f32 .rn x y).1
      ∃ (acc : Nat → Nat × Nat) (part : Nat → Nat), acc 0 = (init, 0) ∧ part 0 = 0 ∧
        (∀ k < r.K, let d := dotV ((rowVals a i r.K).getD k []) ((rowVals b j r.K).getD k [])
          let q := (addV fpFa26 .rn (unpack fpFa26 (part k)) (unpack fpFa26 (deliver fpFa26 .rn d).1)).1
          if (k + 1) % r.P = 0 ∨ k + 1 = r.K then
            part (k + 1) = 0 ∧
            (r.cp32 = false → acc (k + 1) = (sum (unpack f32 (acc k).1) (unpack fpFa26 q), 0)) ∧
            (r.cp32 = true → let y := sum (unpack fpFa26 q) (unpack f32 (acc k).2)
              let t := sum (unpack f32 (acc k).1) (unpack f32 y)
              (acc (k + 1)).1 = t ∧ ((unpack f32 t = .inf false ∨ unpack f32 t = .inf true ∨ (unpack f32 t).isNan = true) → (acc (k + 1)).2 = 0) ∧
                ∀ s1 m1 e1 s2 m2 e2 s3 m3 e3, unpack f32 (acc k).1 = .fin s1 m1 e1 → unpack f32 y = .fin s2 m2 e2 → unpack f32 t = .fin s3 m3 e3 →
                  (acc (k + 1)).2 = (deliver f32 .rn (exactAdd (sumV .rn s1 m1 e1 s2 m2 e2) (.fin (!s3) m3 e3))).1)
          else part (k + 1) = q ∧ acc (k + 1) = acc k) ∧
        cellValue a b c r i j = if r.drain = 2 then (acc r.K).2 * 2 ^ 32 + (acc r.K).1
          else if r.cp32 = true then sum (unpack f32 (acc r.K).1) (unpack f32 (acc r.K).2) else (acc r.K).1) ∧
    (∀ (xs ys : List FVal), xs.length = ys.length → (∀ p ∈ xs.zip ys, ∃ s m e s' m' e', p = (.fin s m e, .fin s' m' e')) →
      ∃ s m e, dotV xs ys = .fin s m e ∧ ∀ Q : Int, Q ≤ 0 → (∀ p ∈ xs.zip ys, ∀ s m e s' m' e', p = (.fin s m e, .fin s' m' e') → Q ≤ e + e') →
        Q ≤ e ∧ unitsOf s m e Q = ((xs.zip ys).map (fun p => match p with
          | (.fin s m e, .fin s' m' e') => unitsOf (s != s') (m * m') (e + e') Q
          | _ => 0)).sum) ∧
    (∀ (xs ys : List FVal), (∃ p ∈ xs.zip ys, p.1.isNan = true ∨ p.2.isNan = true) → dotV xs ys = .nan false) ∧
    (∀ (v : Resv) row K k, k < K → denseAt v row k ≠ none →
      ∃ blk, denseAt v row k = some blk ∧ (rowVals v row K).getD k [] = (List.range 16).map (fun x => scaleV v.sadj
        (if v.fmt = 8 then unpack (fpOf .f16) (blk / 2 ^ (16 * x) % 2 ^ 16)
         else if v.fmt = 9 then unpack (fpOf .bf16) (blk / 2 ^ (16 * x) % 2 ^ 16) else bxVal (codeBits v.fmt - 1) blk x))) ∧
    (∀ n s m e, scaleV n (.fin s m e) = .fin s m (e + n) ∧ scaleV n (.inf s) = .inf s ∧ scaleV n (.nan s) = .nan s) ∧
    (∀ (v : Resv) row k, let bb := blockBytes v.kind v.fmt
      let raw := leN (cgetAll v.bytes (row * v.pitch * bb + k * bb) bb)
      let h := headBits v.fmt
      let w := codeBits v.fmt
      let named := fun (g t : Nat) => ((List.range t).filter (fun u => decide (raw / 2 ^ (h + 4 * g + u) % 2 = 1))).length
      (v.kind ≠ 1 → denseAt v row k = some raw) ∧
      (v.kind = 1 → (denseAt v row k = none ↔ ∃ g < 4, 2 < named g 4) ∧ ∀ blk, denseAt v row k = some blk →
        blk % 2 ^ h = raw % 2 ^ h ∧ ∀ x < 16, blk / 2 ^ (h + w * x) % 2 ^ w =
          if raw / 2 ^ (h + x) % 2 = 1 then raw / 2 ^ (h + 16 + w * (2 * (x / 4) + named (x / 4) (x % 4))) % 2 ^ w else 0))) ∧
  (∀ s k tm r i j v rest, findTask s k.id = some k → findTeam s k.team = some tm → recOf k.snap = r →
    let off := (r.dst + i * r.rs + j * r.cs) % 2 ^ 64
    let bs := bytesN (if r.drain = 2 then 8 else 4) v
    let offs := (List.range bs.length).map (fun x => off + x)
    drainRow k r i [] s = .ok s ∧
    (r.dscr = true → linesIn tm k.id off bs.length = true → badPart (revived s.now tm offs).scond offs = false →
      drainRow k r i ((j, v) :: rest) s =
        drainRow k r i rest (modTask (scrWrite s tm.id (offs.zip bs)) k.id (fun q => { q with cols := q.cols + 1 }))) ∧
    (r.dscr = true → linesIn tm k.id off bs.length = false → drainRow k r i ((j, v) :: rest) s = .fail s 7) ∧
    (∀ t s1, r.dscr = false → engLook s k.id k.core tm.ctx r.dspan off bs.length accWrite = (.bad t, s1) →
      drainRow k r i ((j, v) :: rest) s = .fail s1 (if t = 2 then 5 else 4)) ∧
    (∀ kv s1 ver, r.dscr = false → engLook s k.id k.core tm.ctx r.dspan off bs.length accWrite = (.ok kv, s1) →
      engineMay s1 (dieOf k.core) (kv.map (·.1)) = true → badPart s1.mcond (kv.map (·.1)) = false → kv ≠ [] → (∀ p ∈ kv, p.2 = ver) →
      (∀ p ∈ kv, aget 0 s1.mkey (p.1 / 64) = 0 ∨ aget 0 s1.mkey (p.1 / 64) = ver) →
      ∃ s2, drainRow k r i ((j, v) :: rest) s = drainRow k r i rest s2 ∧ s2.teams = s.teams ∧ s2.trains = s.trains ∧
        (∀ a, cget s2.mem a = cget (csetAt s.mem ((kv.map (·.1)).zip bs)) a) ∧
        s2.tasks = s.tasks.map (fun q => if q.id = k.id then { q with
          cols := q.cols + 1, sects := nub (q.sects ++ (sectorsOf tm.ctx r.dspan off bs.length).map (·.2)) } else q)) ∧
    (∀ a b c m n (el : Nat → Nat → UElem), let cell := fun x y => cellValue a b c r (64 * m + x) (64 * n + y)
      let place := fun x y => cellOff r (64 * m + x) (64 * n + y)
      (∀ x < 64, ∀ y < 64, (el x y).v = BitVec.ofNat 32 (cell x y) ∧ if r.dscr = true then
          linesIn tm k.id (place x y) 4 = true ∧ (el x y).keys = (List.range 4).map (fun z => scrKey tm.id (place x y + z)) ∧
            (el x y).ver = 0 ∧ (el x y).sects = []
        else ∃ kv, engTrans s k.core tm.ctx r.dspan (place x y) 4 accAtomic = .ok kv ∧ (el x y).keys = kv.map (·.1) ∧
          (el x y).ver = (kv.headD (0, 0)).2 ∧ (el x y).sects = (sectorsOf tm.ctx r.dspan (place x y) 4).map (·.2)) →
      let es := (List.range 64).flatMap (fun x => (List.range 64).map (fun y => el x y))
      ∃ s', tileUnits s k tm a b c r m n = postOnce s' (.addOnStoreUnit k.id) ∧ s'.mem = s.mem ∧ s'.teams = s.teams ∧
        s'.tasks = s.tasks.map (fun q => if q.id = k.id then { q with
          units := q.units ++ unitsOf256 es, tile := q.tile + 64, cols := 0, sig := ((List.range 64).flatMap (fun x => (List.range 64).map (fun y => cell x y))).foldl sigStep q.sig } else q) ∧
        (if k.tile + 64 < r.N * r.M * 64 then .tileDrain k.id else .taskComplete k.id) ∈ s'.agenda) ∧
    (∀ es : List UElem, let at_ := fun (e : UElem) => e.keys.headD 0 / 256
      (∀ u ∈ unitsOf256 es, u ≠ [] ∧ ∀ e ∈ u, ∀ e' ∈ u, at_ e = at_ e') ∧
      (unitsOf256 es).Pairwise (fun u u' => ∀ e ∈ u, ∀ e' ∈ u', at_ e ≠ at_ e') ∧ (unitsOf256 es).flatten.Perm es))

/-- R249 to R252: the barrier-object forms, by their one active slot on an object that stands: what each makes of the object,
when a phase ends, and what test and err read; wait parks while the object stands in the phase that b names. R250, R391: a
count or a failure of an engine, or of a SIGNAL, at an object: one against another phase is dropped, a freed object takes
none, and that of a team whose image is out waits for it. -/
def Obligations.BarrierObjects : Prop :=
  (∀ (d a b : Reg) s iss t tm n, findTeam s t.team = some tm →
    slotsOf (activeMask iss t) = [n] → (∀ x ∈ t.slots, x.wait = .none ∧ x.walked = false) → ByItself s t n →
    let off := (readReg t n a).toNat
    let v := (readReg t n b).toNat
    let o := objOf tm off
    let counted := fun (x : BObj) => if 0 < x.expected ∧ x.arrived = x.expected then ⟨0, 0, 0, !x.phase⟩
      else if 0 < x.expected ∧ x.expected < x.arrived then ⟨0, 0, 9, !x.phase⟩ else x
    let makes := fun (i : Instr) (o' : BObj) => ∃ s' t' tm', exec i s = .next s' ∧ findTrain s' t.uid = some t' ∧
      findTeam s' tm.id = some tm' ∧ tm' = { tm with bobjs := tm'.bobjs } ∧ objOf tm' off = o' ∧
      (∀ k, k ≠ off → objOf tm' k = objOf tm k) ∧ s' = { s with trains := s'.trains, teams := s'.teams, clocks := s'.clocks, iss := none } ∧
      KeepsRegs t t' ∧ KeepsAddrs t t' ∧ KeepsPreds t t' ∧ t'.k = t.k ∧ t'.fflags = t.fflags ∧
      (slotAt t' n).pc = (slotDone iss (nextPc iss) (slotAt t n)).pc
    let gives := fun (i : Instr) (w : Word) => ∃ s' t', exec i s = .next s' ∧ InTrain { s with iss := none } s' t.uid ∧
      findTrain s' t.uid = some t' ∧
      RegsAre t' (fun k r => if k = n ∧ isW d ∧ r = wIdx t d then putVal (slotAt t n) r w else cget (slotAt t k).regs r) ∧ KeepsAddrs t t' ∧
      KeepsPreds t t' ∧ t'.k = t.k ∧ t'.fflags = t.fflags
    let ready := fun (i : Instr) => Issues i s iss t ∧ portFree i = true ∧ isBobj tm off = true
    (ready (.boInit a b) → objBusy s tm off = false → v < 2 ^ 32 → makes (.boInit a b) ⟨v, 0, 0, false⟩) ∧
    (ready (.boExpect a b) → o.expected + v < 2 ^ 32 → makes (.boExpect a b) (counted { o with expected := o.expected + v })) ∧
    (ready (.boArrive a b) → v < 2 ^ 32 → makes (.boArrive a b)
      (if 0 < o.expected ∧ o.expected < o.arrived + v then ⟨0, 0, 9, !o.phase⟩ else counted { o with arrived := (o.arrived + v) % 2 ^ 32 })) ∧
    (ready (.boWait a b) → o.phase ≠ (readReg t n b).getLsbD 0 →
      ∃ s' t', exec (.boWait a b) s = .next s' ∧ InTrain { s with iss := none } s' t.uid ∧ findTrain s' t.uid = some t' ∧
        KeepsRegs t t' ∧ (slotAt t' n).pc = (slotDone iss (nextPc iss) (slotAt t n)).pc) ∧
    (ready (.boWait a b) → o.phase = (readReg t n b).getLsbD 0 →
      ∃ s' t', exec (.boWait a b) s = .next s' ∧ OnlyTrain s s' t t' ∧ KeepsRegs t t' ∧
        slotAt t' n = slotPark iss .bowait (.obj off o.phase false) (nextPc iss) (slotAt t n)) ∧
    (ready (.boTest d a) → gives (.boTest d a) (BitVec.ofNat 64
      (o.arrived * 2 ^ 32 + o.err % 256 * 256 + (if o.phase then 1 else 0)))) ∧
    (ready (.boErr d a) → gives (.boErr d a) (BitVec.ofNat 64 (o.err % 256))) ∧
    (∀ i ∈ [Instr.boInit a b, .boExpect a b, .boArrive a b, .boWait a b, .boTest d a, .boErr d a], Issues i s iss t →
      portFree i = true → isBobj tm off = false → MayEnter s t →
      TrapsWith i s iss t (cause 6 6) (activeMask iss t) (activeMask iss t) 0#64 []) ∧
    (∀ i ∈ [Instr.boInit a b, .boExpect a b, .boArrive a b], ready i → (i = .boInit a b → objBusy s tm off = false) → 2 ^ 32 ≤ v →
      MayEnter s t → TrapsWith i s iss t (cause 6 8) (activeMask iss t) (activeMask iss t) 0#64 [])) ∧
  (∀ s tm off n tag, findTeam s tm.id = some tm →
    let o := objOf tm off
    let makes := fun (s' : State) (o' : BObj) => ∃ tm', findTeam s' tm.id = some tm' ∧ tm' = { tm with bobjs := tm'.bobjs } ∧
      objOf tm' off = o' ∧ (∀ k, k ≠ off → objOf tm' k = objOf tm k) ∧ s' = { s with teams := s'.teams, trains := s'.trains }
    (isBobj tm off = false ∨ tag ≠ o.phase → objCountNow s tm.id off n tag = s ∧ objFailNow s tm.id off n tag = s) ∧
    (isBobj tm off = true → tag = o.phase →
      let a := (o.arrived + n) % 2 ^ 32
      makes (objCountNow s tm.id off n tag)
        (if 0 < o.expected ∧ o.expected < o.arrived + n then ⟨0, 0, 9, !o.phase⟩
         else if 0 < o.expected ∧ a = o.expected then ⟨0, 0, 0, !o.phase⟩ else { o with arrived := a })) ∧
    (isBobj tm off = true → tag = o.phase → makes (objFailNow s tm.id off n tag) ⟨0, 0, n, !o.phase⟩) ∧
    (teamOut tm = true → objCount s tm.id off n tag = post s (.redirectCount tm.id off n tag 0) ∧
      objFail s tm.id off n tag = post s (.redirectCount tm.id off 0 tag n)) ∧
    (teamOut tm = false → objCount s tm.id off n tag = objCountNow s tm.id off n tag ∧
      objFail s tm.id off n tag = objFailNow s tm.id off n tag))

/-- R398, R405 to R409: each bt form by its one active slot sends one request to the bridle engines, with the node numbers
and the comparand as they are read; settle and cmp hold back the slot's later accesses as an acq fence does; a context
without a forest traps 8:7, and reserved operand bits trap 8:6. R403 to R409: what a bt request comes to at the engines,
where the slots of one instruction act in ascending order, and those of one slot in its program's; a settle or cmp of a
halted train is cancelled, and stands until it is made again. read gives the change count of a live node; enroll takes the
lowest free node, live under its parent, whose children it adds to; unenroll and reparent first mark their node as leaving or
moving; settle and cmp give the count once the subtree has been rolled up. R399, R404, R406 to R408: what the changes of the
forest make of its nodes: enroll a live node under its parent, unenroll frees one, reparent moves one with its subtree, and
each bumps the chains above once. R399, R403: a roll-up adds a node's pending increments to its parent, where they are
pending in turn; no other node changes. That a change begins in one event and ends in another, the order of the requests of
one slot, and that a moving node reads as live, are the model's readings (log 28). -/
def Obligations.Bridles : Prop :=
  (∀ (d a b : Reg) (an : R3) s iss t n c, slotsOf (activeMask iss t) = [n] →
    findCtx s (ctxOf s t) = some c →
    let va := readReg t n a
    let vb := readReg t n b
    let bad := fun (w : Word) => 65536 ≤ w.toNat
    ∀ p ∈ [(Instr.btEnroll d an b, BtOp.enroll (readA t n an) vb, dstOf t d false, vb.toNat / 2 ^ 49 ≠ 0 ∨ vb.toNat / 2 ^ 16 % 256 ≠ 0),
      (.btUnenroll a, .unenroll va.toNat, Dst.none, bad va), (.btReparent a b, .reparent va.toNat vb, .none, bad va ∨ bad vb),
      (.btSettle d a, .settle va.toNat, dstOf t d false, bad va), (.btRead d a, .read va.toNat, dstOf t d false, bad va),
      (.btCmp d a b, .cmp va.toNat vb, dstOf t d false, bad va)],
    Issues p.1 s iss t → portFree p.1 = true →
    (c.nmax = 0 → MayEnter s t →
      TrapsWith p.1 s iss t (cause 8 7) (activeMask iss t) (activeMask iss t) 0#64 []) ∧
    (c.nmax ≠ 0 → p.2.2.2 → MayEnter s t → ByItself s t n → TrapsLeaving p.1 s { s with nextId := s.nextId + 1 } iss t (cause 8 6) (activeMask iss t)
      (activeMask iss t) 0#64 []) ∧
    (c.nmax ≠ 0 → ¬p.2.2.2 → askFault s c.num p.2.1 = none →
      let asked := { s with nextId := s.nextId + 2, reqs := s.reqs ++
        [mkReq (ctxOf s t) iss t n (slotAt t n) (s.nextId + 1) (insOf (slotAt t n) s.nextId) (.bt p.2.1) .plain p.2.2.1 0#80 [] [] (slotAt t n).hb] }
      let fenced := match p.2.1 with
        | .settle _ | .cmp _ _ => blockReads asked iss.tr n .dev
        | _ => asked
      exec p.1 s = .next (settle (post fenced (.btReply (s.nextId + 1))) iss t []))) ∧
  (∀ s (r : Req) t c op, findReq s r.id = some r → r.kind = .bt op →
    findTrain s r.tr = some t → findCtx s r.ctx = some c →
    let again := Instr.btReply r.id
    (btCancelled s r = true → exec again s = .next s) ∧
    (btCancelled s r = false → r.entry = 0 → btTurn s r = false → exec again s = .next (post s again)) ∧
    (btCancelled s r = false → btTurn s r = true →
    (∀ n, op = .read n → nodeLive c n = true →
      exec again s = .next (deliverReply s r (BitVec.ofNat 128 ((nodeOf c n).count % 2 ^ 64)) again)) ∧
    (∀ n, op = .read n → nodeLive c n = false → exec again s = .next (lateFault s r 256)) ∧
    (∀ va v n, op = .enroll va v → r.entry = 0 → btReady s r = true → changing s c.num r.id = false → enrollFault s c va v = none →
      freeNode c = some n →
      let s1 := (doEnroll s c.num va v).1
      let r1 := { r with entry := 2, va := BitVec.ofNat 80 n }
      n < 65536 → exec again s = .next (deliverReply (modReq s1 r.id (fun _ => r1)) r1 (BitVec.ofNat 128 n) again)) ∧
    (∀ n, op = .unenroll n → r.entry = 0 → btReady s r = true → changing s c.num r.id = false → nodeLive c n = true →
      (nodeOf c n).nchild = 0 →
      let v := nodeOf c n
      let s1 := setNode s c.num n { v with state := 3 }
      let s2 := if v.size = 0 then s1 else setEnrolled s1 c.num v.base v.size false
      exec again s = .next (post (modReq s2 r.id (fun q => { q with entry := 1 })) again)) ∧
    (∀ n p, op = .reparent n p → r.entry = 0 → btReady s r = true → changing s c.num r.id = false →
      reparentFault c n (fld p 0 16) = none →
      exec again s = .next (post (modReq (setNode s c.num n { nodeOf c n with state := 2 }) r.id (fun q => { q with entry := 1 })) again)) ∧
    (r.entry = 1 → (∀ n, op = .unenroll n →
        exec again s = .next (deliverReply (voidSettles (endUnenroll s c.num n) c.num n) r 0#128 again)) ∧
      ∀ n p, op = .reparent n p → exec again s = .next (deliverReply (endReparent s c.num n (fld p 0 16)) r 0#128 again)) ∧
    (∀ n, r.flt = 0 → btReady s r = true → unapplied s r.after = [] → nodeLive c n = true →
      (∀ k ∈ subtree c n, (nodeOf c k).state < 2) →
      let s1 := drainTree s c.num n false
      let s2 := modTrain s1 r.tr (fun t => modSlot t r.slot (fun x => acquire x .dev))
      let count := ((findCtx s1 c.num).map (fun c => (nodeOf c n).count)).getD 0
      (op = .settle n → exec again s = .next (deliverReply s2 r (BitVec.ofNat 128 (count % 2 ^ 64)) again)) ∧
      ∀ v : Word, op = .cmp n v →
        exec again s = .next (deliverReply s2 r (BitVec.ofNat 128 ((count + 2 ^ 64 - v.toNat) % 2 ^ 64)) again)))) ∧
  (∀ s c, findCtx s c.num = some c →
    let bump := fun (w : Node) => { w with count := min (w.count + 1) (2 ^ 64 - 1) }
    let nodes := fun (s0 : State) (c0 : Ctx) (s' : State) (f : Nat → Node) =>
      s' = { s0 with mem := s'.mem, ctxs := s'.ctxs, agenda := s'.agenda, cores := s'.cores, shared := s'.shared } ∧
      ∃ c', findCtx s' c.num = some c' ∧ c' = { c0 with nodes := c'.nodes } ∧ ∀ k, nodeOf c' k = f k
    (∀ n k, chainFrom c (k + 1) n = if n = 0xFFFF then [] else n :: chainFrom c k (nodeOf c n).parent) ∧
    (∀ (va : Addr) (v : Word) n, freeNode c = some n →
      let par := v.toNat % 2 ^ 16
      let units := v.toNat / 2 ^ 24 % 2 ^ 25
      (par ≠ 0xFFFF → par ≠ n ∧ n ∉ chainOf c par ∧ (chainOf c par).Nodup) →
      (doEnroll s c.num va v).2 = BitVec.ofNat 64 n ∧ nodes s c (doEnroll s c.num va v).1 (fun k =>
        if k = n then
          { count := 0, pend := 0, parent := par, nchild := 0, depth := if par = 0xFFFF then 0 else (nodeOf c par).depth + 1, state := 1,
            size := units, base := if units = 0 then 0 else (aOff va).toNat / 65536 }
        else if par ≠ 0xFFFF ∧ k = par then bump { nodeOf c k with nchild := (nodeOf c k).nchild + 1 }
        else if par ≠ 0xFFFF ∧ k ∈ chainOf c par then bump (nodeOf c k) else nodeOf c k)) ∧
    (freeNode c = none → ∀ va v, doEnroll s c.num va v = (s, 0xFFFFFFFFFFFFFFFF#64)) ∧
    (∀ n c1, findCtx (rollNode s c.num n) c.num = some c1 → let par := (nodeOf c1 n).parent
      (par ≠ 0xFFFF → (chainOf c1 par).Nodup) →
      nodes (rollNode s c.num n) c1 (endUnenroll s c.num n) (fun k => if k = n then Node.free
        else if par ≠ 0xFFFF ∧ k = par then bump { nodeOf c1 k with nchild := (nodeOf c1 k).nchild - 1 }
        else if par ≠ 0xFFFF ∧ k ∈ chainOf c1 par then bump (nodeOf c1 k) else nodeOf c1 k)) ∧
    (∀ x p c1, findCtx (drainTree s c.num x true) c.num = some c1 → let v := nodeOf c1 x
      nodes (drainTree s c.num x true) c1 (endReparent s c.num x p) (fun k =>
        let w := nodeOf c1 k
        let w := { w with
          depth := if k ∈ subtree c1 x then w.depth - v.depth + (if p = 0xFFFF then 0 else (nodeOf c1 p).depth + 1) else w.depth
          nchild := w.nchild - (if v.parent ≠ 0xFFFF ∧ k = v.parent then 1 else 0) + (if p ≠ 0xFFFF ∧ k = p then 1 else 0) }
        let w := if k = x then { w with parent := p, pend := if v.parent = 0xFFFF then 0 else w.pend, state := 1 } else w
        if (v.parent ≠ 0xFFFF ∧ k ∈ chainOf c1 v.parent) ∨ (p ≠ 0xFFFF ∧ k ∈ chainOf c1 p) then bump w else w))) ∧
  (∀ s c n, findCtx s c.num = some c →
    let v := nodeOf c n
    v.pend ≠ 0 → v.parent ≠ 0xFFFF → v.parent ≠ n →
    ∃ s' c', exec (.bridleRollup c.num n) s = .next s' ∧ findCtx s' c.num = some c' ∧ c' = { c with nodes := c'.nodes } ∧
      s'.trains = s.trains ∧ s'.teams = s.teams ∧ s'.reqs = s.reqs ∧
      (v.state = 1 → nodeOf c' n = { v with pend := 0 } ∧
        nodeOf c' v.parent = { nodeOf c v.parent with count := min ((nodeOf c v.parent).count + v.pend) (2 ^ 64 - 1)
                                                      pend := (nodeOf c v.parent).pend + v.pend } ∧
        ∀ k, k ≠ n → k ≠ v.parent → nodeOf c' k = nodeOf c k))

/-! Teams, launches and the front end (R204 to R214, R342 to R395). -/

/-- R213, R360: a team whose trains have retired and whose engine work has ended is gone with them; a launch whose teams are
gone is complete once every write is performed, its done word then written. R346, R381, R386, R388: a decision admits the
first candidate that is let in, is not blocked and fits, and decides again; with nothing waiting it does nothing. A team that
still waits after 50 us has the dispatchers look again, and a team yields while every train of it has waited longer than its
context's threshold. Where a team is placed is free (log 14); who stands against whom is the model's reading (log 35). -/
def Obligations.TeamsAndAdmission : Prop :=
  ((∀ s tm, findTeam s tm.id = some tm → trainsLeft s tm.id = 0 → teamCmds s tm.id = [] → teamTasks s tm.id = [] →
      changesOf s tm.id = [] → (∀ h ∈ s.heldDecs, h.team = tm.id → h.c = 0) →
      ∃ s', exec (.teamRetire tm.id) s = .next s' ∧ findTeam s' tm.id = none ∧ s'.mem = s.mem ∧
        (∀ t ∈ s'.trains, t.team = tm.id → t.prol ≠ none) ∧ (∀ k, k ≠ tm.id → findTeam s' k =
          (findTeam s k).map (fun x => { x with yieldFor := x.yieldFor.filter (· != tm.id) })) ∧
        ∀ l, findLaunch s tm.launch = some l → ∃ l', findLaunch s' tm.launch = some l' ∧ l'.retired = lmod l.retired tm.stage (· + 1)) ∧
    (∀ s l s1, findLaunch s l.id = some l → orphanWrites s = false → (l.done = true → ioClear s = true) →
      (if l.done then feWrite s l.ctx 0 l.dadr.toNat (bytesN 8 l.dval.toNat) = .ok s1 else s1 = s) →
      exec (.launchComplete l.id) s = .next { s1 with
        launches := s1.launches.filter (fun x => decide (x.id ≠ l.id))
        queues := s1.queues.map (fun q => { q with launches := q.launches.filter (fun i => decide (i ≠ l.id)) }) }) ∧
    (∀ s l, findLaunch s l.id = some l → (orphanWrites s = true ∨ (l.done = true ∧ ioClear s = false)) →
      exec (.launchComplete l.id) s = .next (post s (.launchComplete l.id)))) ∧
  ((∀ s die c rest cores, cands s die = c :: rest → admissible s die c = true → blockedBy s (c :: rest) c = false →
      placeAll s die c.needs = some cores →
      let now := max s.now (((afind s.lastAdmit die).map (· + 16)).getD 0)
      exec (.admissionDecision die) s = .next (postOnce
        (placeCand { s with now := now, lastAdmit := aset s.lastAdmit die now } c cores) (.admissionDecision die))) ∧
    (∀ s die, (∀ c ∈ cands s die, admissible s die c = false ∨ blockedBy s (cands s die) c = true) →
      exec (.admissionDecision die) s = .next s) ∧
    (∀ s all c, blockedBy s all c = true ↔ ∃ b ∈ all, (b.back ≠ c.back ∨ b.id ≠ c.id ∨ b.stage ≠ c.stage) ∧ c.prio ≤ b.prio ∧
      (b.since + us50 ≤ s.now ∧ b.home = true ∧ letIn s b = true) ∧
      (¬(c.since + us50 ≤ s.now ∧ c.home = true ∧ letIn s c = true) ∨ c.prio < b.prio ∨ (c.prio = b.prio ∧ b.since < c.since))) ∧
    (∀ s l stage d form fpos core, findLaunch s l.id = some l → l.stages[stage]? = some d → 0 < d.threads →
      (∀ t ∈ s.trains, t.uid < s.nextId ∧ t.team < s.nextId) → (∀ m ∈ s.teams, m.id < s.nextId) →
      let s' := admitOne s l stage d form fpos core
      ∃ tm, findTeam s' s.nextId = some tm ∧ tm.core = core ∧ tm.num = l.nexts.getD stage 0 ∧ tm.nb = d.nb ∧ tm.scratch = [] ∧
        trainsLeft s' tm.id = (d.threads + 31) / 32 ∧
        ∀ i < (d.threads + 31) / 32, ∃ t, findTrain s' (s.nextId + 1 + i) = some t ∧ t.team = tm.id ∧ t.idx = i ∧ t.A = d.regs ∧ t.B = 0 ∧
          t.prio = d.prio ∧ t.fflags = 0#5 ∧ t.inHand = false ∧ t.slots.length = 32 ∧
          ∀ n < 32, let x := slotAt t n
            x.regs = [] ∧ x.areg = [] ∧ x.pc = BitVec.ofNat 40 d.entry ∧
            x.st = (if 32 * i + n < d.threads then .ready else if 32 * i + n / 4 * 4 < d.threads then .helper else .absent)) ∧
    (∀ s id due, s.now ≤ due →
      let waits := (∃ tm ∈ s.teams, tm.id = id ∧ tm.life = .spilled) ∨
        ∃ l ∈ s.launches, l.id = id ∧ ∃ i < l.stages.length, l.nexts.getD i 0 < l.counts.getD i 0
      (waits → exec (.teamBlocking id due) s = .next (post (reconsider { s with now := due }) (.teamBlocking id (due + us50)))) ∧
      (¬waits → exec (.teamBlocking id due) s = .next { s with now := due })) ∧
    (∀ s tm, findTeam s tm.id = some tm → tm.life = .resident →
      ∃ s' tm', exec (.teamYield tm.id) s = .next s' ∧ findTeam s' tm.id = some tm' ∧ tm'.yielded = yieldsNow s tm ∧
        s'.trains = s.trains ∧ s'.mem = s.mem ∧ tm' = { tm with yielded := tm'.yielded, yieldFor := tm'.yieldFor }))

/-- R387, R390 to R392, R415, R421: a request halts every train of its team where it stands, an entry into a handler being
finished first; once nothing of them is on its way the team goes to its image, keeping all that it holds, its errors
corrected or marked; counts for its objects follow it; and it comes back on a core with its trains going on, unless its image
is in error. When the spill reads what it records, and what the image record names, are the model's (logs 33, 60); so is that
a return waits for counts that are coming (log 61). -/
def Obligations.Eviction : Prop := ∀ s tm, findTeam s tm.id = some tm →
  (tm.life = .resident → (∃ t ∈ teamTrains s tm.id, t.trap ≠ none) →
    exec (.preemptRequest tm.id) s = .next (post s (.preemptRequest tm.id))) ∧
  (tm.life = .resident → trainsLeft s tm.id ≠ 0 → (∀ t ∈ teamTrains s tm.id, t.trap = none) →
    ∃ s' tm', exec (.preemptRequest tm.id) s = .next s' ∧ findTeam s' tm.id = some tm' ∧ tm'.life = .halting ∧ tm'.scratch = tm.scratch ∧
      tm'.bobjs = tm.bobjs ∧ .evictSpill tm.id ∈ s'.agenda ∧ s'.mem = s.mem ∧
      ∀ t, findTrain s t.uid = some t → ∃ t', findTrain s' t.uid = some t' ∧
        (t.team = tm.id → t.prol = none → t'.halted = true ∧ t'.k = t.k ∧
          ((∀ h, t.migr ≠ .waiting h) → t' = { t with halted := true })) ∧ (t.team ≠ tm.id → t' = t)) ∧
  (tm.life = .halting →
    (∀ t ∈ teamTrains s tm.id, awaiting { s with reqs := s.reqs.filter (fun r => !isSettle r) } t.uid = false ∧ t.migr = .none ∧
      swrPending s t.uid = false ∧ t.trap = none) →
    scratchBusy s tm.id = false → (s.redirects.filter (fun p => p.die == dieOf tm.core)).length < 1024 →
    ∃ s', exec (.evictSpill tm.id) s = .next (post s' (.spillDone tm.id)) ∧ s'.trains = s.trains ∧ s'.mem = s.mem ∧
      findTeam s' tm.id = some { tm with life := .spilling } ∧ ⟨dieOf tm.core, tm.id, none⟩ ∈ s'.redirects) ∧
  (tm.life = .spilling → (∀ k ∈ s.tasks, k.team = tm.id → k.stage ≠ .running) →
    (∀ c ∈ s.cmds, c.team = tm.id → c.stage = .running → c.fn ≠ .wld) →
    ∃ s', exec (.spillDone tm.id) s = .next (post s' (.teamBlocking tm.id (s.now + us50))) ∧ s'.mem = s.mem ∧
      (∀ t, findTrain s t.uid = some t → ∃ t', findTrain s' t.uid = some t' ∧ t' = { t with slots := t'.slots } ∧
        ∀ n, slotAt t' n = { slotAt t n with rcond := if t.team = tm.id ∧ t.prol = none then spilledConds (slotAt t n).rcond
          else (slotAt t n).rcond }) ∧
      ∃ tm', findTeam s' tm.id = some tm' ∧ tm'.life = .spilled ∧ tm'.scratch = tm.scratch ∧ tm'.bobjs = tm.bobjs ∧
        tm'.allocs = tm.allocs ∧ tm'.bars = tm.bars ∧ tm'.scond = spilledConds tm.scond ∧
        tm'.resv = tm.resv.map (fun r => { r with cond := spilledConds r.cond })) ∧
  (∀ off n tag, isBobj tm off = true → tag = (objOf tm off).phase →
    let o := objOf tm off
    let a := (o.arrived + n) % 2 ^ 32
    ∃ s' tm', exec (.redirectCount tm.id off n tag 0) s = .next s' ∧ findTeam s' tm.id = some tm' ∧ s'.mem = s.mem ∧
      objOf tm' off = if 0 < o.expected ∧ o.expected < o.arrived + n then ⟨0, 0, 9, !o.phase⟩
        else if 0 < o.expected ∧ a = o.expected then ⟨0, 0, 0, !o.phase⟩ else { o with arrived := a }) ∧
  (∀ off n code tag, code ≠ 0 → isBobj tm off = true → tag = (objOf tm off).phase →
    ∃ s' tm', exec (.redirectCount tm.id off n tag code) s = .next s' ∧ findTeam s' tm.id = some tm' ∧
      objOf tm' off = ⟨0, 0, code, !(objOf tm off).phase⟩) ∧
  (∀ core, tm.life = .restoring → tm.core = core → countsComing s tm.id = true →
    exec (.readmit tm.id core) s = .next (post s (.readmit tm.id core))) ∧
  (∀ core c, tm.life = .restoring → tm.core = core → countsComing s tm.id = false → imageFault tm = some c →
    exec (.readmit tm.id core) s = .next (killTeam (addErr (noteImage s tm core) { errRec 5 2 core tm.ctx with cause := c }) tm.id)) ∧
  (∀ core, tm.life = .restoring → tm.core = core → countsComing s tm.id = false → imageFault tm = none →
    ∃ s' tm', exec (.readmit tm.id core) s = .next s' ∧ findTeam s' tm.id = some tm' ∧ tm'.life = .resident ∧ tm'.core = core ∧
      tm'.scratch = tm.scratch ∧ tm'.bobjs = tm.bobjs ∧ tm'.allocs = tm.allocs ∧ s'.mem = s.mem ∧
      (∀ p, p.team ≠ tm.id → (p ∈ s'.redirects ↔ p ∈ s.redirects)) ∧
      (∀ d w, ⟨d, tm.id, w⟩ ∈ s'.redirects ↔ (w ≠ none ∧ ⟨d, tm.id, w⟩ ∈ s.redirects) ∨
        (⟨d, tm.id, none⟩ ∈ s.redirects ∧ w = some (engineWork s tm.id) ∧ engineWork s tm.id ≠ [])) ∧
      ∀ t, findTrain s t.uid = some t → t.team = tm.id → t.prol = none → ∃ t', findTrain s' t.uid = some t' ∧ t'.halted = false ∧
        t'.k = t.k ∧ t'.A = t.A ∧ t'.B = t.B ∧ ∀ n < t.slots.length, (slotAt t' n).regs = (slotAt t n).regs ∧
          ((slotAt t n).wait = .none → slotAt t' n = { slotAt t n with seen := (slotAt t' n).seen }))

/-- R358, R371: the packet at the head of a busy queue is processed once its wait flag lets it: when it completes the window
moves on, the read pointer moves past a packet of the ring and, after each packet of the ring, goes to rpub, and the next
window is fetched. It waits with a read pointer to publish for what the I/O die has queued; an exception stops the queue at
the packet. A queue that is to be unmapped begins none. R358, R362, R363, R366: NOP does nothing; IB, PRED and LOOP with good
fields complete, the arm of a PRED that is not taken being dead, once no write of the I/O die to the word is queued; FFENCE
waits for every earlier launch; a bad field raises packet exception 2, and a read that faults 6 or 7. That a write to rpub
that faults is dropped, and waits for what the I/O die has queued, are the model's readings (log 39). -/
def Obligations.PacketFlow : Prop :=
  ((∀ s slot q p rest, findQ s slot = some q → q.window = p :: rest →
      ∃ s2, s2 = { s with queues := s2.queues } ∧
        findQ s2 slot = some { q with busy := false, watch := none, window := rest, rptr := p.close.getD q.rptr } ∧
        pktDone s slot = post (
          if (p.close ≠ none ∨ (p.before.headD (ringFrame 0)).level = 0) ∧ q.rpub ≠ 0#64 then
            match feWrite s2 q.ctx 0 q.rpub.toNat (bytesN 8 (p.close.getD q.rptr)) with
            | .ok s3 => s3
            | .error _ => feMark s2 q.ctx 0 q.rpub.toNat 8
          else s2) (.packetWindowFetch slot)) ∧
    (∀ s slot q p rest, findQ s slot = some q → q.window = p :: rest → q.state = 1 → q.busy = true → p.err = 0 → q.frozen = true →
      ∀ x ∈ [(0, Instr.packetNop slot), (1, .packetLaunch slot), (2, .packetLaunch2 slot), (3, .packetIb slot), (4, .packetPred slot),
          (5, .packetLoop slot), (7, .packetWaitmem slot), (8, .packetWrite slot), (9, .packetSignalBobj slot),
          (9, .packetSignalWake slot)],
        bitsN p.hdr 0 8 = x.1 → exec x.2 s = .next (saveQueue s slot)) ∧
    (∀ s slot code c q, findQ s slot = some q → q.frozen = false →
      ∃ s1, s1 = { s with queues := s1.queues, trains := s1.trains } ∧
        findQ s1 slot = some { q with state := 3, fault := code, busy := false, watch := none } ∧
        (∀ t ∈ s1.trains, t ∈ s.trains) ∧ (∀ t ∈ s.trains, t.prol = none → t ∈ s1.trains) ∧
        packetFault s slot code c = addErr s1 { errRec 4 1 0xFF q.ctx with code := code, cause := c }) ∧
    (∀ s slot q p rest, findQ s slot = some q → q.window = p :: rest → q.state = 1 → q.busy = true → p.err = 0 → q.frozen = false →
      (bitsN p.hdr 24 1 = 1 ∧ q.launches ≠ []) ∨ (q.rpub ≠ 0#64 ∧ ioClear s = false) →
      ∀ x ∈ [(0, Instr.packetNop slot), (1, .packetLaunch slot), (2, .packetLaunch2 slot), (3, .packetIb slot), (4, .packetPred slot),
          (5, .packetLoop slot), (6, .packetFfence slot), (7, .packetWaitmem slot), (8, .packetWrite slot),
          (9, .packetSignalBobj slot), (9, .packetSignalWake slot)],
        bitsN p.hdr 0 8 = x.1 → exec x.2 s = .next (post s x.2)) ∧
    (∀ s slot q, findQ s slot = some q → q.state = 3 → q.frozen = false →
      ∀ i ∈ [Instr.packetNop slot, .packetLaunch slot, .packetLaunch2 slot, .packetIb slot, .packetPred slot, .packetLoop slot,
          .packetFfence slot, .packetWaitmem slot, .packetWrite slot, .packetSignalBobj slot, .packetSignalWake slot],
        exec i s = .next s)) ∧
  (∀ s slot q p, (∃ rest, AtHead s slot q p rest) →
    (bitsN p.hdr 0 8 = 0 → exec (.packetNop slot) s = .next (pktDone s slot)) ∧
    (bitsN p.hdr 0 8 = 3 → exec (.packetIb slot) s = .next (
      if bodyW p 0 % 8 = 0 ∧ bodyW p 1 < 2 ^ 32 ∧ 0 < bodyW p 1 then pktDone s slot else packetFault s slot 2 0)) ∧
    (bitsN p.hdr 0 8 = 5 → exec (.packetLoop slot) s = .next (
      if bodyW p 0 < 2 ^ 32 ∧ 0 < bodyW p 0 / 256 ∧ 0 < bodyW p 0 % 256 then pktDone s slot else packetFault s slot 2 0)) ∧
    (bitsN p.hdr 0 8 = 6 → exec (.packetFfence slot) s = .next (
      if q.launches = [] then pktDone s slot else post s (.packetFfence slot))) ∧
    (bitsN p.hdr 0 8 = 4 →
      let cond := bodyW p 2 % 16
      let good := bodyW p 0 % 8 = 0 ∧ bodyW p 2 / 16 % 2 ^ 12 = 0 ∧ cond ≤ 4
      (¬good → exec (.packetPred slot) s = .next (packetFault s slot 2 0)) ∧
      (good → feBehind s q.ctx 0 (bodyW p 0) 8 = true → exec (.packetPred slot) s = .next (post s (.packetPred slot))) ∧
      (∀ bs, good → feBehind s q.ctx 0 (bodyW p 0) 8 = false → feRead s q.ctx 0 (bodyW p 0) 8 = .ok bs →
        let v := leN bs
        let c := bodyW p 1
        let s1 := feNote s q.ctx 0 (bodyW p 0) 8
        let holds := (cond = 0 ∧ v = c) ∨ (cond = 1 ∧ v ≠ c) ∨ (cond = 2 ∧ v < c) ∨ (cond = 3 ∧ c ≤ v) ∨ (cond = 4 ∧ v &&& c ≠ 0)
        (holds → exec (.packetPred slot) s = .next (pktDone (modQ s1 slot (fun q => { q with dead := q.dead ++ [p.elseA] })) slot)) ∧
        (¬holds → exec (.packetPred slot) s = .next (pktDone (modQ s1 slot (fun q => { q with dead := q.dead ++ [p.thenA] })) slot))) ∧
      (∀ c, good → feBehind s q.ctx 0 (bodyW p 0) 8 = false → feRead s q.ctx 0 (bodyW p 0) 8 = .error c →
        exec (.packetPred slot) s = .next (packetFault (feNote s q.ctx 0 (bodyW p 0) 8) slot (if c / 32 = 4 then 7 else 6) c))))

/-- R251, R355, R359, R364: WAITMEM ends when its test holds, and otherwise watches the word, which a change or a poll reads
again; WRITE stores its value with the increments of its sector; either waits for what the I/O die has queued before it;
SIGNAL counts its bytes at an object, or makes a wake write. That front-end reads and writes wait for what the I/O die has
queued is the model's reading (log 39). -/
def Obligations.PacketAccesses : Prop := ∀ s slot q p, (∃ rest, AtHead s slot q p rest) →
  (bitsN p.hdr 0 8 = 7 → bodyW p 0 % 8 = 0 → bodyW p 2 ≤ 4 →
    ∀ kv : List (Nat × Nat), transNow s q.ctx 0 (bodyW p 0) 8 accRead = .ok kv →
      let s1 := feNote s q.ctx 0 (bodyW p 0) 8
      (ioBehind s (kv.map (·.1)) = true → exec (.packetWaitmem slot) s = .next (post s (.packetWaitmem slot))) ∧
      (∀ bs, ioBehind s (kv.map (·.1)) = false → readDie s 4 kv = .ok bs →
        let ks : List Nat := kv.map (·.1)
        let w := modQ s1 slot (fun q => { q with watch := some ks })
        let after := if predTest (bodyW p 2 % 16) (leN bs) (bodyW p 1) = true then pktDone s1 slot
          else if ks.all (fun (k : Nat) => decide (k < 2 ^ 52)) = true then w else post w (.waitmemRecheck slot (s.now + Config.us))
        exec (.packetWaitmem slot) s = .next after ∧
        (q.watch ≠ none → ∀ s0 due, atTime s0 due = s → exec (.waitmemRecheck slot due) s0 = .next after)) ∧
      (∀ d, ioBehind s (kv.map (·.1)) = false → readDie s 4 kv = .bad d → d < 32 → exec (.packetWaitmem slot) s = .next (packetFault s1 slot 7 (128 + d)))) ∧
  (bitsN p.hdr 0 8 = 8 → bodyW p 0 % 8 = 0 →
    (ioClear s = false → exec (.packetWrite slot) s = .next (post s (.packetWrite slot))) ∧
    ∀ kv, ioClear s = true → transNow s q.ctx 0 (bodyW p 0) 8 accWrite = .ok kv →
      let sects := (sectorsOf q.ctx 0 (bodyW p 0) 8).take 1
      let put := putHome s ⟨0xFF, q.ctx, 0⟩ kv (bytesN 8 (bodyW p 1)) sects
      ((∀ x ∈ kv, aget HalfCond.clean s.mcond (x.1 / 32) ≠ .bad) → exec (.packetWrite slot) s = .next (pktDone put slot)) ∧
      ((∃ x ∈ kv, aget HalfCond.clean s.mcond (x.1 / 32) = .bad) →
        exec (.packetWrite slot) s = .next (packetFault (feMark s q.ctx 0 (bodyW p 0) 8) slot 7 129)) ∧
      (∀ ver, kv ≠ [] → (∀ x ∈ kv, x.2 = ver ∧ (aget 0 s.mkey (x.1 / 64) = 0 ∨ aget 0 s.mkey (x.1 / 64) = ver)) →
        (∀ x ∈ sects, ∀ c, findCtx s x.1 = some c → c.nodes = []) →
        ∀ a, cget put.mem a = cget (csetAt s.mem ((kv.map (·.1)).zip (bytesN 8 (bodyW p 1)))) a)) ∧
  (bitsN p.hdr 0 8 = 8 → bodyW p 0 % 8 ≠ 0 → exec (.packetWrite slot) s = .next (packetFault s slot 2 0)) ∧
  (bitsN p.hdr 0 8 = 9 →
    let kind := bodyW p 0 / 2 ^ 62 % 4
    let core := bodyW p 0 / 2 ^ 54 % 256
    let tslot := bodyW p 0 / 2 ^ 48 % 64
    let off := bodyW p 0 % 2 ^ 23
    (kind = 0 → bodyW p 0 / 2 ^ 23 % 2 ^ 25 = 0 → bodyW p 1 < 2 ^ 32 →
      (∀ tm, signalTeam s q.ctx core tslot off = some tm → exec (.packetSignalBobj slot) s =
        .next (pktDone (objCountNow s tm.id off (bodyW p 1) (objOf tm off).phase) slot)) ∧
      (signalTeam s q.ctx core tslot off = none → exec (.packetSignalBobj slot) s = .next (packetFault s slot 13 0))) ∧
    (kind = 0 → 2 ^ 32 ≤ bodyW p 1 → exec (.packetSignalBobj slot) s = .next (packetFault s slot 2 0)) ∧
    (kind = 1 → exec (.packetSignalWake slot) s = .next (
      if bodyW p 0 % 2 ^ 62 < 512 then pktDone (wakeQueue s q.ctx (bodyW p 0 % 512) (bodyW p 1)) slot else packetFault s slot 2 0)))

/-- R342, R360, R361, R368 to R370, R372: a LAUNCH that passes its checks is accepted and one that fails raises packet
exception 8; a LAUNCH2 begins a prologue in a free unit; 4,096 instructions without an end are a runaway; a device launch is
made from its descriptor, or rejected with a record. -/
def Obligations.LaunchPackets : Prop :=
  (∀ s slot q p, (∃ rest, AtHead s slot q p rest) →
    (bitsN p.hdr 0 8 = 1 →
      (∀ s1, acceptLaunch s q.ctx q.prio (some slot) (bytesOf p.body) = .ok s1 →
        exec (.packetLaunch slot) s = .next (pktDone s1 slot)) ∧
      (∀ c, acceptLaunch s q.ctx q.prio (some slot) (bytesOf p.body) = .error c →
        exec (.packetLaunch slot) s = .next (packetFault s slot 8 c))) ∧
    (bitsN p.hdr 0 8 = 2 →
      (bodyW p 0 % 4 ≠ 0 → exec (.packetLaunch2 slot) s = .next (packetFault s slot 2 0)) ∧
      (bodyW p 0 % 4 = 0 → 4 ≤ (s.trains.filter (fun t => t.prol.isSome)).length →
        exec (.packetLaunch2 slot) s = .next (post s (.packetLaunch2 slot))) ∧
      (bodyW p 0 % 4 = 0 → (s.trains.filter (fun t => t.prol.isSome)).length < 4 → ∃ t,
        exec (.packetLaunch2 slot) s = .next { s with trains := s.trains ++ [t], nextId := s.nextId + 1 } ∧ t.uid = s.nextId ∧
        t.prol = some (slot, bodyW p 0, 0, 0) ∧ t.slots.length = 32 ∧ (slotAt t 0).st = .ready ∧ (slotAt t 0).pc = 0#40 ∧
        (∀ i < 16, i + 1 < p.body.length → cget t.k i = p.body.getD (i + 1) 0#64) ∧ (slotAt t 0).areg = [] ∧
        ∀ n, 0 < n → n < 32 → (slotAt t n).st = .absent))) ∧
  (∀ s t slot entry n m, findTrain s t.uid = some t → t.prol = some (slot, entry, n, m) →
    exec (.prologueRunaway t.uid) s = .next (if m < 4096 then s else packetFault s slot 11 0)) ∧
  (∀ s c (v : Word) prio rest, findCtx s c.num = some c → c.dlq = (v, prio) :: rest →
    ∃ s1, s1 = { s with ctxs := s1.ctxs, trains := s1.trains } ∧ findCtx s1 c.num = some { c with dlq := rest } ∧
      let s1n := feNote s1 c.num 0 v.toNat 128
      (∀ bs s2, feRead s1n c.num 0 v.toNat 128 = .ok bs → acceptLaunch s1n c.num prio none bs = .ok s2 →
        exec (.dlaunchProcess c.num) s = .next s2) ∧
      (∀ bs e, feRead s1n c.num 0 v.toNat 128 = .ok bs → acceptLaunch s1n c.num prio none bs = .error e →
        exec (.dlaunchProcess c.num) s = .next (addErr s1n { errRec 12 1 0xFF c.num with code := 8, cause := e }))) ∧
  (∀ s ctx prio origin bs s', ctxClosing s ctx = false → acceptLaunch s ctx prio origin bs = .ok s' →
    wordAt bs 0 % 64 = 0 ∧ wordAt bs 1 < 2 ∧ wordAt bs 2 % 8 = 0 ∧ s'.mem = s.mem ∧ s'.trains = s.trains ∧ s'.teams = s.teams ∧
    ∃ l kb k, s'.launches = s.launches ++ [l] ∧ feRead s ctx 0 (wordAt bs 0) 384 = .ok kb ∧ kDesc kb = some k ∧ l.id = s.nextId ∧
      l.ctx = ctx ∧ l.cbase = k.cbase ∧ l.stages = k.stages ∧ l.prio = prio ∧ l.dadr.toNat = wordAt bs 2 ∧ l.dval.toNat = wordAt bs 3 ∧
      (l.done = true ↔ wordAt bs 1 = 1) ∧ (∀ x ∈ l.counts, x ≠ 0) ∧
      (∀ i < k.nargs, l.args[i]? = some (BitVec.ofNat 64 (wordAt bs (8 + i)))) ∧
      (k.debug = true → (findCtx s ctx).map (·.budget.debug) = some true))

/-- R355, R358, R365, R373, R375: a wake of the context's own mapped slot raises wptr and has the window fetched; of another
it is dropped with a record; a saved queue takes it in its descriptor. A window that is fetched begins its first packet, or
raises its exception; nothing begins while a packet is being processed. R354, R358, R363, R365: the fetcher reads a packet of
the ring at its position once it lies below wptr whole: a reserved type is at fault with code 1, a reserved bit or a wrong
length with code 2; a good packet's words are those that memory holds, and one that ends in the ring leaves its end as the
new read pointer. R357: at most 64 queues are served; a queue that has something to process keeps its place, and one without
a place gets one where there is one. Without a place its events do not come. Which queues are served, and when one gives its
place up, is the model's reading (log 36). -/
def Obligations.WakesAndWindows : Prop :=
  ((∀ s ctx slot (v : Word), (∀ q, findQ s slot = some q → q.ctx ≠ ctx ∨ q.state = 0) →
      exec (.wakeWrite ctx slot v) s = .next (addErr s (errRec 10 0 0xFF ctx))) ∧
    (∀ s slot (v : Word) q, findQ s slot = some q →
      let s1 := modQ s slot (fun q => { q with wptr := max q.wptr v.toNat })
      (q.state = 1 → q.frozen = false → exec (.wakeWrite q.ctx slot v) s =
        .next (if q.busy = true then s1 else postOnce s1 (.packetWindowFetch slot))) ∧
      (q.state = 3 → q.frozen = false → exec (.wakeWrite q.ctx slot v) s = .next s1) ∧
      (q.frozen = true → q.state = 1 ∨ q.state = 3 → exec (.wakeWrite q.ctx slot v) s =
        .next (modQ s slot (fun q => { q with heldWakes := q.heldWakes ++ [v.toNat] }))) ∧
      (q.state = 2 → exec (.wakeWrite q.ctx slot v) s =
        .next (savedWake (modQ s slot (fun q => { q with wptr := max q.wptr v.toNat, pend := true })) q v.toNat))) ∧
    (∀ s slot q, findQ s slot = some q →
      (q.busy = true → exec (.packetWindowFetch slot) s = .next s) ∧
      (q.busy = false → q.frozen = true → exec (.packetWindowFetch slot) s = .next (saveQueue s slot)) ∧
      (q.busy = false → q.frozen = false → q.state = 1 → ∀ s1 q1, refill s slot (q.wptr + 64) = s1 → findQ s1 slot = some q1 →
        let s2 := modQ s1 slot (fun q => { q with busy := true })
        (q1.window = [] → exec (.packetWindowFetch slot) s = .next s1) ∧
        (∀ p rest, q1.window = p :: rest → p.err ≠ 0 →
          exec (.packetWindowFetch slot) s = .next (packetFault s2 slot p.err p.cause)) ∧
        (∀ p rest, q1.window = p :: rest → p.err = 0 → ∀ x ∈ [(0, Instr.packetNop slot), (1, .packetLaunch slot),
          (2, .packetLaunch2 slot), (3, .packetIb slot), (4, .packetPred slot), (5, .packetLoop slot), (6, .packetFfence slot),
          (7, .packetWaitmem slot), (8, .packetWrite slot)],
          bitsN p.hdr 0 8 = x.1 → exec (.packetWindowFetch slot) s = .next (post s2 x.2))))) ∧
  (∀ s q pos a b h, q.stack = [ringFrame pos] →
    let at_ := fun (i : Nat) => (q.base.toNat + 8 * i % 2 ^ q.z) % 2 ^ 64
    (q.wptr ≤ pos → fetchPkt s q a b = none) ∧
    (pos < q.wptr → ∀ bs, feRead s q.ctx q.span (at_ pos) 8 = .ok bs → leN bs = h →
      let ty := h % 256
      let n := h / 256 % 2 ^ 16
      (9 < ty → pos + 1 + n ≤ q.wptr → ∃ p st k, fetchPkt s q a b = some (p, st, k) ∧ p.err = 1) ∧
      (ty ≤ 9 → pos + 1 + n ≤ q.wptr → h / 2 ^ 25 % 2 ^ 39 ≠ 0 ∨ (ty ≠ 0 ∧ n ≠ bodyLen ty) → ∃ p st k, fetchPkt s q a b = some (p, st, k) ∧ p.err = 2) ∧
      (q.wptr < pos + 1 + n → fetchPkt s q a b = none) ∧
      (ty ≤ 9 → h / 2 ^ 25 % 2 ^ 39 = 0 → (ty ≠ 0 → n = bodyLen ty) →
        (pos + 1 + n ≤ q.wptr → (ty = 0 ∨ ty = 1 ∨ ty = 2 ∨ 6 ≤ ty) → ∀ ws : List Word, (ty ≠ 0 → ws.length = n) →
          (ty = 0 → ws = []) →
          (ty ≠ 0 → ∀ i < n, ∃ bs, feRead s q.ctx q.span (at_ (pos + 1 + i)) 8 = .ok bs ∧ ws.getD i 0#64 = BitVec.ofNat 64 (leN bs)) →
          ∃ p k, fetchPkt s q a b = some (p, [ringFrame (pos + 1 + n)], k) ∧ p.hdr = h ∧ p.body = ws ∧ p.err = 0 ∧
            p.close = some (pos + 1 + n))))) ∧
  (∀ s, s.served.length ≤ 64 →
    let s' := serve s
    s'.served.length ≤ 64 ∧ (∀ n q, findQ s n = some q → queueRuns s q = true →
      (n ∈ s.served → n ∈ s'.served) ∧ (n ∈ s'.served ∨ s'.served.length = 64)) ∧
    ∀ i n q k, eventQueue i = some n → findQ s' n = some q → queueRuns s' q = true → n ∉ s'.served → s'.agenda[k]? = some i →
      .agenda k ∉ options s')

/-- R354, R355, R373, R374: each queue request of the mailbox completes. A descriptor that is in order is loaded into a free
slot, its queue woken when something is to be processed; a remap asks besides that it was saved; one that is not in order is
refused, and the host told so. Unmapping freezes a slot that processes a packet, and saves one that does not. That the host
names the slot, and that an unmap of a slot that is not mapped does nothing, are the model's choices (log 43). The resume
word of a queue inside a packet is free (log 24), and the form in which a failure is reported is the model's (log 58). -/
def Obligations.QueueMapping : Prop := ∀ s, s.booted = true →
  (∀ c (desc : Word) slot bs q, findCtx s c.num = some c → desc.toNat % 64 = 0 → slot < 512 →
    (∀ o ∈ s.queues, o.slot ≠ slot ∧ (o.ctx ≠ c.num ∨ o.desc ≠ desc)) →
    feRead s c.num 0 desc.toNat 64 = .ok bs → queueOf c desc slot bs = some q →
    let loaded := fun (s' : State) => findQ s' slot = some q ∧ q.ctx = c.num ∧ q.desc = desc ∧ q.state = 1 ∧
      q.pend = false ∧ q.frozen = false ∧ q.rptr = wordAt bs 2 ∧ q.wptr = wordAt bs 3 ∧ q.prio ≤ c.budget.dprio.toNat ∧
      (∀ o, o ≠ slot → findQ s' o = findQ s o) ∧ s'.trains = s.trains ∧
      ((wordAt bs 4) % 2 = 1 ∨ q.rptr < q.wptr → .packetWindowFetch slot ∈ s'.agenda)
    (∃ s', exec (.queueMap c.num desc slot) s = .next s' ∧ loaded s') ∧
    (wordAt bs 4 / 2 % 4 = 2 → ∃ s', exec (.queueRemap c.num desc slot) s = .next s' ∧ loaded s') ∧
    (wordAt bs 4 / 2 % 4 ≠ 2 → exec (.queueRemap c.num desc slot) s = .next (mapFailed s))) ∧
  (∀ c (desc : Word) slot bs, findCtx s c.num = some c → desc.toNat % 64 = 0 → slot < 512 →
    (∀ o ∈ s.queues, o.slot ≠ slot ∧ (o.ctx ≠ c.num ∨ o.desc ≠ desc)) →
    feRead s c.num 0 desc.toNat 64 = .ok bs → queueOf c desc slot bs = none →
    ∀ i ∈ [Instr.queueMap c.num desc slot, .queueRemap c.num desc slot],
      exec i s = .next (mapFailed (feNote s c.num 0 desc.toNat 64))) ∧
  (∀ ctx (desc : Word) slot, findCtx s ctx = none ∨ desc.toNat % 64 ≠ 0 ∨ 512 ≤ slot ∨
      (∃ o ∈ s.queues, (o.slot = slot ∨ (o.ctx = ctx ∧ o.desc = desc)) ∧ o.state ≠ 2) ∨ (∃ e, feRead s ctx 0 desc.toNat 64 = .error e) →
    ∀ i ∈ [Instr.queueMap ctx desc slot, .queueRemap ctx desc slot], exec i s = .next (mapFailed s)) ∧
  (∀ c (desc : Word) slot bs, wordAt bs 0 % 2 ^ (wordAt bs 1 / 2 ^ 32 % 256) ≠ 0 ∨ wordAt bs 1 / 2 ^ 40 % 256 ≠ 0 ∨
    wordAt bs 1 / 2 ^ 19 % 2 ^ 13 ≠ 0 ∨ wordAt bs 1 / 2 ^ 9 % 2 ^ 7 ≠ 0 ∨ wordAt bs 4 / 2 ^ 16 % 2 ^ 48 ≠ 0 ∨ wordAt bs 4 / 8 % 32 ≠ 0 ∨
    c.budget.dprio.toNat < wordAt bs 1 / 2 ^ 16 % 8 → queueOf c desc slot bs = none) ∧
  (∀ slot q, findQ s slot = some q →
    (q.state = 1 ∨ q.state = 3 → q.busy = true → q.watch = none → exec (.queueUnmap slot) s =
      .next (modQ s slot (fun q => { q with frozen := true }))) ∧
    (q.state = 1 ∨ q.state = 3 → q.busy = false ∨ q.watch ≠ none → exec (.queueUnmap slot) s = .next (saveQueue s slot)) ∧
    (q.state = 0 ∨ q.state = 2 → exec (.queueUnmap slot) s = .next s) ∧
    (∀ q1, findQ (passDead s slot) slot = some q1 → q1.heldWakes = [] → ((findCtx s q.ctx).map (·.closing)).getD false = false →
      findQ (saveQueue s slot) slot = some { q1 with
        state := 2, stack := standing0 q1, window := [], stuck := false, frozen := false, busy := false, watch := none }) ∧
    (q.window = [] → q.stack = [ringFrame q.rptr] → passDead s slot = s) ∧
    (saveQueue s slot).trains = s.trains) ∧
  (∀ slot, findQ s slot = none → exec (.queueUnmap slot) s = .next s)

/-- R4, R31, R384, R386, R393, R394, R398, R447, R455: the mailbox makes a context of a free number with a ring that fits:
the pages that it is handed are zeroed, its node table is mapped read-only, with the tables on the way, and the host told
where. It writes its budget, and stops, suspends and resumes it. A context that is torn down leaves no launch; its queues are
saved once the packet in progress has ended, its teams are killed, and with nothing of it under way it goes with its
translations and its keys. That a request whose number is out of range or taken, or whose ring does not fit, does nothing,
and that the request gives the place of the node table, are the model's choices (log 43); so are a context's budget where
none is given, the form of the answer, and that too few pages for tables make nothing (logs 57 and 58); which pages another
context gave up is log 59's. -/
def Obligations.ContextRequests : Prop := ∀ s, s.booted = true →
  (∀ c : CtxSpec, c.num < 128 → findCtx s c.num = none → ringFits c = true →
    let x := newCtx c
    let s0 := zeroPages s (createHit s c) ({ nodePages x with key := c.nodeKey % 1024 } :: ctxPages s x)
    let made := mapNodes x c.nodeOff c.nodeKey (List.range ((32 * x.nmax + 65535) / 65536)) s0 c.tabs
    (made = none → exec (.contextCreate c) s = .next s) ∧
    (∀ s1, made = some s1 → ∃ s', exec (.contextCreate c) s = .next s' ∧ findCtx s' c.num = some x ∧ s'.ctxs = s.ctxs ++ [x] ∧
      s'.reports = (if x.nmax = 0 then s.reports else s.reports ++ [bytesN 8 (c.nodeOff / 65536 * 65536)]) ∧
      (∀ a, cget s'.mem a ≠ cget s1.mem a → x.nodePa ≤ a ∧ a < x.nodePa + 32 * x.nmax) ∧
      ∀ n < x.nmax, cgetAll s'.mem (x.nodePa + 32 * n) 32 = nodeBytes Node.free) ∧
    (∀ a, cget s0.mem a = if createHit s c (a / 65536) = true then 0#8 else cget s.mem a) ∧
      x.num = c.num ∧ x.nmax = min c.nmax 65535 ∧ x.budget = (c.budget.getD Budget.whole).fit ∧ x.oskey = c.oskey ∧ x.spanPa = c.spanPa ∧ x.owner = c.owner ∧ x.lastSeq = 0 ∧
      x.dlq = [] ∧ x.stopped = false ∧ x.suspended = false ∧ x.stall = 0 ∧ (∀ i, x.thand.getLsbD i = (c.thand.getLsbD i && decide (2 ≤ i ∧ i ≤ 40))) ∧
      x.nodePa = c.nodePa / 65536 * 65536) ∧
  (∀ (x : Ctx) s1 page pa key tabs, let e := spanEntry s1 x 0
    let leaf := fun (r : State × Nat × List Nat) => (poke r.1 r.2.1 (bytesN 8 (readLeaf pa key)), r.2.2)
    (e % 8 = 1 → mapPage s1 x page pa key tabs = (makeTables s1 page [0, 1, 2] (e / 2 ^ 80 % 2 ^ 36 * 65536) tabs).map leaf) ∧
    (e % 8 = 0 → x.spanLen ≠ 0 → ∀ t ts, tabs = t :: ts → mapPage s1 x page pa key tabs = (makeTables
      (poke s1 x.spanPa (bytesN 16 (t / 65536 * 2 ^ 80 + 1))) page [0, 1, 2] (t / 65536 * 65536) ts).map leaf) ∧
    (1 < e % 8 ∨ (e % 8 = 0 ∧ (x.spanLen = 0 ∨ tabs = [])) → mapPage s1 x page pa key tabs = none)) ∧
  (∀ s1 page lv ls tbl tabs, let at_ := tbl + 8 * (page / leafPages lv % 4096)
    let e := peekN s1 at_ 8
    makeTables s1 page [] tbl tabs = some (s1, tbl + 8 * (page % 4096), tabs) ∧
    (e % 4 = 1 → makeTables s1 page (lv :: ls) tbl tabs = makeTables s1 page ls (e / 2 ^ 16 % 2 ^ 36 * 65536) tabs) ∧
    (e % 2 = 0 → ∀ t ts, tabs = t :: ts → makeTables s1 page (lv :: ls) tbl tabs =
      makeTables (poke s1 at_ (bytesN 8 (t / 65536 * 65536 + 1))) page ls (t / 65536 * 65536) ts) ∧
    (e % 4 = 3 ∨ (e % 2 = 0 ∧ tabs = []) → makeTables s1 page (lv :: ls) tbl tabs = none)) ∧
  (∀ c : CtxSpec, 128 ≤ c.num ∨ findCtx s c.num ≠ none ∨ ringFits c = false → exec (.contextCreate c) s = .next s) ∧
  (∀ c, findCtx s c.num = some c →
    (∀ b, ∃ s', exec (.budgetWrite c.num b) s = .next s' ∧ findCtx s' c.num = some { c with budget := b.fit } ∧
      s' = { s with ctxs := s'.ctxs, agenda := s'.agenda } ∧ ∀ d < 4, .admissionDecision d ∈ s'.agenda) ∧
    exec (.contextStop c.num) s = .next (modCtx s c.num (fun c => { c with stopped := true })) ∧
    (∃ s', exec (.contextSuspend c.num) s = .next s' ∧ findCtx s' c.num = some { c with stopped := true, suspended := true } ∧
      s'.mem = s.mem ∧ s'.trains = s.trains ∧
      ∀ tm ∈ s.teams, tm.ctx = c.num → tm.life ≠ .spilled → tm ∈ formTeams s tm → .preemptRequest tm.id ∈ s'.agenda) ∧
    (∃ s', exec (.contextResume c.num) s = .next s' ∧ findCtx s' c.num = some { c with stopped := c.closing, suspended := false } ∧
      s' = { s with ctxs := s'.ctxs, agenda := s'.agenda } ∧ ∀ d < 4, .admissionDecision d ∈ s'.agenda) ∧
    ((∀ q ∈ s.queues, ∀ o ∈ s.queues, q.slot = o.slot → q = o) →
      ∃ s', exec (.contextTeardown c.num) s = .next s' ∧
      (∀ l ∈ s'.launches, l.ctx ≠ c.num) ∧ (∀ tm ∈ s'.teams, tm.ctx = c.num → tm.isDying = true) ∧
      (∀ q ∈ s'.queues, q.ctx = c.num → q.frozen = true ∧ q.busy = true ∧ q.watch = none) ∧
      (∀ x, findCtx s' c.num = some x → x.closing = true ∧ x.stopped = true ∧ x.dlq = []) ∧
      ((∀ q ∈ s.queues, q.ctx = c.num → q.busy = false ∨ q.watch ≠ none) →
        (∀ tm ∈ s.teams, tm.ctx = c.num → (∀ k ∈ s.cmds, k.team = tm.id → cmdStarted k = false) ∧
          ∀ k ∈ s.tasks, k.team = tm.id → k.stage ≠ .running ∨ k.units = []) →
        findCtx s' c.num = none ∧ (∀ q ∈ s'.queues, q.ctx ≠ c.num) ∧ (∀ tm ∈ s'.teams, tm.ctx ≠ c.num) ∧
        (∀ w ∈ s'.walks, w.ctx ≠ c.num) ∧
        (∀ slot, afind s.keyCtx slot = some c.num → afind s'.keys slot = none ∧ afind s'.keyCtx slot = none) ∧ ∀ k, (∀ e ∈ (coreOf s' k).tlb, e.ctx ≠ c.num) ∧ ∀ e ∈ (coreOf s' k).etlb, e.ctx ≠ c.num)))

/-! The host, errors, repairs and ageing (R434 to R458). -/

/-- R14, R26, R30, R434, R440: bring-up stops where an image does not verify, and every request to the mailbox is then
answered with the image; otherwise it sets the device up: no core has fewer than 28 good lanes or less than 7 MiB of store,
and no latency lies below its reference. R431, R435, R436, R438, R439, R441, R443: a key message that meets the conditions
loads its slot, once no access translated under the key that stood is under way, and what was translated through it is
forgotten; any other leaves the slot as it was. A report holds the measurement, the nonce and the state of the dies. A host
or peer access comes after the far side's own writes; a read is served as the I/O die reads, a write goes out by its lines,
and an atomic reads and writes at the home at once. The host's accesses end as the model reads them (log 42): zeros for a
wake register, answers among the reports, reads behind the far side's own writes, atomics at the home at once; the numbers of
far locations are its own (log 2). The places of a report's open bytes and the firmware's values are the model's (logs 18 and
19). -/
def Obligations.BringUpAndHost : Prop :=
  (∀ s,
    match failedImage with
    | some i => exec .deviceBoot s = .next s ∧ ∀ ctx (spec : CtxSpec) bud on n (m : KeyMsg) nonce (desc : Word) slot,
      s.booted = false → ∀ ins ∈ [Instr.contextCreate spec, .budgetWrite ctx bud, .keySlotLoad m, .attestationReport nonce, .auditSet ctx on n,
        .queueMap ctx desc slot, .queueUnmap slot, .queueRemap ctx desc slot, .contextStop ctx, .contextSuspend ctx,
        .contextResume ctx, .contextTeardown ctx],
        exec ins s = .next { s with reports := s.reports ++ [[BitVec.ofNat 8 i]] }
    | none => ∃ s', exec .deviceBoot s = .next s' ∧ s'.booted = true ∧ s'.mem = s.mem ∧ s'.ctxs = s.ctxs ∧ s'.keys = s.keys ∧
      s'.memAlive = trainedDies 4 ∧ s'.corAlive = trainedDies 5 ∧
      s'.measure.length = 64 ∧ s'.encKey.length = 1184 ∧
      ∀ c < 224, 28 ≤ goodLanes (coreOf s' c) ∧ 7340032 ≤ oscap (coreOf s' c) ∧
        (coreOf s' c).ctime.toNat / 2 ^ 56 = goodLanes (coreOf s' c) ∧
        (∀ f ∈ ctimeFields, f.2.2 ≤ fld (coreOf s' c).ctime f.1 f.2.1) ∧ fld (marginOf s' c) 12 4 ≠ 0) ∧
  ((∀ s (m : KeyMsg) c, s.booted = true → findCtx s m.ctx = some c →
      (m.slot < 1024 → c.lastSeq < m.seq → match keyOf c.owner m with
      | none => exec (.keySlotLoad m) s = .next s
      | some key =>
        let s1 := tlbPurge s (fun e => leafKey e.leaf == m.slot)
        (keyInUse s (keyVersion s m.slot) = true → exec (.keySlotLoad m) s = .next (post s1 (.keySlotLoad m))) ∧
        (keyInUse s (keyVersion s m.slot) = false →
          ∃ s', exec (.keySlotLoad m) s = .next s' ∧ findCtx s' m.ctx = some { c with lastSeq := m.seq } ∧ s'.mem = s.mem ∧
            s'.keys = aset s.keys m.slot (key.toNat + 1) ∧ afind s'.keyCtx m.slot = some m.ctx ∧ s'.trains = s.trains) ∧
        ∀ k e, (e ∈ (coreOf s1 k).tlb ↔ e ∈ (coreOf s k).tlb ∧ leafKey e.leaf ≠ m.slot) ∧
          (e ∈ (coreOf s1 k).etlb ↔ e ∈ (coreOf s k).etlb ∧ leafKey e.leaf ≠ m.slot)) ∧
      (1024 ≤ m.slot ∨ m.seq ≤ c.lastSeq → exec (.keySlotLoad m) s = .next s)) ∧
    (∀ s (nonce : BitVec 256), s.booted = true → s.measure.length = 64 →
      ∃ bs, exec (.attestationReport nonce) s = .next { s with reports := s.reports ++ [bs] } ∧ bs.take 64 = s.measure ∧
        leN ((bs.drop 64).take 32) = nonce.toNat ∧ (bs.drop 96).take 4 = (List.range 4).map Config.firmwareVersion ∧
        (bs.getD 100 0#8).toNat = s.memAlive.toNat * 16 + s.corAlive.toNat ∧
        bs.drop 104 = (List.range 3309).map (Config.signByte (bs.take 104))) ∧
    (∀ s (a : HostAcc), a.op = .wakeRead → exec (.hostAccess a) s = .next (hostReply s (bytesN 8 0))) ∧
    (∀ s (a : HostAcc) kv, hostLocs s a = some kv →
      (∀ bs, a.op = .read → hostBehind s kv false = false → readDie s 4 kv = .ok bs →
        exec (.hostAccess a) s = .next { s with reports := s.reports ++ [bs] }) ∧
      (a.op = .read → hostBehind s kv false = true → exec (.hostAccess a) s = .next (post s (.hostAccess a))) ∧
      (∀ d, a.op = .write d → exec (.hostAccess a) s = .next (hostPut s a kv d)) ∧
      (∀ op w v c bs, a.op = .atom op w v c → a.off.toNat % atomBytes w = 0 → hostBehind s kv true = false → readHome s kv = .ok bs →
        exec (.hostAccess a) s = .next (hostReply (hostAtom s a kv (bytesN (atomBytes w) (atomNew op w (leN bs) v.toNat c.toNat))) bs)) ∧
      (∀ i, a.own = true → i < hostSize a → kv.getD i (0, 0) = ((if a.port < 2 then 1 + a.port else 14 + a.port) * 2 ^ 52 +
        (a.off.toNat + i) % 2 ^ 52, 0))))

/-- R446, R447: the oldest record takes the next sequence number and goes to its context's ring, where one that the host has
not read is not written over: the new one is lost and counted. A held record goes out after 1 ms with its count. R437: a
remote access that a link could not deliver in time: a load fails at its slot with 4:1 and writes nothing, a store is dropped
with a record of kind 8, a command fails with code 2 for its source or 11 for its destination, and a waitw that polls far
memory fails at its slot. How the host marks a record read is the model's (log 26). -/
def Obligations.ErrorRecords : Prop :=
  ((∀ s, s.errs = [] → exec .errorRecordPost s = .next s) ∧
    (∀ s e rest, s.errs = e :: rest →
      let s1 := { s with errs := rest, seq := s.seq + 1 }
      let s2 := match findCtx s e.ctx with
        | some c => ringPut s1 c (recBytes e s.seq)
        | none => s1
      exec .errorRecordPost s = .next (if s2.errs = [] then s2 else postOnce s2 .errorRecordPost)) ∧
    (∀ s c bs, c.ringRecs ≠ 0 →
      let idx := c.ringOff.toNat + 64 * c.ringRecs
      let w := policyRead s c.num idx 8
      let at_ := c.ringOff.toNat + 64 * (w % c.ringRecs)
      ringPut s c bs = if policyRead s c.num at_ 8 = 0 then policyPut (policyPut s c.num at_ bs) c.num idx (bytesN 8 (w + 1))
        else policyPut s c.num (idx + 8) (bytesN 8 (policyRead s c.num (idx + 8) 8 + 1))) ∧
    (∀ (e : ErrRec) seq, e.kind < 256 → e.sev < 4 → e.socket < 32 → e.core < 256 → e.ctx < 256 → e.cause < 512 → e.span < 65536 →
      e.unit < 65536 → e.code < 2 ^ 32 → e.time < 2 ^ 64 → seq < 2 ^ 64 →
      let b := recBytes e seq
      b.length = 64 ∧ wordAt b 0 / 2 ^ 56 = e.kind ∧ wordAt b 0 / 2 ^ 54 % 4 = e.sev ∧ wordAt b 0 / 2 ^ 43 % 32 = e.socket ∧
        wordAt b 0 / 2 ^ 32 % 256 = e.core ∧ wordAt b 0 / 2 ^ 16 % 256 = e.ctx ∧ wordAt b 0 % 512 = e.cause ∧
        wordAt b 1 = e.addr.toNat ∧ wordAt b 2 / 2 ^ 48 = e.span ∧ wordAt b 2 / 2 ^ 32 % 65536 = e.unit ∧
        wordAt b 2 % 2 ^ 32 = e.code ∧ wordAt b 3 = e.time ∧ wordAt b 4 = seq ∧ ∀ i < 3, wordAt b (5 + i) = (e.detail.getD i 0#64).toNat) ∧
    (∀ s h, s.held.find? (fun x => x.unit == h.unit && x.due == h.due) = some h →
      let s1 := atTime s h.due
      exec (.correctedRecordFlush h.unit h.due) s = .next (postOnce { s1 with
        held := s.held.filter (fun x => !(x.unit == h.unit && x.due == h.due))
        errs := s.errs ++ [{ h.body with detail := [BitVec.ofNat 64 h.count] }] } .errorRecordPost)) ∧
    (∀ s unit (e : ErrRec), (∀ h ∈ s.held, h.unit = unit → h.due ≤ s.now) →
      ∃ h, corrected s unit e = post { s with held := s.held ++ [h] } (.correctedRecordFlush unit h.due) ∧ h.unit = unit ∧ h.count = 1 ∧
        h.due = s.now + 1000 * Config.us ∧ h.body = { e with kind := 1, sev := 0, time := s.now / Config.us }) ∧
    (∀ s unit (e : ErrRec), (∃ h ∈ s.held, h.unit = unit ∧ s.now < h.due) → corrected s unit e =
      { s with held := s.held.map (fun h => if h.unit = unit ∧ s.now < h.due then { h with count := h.count + 1 } else h) })) ∧
  ((∀ s r, findReq s r.id = some r → (∃ k ∈ r.keys, 2 ^ 52 ≤ k) → r.stage ≠ .applied → r.replied = false →
      let s1 := { s with xings := s.xings.map (fun p => (p.1, p.2.filter (fun x => decide (x ≠ .write r.id)))) }
      (∀ d ty, r.kind = .load d ty none → exec (.remoteAccessTimeout r.id) s = .next (lateFault s1 r 129)) ∧
      (∀ x, r.kind = .store x → r.core < 224 → ∃ s', exec (.remoteAccessTimeout r.id) s = .next s' ∧ findReq s' r.id = none ∧ s'.mem = s.mem ∧
        s'.trains = s.trains ∧ ∃ e ∈ s'.errs, e.kind = 8 ∧ e.sev = 1 ∧ e.core = r.core ∧ e.ctx = r.ctx ∧ e.cause = 129)) ∧
    (∀ s c tm, findReq s c.id = none → findCmd s c.id = some c → findTeam s c.team = some tm →
      (c.stage = .running → (∃ sp ∈ (cmdSpans c).1, farSpan s tm.ctx sp = true) → (∃ sp ∈ (cmdSpans c).2, farSpan s tm.ctx sp = true) →
        exec (.remoteAccessTimeout c.id) s = .next (post s (.commandFail c.id 2)) ∨
        exec (.remoteAccessTimeout c.id) s = .next (post s (.commandFail c.id 11))) ∧
      (c.stage = .running → (∃ sp ∈ (cmdSpans c).1, farSpan s tm.ctx sp = true) → (∀ sp ∈ (cmdSpans c).2, farSpan s tm.ctx sp = false) →
        exec (.remoteAccessTimeout c.id) s = .next (post s (.commandFail c.id 2))) ∧
      (c.stage = .running → (∀ sp ∈ (cmdSpans c).1, farSpan s tm.ctx sp = false) → (∃ sp ∈ (cmdSpans c).2, farSpan s tm.ctx sp = true) →
        exec (.remoteAccessTimeout c.id) s = .next (post s (.commandFail c.id 11))) ∧
      ((∀ sp ∈ (cmdSpans c).1 ++ (cmdSpans c).2, farSpan s tm.ctx sp = false) → exec (.remoteAccessTimeout c.id) s = .next s)) ∧
    (∀ s t n id va scr ks cmp, findReq s id = none → findCmd s id = none → findTask s id = none → farPoll s id = some (t, n, va) →
      findTrain s t.uid = some t → t.slots.length = 32 → n < 32 → (slotAt t n).wait = .watch scr ks va cmp (some id) → t.thand.getLsbD 40 = true →
      t.inHand = false → t.prol = none →
      ∃ s' t', exec (.remoteAccessTimeout id) s = .next s' ∧ findTrain s' t.uid = some t' ∧ s'.mem = s.mem ∧
        (entryWaits s t.uid = true → ∃ p, t'.trap = some p ∧ p.cause = cause 4 1 ∧ p.fpc = (slotAt t n).pc ∧
          p.tmask = maskOf (fun j => j == n) ∧ .trapEntry t.uid ∈ s'.agenda) ∧
        (entryWaits s t.uid = false → t'.inHand = true)))

/-- R448 to R450: audit sampling is set for a context, at a fraction up to 2^-16; the snapshot of a sample is replayed on an
engine of another core, on another die when one is free; signatures that differ leave a record of kind 7 and have both
engines tested. An engine under test starts no task, and a fault that the test reproduces, or the eighth error in 24 hours,
retires the unit. What a replay or a test finds is free (log 20), and that a reserved fraction changes nothing is the model
choice of log 43. -/
def Obligations.AuditsAndTests : Prop :=
  (∀ s ctx on n, s.booted = true → exec (.auditSet ctx on n) s =
    .next (if n.toNat ≤ 16 then modCtx s ctx (fun c => { c with audOn := on, audN := n }) else s)) ∧
  (∀ s x, s.samples.find? (fun y => y.id == x.id) = some x →
    (replayPlace s x.core = none → exec (.auditReplay x.id) s = .next (post s (.auditReplay x.id))) ∧
    (∀ c e, replayPlace s x.core = some (c, e) →
      let sig := Config.replaySignature s.tick (shotSig x.shot)
      let s1 := modCtx { s with samples := s.samples.filter (fun y => decide (y.id ≠ x.id)) } x.ctx
        (fun c => { c with checked := min (c.checked + 1) 0xFFFFFFFF })
      c ≠ x.core ∧ freeEngine s c = some e ∧ (dieOf c = dieOf x.core → ∀ k, dieOf k ≠ dieOf x.core → k < 224 →
        s.corAlive.getLsbD (dieOf k) = true → freeEngine s k = none) ∧
      (sig = x.sig → exec (.auditReplay x.id) s = .next s1) ∧
      (sig ≠ x.sig → exec (.auditReplay x.id) s = .next (postOnce (postOnce (addErr s1
        { errRec 7 1 x.core x.ctx with detail := [x.loc &&& 0x7FFFFFFFFFFFFFFF#64, x.sig, sig] })
        (.selfTest (.engine x.core x.eng))) (.selfTest (.engine c e)))))) ∧
  (∀ s u, ∃ s1, exec (.selfTest u) s = .next (post s1 (.selfTestComplete u (Config.faultLasting s.tick))) ∧
    s1 = { s with cores := s1.cores } ∧ (∀ c e, u = .engine c e → engineUp s1 c e = false) ∧
    ((∀ c e, u ≠ .engine c e) → s1 = s)) ∧
  (∀ s u lasting, ∃ s1, s1 = { s with cores := s1.cores, agenda := s1.agenda } ∧
    (∀ c e, u = .engine c e → (coreOf s1 c).testing = (coreOf s c).testing.filter (· ≠ e)) ∧
    let n := ((coreOf s (unitCore u)).errors.filter (fun p => p.1 == unitNum u && decide (s.now ≤ p.2 + dayCycles))).length
    exec (.selfTestComplete u lasting) s = .next (if lasting = true ∨ 8 ≤ n then post s1 (.unitRetire u) else s1))

/-- R30, R39, R451, R452: a lasting fault retires its unit: a bank at the core's remap step, a lane at its next quiesce, an
engine at once; what would leave too little fences the core, whose column then reads as zeros, as those of a die whose cores
are held in reset do (R434); a link goes on one step of width lower. The remap step marks the banks once every team is off
the core. R26, R27, R453, R456, R457: one core of a die quiesces at a time; it stops admission, and with nothing left on it
pending fusing and the plan take effect together. The daily plan goes to the cores that the tests find. What a plan holds is
free (log 23); the numbers of bus groups in records and what a retirement's record shows are the model's (log 41). -/
def Obligations.RepairsAndPlans : Prop :=
  (∀ s c, c < 224 →
    let k := coreOf s c
    (∀ n, n < 2048 → n ∉ k.dead → n ∉ k.retire → ∃ s', exec (.unitRetire (.bank c n)) s = .next s' ∧ s'.mem = s.mem ∧ s'.trains = s.trains ∧
      (∃ e ∈ s'.errs, e.kind = 9 ∧ e.core = c ∧ e.ctx = 0xFF ∧ e.unit = n) ∧
      ((2048 - (k.dead.length + k.retire.length + 1)) * 4096 < 7340032 → (coreOf s' c).fenced = true ∧ (coreOf s' c).dead = k.dead) ∧
      (7340032 ≤ (2048 - (k.dead.length + k.retire.length + 1)) * 4096 → (coreOf s' c).retire = k.retire ++ [n] ∧
        (coreOf s' c).dead = k.dead ∧ (coreOf s' c).stopped = true ∧ .remapStep c ∈ s'.agenda)) ∧
    (∀ i, i < 32 → (k.lanes &&& ~~~k.fuse).getLsbD i = true → ∃ s', exec (.unitRetire (.lane c i)) s = .next s' ∧ s'.mem = s.mem ∧
      (coreOf s' c).lanes = k.lanes ∧
      (goodLanes { k with lanes := k.lanes &&& ~~~(k.fuse ||| (1#32 <<< i)) } < 28 → (coreOf s' c).fenced = true) ∧
      (28 ≤ goodLanes { k with lanes := k.lanes &&& ~~~(k.fuse ||| (1#32 <<< i)) } →
        (coreOf s' c).fuse = k.fuse ||| (1#32 <<< i) ∧ (coreOf s' c).stopped = true ∧ .coreQuiesce c ∈ s'.agenda)) ∧
    (∀ e, e < 4 → (marginOf s c).getLsbD (12 + e) = true → ∃ s', exec (.unitRetire (.engine c e)) s = .next s' ∧ engineUp s' c e = false ∧
      s'.mem = s.mem ∧ (fld (marginOf s c) 12 4 = 2 ^ e → (coreOf s' c).fenced = true)) ∧
    (k.fenced = false → ∃ s', exec (.unitRetire (.copy c)) s = .next s' ∧ (coreOf s' c).fenced = true ∧ s'.mem = s.mem) ∧
    (∀ p, ∃ s', exec (.unitRetire (.link p)) s = .next s' ∧ s'.mem = s.mem ∧ s'.cores = s.cores ∧
      (∃ e ∈ s'.errs, e.kind = 9 ∧ e.core = 0xFF ∧ e.unit = p) ∧
      ∀ q, aget 0 s'.links q = aget 0 s.links q + if q = p then 1 else 0) ∧
    (k.fenced = true ∨ s.corAlive.getLsbD (dieOf c) = false → columnOf s c = ⟨0, 0, 0, 0, 0, 0⟩) ∧
    (k.retire = [] → exec (.remapStep c) s = .next s) ∧
    (k.retire ≠ [] → occupied s c = false → ∃ s', exec (.remapStep c) s = .next s' ∧ s'.mem = s.mem ∧ s'.teams = s.teams ∧
      s'.trains = s.trains ∧ (coreOf s' c).dead = k.dead ++ k.retire ∧ (coreOf s' c).retire = [] ∧
      oscap (coreOf s' c) = (2048 - (k.dead.length + k.retire.length)) * 4096) ∧
    (k.retire ≠ [] → occupied s c = true → ∃ s', exec (.remapStep c) s = .next (post s' (.remapStep c)) ∧ s'.cores = s.cores ∧
      s'.mem = s.mem ∧ s'.trains = s.trains)) ∧
  ((∀ s c, let k := coreOf s c
      (k.plan = none → k.fuse = 0#32 → exec (.coreQuiesce c) s = .next s) ∧
      (k.plan ≠ none ∨ k.fuse ≠ 0#32 →
        (k.drain = none → (∃ o ∈ dieCores (dieOf c), (coreOf s o).drain ≠ none) →
          exec (.coreQuiesce c) s = .next (post s (.coreQuiesce c))) ∧
        (k.drain = none → (∀ o ∈ dieCores (dieOf c), (coreOf s o).drain = none) →
          exec (.coreQuiesce c) s =
            .next (post (modCore s c (fun k => { k with stopped := true, drain := some s.now })) (.coreQuiesce c))) ∧
        (k.drain ≠ none → occupied s c = false → ∃ s', exec (.coreQuiesce c) s = .next s' ∧ s'.mem = s.mem ∧
          (coreOf s' c).lanes = k.lanes &&& ~~~k.fuse ∧ (coreOf s' c).fuse = 0#32 ∧ (coreOf s' c).plan = none ∧
          (coreOf s' c).drain = none ∧ (coreOf s' c).ctime.toNat / 2 ^ 56 = goodLanes (coreOf s' c) ∧
          (∀ f ∈ ctimeFields, f.2.2 ≤ fld (coreOf s' c).ctime f.1 f.2.1) ∧
          (∀ v w, k.plan = some (v, w) → c < 224 →
            fld (marginOf s' c) 56 8 = (fld (marginOf s c) 56 8 + 1) % 256 ∧ fld (marginOf s' c) 12 4 = fld (marginOf s c) 12 4 ∧
            fld (marginOf s' c) 32 24 = fld v 32 24 ∧ (marginOf s' c).getLsbD 1 = false)) ∧
        (∀ d, k.drain = some d → occupied s c = true → k.fuse = 0#32 → s.now < d + drainCycles →
          exec (.coreQuiesce c) s = .next (post s (.coreQuiesce c))))) ∧
    (∀ s, ∃ s', exec .dailyReplan s = .next s' ∧ s'.mem = s.mem ∧ s'.trains = s.trains ∧ s'.teams = s.teams ∧
      ∀ c, if c < 224 ∧ s.corAlive.getLsbD (dieOf c) = true ∧ (coreOf s c).fenced = false ∧
          (Config.tokenSwitch s.tick = true ∨ Config.dailyFinds s.tick c = true) then
        coreOf s' c = { coreOf s c with plan := some (Config.planMargin s.tick c, Config.planCtime s.tick c) } ∧
          (marginOf s' c).getLsbD 1 = true ∧ .coreQuiesce c ∈ s'.agenda
      else coreOf s' c = coreOf s c ∧ marginOf s' c = marginOf s c))
end

