-- ==== Sys2Proof/Laws/Cells.lean ====
section
/-! SUPPORT. Laws of sparse tables, keyed lists and bytes: reads after writes, and the canonical form. -/

namespace Sys2Proof.Laws
open Sys2Proof Sys2Proof.Machine

variable {n : Nat}

theorem cwf_cons {k : Nat} {v : BitVec n} {t : Cells n} :
    cwf ((k, v) :: t) = true ↔ v ≠ 0#n ∧ (∀ e ∈ t, k < e.1) ∧ cwf t = true := by
  simp [cwf, and_assoc]

/-- A key below every listed one reads zero. -/
theorem cget_below {c : Cells n} {k : Nat} (h : ∀ e ∈ c, k < e.1) : cget c k = 0#n := by
  induction c with
  | nil => rfl
  | cons e t ih =>
    have h1 := h e (by simp)
    have h2 : e.1 ≠ k := by omega
    simp only [cget, h2, if_false]
    exact ih (fun x hx => h x (by simp [hx]))

/-- Every key of a written table is the new key or an old one. -/
theorem mem_cset {c : Cells n} {k : Nat} {v : BitVec n} {e : Nat × BitVec n} (h : e ∈ cset c k v) : e.1 = k ∨ e ∈ c := by
  induction c with
  | nil =>
    simp only [cset] at h
    split at h <;> simp_all
  | cons x t ih =>
    simp only [cset] at h
    split at h
    · split at h
      · rcases ih h with h | h
        · exact .inl h
        · exact .inr (List.mem_cons_of_mem _ h)
      · rcases List.mem_cons.1 h with rfl | h
        · exact .inl rfl
        · exact .inr (List.mem_cons_of_mem _ h)
    · split at h
      · rcases List.mem_cons.1 h with rfl | h
        · exact .inl rfl
        · exact .inr h
      · rcases List.mem_cons.1 h with rfl | h
        · exact .inr (by simp)
        · rcases ih h with h | h
          · exact .inl h
          · exact .inr (List.mem_cons_of_mem _ h)

/-- Every key that stands after a write of zero stood before. -/
theorem mem_cset_zero {c : Cells n} {k : Nat} {e : Nat × BitVec n} (h : e ∈ cset c k 0#n) : e ∈ c := by
  induction c with
  | nil => simp [cset] at h
  | cons x t ih =>
    simp only [cset] at h
    split at h
    · simp at h; exact List.mem_cons_of_mem _ (ih h)
    · simp at h
      rcases h with h | h
      · simp [h]
      · exact List.mem_cons_of_mem _ (ih h)

/-- A write keeps the canonical form. -/
theorem cwf_cset {c : Cells n} {k : Nat} {v : BitVec n} (h : cwf c = true) : cwf (cset c k v) = true := by
  induction c with
  | nil => by_cases hv : v = 0#n <;> simp [cset, hv, cwf]
  | cons x t ih =>
    obtain ⟨k', v'⟩ := x
    rw [cwf_cons] at h
    obtain ⟨h1, h2, h3⟩ := h
    simp only [cset]
    split
    · rename_i hk
      split
      · exact ih h3
      · exact cwf_cons.2 ⟨‹_›, hk ▸ h2, h3⟩
    · split
      · rename_i hk hv
        refine cwf_cons.2 ⟨hv.2, ?_, cwf_cons.2 ⟨h1, h2, h3⟩⟩
        intro e he
        rcases List.mem_cons.1 he with rfl | he
        · exact hv.1
        · exact Nat.lt_trans hv.1 (h2 e he)
      · rename_i hk hv
        by_cases hz : v = 0#n
        · subst hz
          refine cwf_cons.2 ⟨h1, ?_, ih h3⟩
          intro e he
          rcases mem_cset_zero he with he
          exact h2 e he
        · refine cwf_cons.2 ⟨h1, ?_, ih h3⟩
          intro e he
          rcases mem_cset he with he | he
          · have : ¬ k < k' := fun hl => hv ⟨hl, hz⟩
            omega
          · exact h2 e he

/-- A read of the key written gives the value written. -/
theorem cget_cset_self {c : Cells n} {k : Nat} {v : BitVec n} : cget (cset c k v) k = v := by
  induction c with
  | nil => by_cases hv : v = 0#n <;> simp [cset, hv, cget]
  | cons x t ih =>
    obtain ⟨k', v'⟩ := x
    simp only [cset]
    split
    · split
      · exact ih
      · simp [cget]
    · split
      · simp [cget]
      · have : k' ≠ k := fun e => (‹¬ k = k'›) e.symm
        simp [cget, this, ih]

/-- A write leaves every other key as it was. -/
theorem cget_cset_ne {c : Cells n} {k k' : Nat} {v : BitVec n} (h : k' ≠ k) : cget (cset c k v) k' = cget c k' := by
  have h' : k ≠ k' := fun e => h e.symm
  induction c with
  | nil => by_cases hv : v = 0#n <;> simp [cset, hv, cget, h']
  | cons x t ih =>
    obtain ⟨x1, x2⟩ := x
    simp only [cset]
    split
    · rename_i hk
      subst hk
      split <;> simp [cget, h', ih]
    · split
      · simp [cget, h']
      · simp only [cget, ih]

/-- A read after a write, by cases. -/
theorem cget_cset {c : Cells n} {k k' : Nat} {v : BitVec n} : cget (cset c k v) k' = if k' = k then v else cget c k' := by
  split
  · subst k'; exact cget_cset_self
  · exact cget_cset_ne ‹_›

/-- Two canonical tables that read alike are equal. -/
theorem cwf_ext {c d : Cells n} (hc : cwf c = true) (hd : cwf d = true) (h : ∀ k, cget c k = cget d k) : c = d := by
  induction c generalizing d with
  | nil =>
    cases d with
    | nil => rfl
    | cons y d =>
      obtain ⟨k, v⟩ := y
      have := h k
      rw [cwf_cons] at hd
      simp [cget] at this
      exact absurd this.symm hd.1
  | cons x c ih =>
    obtain ⟨k, v⟩ := x
    rw [cwf_cons] at hc
    cases d with
    | nil =>
      have := h k
      simp [cget] at this
      exact absurd this hc.1
    | cons y d =>
      obtain ⟨k', v'⟩ := y
      rw [cwf_cons] at hd
      have hk : k = k' := by
        by_cases h1 : k < k'
        · have hb : cget ((k', v') :: d) k = 0#n := by
            apply cget_below
            intro e he
            rcases List.mem_cons.1 he with rfl | he
            · exact h1
            · exact Nat.lt_trans h1 (hd.2.1 e he)
          have := h k
          rw [hb] at this
          simp [cget] at this
          exact absurd this hc.1
        · by_cases h2 : k' < k
          · have hb : cget ((k, v) :: c) k' = 0#n := by
              apply cget_below
              intro e he
              rcases List.mem_cons.1 he with rfl | he
              · exact h2
              · exact Nat.lt_trans h2 (hc.2.1 e he)
            have := h k'
            rw [hb] at this
            simp [cget] at this
            exact absurd this.symm hd.1
          · omega
      subst hk
      have hv : v = v' := by simpa [cget] using h k
      subst hv
      congr 1
      refine ih hc.2.2 hd.2.2 fun j => ?_
      by_cases hj : k = j
      · subst hj
        rw [cget_below hc.2.1, cget_below hd.2.1]
      · simpa [cget, hj] using h j

theorem cwf_csetAll {c : Cells n} {k : Nat} {l : List (BitVec n)} (h : cwf c = true) : cwf (csetAll c k l) = true := by
  induction l generalizing c k with
  | nil => exact h
  | cons v vs ih => exact ih (cwf_cset h)

theorem cwf_csetAt {c : Cells n} {l : List (Nat × BitVec n)} (h : cwf c = true) : cwf (csetAt c l) = true := by
  induction l generalizing c with
  | nil => exact h
  | cons e t ih => exact ih (cwf_cset h)

theorem cwf_cclear {c : Cells n} {lo hi : Nat} (h : cwf c = true) : cwf (cclear c lo hi) = true := by
  induction c with
  | nil => rfl
  | cons x t ih =>
    obtain ⟨k, v⟩ := x
    rw [cwf_cons] at h
    simp only [cclear, List.filter_cons]
    split
    · refine cwf_cons.2 ⟨h.1, ?_, ih h.2.2⟩
      intro e he
      exact h.2.1 e (List.mem_filter.1 he).1
    · exact ih h.2.2

/-- Consecutive writes leave every key outside their range as it was. -/
theorem cget_csetAll_out {c : Cells n} {k a : Nat} {l : List (BitVec n)} (h : a < k ∨ k + l.length ≤ a) :
    cget (csetAll c k l) a = cget c a := by
  induction l generalizing c k with
  | nil => rfl
  | cons v vs ih =>
    simp only [List.length_cons] at h
    simp only [csetAll]
    rw [ih (by omega), cget_cset_ne (by omega)]

/-- Consecutive writes are read back. -/
theorem cget_csetAll_in {c : Cells n} {k i : Nat} {l : List (BitVec n)} (h : i < l.length) :
    cget (csetAll c k l) (k + i) = l[i] := by
  induction l generalizing c k i with
  | nil => simp at h
  | cons v vs ih =>
    simp only [csetAll]
    cases i with
    | zero => rw [cget_csetAll_out (by omega)]; simpa using cget_cset_self (c := c) (k := k) (v := v)
    | succ i =>
      have := ih (c := cset c k v) (k := k + 1) (i := i) (by simpa using h)
      rw [show k + (i + 1) = k + 1 + i by omega, this]
      rfl

/-- Writes at listed keys leave every other key as it was. -/
theorem cget_csetAt_out {c : Cells n} {a : Nat} {l : List (Nat × BitVec n)} (h : ∀ e ∈ l, e.1 ≠ a) :
    cget (csetAt c l) a = cget c a := by
  induction l generalizing c with
  | nil => rfl
  | cons e t ih =>
    simp only [csetAt]
    rw [ih (fun x hx => h x (by simp [hx])), cget_cset_ne (fun he => h e (by simp) he.symm)]

/-! Keyed lists. -/

theorem aget_aset_self {α : Type} (d : α) (l : List (Nat × α)) (k : Nat) (v : α) : aget d (aset l k v) k = v := by
  induction l with
  | nil => simp [aset, aget]
  | cons x t ih =>
    simp only [aset]
    split
    · simp [aget]
    · split
      · simp [aget]
      · rename_i _ h2
        have : x.1 ≠ k := fun e => h2 e.symm
        simp [aget, this, ih]

theorem aget_aset_ne {α : Type} (d : α) (l : List (Nat × α)) {k k' : Nat} (v : α) (h : k' ≠ k) :
    aget d (aset l k v) k' = aget d l k' := by
  have h' : k ≠ k' := fun e => h e.symm
  induction l with
  | nil => simp [aset, aget, h']
  | cons x t ih =>
    simp only [aset]
    split
    · simp [aget, h']
    · split
      · rename_i _ h2
        simp [aget, h', ← h2]
      · simp [aget, ih]

/-! Lists by position. -/

theorem length_lmod {α : Type} (l : List α) (i : Nat) (f : α → α) : (lmod l i f).length = l.length := by
  induction l generalizing i with
  | nil => rfl
  | cons x t ih => cases i <;> simp [lmod, ih]

theorem getD_lmod_self {α : Type} (l : List α) (i : Nat) (f : α → α) (d : α) (h : i < l.length) :
    (lmod l i f).getD i d = f (l.getD i d) := by
  induction l generalizing i with
  | nil => simp at h
  | cons x t ih =>
    cases i with
    | zero => rfl
    | succ i => simpa [lmod] using ih i (by simpa using h)

theorem getD_lmod_ne {α : Type} (l : List α) {i j : Nat} (f : α → α) (d : α) (h : j ≠ i) :
    (lmod l i f).getD j d = l.getD j d := by
  induction l generalizing i j with
  | nil => rfl
  | cons x t ih =>
    cases i with
    | zero => cases j with
      | zero => exact absurd rfl h
      | succ j => simp [lmod]
    | succ i => cases j with
      | zero => simp [lmod]
      | succ j => simpa [lmod] using ih (i := i) (j := j) (by omega)

theorem length_bytesN (m x : Nat) : (bytesN m x).length = m := by
  induction m generalizing x with
  | zero => rfl
  | succ m ih => simp [bytesN, ih]

/-- The bytes of a number give it back. -/
theorem leN_bytesN (m x : Nat) : leN (bytesN m x) = x % 2 ^ (8 * m) := by
  induction m generalizing x with
  | zero => simp [bytesN, leN, Nat.mod_one]
  | succ m ih =>
    simp only [bytesN, leN, ih, BitVec.toNat_ofNat]
    rw [show 8 * (m + 1) = 8 + 8 * m by omega, Nat.pow_add, Nat.mod_mul]

end Sys2Proof.Laws
end

