-- ==== Sys2Proof/Laws/Exec.lean ====
section
/-! SUPPORT. What `exec` does with each constructor: the one call that stands in its arm. -/

namespace Sys2Proof.Laws
open Sys2Proof Sys2Proof.Machine

@[simp] theorem exec_sysTrap (n : BitVec 5) (s : State) :
    exec (.sysTrap n) s = execSysTrap n s := rfl
@[simp] theorem exec_sysSrd (d : Reg) (spec : Reg) (a : Reg) (s : State) :
    exec (.sysSrd d spec a) s = execSysSrd d spec a s := rfl
@[simp] theorem exec_sysSwr (spec : Reg) (a : Reg) (b : Reg) (s : State) :
    exec (.sysSwr spec a b) s = execSysSwr spec a b s := rfl
@[simp] theorem exec_sysFence (kind : FenceKind) (sc : Scope) (s : State) :
    exec (.sysFence kind sc) s = execSysFence kind sc s := rfl
@[simp] theorem exec_sysWaitw (scr : Bool) (an : R3) (b : Reg) (s : State) :
    exec (.sysWaitw scr an b) s = execSysWaitw scr an b s := rfl
@[simp] theorem exec_sysDlaunch (a : Reg) (s : State) :
    exec (.sysDlaunch a) s = execSysDlaunch a s := rfl
@[simp] theorem exec_rep (bstep : BitVec 2) (astep : BitVec 2) (dstep : BitVec 2) (ben : Bool) (aen : Bool) (den : Bool) (count : BitVec 6) (s : State) :
    exec (.rep bstep astep dstep ben aen den count) s = execRep bstep astep dstep ben aen den count s := rfl
@[simp] theorem exec_grd (count : BitVec 3) (sense : Bool) (p : R3) (s : State) :
    exec (.grd count sense p) s = execGrd count sense p s := rfl
@[simp] theorem exec_xim (e : BitVec 20) (s : State) :
    exec (.xim e) s = execXim e s := rfl
@[simp] theorem exec_ctlWin (n : BitVec 5) (s : State) :
    exec (.ctlWin n) s = execCtlWin n s := rfl
@[simp] theorem exec_ctlOsalloc (d : Reg) (a : Reg) (kind : AllocKind) (ret : Retain) (s : State) :
    exec (.ctlOsalloc d a kind ret) s = execCtlOsalloc d a kind ret s := rfl
@[simp] theorem exec_ctlOsfree (a : Reg) (s : State) :
    exec (.ctlOsfree a) s = execCtlOsfree a s := rfl
@[simp] theorem exec_ctlBar (h : BitVec 6) (b : Reg) (s : State) :
    exec (.ctlBar h b) s = execCtlBar h b s := rfl
@[simp] theorem exec_ctlBarr (h : BitVec 6) (b : Reg) (s : State) :
    exec (.ctlBarr h b) s = execCtlBarr h b s := rfl
@[simp] theorem exec_ctlBarw (h : BitVec 6) (s : State) :
    exec (.ctlBarw h) s = execCtlBarw h s := rfl
@[simp] theorem exec_ctlPrio (n : BitVec 4) (s : State) :
    exec (.ctlPrio n) s = execCtlPrio n s := rfl
@[simp] theorem exec_ctlMigr (an : R3) (s : State) :
    exec (.ctlMigr an) s = execCtlMigr an s := rfl
@[simp] theorem exec_ctlQbind (q : Reg) (a : Reg) (s : State) :
    exec (.ctlQbind q a) s = execCtlQbind q a s := rfl
@[simp] theorem exec_ctlQunbind (q : Reg) (s : State) :
    exec (.ctlQunbind q) s = execCtlQunbind q s := rfl
@[simp] theorem exec_ctlQlen (d : Reg) (q : Reg) (s : State) :
    exec (.ctlQlen d q) s = execCtlQlen d q s := rfl
@[simp] theorem exec_bra (p : R3) (sense : Bool) (off : BitVec 43) (s : State) :
    exec (.bra p sense off) s = execBra p sense off s := rfl
@[simp] theorem exec_jmpJmp (off : BitVec 37) (s : State) :
    exec (.jmpJmp off) s = execJmpJmp off s := rfl
@[simp] theorem exec_jmpCall (d : Reg) (off : BitVec 37) (s : State) :
    exec (.jmpCall d off) s = execJmpCall d off s := rfl
@[simp] theorem exec_jmpRet (a : Reg) (s : State) :
    exec (.jmpRet a) s = execJmpRet a s := rfl
@[simp] theorem exec_jmpJmpr (a : Reg) (s : State) :
    exec (.jmpJmpr a) s = execJmpJmpr a s := rfl
@[simp] theorem exec_jmpCallr (d : Reg) (a : Reg) (s : State) :
    exec (.jmpCallr d a) s = execJmpCallr d a s := rfl
@[simp] theorem exec_iopAdd (w : Width) (d : Reg) (a : Reg) (b : Reg) (s : State) :
    exec (.iopAdd w d a b) s = execIopAdd w d a b s := rfl
@[simp] theorem exec_iopSub (w : Width) (d : Reg) (a : Reg) (b : Reg) (s : State) :
    exec (.iopSub w d a b) s = execIopSub w d a b s := rfl
@[simp] theorem exec_iopMul (w : Width) (d : Reg) (a : Reg) (b : Reg) (s : State) :
    exec (.iopMul w d a b) s = execIopMul w d a b s := rfl
@[simp] theorem exec_iopMinI (w : Width) (d : Reg) (a : Reg) (b : Reg) (s : State) :
    exec (.iopMinI w d a b) s = execIopMinI w d a b s := rfl
@[simp] theorem exec_iopMinN (w : Width) (d : Reg) (a : Reg) (b : Reg) (s : State) :
    exec (.iopMinN w d a b) s = execIopMinN w d a b s := rfl
@[simp] theorem exec_iopMaxI (w : Width) (d : Reg) (a : Reg) (b : Reg) (s : State) :
    exec (.iopMaxI w d a b) s = execIopMaxI w d a b s := rfl
@[simp] theorem exec_iopMaxN (w : Width) (d : Reg) (a : Reg) (b : Reg) (s : State) :
    exec (.iopMaxN w d a b) s = execIopMaxN w d a b s := rfl
@[simp] theorem exec_iopAddsI (w : Width) (d : Reg) (a : Reg) (b : Reg) (s : State) :
    exec (.iopAddsI w d a b) s = execIopAddsI w d a b s := rfl
@[simp] theorem exec_iopAddsN (w : Width) (d : Reg) (a : Reg) (b : Reg) (s : State) :
    exec (.iopAddsN w d a b) s = execIopAddsN w d a b s := rfl
@[simp] theorem exec_iopSubsI (w : Width) (d : Reg) (a : Reg) (b : Reg) (s : State) :
    exec (.iopSubsI w d a b) s = execIopSubsI w d a b s := rfl
@[simp] theorem exec_iopSubsN (w : Width) (d : Reg) (a : Reg) (b : Reg) (s : State) :
    exec (.iopSubsN w d a b) s = execIopSubsN w d a b s := rfl
@[simp] theorem exec_iopShl (w : Width) (d : Reg) (a : Reg) (b : Reg) (s : State) :
    exec (.iopShl w d a b) s = execIopShl w d a b s := rfl
@[simp] theorem exec_iopShr (w : Width) (d : Reg) (a : Reg) (b : Reg) (s : State) :
    exec (.iopShr w d a b) s = execIopShr w d a b s := rfl
@[simp] theorem exec_iopSar (w : Width) (d : Reg) (a : Reg) (b : Reg) (s : State) :
    exec (.iopSar w d a b) s = execIopSar w d a b s := rfl
@[simp] theorem exec_iopMulhI (w : Width) (d : Reg) (a : Reg) (b : Reg) (s : State) :
    exec (.iopMulhI w d a b) s = execIopMulhI w d a b s := rfl
@[simp] theorem exec_iopMulhN (w : Width) (d : Reg) (a : Reg) (b : Reg) (s : State) :
    exec (.iopMulhN w d a b) s = execIopMulhN w d a b s := rfl
@[simp] theorem exec_iopRol (w : Width) (d : Reg) (a : Reg) (b : Reg) (s : State) :
    exec (.iopRol w d a b) s = execIopRol w d a b s := rfl
@[simp] theorem exec_iopRor (w : Width) (d : Reg) (a : Reg) (b : Reg) (s : State) :
    exec (.iopRor w d a b) s = execIopRor w d a b s := rfl
@[simp] theorem exec_iopAvgN (w : Width) (d : Reg) (a : Reg) (b : Reg) (s : State) :
    exec (.iopAvgN w d a b) s = execIopAvgN w d a b s := rfl
@[simp] theorem exec_iopAbs (w : Width) (d : Reg) (a : Reg) (s : State) :
    exec (.iopAbs w d a) s = execIopAbs w d a s := rfl
@[simp] theorem exec_iopAnd (d : Reg) (a : Reg) (b : Reg) (s : State) :
    exec (.iopAnd d a b) s = execIopAnd d a b s := rfl
@[simp] theorem exec_iopOr (d : Reg) (a : Reg) (b : Reg) (s : State) :
    exec (.iopOr d a b) s = execIopOr d a b s := rfl
@[simp] theorem exec_iopXor (d : Reg) (a : Reg) (b : Reg) (s : State) :
    exec (.iopXor d a b) s = execIopXor d a b s := rfl
@[simp] theorem exec_iopAndn (d : Reg) (a : Reg) (b : Reg) (s : State) :
    exec (.iopAndn d a b) s = execIopAndn d a b s := rfl
@[simp] theorem exec_iopiAddi (d : Reg) (a : Reg) (imm : BitVec 31) (s : State) :
    exec (.iopiAddi d a imm) s = execIopiAddi d a imm s := rfl
@[simp] theorem exec_iopiAndi (d : Reg) (a : Reg) (imm : BitVec 31) (s : State) :
    exec (.iopiAndi d a imm) s = execIopiAndi d a imm s := rfl
@[simp] theorem exec_iopiOri (d : Reg) (a : Reg) (imm : BitVec 31) (s : State) :
    exec (.iopiOri d a imm) s = execIopiOri d a imm s := rfl
@[simp] theorem exec_iopiXori (d : Reg) (a : Reg) (imm : BitVec 31) (s : State) :
    exec (.iopiXori d a imm) s = execIopiXori d a imm s := rfl
@[simp] theorem exec_shiShli (w : Width) (d : Reg) (a : Reg) (n : BitVec 8) (s : State) :
    exec (.shiShli w d a n) s = execShiShli w d a n s := rfl
@[simp] theorem exec_shiShri (w : Width) (d : Reg) (a : Reg) (n : BitVec 8) (s : State) :
    exec (.shiShri w d a n) s = execShiShri w d a n s := rfl
@[simp] theorem exec_shiSari (w : Width) (d : Reg) (a : Reg) (n : BitVec 8) (s : State) :
    exec (.shiSari w d a n) s = execShiSari w d a n s := rfl
@[simp] theorem exec_shiRoli (w : Width) (d : Reg) (a : Reg) (n : BitVec 8) (s : State) :
    exec (.shiRoli w d a n) s = execShiRoli w d a n s := rfl
@[simp] theorem exec_shiRori (w : Width) (d : Reg) (a : Reg) (n : BitVec 8) (s : State) :
    exec (.shiRori w d a n) s = execShiRori w d a n s := rfl
@[simp] theorem exec_limmIns (d : Reg) (c : BitVec 2) (imm : BitVec 16) (s : State) :
    exec (.limmIns d c imm) s = execLimmIns d c imm s := rfl
@[simp] theorem exec_limmSet (d : Reg) (c : BitVec 2) (imm : BitVec 16) (s : State) :
    exec (.limmSet d c imm) s = execLimmSet d c imm s := rfl
@[simp] theorem exec_limmSets (d : Reg) (c : BitVec 2) (imm : BitVec 16) (s : State) :
    exec (.limmSets d c imm) s = execLimmSets d c imm s := rfl
@[simp] theorem exec_bitBextI (w : Width) (d : Reg) (a : Reg) (b : Reg) (s : State) :
    exec (.bitBextI w d a b) s = execBitBextI w d a b s := rfl
@[simp] theorem exec_bitBextN (w : Width) (d : Reg) (a : Reg) (b : Reg) (s : State) :
    exec (.bitBextN w d a b) s = execBitBextN w d a b s := rfl
@[simp] theorem exec_bitBins (w : Width) (d : Reg) (a : Reg) (b : Reg) (s : State) :
    exec (.bitBins w d a b) s = execBitBins w d a b s := rfl
@[simp] theorem exec_bitPopc (w : Width) (d : Reg) (a : Reg) (s : State) :
    exec (.bitPopc w d a) s = execBitPopc w d a s := rfl
@[simp] theorem exec_bitClz (w : Width) (d : Reg) (a : Reg) (s : State) :
    exec (.bitClz w d a) s = execBitClz w d a s := rfl
@[simp] theorem exec_bitCtz (w : Width) (d : Reg) (a : Reg) (s : State) :
    exec (.bitCtz w d a) s = execBitCtz w d a s := rfl
@[simp] theorem exec_bitBrev (w : Width) (d : Reg) (a : Reg) (s : State) :
    exec (.bitBrev w d a) s = execBitBrev w d a s := rfl
@[simp] theorem exec_bitBperm (d : Reg) (a : Reg) (b : Reg) (s : State) :
    exec (.bitBperm d a b) s = execBitBperm d a b s := rfl
@[simp] theorem exec_cmp (p : R3) (cond : Cond) (ty : CmpTy) (comb : Combine) (a : Reg) (b : Reg) (s : State) :
    exec (.cmp p cond ty comb a b) s = execCmp p cond ty comb a b s := rfl
@[simp] theorem exec_scalAdd (d : Reg) (a : Reg) (b : Reg) (s : State) :
    exec (.scalAdd d a b) s = execScalAdd d a b s := rfl
@[simp] theorem exec_scalSub (d : Reg) (a : Reg) (b : Reg) (s : State) :
    exec (.scalSub d a b) s = execScalSub d a b s := rfl
@[simp] theorem exec_scalMul (d : Reg) (a : Reg) (b : Reg) (s : State) :
    exec (.scalMul d a b) s = execScalMul d a b s := rfl
@[simp] theorem exec_scalAnd (d : Reg) (a : Reg) (b : Reg) (s : State) :
    exec (.scalAnd d a b) s = execScalAnd d a b s := rfl
@[simp] theorem exec_scalOr (d : Reg) (a : Reg) (b : Reg) (s : State) :
    exec (.scalOr d a b) s = execScalOr d a b s := rfl
@[simp] theorem exec_scalXor (d : Reg) (a : Reg) (b : Reg) (s : State) :
    exec (.scalXor d a b) s = execScalXor d a b s := rfl
@[simp] theorem exec_scalShl (d : Reg) (a : Reg) (b : Reg) (s : State) :
    exec (.scalShl d a b) s = execScalShl d a b s := rfl
@[simp] theorem exec_scalShr (d : Reg) (a : Reg) (b : Reg) (s : State) :
    exec (.scalShr d a b) s = execScalShr d a b s := rfl
@[simp] theorem exec_scalSar (d : Reg) (a : Reg) (b : Reg) (s : State) :
    exec (.scalSar d a b) s = execScalSar d a b s := rfl
@[simp] theorem exec_scalMinI (d : Reg) (a : Reg) (b : Reg) (s : State) :
    exec (.scalMinI d a b) s = execScalMinI d a b s := rfl
@[simp] theorem exec_scalMinN (d : Reg) (a : Reg) (b : Reg) (s : State) :
    exec (.scalMinN d a b) s = execScalMinN d a b s := rfl
@[simp] theorem exec_scalMaxI (d : Reg) (a : Reg) (b : Reg) (s : State) :
    exec (.scalMaxI d a b) s = execScalMaxI d a b s := rfl
@[simp] theorem exec_scalMaxN (d : Reg) (a : Reg) (b : Reg) (s : State) :
    exec (.scalMaxN d a b) s = execScalMaxN d a b s := rfl
@[simp] theorem exec_scalRdlane (d : Reg) (a : Reg) (b : Reg) (s : State) :
    exec (.scalRdlane d a b) s = execScalRdlane d a b s := rfl
@[simp] theorem exec_scalBcast (d : Reg) (a : Reg) (s : State) :
    exec (.scalBcast d a) s = execScalBcast d a s := rfl
@[simp] theorem exec_fopAdd (f : Fmt) (rm : Rm) (d : Reg) (a : Reg) (b : Reg) (s : State) :
    exec (.fopAdd f rm d a b) s = execFopAdd f rm d a b s := rfl
@[simp] theorem exec_fopSub (f : Fmt) (rm : Rm) (d : Reg) (a : Reg) (b : Reg) (s : State) :
    exec (.fopSub f rm d a b) s = execFopSub f rm d a b s := rfl
@[simp] theorem exec_fopMul (f : Fmt) (rm : Rm) (d : Reg) (a : Reg) (b : Reg) (s : State) :
    exec (.fopMul f rm d a b) s = execFopMul f rm d a b s := rfl
@[simp] theorem exec_fopDiv (f : Fmt) (rm : Rm) (d : Reg) (a : Reg) (b : Reg) (s : State) :
    exec (.fopDiv f rm d a b) s = execFopDiv f rm d a b s := rfl
@[simp] theorem exec_fopSqrt (f : Fmt) (rm : Rm) (d : Reg) (a : Reg) (s : State) :
    exec (.fopSqrt f rm d a) s = execFopSqrt f rm d a s := rfl
@[simp] theorem exec_fopMin (f : Fmt) (d : Reg) (a : Reg) (b : Reg) (s : State) :
    exec (.fopMin f d a b) s = execFopMin f d a b s := rfl
@[simp] theorem exec_fopMax (f : Fmt) (d : Reg) (a : Reg) (b : Reg) (s : State) :
    exec (.fopMax f d a b) s = execFopMax f d a b s := rfl
@[simp] theorem exec_fopAbs (f : Fmt) (d : Reg) (a : Reg) (s : State) :
    exec (.fopAbs f d a) s = execFopAbs f d a s := rfl
@[simp] theorem exec_fopNeg (f : Fmt) (d : Reg) (a : Reg) (s : State) :
    exec (.fopNeg f d a) s = execFopNeg f d a s := rfl
@[simp] theorem exec_fopCopysign (f : Fmt) (d : Reg) (a : Reg) (b : Reg) (s : State) :
    exec (.fopCopysign f d a b) s = execFopCopysign f d a b s := rfl
@[simp] theorem exec_fmaFma (f : Fmt) (rm : Rm) (d : Reg) (a : Reg) (b : Reg) (s : State) :
    exec (.fmaFma f rm d a b) s = execFmaFma f rm d a b s := rfl
@[simp] theorem exec_fmaFms (f : Fmt) (rm : Rm) (d : Reg) (a : Reg) (b : Reg) (s : State) :
    exec (.fmaFms f rm d a b) s = execFmaFms f rm d a b s := rfl
@[simp] theorem exec_fmaFnma (f : Fmt) (rm : Rm) (d : Reg) (a : Reg) (b : Reg) (s : State) :
    exec (.fmaFnma f rm d a b) s = execFmaFnma f rm d a b s := rfl
@[simp] theorem exec_fmaFnms (f : Fmt) (rm : Rm) (d : Reg) (a : Reg) (b : Reg) (s : State) :
    exec (.fmaFnms f rm d a b) s = execFmaFnms f rm d a b s := rfl
@[simp] theorem exec_cvtFloatFloat (dst : Fmt) (src : Fmt) (rm : Rm) (d : Reg) (a : Reg) (s : State) :
    exec (.cvtFloatFloat dst src rm d a) s = execCvtFloatFloat dst src rm d a s := rfl
@[simp] theorem exec_cvtIntFloat (dst : Fmt) (sgn : Bool) (w : Width) (rm : Rm) (d : Reg) (a : Reg) (s : State) :
    exec (.cvtIntFloat dst sgn w rm d a) s = execCvtIntFloat dst sgn w rm d a s := rfl
@[simp] theorem exec_cvtFloatInt (sgn : Bool) (w : Width) (src : Fmt) (rm : Rm) (d : Reg) (a : Reg) (s : State) :
    exec (.cvtFloatInt sgn w src rm d a) s = execCvtFloatInt sgn w src rm d a s := rfl
@[simp] theorem exec_cvtBxPack (x : Bx) (d : Reg) (a : Reg) (s : State) :
    exec (.cvtBxPack x d a) s = execCvtBxPack x d a s := rfl
@[simp] theorem exec_cvtBxUnpack (x : Bx) (d : Reg) (a : Reg) (s : State) :
    exec (.cvtBxUnpack x d a) s = execCvtBxUnpack x d a s := rfl
@[simp] theorem exec_sfuRcp (f : Fmt) (d : Reg) (a : Reg) (s : State) :
    exec (.sfuRcp f d a) s = execSfuRcp f d a s := rfl
@[simp] theorem exec_sfuRsqrt (f : Fmt) (d : Reg) (a : Reg) (s : State) :
    exec (.sfuRsqrt f d a) s = execSfuRsqrt f d a s := rfl
@[simp] theorem exec_sfuSqrt (f : Fmt) (d : Reg) (a : Reg) (s : State) :
    exec (.sfuSqrt f d a) s = execSfuSqrt f d a s := rfl
@[simp] theorem exec_sfuExp2 (f : Fmt) (d : Reg) (a : Reg) (s : State) :
    exec (.sfuExp2 f d a) s = execSfuExp2 f d a s := rfl
@[simp] theorem exec_sfuLog2 (f : Fmt) (d : Reg) (a : Reg) (s : State) :
    exec (.sfuLog2 f d a) s = execSfuLog2 f d a s := rfl
@[simp] theorem exec_sfuSinpi (f : Fmt) (d : Reg) (a : Reg) (s : State) :
    exec (.sfuSinpi f d a) s = execSfuSinpi f d a s := rfl
@[simp] theorem exec_sfuCospi (f : Fmt) (d : Reg) (a : Reg) (s : State) :
    exec (.sfuCospi f d a) s = execSfuCospi f d a s := rfl
@[simp] theorem exec_sfuTwd (d : Reg) (a : Reg) (b : Reg) (s : State) :
    exec (.sfuTwd d a b) s = execSfuTwd d a b s := rfl
@[simp] theorem exec_xlShfl (w : Width) (d : Reg) (a : Reg) (b : Reg) (mk : Option (BitVec 5)) (s : State) :
    exec (.xlShfl w d a b mk) s = execXlShfl w d a b mk s := rfl
@[simp] theorem exec_xlShflx (w : Width) (d : Reg) (a : Reg) (b : Reg) (mk : Option (BitVec 5)) (s : State) :
    exec (.xlShflx w d a b mk) s = execXlShflx w d a b mk s := rfl
@[simp] theorem exec_xlShflu (w : Width) (d : Reg) (a : Reg) (b : Reg) (mk : Option (BitVec 5)) (s : State) :
    exec (.xlShflu w d a b mk) s = execXlShflu w d a b mk s := rfl
@[simp] theorem exec_xlShfld (w : Width) (d : Reg) (a : Reg) (b : Reg) (mk : Option (BitVec 5)) (s : State) :
    exec (.xlShfld w d a b mk) s = execXlShfld w d a b mk s := rfl
@[simp] theorem exec_xlBal (d : Reg) (p : R3) (mk : Option (BitVec 5)) (s : State) :
    exec (.xlBal d p mk) s = execXlBal d p mk s := rfl
@[simp] theorem exec_xlVoteAny (d : Reg) (p : R3) (mk : Option (BitVec 5)) (s : State) :
    exec (.xlVoteAny d p mk) s = execXlVoteAny d p mk s := rfl
@[simp] theorem exec_xlVoteAll (d : Reg) (p : R3) (mk : Option (BitVec 5)) (s : State) :
    exec (.xlVoteAll d p mk) s = execXlVoteAll d p mk s := rfl
@[simp] theorem exec_xlVoteEq (w : Width) (d : Reg) (a : Reg) (mk : Option (BitVec 5)) (s : State) :
    exec (.xlVoteEq w d a mk) s = execXlVoteEq w d a mk s := rfl
@[simp] theorem exec_xlQx (d : Reg) (a : Reg) (c : Qx) (mk : Option (BitVec 5)) (s : State) :
    exec (.xlQx d a c mk) s = execXlQx d a c mk s := rfl
@[simp] theorem exec_xlRed (d : Reg) (a : Reg) (op : RedOp) (ty : Ty) (mk : Option (BitVec 5)) (s : State) :
    exec (.xlRed d a op ty mk) s = execXlRed d a op ty mk s := rfl
@[simp] theorem exec_xlScan (excl : Bool) (d : Reg) (a : Reg) (op : RedOp) (ty : Ty) (mk : Option (BitVec 5)) (s : State) :
    exec (.xlScan excl d a op ty mk) s = execXlScan excl d a op ty mk s := rfl
@[simp] theorem exec_ld (ty : LdTy) (scr : Bool) (ord : Ord) (d : Reg) (an : R3) (off : BitVec 28) (s : State) :
    exec (.ld ty scr ord d an off) s = execLd ty scr ord d an off s := rfl
@[simp] theorem exec_ldx (ty : LdTy) (scr : Bool) (ord : Ord) (d : Reg) (an : R3) (x : Reg) (off : BitVec 7) (s : State) :
    exec (.ldx ty scr ord d an x off) s = execLdx ty scr ord d an x off s := rfl
@[simp] theorem exec_st (ty : StTy) (scr : Bool) (ord : Ord) (d : Reg) (an : R3) (off : BitVec 28) (s : State) :
    exec (.st ty scr ord d an off) s = execSt ty scr ord d an off s := rfl
@[simp] theorem exec_stPoison (scr : Bool) (ord : Ord) (an : R3) (off : BitVec 28) (s : State) :
    exec (.stPoison scr ord an off) s = execStPoison scr ord an off s := rfl
@[simp] theorem exec_stx (ty : StTy) (scr : Bool) (ord : Ord) (d : Reg) (an : R3) (x : Reg) (off : BitVec 7) (s : State) :
    exec (.stx ty scr ord d an x off) s = execStx ty scr ord d an x off s := rfl
@[simp] theorem exec_atomAdd (w : AWidth) (sp : ASpace) (ret : Bool) (d : Reg) (an : R3) (src : Reg) (s : State) :
    exec (.atomAdd w sp ret d an src) s = execAtomAdd w sp ret d an src s := rfl
@[simp] theorem exec_atomMinI (w : AWidth) (sp : ASpace) (ret : Bool) (d : Reg) (an : R3) (src : Reg) (s : State) :
    exec (.atomMinI w sp ret d an src) s = execAtomMinI w sp ret d an src s := rfl
@[simp] theorem exec_atomMinN (w : AWidth) (sp : ASpace) (ret : Bool) (d : Reg) (an : R3) (src : Reg) (s : State) :
    exec (.atomMinN w sp ret d an src) s = execAtomMinN w sp ret d an src s := rfl
@[simp] theorem exec_atomMaxI (w : AWidth) (sp : ASpace) (ret : Bool) (d : Reg) (an : R3) (src : Reg) (s : State) :
    exec (.atomMaxI w sp ret d an src) s = execAtomMaxI w sp ret d an src s := rfl
@[simp] theorem exec_atomMaxN (w : AWidth) (sp : ASpace) (ret : Bool) (d : Reg) (an : R3) (src : Reg) (s : State) :
    exec (.atomMaxN w sp ret d an src) s = execAtomMaxN w sp ret d an src s := rfl
@[simp] theorem exec_atomAnd (w : AWidth) (sp : ASpace) (ret : Bool) (d : Reg) (an : R3) (src : Reg) (s : State) :
    exec (.atomAnd w sp ret d an src) s = execAtomAnd w sp ret d an src s := rfl
@[simp] theorem exec_atomOr (w : AWidth) (sp : ASpace) (ret : Bool) (d : Reg) (an : R3) (src : Reg) (s : State) :
    exec (.atomOr w sp ret d an src) s = execAtomOr w sp ret d an src s := rfl
@[simp] theorem exec_atomXor (w : AWidth) (sp : ASpace) (ret : Bool) (d : Reg) (an : R3) (src : Reg) (s : State) :
    exec (.atomXor w sp ret d an src) s = execAtomXor w sp ret d an src s := rfl
@[simp] theorem exec_atomSwap (w : AWidth) (sp : ASpace) (ret : Bool) (d : Reg) (an : R3) (src : Reg) (s : State) :
    exec (.atomSwap w sp ret d an src) s = execAtomSwap w sp ret d an src s := rfl
@[simp] theorem exec_atomCas (w : AWidth) (sp : ASpace) (ret : Bool) (d : Reg) (an : R3) (src : Reg) (s : State) :
    exec (.atomCas w sp ret d an src) s = execAtomCas w sp ret d an src s := rfl
@[simp] theorem exec_atomFadd (w : AWidth) (sp : ASpace) (ret : Bool) (d : Reg) (an : R3) (src : Reg) (s : State) :
    exec (.atomFadd w sp ret d an src) s = execAtomFadd w sp ret d an src s := rfl
@[simp] theorem exec_adrAdda (ad : R3) (as_ : R3) (sh : Fin 5) (b : Reg) (s : State) :
    exec (.adrAdda ad as_ sh b) s = execAdrAdda ad as_ sh b s := rfl
@[simp] theorem exec_adrAddai (ad : R3) (as_ : R3) (imm : BitVec 38) (s : State) :
    exec (.adrAddai ad as_ imm) s = execAdrAddai ad as_ imm s := rfl
@[simp] theorem exec_adrMovawReg (ad : R3) (a : Reg) (b : Reg) (s : State) :
    exec (.adrMovawReg ad a b) s = execAdrMovawReg ad a b s := rfl
@[simp] theorem exec_adrMovawImm (ad : R3) (a : Reg) (span : BitVec 13) (s : State) :
    exec (.adrMovawImm ad a span) s = execAdrMovawImm ad a span s := rfl
@[simp] theorem exec_adrMovwa (d : Reg) (as_ : R3) (part : Bool) (s : State) :
    exec (.adrMovwa d as_ part) s = execAdrMovwa d as_ part s := rfl
@[simp] theorem exec_adrSpna (ad : R3) (b : Reg) (s : State) :
    exec (.adrSpna ad b) s = execAdrSpna ad b s := rfl
@[simp] theorem exec_adrCmpa (p : R3) (as1 : R3) (as2 : R3) (cond : ACond) (s : State) :
    exec (.adrCmpa p as1 as2 cond) s = execAdrCmpa p as1 as2 cond s := rfl
@[simp] theorem exec_acpCopy (a : Reg) (b : Reg) (s : State) :
    exec (.acpCopy a b) s = execAcpCopy a b s := rfl
@[simp] theorem exec_acpFill (a : Reg) (b : Reg) (s : State) :
    exec (.acpFill a b) s = execAcpFill a b s := rfl
@[simp] theorem exec_acpRing (a : Reg) (b : Reg) (s : State) :
    exec (.acpRing a b) s = execAcpRing a b s := rfl
@[simp] theorem exec_acpPfill (a : Reg) (b : Reg) (s : State) :
    exec (.acpPfill a b) s = execAcpPfill a b s := rfl
@[simp] theorem exec_mxRes (d : Reg) (a : Reg) (s : State) :
    exec (.mxRes d a) s = execMxRes d a s := rfl
@[simp] theorem exec_mxRel (a : Reg) (s : State) :
    exec (.mxRel a) s = execMxRel a s := rfl
@[simp] theorem exec_mxWld (a : Reg) (b : Reg) (s : State) :
    exec (.mxWld a b) s = execMxWld a b s := rfl
@[simp] theorem exec_mxTask (an : R3) (s : State) :
    exec (.mxTask an) s = execMxTask an s := rfl
@[simp] theorem exec_mxDep (an : R3) (b : Reg) (s : State) :
    exec (.mxDep an b) s = execMxDep an b s := rfl
@[simp] theorem exec_boInit (a : Reg) (b : Reg) (s : State) :
    exec (.boInit a b) s = execBoInit a b s := rfl
@[simp] theorem exec_boExpect (a : Reg) (b : Reg) (s : State) :
    exec (.boExpect a b) s = execBoExpect a b s := rfl
@[simp] theorem exec_boArrive (a : Reg) (b : Reg) (s : State) :
    exec (.boArrive a b) s = execBoArrive a b s := rfl
@[simp] theorem exec_boWait (a : Reg) (b : Reg) (s : State) :
    exec (.boWait a b) s = execBoWait a b s := rfl
@[simp] theorem exec_boTest (d : Reg) (a : Reg) (s : State) :
    exec (.boTest d a) s = execBoTest d a s := rfl
@[simp] theorem exec_boErr (d : Reg) (a : Reg) (s : State) :
    exec (.boErr d a) s = execBoErr d a s := rfl
@[simp] theorem exec_btEnroll (d : Reg) (an : R3) (b : Reg) (s : State) :
    exec (.btEnroll d an b) s = execBtEnroll d an b s := rfl
@[simp] theorem exec_btUnenroll (a : Reg) (s : State) :
    exec (.btUnenroll a) s = execBtUnenroll a s := rfl
@[simp] theorem exec_btReparent (a : Reg) (b : Reg) (s : State) :
    exec (.btReparent a b) s = execBtReparent a b s := rfl
@[simp] theorem exec_btSettle (d : Reg) (a : Reg) (s : State) :
    exec (.btSettle d a) s = execBtSettle d a s := rfl
@[simp] theorem exec_btRead (d : Reg) (a : Reg) (s : State) :
    exec (.btRead d a) s = execBtRead d a s := rfl
@[simp] theorem exec_btCmp (d : Reg) (a : Reg) (b : Reg) (s : State) :
    exec (.btCmp d a b) s = execBtCmp d a b s := rfl
@[simp] theorem exec_btReply (id : Nat) (s : State) :
    exec (.btReply id) s = execBtReply id s := rfl
@[simp] theorem exec_specialRegWrite (tr : Nat) (spec : Reg) (idx : Nat) (v : Word) (s : State) :
    exec (.specialRegWrite tr spec idx v) s = execSpecialRegWrite tr spec idx v s := rfl
@[simp] theorem exec_pholdWrite (v : Word) (s : State) :
    exec (.pholdWrite v) s = execPholdWrite v s := rfl
@[simp] theorem exec_pholdExpire (due : Nat) (s : State) :
    exec (.pholdExpire due) s = execPholdExpire due s := rfl
@[simp] theorem exec_loadReply (id : Nat) (s : State) :
    exec (.loadReply id) s = execLoadReply id s := rfl
@[simp] theorem exec_writeHomeApply (id : Nat) (s : State) :
    exec (.writeHomeApply id) s = execWriteHomeApply id s := rfl
@[simp] theorem exec_crossingDeliver (src : Nat) (dst : Nat) (s : State) :
    exec (.crossingDeliver src dst) s = execCrossingDeliver src dst s := rfl
@[simp] theorem exec_writeAck (id : Nat) (s : State) :
    exec (.writeAck id) s = execWriteAck id s := rfl
@[simp] theorem exec_fenceResume (tr : Nat) (s : State) :
    exec (.fenceResume tr) s = execFenceResume tr s := rfl
@[simp] theorem exec_spinWake (tr : Nat) (m : Mask) (due : Nat) (s : State) :
    exec (.spinWake tr m due) s = execSpinWake tr m due s := rfl
@[simp] theorem exec_yieldWindowEnd (tr : Nat) (due : Nat) (s : State) :
    exec (.yieldWindowEnd tr due) s = execYieldWindowEnd tr due s := rfl
@[simp] theorem exec_waitwWake (tr : Nat) (slot : Nat) (s : State) :
    exec (.waitwWake tr slot) s = execWaitwWake tr slot s := rfl
@[simp] theorem exec_waitwPoll (tr : Nat) (slot : Nat) (due : Nat) (s : State) :
    exec (.waitwPoll tr slot due) s = execWaitwPoll tr slot due s := rfl
@[simp] theorem exec_presenceWake (team : Nat) (line : Nat) (s : State) :
    exec (.presenceWake team line) s = execPresenceWake team line s := rfl
@[simp] theorem exec_queuePortWake (tr : Nat) (slot : Nat) (s : State) :
    exec (.queuePortWake tr slot) s = execQueuePortWake tr slot s := rfl
@[simp] theorem exec_escapeIssue (tr : Nat) (s : State) :
    exec (.escapeIssue tr) s = execEscapeIssue tr s := rfl
@[simp] theorem exec_agingStep (tr : Nat) (s : State) :
    exec (.agingStep tr) s = execAgingStep tr s := rfl
@[simp] theorem exec_translationWalkDone (id : Nat) (s : State) :
    exec (.translationWalkDone id) s = execTranslationWalkDone id s := rfl
@[simp] theorem exec_translationWalkFail (id : Nat) (s : State) :
    exec (.translationWalkFail id) s = execTranslationWalkFail id s := rfl
@[simp] theorem exec_trapEntry (tr : Nat) (s : State) :
    exec (.trapEntry tr) s = execTrapEntry tr s := rfl
@[simp] theorem exec_copyStart (core : Nat) (s : State) :
    exec (.copyStart core) s = execCopyStart core s := rfl
@[simp] theorem exec_copySetasideResume (core : Nat) (s : State) :
    exec (.copySetasideResume core) s = execCopySetasideResume core s := rfl
@[simp] theorem exec_copyComplete (id : Nat) (s : State) :
    exec (.copyComplete id) s = execCopyComplete id s := rfl
@[simp] theorem exec_pfillLineLand (id : Nat) (s : State) :
    exec (.pfillLineLand id) s = execPfillLineLand id s := rfl
@[simp] theorem exec_pfillComplete (id : Nat) (s : State) :
    exec (.pfillComplete id) s = execPfillComplete id s := rfl
@[simp] theorem exec_ringRotationStart (id : Nat) (s : State) :
    exec (.ringRotationStart id) s = execRingRotationStart id s := rfl
@[simp] theorem exec_ringRotationComplete (id : Nat) (s : State) :
    exec (.ringRotationComplete id) s = execRingRotationComplete id s := rfl
@[simp] theorem exec_wldComplete (id : Nat) (s : State) :
    exec (.wldComplete id) s = execWldComplete id s := rfl
@[simp] theorem exec_commandFail (id : Nat) (code : Nat) (s : State) :
    exec (.commandFail id code) s = execCommandFail id code s := rfl
@[simp] theorem exec_taskHeldEnqueue (core : Nat) (s : State) :
    exec (.taskHeldEnqueue core) s = execTaskHeldEnqueue core s := rfl
@[simp] theorem exec_taskStart (core : Nat) (s : State) :
    exec (.taskStart core) s = execTaskStart core s := rfl
@[simp] theorem exec_tileDrain (id : Nat) (s : State) :
    exec (.tileDrain id) s = execTileDrain id s := rfl
@[simp] theorem exec_addOnStoreUnit (id : Nat) (s : State) :
    exec (.addOnStoreUnit id) s = execAddOnStoreUnit id s := rfl
@[simp] theorem exec_taskComplete (id : Nat) (s : State) :
    exec (.taskComplete id) s = execTaskComplete id s := rfl
@[simp] theorem exec_taskFail (id : Nat) (code : Nat) (s : State) :
    exec (.taskFail id code) s = execTaskFail id code s := rfl
@[simp] theorem exec_retentionRefresh (team : Nat) (granule : Nat) (s : State) :
    exec (.retentionRefresh team granule) s = execRetentionRefresh team granule s := rfl
@[simp] theorem exec_retentionMarkExpired (team : Nat) (granule : Nat) (s : State) :
    exec (.retentionMarkExpired team granule) s = execRetentionMarkExpired team granule s := rfl
@[simp] theorem exec_bridleRollup (ctx : Nat) (node : Nat) (s : State) :
    exec (.bridleRollup ctx node) s = execBridleRollup ctx node s := rfl
@[simp] theorem exec_migrGrant (tr : Nat) (s : State) :
    exec (.migrGrant tr) s = execMigrGrant tr s := rfl
@[simp] theorem exec_migrWaitTimeout (tr : Nat) (due : Nat) (s : State) :
    exec (.migrWaitTimeout tr due) s = execMigrWaitTimeout tr due s := rfl
@[simp] theorem exec_migrLand (tr : Nat) (s : State) :
    exec (.migrLand tr) s = execMigrLand tr s := rfl
@[simp] theorem exec_teamRetire (team : Nat) (s : State) :
    exec (.teamRetire team) s = execTeamRetire team s := rfl
@[simp] theorem exec_launchComplete (launch : Nat) (s : State) :
    exec (.launchComplete launch) s = execLaunchComplete launch s := rfl
@[simp] theorem exec_admissionDecision (die : Nat) (s : State) :
    exec (.admissionDecision die) s = execAdmissionDecision die s := rfl
@[simp] theorem exec_teamBlocking (id : Nat) (due : Nat) (s : State) :
    exec (.teamBlocking id due) s = execTeamBlocking id due s := rfl
@[simp] theorem exec_teamYield (team : Nat) (s : State) :
    exec (.teamYield team) s = execTeamYield team s := rfl
@[simp] theorem exec_preemptRequest (team : Nat) (s : State) :
    exec (.preemptRequest team) s = execPreemptRequest team s := rfl
@[simp] theorem exec_evictSpill (team : Nat) (s : State) :
    exec (.evictSpill team) s = execEvictSpill team s := rfl
@[simp] theorem exec_spillDone (team : Nat) (s : State) :
    exec (.spillDone team) s = execSpillDone team s := rfl
@[simp] theorem exec_readmit (team : Nat) (core : Nat) (s : State) :
    exec (.readmit team core) s = execReadmit team core s := rfl
@[simp] theorem exec_redirectCount (team : Nat) (obj : Nat) (bytes : Nat) (tag : Bool) (code : Nat) (s : State) :
    exec (.redirectCount team obj bytes tag code) s = execRedirectCount team obj bytes tag code s := rfl
@[simp] theorem exec_packetWindowFetch (slot : Nat) (s : State) :
    exec (.packetWindowFetch slot) s = execPacketWindowFetch slot s := rfl
@[simp] theorem exec_packetNop (slot : Nat) (s : State) :
    exec (.packetNop slot) s = execPacketNop slot s := rfl
@[simp] theorem exec_packetLaunch (slot : Nat) (s : State) :
    exec (.packetLaunch slot) s = execPacketLaunch slot s := rfl
@[simp] theorem exec_packetLaunch2 (slot : Nat) (s : State) :
    exec (.packetLaunch2 slot) s = execPacketLaunch2 slot s := rfl
@[simp] theorem exec_packetIb (slot : Nat) (s : State) :
    exec (.packetIb slot) s = execPacketIb slot s := rfl
@[simp] theorem exec_packetPred (slot : Nat) (s : State) :
    exec (.packetPred slot) s = execPacketPred slot s := rfl
@[simp] theorem exec_packetLoop (slot : Nat) (s : State) :
    exec (.packetLoop slot) s = execPacketLoop slot s := rfl
@[simp] theorem exec_packetFfence (slot : Nat) (s : State) :
    exec (.packetFfence slot) s = execPacketFfence slot s := rfl
@[simp] theorem exec_packetWaitmem (slot : Nat) (s : State) :
    exec (.packetWaitmem slot) s = execPacketWaitmem slot s := rfl
@[simp] theorem exec_waitmemRecheck (slot : Nat) (due : Nat) (s : State) :
    exec (.waitmemRecheck slot due) s = execWaitmemRecheck slot due s := rfl
@[simp] theorem exec_packetWrite (slot : Nat) (s : State) :
    exec (.packetWrite slot) s = execPacketWrite slot s := rfl
@[simp] theorem exec_packetSignalBobj (slot : Nat) (s : State) :
    exec (.packetSignalBobj slot) s = execPacketSignalBobj slot s := rfl
@[simp] theorem exec_packetSignalWake (slot : Nat) (s : State) :
    exec (.packetSignalWake slot) s = execPacketSignalWake slot s := rfl
@[simp] theorem exec_prologueRunaway (unit : Nat) (s : State) :
    exec (.prologueRunaway unit) s = execPrologueRunaway unit s := rfl
@[simp] theorem exec_dlaunchProcess (ctx : Nat) (s : State) :
    exec (.dlaunchProcess ctx) s = execDlaunchProcess ctx s := rfl
@[simp] theorem exec_remoteAccessTimeout (id : Nat) (s : State) :
    exec (.remoteAccessTimeout id) s = execRemoteAccessTimeout id s := rfl
@[simp] theorem exec_correctedRecordFlush (unit : Nat) (due : Nat) (s : State) :
    exec (.correctedRecordFlush unit due) s = execCorrectedRecordFlush unit due s := rfl
@[simp] theorem exec_auditReplay (id : Nat) (s : State) :
    exec (.auditReplay id) s = execAuditReplay id s := rfl
@[simp] theorem exec_selfTest (u : HwUnit) (s : State) :
    exec (.selfTest u) s = execSelfTest u s := rfl
@[simp] theorem exec_unitRetire (u : HwUnit) (s : State) :
    exec (.unitRetire u) s = execUnitRetire u s := rfl
@[simp] theorem exec_remapStep (core : Nat) (s : State) :
    exec (.remapStep core) s = execRemapStep core s := rfl
@[simp] theorem exec_coreQuiesce (core : Nat) (s : State) :
    exec (.coreQuiesce core) s = execCoreQuiesce core s := rfl
@[simp] theorem exec_sharedTranslationHit (id : Nat) (s : State) :
    exec (.sharedTranslationHit id) s = execSharedTranslationHit id s := rfl
@[simp] theorem exec_selfTestComplete (u : HwUnit) (lasting : Bool) (s : State) :
    exec (.selfTestComplete u lasting) s = execSelfTestComplete u lasting s := rfl
@[simp] theorem exec_sysNop (s : State) :
    exec (.sysNop) s = execSysNop s := rfl
@[simp] theorem exec_sysExit (s : State) :
    exec (.sysExit) s = execSysExit s := rfl
@[simp] theorem exec_sysEret (s : State) :
    exec (.sysEret) s = execSysEret s := rfl
@[simp] theorem exec_sysBrk (s : State) :
    exec (.sysBrk) s = execSysBrk s := rfl
@[simp] theorem exec_sysSpin (s : State) :
    exec (.sysSpin) s = execSysSpin s := rfl
@[simp] theorem exec_sysYield (s : State) :
    exec (.sysYield) s = execSysYield s := rfl
@[simp] theorem exec_sysLcommit (s : State) :
    exec (.sysLcommit) s = execSysLcommit s := rfl
@[simp] theorem exec_sysLcancel (s : State) :
    exec (.sysLcancel) s = execSysLcancel s := rfl
@[simp] theorem exec_sysLrepeat (s : State) :
    exec (.sysLrepeat) s = execSysLrepeat s := rfl
@[simp] theorem exec_deviceBoot (s : State) :
    exec (.deviceBoot) s = execDeviceBoot s := rfl
@[simp] theorem exec_errorRecordPost (s : State) :
    exec (.errorRecordPost) s = execErrorRecordPost s := rfl
@[simp] theorem exec_dailyReplan (s : State) :
    exec (.dailyReplan) s = execDailyReplan s := rfl
@[simp] theorem exec_contextCreate (c : CtxSpec) (s : State) :
    exec (.contextCreate c) s = execContextCreate c s := rfl
@[simp] theorem exec_budgetWrite (ctx : Nat) (b : Budget) (s : State) :
    exec (.budgetWrite ctx b) s = execBudgetWrite ctx b s := rfl
@[simp] theorem exec_hostAccess (acc : HostAcc) (s : State) :
    exec (.hostAccess acc) s = execHostAccess acc s := rfl
@[simp] theorem exec_keySlotLoad (msg : KeyMsg) (s : State) :
    exec (.keySlotLoad msg) s = execKeySlotLoad msg s := rfl
@[simp] theorem exec_attestationReport (nonce : BitVec 256) (s : State) :
    exec (.attestationReport nonce) s = execAttestationReport nonce s := rfl
@[simp] theorem exec_auditSet (ctx : Nat) (on : Bool) (n : BitVec 5) (s : State) :
    exec (.auditSet ctx on n) s = execAuditSet ctx on n s := rfl
@[simp] theorem exec_bitError (place : HalfPlace) (bit : Nat) (s : State) :
    exec (.bitError place bit) s = execBitError place bit s := rfl
@[simp] theorem exec_queueMap (ctx : Nat) (desc : Word) (slot : Nat) (s : State) :
    exec (.queueMap ctx desc slot) s = execQueueMap ctx desc slot s := rfl
@[simp] theorem exec_queueUnmap (slot : Nat) (s : State) :
    exec (.queueUnmap slot) s = execQueueUnmap slot s := rfl
@[simp] theorem exec_queueRemap (ctx : Nat) (desc : Word) (slot : Nat) (s : State) :
    exec (.queueRemap ctx desc slot) s = execQueueRemap ctx desc slot s := rfl
@[simp] theorem exec_wakeWrite (ctx : Nat) (slot : Nat) (v : Word) (s : State) :
    exec (.wakeWrite ctx slot v) s = execWakeWrite ctx slot v s := rfl
@[simp] theorem exec_contextStop (ctx : Nat) (s : State) :
    exec (.contextStop ctx) s = execContextStop ctx s := rfl
@[simp] theorem exec_contextSuspend (ctx : Nat) (s : State) :
    exec (.contextSuspend ctx) s = execContextSuspend ctx s := rfl
@[simp] theorem exec_contextResume (ctx : Nat) (s : State) :
    exec (.contextResume ctx) s = execContextResume ctx s := rfl
@[simp] theorem exec_contextTeardown (ctx : Nat) (s : State) :
    exec (.contextTeardown ctx) s = execContextTeardown ctx s := rfl
@[simp] theorem exec_faultServiceReply (id : Nat) (pa : Nat) (entry : Option Word) (s : State) :
    exec (.faultServiceReply id pa entry) s = execFaultServiceReply id pa entry s := rfl
@[simp] theorem exec_translationInvalidate (ctx : Nat) (pa : Nat) (entry : Word) (s : State) :
    exec (.translationInvalidate ctx pa entry) s = execTranslationInvalidate ctx pa entry s := rfl

end Sys2Proof.Laws
end

