-- ==== Sys2Proof/Laws/State.lean ====
section
/-! SUPPORT. What each update of the state leaves as it was: one lemma for each field, and what it sets. -/

namespace Sys2Proof.Laws
open Sys2Proof Sys2Proof.Machine

variable (s : State)

@[simp] theorem setTrain_now (t : Train) : (setTrain s t).now = s.now := rfl
@[simp] theorem setTrain_tick (t : Train) : (setTrain s t).tick = s.tick := rfl
@[simp] theorem setTrain_nextId (t : Train) : (setTrain s t).nextId = s.nextId := rfl
@[simp] theorem setTrain_booted (t : Train) : (setTrain s t).booted = s.booted := rfl
@[simp] theorem setTrain_measure (t : Train) : (setTrain s t).measure = s.measure := rfl
@[simp] theorem setTrain_encKey (t : Train) : (setTrain s t).encKey = s.encKey := rfl
@[simp] theorem setTrain_memAlive (t : Train) : (setTrain s t).memAlive = s.memAlive := rfl
@[simp] theorem setTrain_corAlive (t : Train) : (setTrain s t).corAlive = s.corAlive := rfl
@[simp] theorem setTrain_margin (t : Train) : (setTrain s t).margin = s.margin := rfl
@[simp] theorem setTrain_tokenWait (t : Train) : (setTrain s t).tokenWait = s.tokenWait := rfl
@[simp] theorem setTrain_hold (t : Train) : (setTrain s t).hold = s.hold := rfl
@[simp] theorem setTrain_keys (t : Train) : (setTrain s t).keys = s.keys := rfl
@[simp] theorem setTrain_keyCtx (t : Train) : (setTrain s t).keyCtx = s.keyCtx := rfl
@[simp] theorem setTrain_mem (t : Train) : (setTrain s t).mem = s.mem := rfl
@[simp] theorem setTrain_mcond (t : Train) : (setTrain s t).mcond = s.mcond := rfl
@[simp] theorem setTrain_mkey (t : Train) : (setTrain s t).mkey = s.mkey := rfl
@[simp] theorem setTrain_clocks (t : Train) : (setTrain s t).clocks = s.clocks := rfl
@[simp] theorem setTrain_reqs (t : Train) : (setTrain s t).reqs = s.reqs := rfl
@[simp] theorem setTrain_xings (t : Train) : (setTrain s t).xings = s.xings := rfl
@[simp] theorem setTrain_walks (t : Train) : (setTrain s t).walks = s.walks := rfl
@[simp] theorem setTrain_shared (t : Train) : (setTrain s t).shared = s.shared := rfl
@[simp] theorem setTrain_cores (t : Train) : (setTrain s t).cores = s.cores := rfl
@[simp] theorem setTrain_ctxs (t : Train) : (setTrain s t).ctxs = s.ctxs := rfl
@[simp] theorem setTrain_launches (t : Train) : (setTrain s t).launches = s.launches := rfl
@[simp] theorem setTrain_teams (t : Train) : (setTrain s t).teams = s.teams := rfl
@[simp] theorem setTrain_queues (t : Train) : (setTrain s t).queues = s.queues := rfl
@[simp] theorem setTrain_cmds (t : Train) : (setTrain s t).cmds = s.cmds := rfl
@[simp] theorem setTrain_tasks (t : Train) : (setTrain s t).tasks = s.tasks := rfl
@[simp] theorem setTrain_heldDecs (t : Train) : (setTrain s t).heldDecs = s.heldDecs := rfl
@[simp] theorem setTrain_errs (t : Train) : (setTrain s t).errs = s.errs := rfl
@[simp] theorem setTrain_held (t : Train) : (setTrain s t).held = s.held := rfl
@[simp] theorem setTrain_samples (t : Train) : (setTrain s t).samples = s.samples := rfl
@[simp] theorem setTrain_seq (t : Train) : (setTrain s t).seq = s.seq := rfl
@[simp] theorem setTrain_toks (t : Train) : (setTrain s t).toks = s.toks := rfl
@[simp] theorem setTrain_owned (t : Train) : (setTrain s t).owned = s.owned := rfl
@[simp] theorem setTrain_links (t : Train) : (setTrain s t).links = s.links := rfl
@[simp] theorem setTrain_reports (t : Train) : (setTrain s t).reports = s.reports := rfl
@[simp] theorem setTrain_redirects (t : Train) : (setTrain s t).redirects = s.redirects := rfl
@[simp] theorem setTrain_lastAdmit (t : Train) : (setTrain s t).lastAdmit = s.lastAdmit := rfl
@[simp] theorem setTrain_served (t : Train) : (setTrain s t).served = s.served := rfl
@[simp] theorem setTrain_lastServed (t : Train) : (setTrain s t).lastServed = s.lastServed := rfl
@[simp] theorem setTrain_inputs (t : Train) : (setTrain s t).inputs = s.inputs := rfl
@[simp] theorem setTrain_agenda (t : Train) : (setTrain s t).agenda = s.agenda := rfl
@[simp] theorem setTrain_iss (t : Train) : (setTrain s t).iss = s.iss := rfl

@[simp] theorem modTrain_now (n : Nat) (f : Train → Train) : (modTrain s n f).now = s.now := rfl
@[simp] theorem modTrain_tick (n : Nat) (f : Train → Train) : (modTrain s n f).tick = s.tick := rfl
@[simp] theorem modTrain_nextId (n : Nat) (f : Train → Train) : (modTrain s n f).nextId = s.nextId := rfl
@[simp] theorem modTrain_booted (n : Nat) (f : Train → Train) : (modTrain s n f).booted = s.booted := rfl
@[simp] theorem modTrain_measure (n : Nat) (f : Train → Train) : (modTrain s n f).measure = s.measure := rfl
@[simp] theorem modTrain_encKey (n : Nat) (f : Train → Train) : (modTrain s n f).encKey = s.encKey := rfl
@[simp] theorem modTrain_memAlive (n : Nat) (f : Train → Train) : (modTrain s n f).memAlive = s.memAlive := rfl
@[simp] theorem modTrain_corAlive (n : Nat) (f : Train → Train) : (modTrain s n f).corAlive = s.corAlive := rfl
@[simp] theorem modTrain_margin (n : Nat) (f : Train → Train) : (modTrain s n f).margin = s.margin := rfl
@[simp] theorem modTrain_tokenWait (n : Nat) (f : Train → Train) : (modTrain s n f).tokenWait = s.tokenWait := rfl
@[simp] theorem modTrain_hold (n : Nat) (f : Train → Train) : (modTrain s n f).hold = s.hold := rfl
@[simp] theorem modTrain_keys (n : Nat) (f : Train → Train) : (modTrain s n f).keys = s.keys := rfl
@[simp] theorem modTrain_keyCtx (n : Nat) (f : Train → Train) : (modTrain s n f).keyCtx = s.keyCtx := rfl
@[simp] theorem modTrain_mem (n : Nat) (f : Train → Train) : (modTrain s n f).mem = s.mem := rfl
@[simp] theorem modTrain_mcond (n : Nat) (f : Train → Train) : (modTrain s n f).mcond = s.mcond := rfl
@[simp] theorem modTrain_mkey (n : Nat) (f : Train → Train) : (modTrain s n f).mkey = s.mkey := rfl
@[simp] theorem modTrain_clocks (n : Nat) (f : Train → Train) : (modTrain s n f).clocks = s.clocks := rfl
@[simp] theorem modTrain_reqs (n : Nat) (f : Train → Train) : (modTrain s n f).reqs = s.reqs := rfl
@[simp] theorem modTrain_xings (n : Nat) (f : Train → Train) : (modTrain s n f).xings = s.xings := rfl
@[simp] theorem modTrain_walks (n : Nat) (f : Train → Train) : (modTrain s n f).walks = s.walks := rfl
@[simp] theorem modTrain_shared (n : Nat) (f : Train → Train) : (modTrain s n f).shared = s.shared := rfl
@[simp] theorem modTrain_cores (n : Nat) (f : Train → Train) : (modTrain s n f).cores = s.cores := rfl
@[simp] theorem modTrain_ctxs (n : Nat) (f : Train → Train) : (modTrain s n f).ctxs = s.ctxs := rfl
@[simp] theorem modTrain_launches (n : Nat) (f : Train → Train) : (modTrain s n f).launches = s.launches := rfl
@[simp] theorem modTrain_teams (n : Nat) (f : Train → Train) : (modTrain s n f).teams = s.teams := rfl
@[simp] theorem modTrain_queues (n : Nat) (f : Train → Train) : (modTrain s n f).queues = s.queues := rfl
@[simp] theorem modTrain_cmds (n : Nat) (f : Train → Train) : (modTrain s n f).cmds = s.cmds := rfl
@[simp] theorem modTrain_tasks (n : Nat) (f : Train → Train) : (modTrain s n f).tasks = s.tasks := rfl
@[simp] theorem modTrain_heldDecs (n : Nat) (f : Train → Train) : (modTrain s n f).heldDecs = s.heldDecs := rfl
@[simp] theorem modTrain_errs (n : Nat) (f : Train → Train) : (modTrain s n f).errs = s.errs := rfl
@[simp] theorem modTrain_held (n : Nat) (f : Train → Train) : (modTrain s n f).held = s.held := rfl
@[simp] theorem modTrain_samples (n : Nat) (f : Train → Train) : (modTrain s n f).samples = s.samples := rfl
@[simp] theorem modTrain_seq (n : Nat) (f : Train → Train) : (modTrain s n f).seq = s.seq := rfl
@[simp] theorem modTrain_toks (n : Nat) (f : Train → Train) : (modTrain s n f).toks = s.toks := rfl
@[simp] theorem modTrain_owned (n : Nat) (f : Train → Train) : (modTrain s n f).owned = s.owned := rfl
@[simp] theorem modTrain_links (n : Nat) (f : Train → Train) : (modTrain s n f).links = s.links := rfl
@[simp] theorem modTrain_reports (n : Nat) (f : Train → Train) : (modTrain s n f).reports = s.reports := rfl
@[simp] theorem modTrain_redirects (n : Nat) (f : Train → Train) : (modTrain s n f).redirects = s.redirects := rfl
@[simp] theorem modTrain_lastAdmit (n : Nat) (f : Train → Train) : (modTrain s n f).lastAdmit = s.lastAdmit := rfl
@[simp] theorem modTrain_served (n : Nat) (f : Train → Train) : (modTrain s n f).served = s.served := rfl
@[simp] theorem modTrain_lastServed (n : Nat) (f : Train → Train) : (modTrain s n f).lastServed = s.lastServed := rfl
@[simp] theorem modTrain_inputs (n : Nat) (f : Train → Train) : (modTrain s n f).inputs = s.inputs := rfl
@[simp] theorem modTrain_agenda (n : Nat) (f : Train → Train) : (modTrain s n f).agenda = s.agenda := rfl
@[simp] theorem modTrain_iss (n : Nat) (f : Train → Train) : (modTrain s n f).iss = s.iss := rfl

@[simp] theorem setTeam_now (t : Team) : (setTeam s t).now = s.now := rfl
@[simp] theorem setTeam_tick (t : Team) : (setTeam s t).tick = s.tick := rfl
@[simp] theorem setTeam_nextId (t : Team) : (setTeam s t).nextId = s.nextId := rfl
@[simp] theorem setTeam_booted (t : Team) : (setTeam s t).booted = s.booted := rfl
@[simp] theorem setTeam_measure (t : Team) : (setTeam s t).measure = s.measure := rfl
@[simp] theorem setTeam_encKey (t : Team) : (setTeam s t).encKey = s.encKey := rfl
@[simp] theorem setTeam_memAlive (t : Team) : (setTeam s t).memAlive = s.memAlive := rfl
@[simp] theorem setTeam_corAlive (t : Team) : (setTeam s t).corAlive = s.corAlive := rfl
@[simp] theorem setTeam_margin (t : Team) : (setTeam s t).margin = s.margin := rfl
@[simp] theorem setTeam_tokenWait (t : Team) : (setTeam s t).tokenWait = s.tokenWait := rfl
@[simp] theorem setTeam_hold (t : Team) : (setTeam s t).hold = s.hold := rfl
@[simp] theorem setTeam_keys (t : Team) : (setTeam s t).keys = s.keys := rfl
@[simp] theorem setTeam_keyCtx (t : Team) : (setTeam s t).keyCtx = s.keyCtx := rfl
@[simp] theorem setTeam_mem (t : Team) : (setTeam s t).mem = s.mem := rfl
@[simp] theorem setTeam_mcond (t : Team) : (setTeam s t).mcond = s.mcond := rfl
@[simp] theorem setTeam_mkey (t : Team) : (setTeam s t).mkey = s.mkey := rfl
@[simp] theorem setTeam_clocks (t : Team) : (setTeam s t).clocks = s.clocks := rfl
@[simp] theorem setTeam_reqs (t : Team) : (setTeam s t).reqs = s.reqs := rfl
@[simp] theorem setTeam_xings (t : Team) : (setTeam s t).xings = s.xings := rfl
@[simp] theorem setTeam_walks (t : Team) : (setTeam s t).walks = s.walks := rfl
@[simp] theorem setTeam_shared (t : Team) : (setTeam s t).shared = s.shared := rfl
@[simp] theorem setTeam_cores (t : Team) : (setTeam s t).cores = s.cores := rfl
@[simp] theorem setTeam_ctxs (t : Team) : (setTeam s t).ctxs = s.ctxs := rfl
@[simp] theorem setTeam_launches (t : Team) : (setTeam s t).launches = s.launches := rfl
@[simp] theorem setTeam_trains (t : Team) : (setTeam s t).trains = s.trains := rfl
@[simp] theorem setTeam_queues (t : Team) : (setTeam s t).queues = s.queues := rfl
@[simp] theorem setTeam_cmds (t : Team) : (setTeam s t).cmds = s.cmds := rfl
@[simp] theorem setTeam_tasks (t : Team) : (setTeam s t).tasks = s.tasks := rfl
@[simp] theorem setTeam_heldDecs (t : Team) : (setTeam s t).heldDecs = s.heldDecs := rfl
@[simp] theorem setTeam_errs (t : Team) : (setTeam s t).errs = s.errs := rfl
@[simp] theorem setTeam_held (t : Team) : (setTeam s t).held = s.held := rfl
@[simp] theorem setTeam_samples (t : Team) : (setTeam s t).samples = s.samples := rfl
@[simp] theorem setTeam_seq (t : Team) : (setTeam s t).seq = s.seq := rfl
@[simp] theorem setTeam_toks (t : Team) : (setTeam s t).toks = s.toks := rfl
@[simp] theorem setTeam_owned (t : Team) : (setTeam s t).owned = s.owned := rfl
@[simp] theorem setTeam_links (t : Team) : (setTeam s t).links = s.links := rfl
@[simp] theorem setTeam_reports (t : Team) : (setTeam s t).reports = s.reports := rfl
@[simp] theorem setTeam_redirects (t : Team) : (setTeam s t).redirects = s.redirects := rfl
@[simp] theorem setTeam_lastAdmit (t : Team) : (setTeam s t).lastAdmit = s.lastAdmit := rfl
@[simp] theorem setTeam_served (t : Team) : (setTeam s t).served = s.served := rfl
@[simp] theorem setTeam_lastServed (t : Team) : (setTeam s t).lastServed = s.lastServed := rfl
@[simp] theorem setTeam_inputs (t : Team) : (setTeam s t).inputs = s.inputs := rfl
@[simp] theorem setTeam_agenda (t : Team) : (setTeam s t).agenda = s.agenda := rfl
@[simp] theorem setTeam_iss (t : Team) : (setTeam s t).iss = s.iss := rfl

@[simp] theorem modTeam_now (n : Nat) (f : Team → Team) : (modTeam s n f).now = s.now := rfl
@[simp] theorem modTeam_tick (n : Nat) (f : Team → Team) : (modTeam s n f).tick = s.tick := rfl
@[simp] theorem modTeam_nextId (n : Nat) (f : Team → Team) : (modTeam s n f).nextId = s.nextId := rfl
@[simp] theorem modTeam_booted (n : Nat) (f : Team → Team) : (modTeam s n f).booted = s.booted := rfl
@[simp] theorem modTeam_measure (n : Nat) (f : Team → Team) : (modTeam s n f).measure = s.measure := rfl
@[simp] theorem modTeam_encKey (n : Nat) (f : Team → Team) : (modTeam s n f).encKey = s.encKey := rfl
@[simp] theorem modTeam_memAlive (n : Nat) (f : Team → Team) : (modTeam s n f).memAlive = s.memAlive := rfl
@[simp] theorem modTeam_corAlive (n : Nat) (f : Team → Team) : (modTeam s n f).corAlive = s.corAlive := rfl
@[simp] theorem modTeam_margin (n : Nat) (f : Team → Team) : (modTeam s n f).margin = s.margin := rfl
@[simp] theorem modTeam_tokenWait (n : Nat) (f : Team → Team) : (modTeam s n f).tokenWait = s.tokenWait := rfl
@[simp] theorem modTeam_hold (n : Nat) (f : Team → Team) : (modTeam s n f).hold = s.hold := rfl
@[simp] theorem modTeam_keys (n : Nat) (f : Team → Team) : (modTeam s n f).keys = s.keys := rfl
@[simp] theorem modTeam_keyCtx (n : Nat) (f : Team → Team) : (modTeam s n f).keyCtx = s.keyCtx := rfl
@[simp] theorem modTeam_mem (n : Nat) (f : Team → Team) : (modTeam s n f).mem = s.mem := rfl
@[simp] theorem modTeam_mcond (n : Nat) (f : Team → Team) : (modTeam s n f).mcond = s.mcond := rfl
@[simp] theorem modTeam_mkey (n : Nat) (f : Team → Team) : (modTeam s n f).mkey = s.mkey := rfl
@[simp] theorem modTeam_clocks (n : Nat) (f : Team → Team) : (modTeam s n f).clocks = s.clocks := rfl
@[simp] theorem modTeam_reqs (n : Nat) (f : Team → Team) : (modTeam s n f).reqs = s.reqs := rfl
@[simp] theorem modTeam_xings (n : Nat) (f : Team → Team) : (modTeam s n f).xings = s.xings := rfl
@[simp] theorem modTeam_walks (n : Nat) (f : Team → Team) : (modTeam s n f).walks = s.walks := rfl
@[simp] theorem modTeam_shared (n : Nat) (f : Team → Team) : (modTeam s n f).shared = s.shared := rfl
@[simp] theorem modTeam_cores (n : Nat) (f : Team → Team) : (modTeam s n f).cores = s.cores := rfl
@[simp] theorem modTeam_ctxs (n : Nat) (f : Team → Team) : (modTeam s n f).ctxs = s.ctxs := rfl
@[simp] theorem modTeam_launches (n : Nat) (f : Team → Team) : (modTeam s n f).launches = s.launches := rfl
@[simp] theorem modTeam_trains (n : Nat) (f : Team → Team) : (modTeam s n f).trains = s.trains := rfl
@[simp] theorem modTeam_queues (n : Nat) (f : Team → Team) : (modTeam s n f).queues = s.queues := rfl
@[simp] theorem modTeam_cmds (n : Nat) (f : Team → Team) : (modTeam s n f).cmds = s.cmds := rfl
@[simp] theorem modTeam_tasks (n : Nat) (f : Team → Team) : (modTeam s n f).tasks = s.tasks := rfl
@[simp] theorem modTeam_heldDecs (n : Nat) (f : Team → Team) : (modTeam s n f).heldDecs = s.heldDecs := rfl
@[simp] theorem modTeam_errs (n : Nat) (f : Team → Team) : (modTeam s n f).errs = s.errs := rfl
@[simp] theorem modTeam_held (n : Nat) (f : Team → Team) : (modTeam s n f).held = s.held := rfl
@[simp] theorem modTeam_samples (n : Nat) (f : Team → Team) : (modTeam s n f).samples = s.samples := rfl
@[simp] theorem modTeam_seq (n : Nat) (f : Team → Team) : (modTeam s n f).seq = s.seq := rfl
@[simp] theorem modTeam_toks (n : Nat) (f : Team → Team) : (modTeam s n f).toks = s.toks := rfl
@[simp] theorem modTeam_owned (n : Nat) (f : Team → Team) : (modTeam s n f).owned = s.owned := rfl
@[simp] theorem modTeam_links (n : Nat) (f : Team → Team) : (modTeam s n f).links = s.links := rfl
@[simp] theorem modTeam_reports (n : Nat) (f : Team → Team) : (modTeam s n f).reports = s.reports := rfl
@[simp] theorem modTeam_redirects (n : Nat) (f : Team → Team) : (modTeam s n f).redirects = s.redirects := rfl
@[simp] theorem modTeam_lastAdmit (n : Nat) (f : Team → Team) : (modTeam s n f).lastAdmit = s.lastAdmit := rfl
@[simp] theorem modTeam_served (n : Nat) (f : Team → Team) : (modTeam s n f).served = s.served := rfl
@[simp] theorem modTeam_lastServed (n : Nat) (f : Team → Team) : (modTeam s n f).lastServed = s.lastServed := rfl
@[simp] theorem modTeam_inputs (n : Nat) (f : Team → Team) : (modTeam s n f).inputs = s.inputs := rfl
@[simp] theorem modTeam_agenda (n : Nat) (f : Team → Team) : (modTeam s n f).agenda = s.agenda := rfl
@[simp] theorem modTeam_iss (n : Nat) (f : Team → Team) : (modTeam s n f).iss = s.iss := rfl

@[simp] theorem modCtx_now (n : Nat) (f : Ctx → Ctx) : (modCtx s n f).now = s.now := rfl
@[simp] theorem modCtx_tick (n : Nat) (f : Ctx → Ctx) : (modCtx s n f).tick = s.tick := rfl
@[simp] theorem modCtx_nextId (n : Nat) (f : Ctx → Ctx) : (modCtx s n f).nextId = s.nextId := rfl
@[simp] theorem modCtx_booted (n : Nat) (f : Ctx → Ctx) : (modCtx s n f).booted = s.booted := rfl
@[simp] theorem modCtx_measure (n : Nat) (f : Ctx → Ctx) : (modCtx s n f).measure = s.measure := rfl
@[simp] theorem modCtx_encKey (n : Nat) (f : Ctx → Ctx) : (modCtx s n f).encKey = s.encKey := rfl
@[simp] theorem modCtx_memAlive (n : Nat) (f : Ctx → Ctx) : (modCtx s n f).memAlive = s.memAlive := rfl
@[simp] theorem modCtx_corAlive (n : Nat) (f : Ctx → Ctx) : (modCtx s n f).corAlive = s.corAlive := rfl
@[simp] theorem modCtx_margin (n : Nat) (f : Ctx → Ctx) : (modCtx s n f).margin = s.margin := rfl
@[simp] theorem modCtx_tokenWait (n : Nat) (f : Ctx → Ctx) : (modCtx s n f).tokenWait = s.tokenWait := rfl
@[simp] theorem modCtx_hold (n : Nat) (f : Ctx → Ctx) : (modCtx s n f).hold = s.hold := rfl
@[simp] theorem modCtx_keys (n : Nat) (f : Ctx → Ctx) : (modCtx s n f).keys = s.keys := rfl
@[simp] theorem modCtx_keyCtx (n : Nat) (f : Ctx → Ctx) : (modCtx s n f).keyCtx = s.keyCtx := rfl
@[simp] theorem modCtx_mem (n : Nat) (f : Ctx → Ctx) : (modCtx s n f).mem = s.mem := rfl
@[simp] theorem modCtx_mcond (n : Nat) (f : Ctx → Ctx) : (modCtx s n f).mcond = s.mcond := rfl
@[simp] theorem modCtx_mkey (n : Nat) (f : Ctx → Ctx) : (modCtx s n f).mkey = s.mkey := rfl
@[simp] theorem modCtx_clocks (n : Nat) (f : Ctx → Ctx) : (modCtx s n f).clocks = s.clocks := rfl
@[simp] theorem modCtx_reqs (n : Nat) (f : Ctx → Ctx) : (modCtx s n f).reqs = s.reqs := rfl
@[simp] theorem modCtx_xings (n : Nat) (f : Ctx → Ctx) : (modCtx s n f).xings = s.xings := rfl
@[simp] theorem modCtx_walks (n : Nat) (f : Ctx → Ctx) : (modCtx s n f).walks = s.walks := rfl
@[simp] theorem modCtx_shared (n : Nat) (f : Ctx → Ctx) : (modCtx s n f).shared = s.shared := rfl
@[simp] theorem modCtx_cores (n : Nat) (f : Ctx → Ctx) : (modCtx s n f).cores = s.cores := rfl
@[simp] theorem modCtx_launches (n : Nat) (f : Ctx → Ctx) : (modCtx s n f).launches = s.launches := rfl
@[simp] theorem modCtx_teams (n : Nat) (f : Ctx → Ctx) : (modCtx s n f).teams = s.teams := rfl
@[simp] theorem modCtx_trains (n : Nat) (f : Ctx → Ctx) : (modCtx s n f).trains = s.trains := rfl
@[simp] theorem modCtx_queues (n : Nat) (f : Ctx → Ctx) : (modCtx s n f).queues = s.queues := rfl
@[simp] theorem modCtx_cmds (n : Nat) (f : Ctx → Ctx) : (modCtx s n f).cmds = s.cmds := rfl
@[simp] theorem modCtx_tasks (n : Nat) (f : Ctx → Ctx) : (modCtx s n f).tasks = s.tasks := rfl
@[simp] theorem modCtx_heldDecs (n : Nat) (f : Ctx → Ctx) : (modCtx s n f).heldDecs = s.heldDecs := rfl
@[simp] theorem modCtx_errs (n : Nat) (f : Ctx → Ctx) : (modCtx s n f).errs = s.errs := rfl
@[simp] theorem modCtx_held (n : Nat) (f : Ctx → Ctx) : (modCtx s n f).held = s.held := rfl
@[simp] theorem modCtx_samples (n : Nat) (f : Ctx → Ctx) : (modCtx s n f).samples = s.samples := rfl
@[simp] theorem modCtx_seq (n : Nat) (f : Ctx → Ctx) : (modCtx s n f).seq = s.seq := rfl
@[simp] theorem modCtx_toks (n : Nat) (f : Ctx → Ctx) : (modCtx s n f).toks = s.toks := rfl
@[simp] theorem modCtx_owned (n : Nat) (f : Ctx → Ctx) : (modCtx s n f).owned = s.owned := rfl
@[simp] theorem modCtx_links (n : Nat) (f : Ctx → Ctx) : (modCtx s n f).links = s.links := rfl
@[simp] theorem modCtx_reports (n : Nat) (f : Ctx → Ctx) : (modCtx s n f).reports = s.reports := rfl
@[simp] theorem modCtx_redirects (n : Nat) (f : Ctx → Ctx) : (modCtx s n f).redirects = s.redirects := rfl
@[simp] theorem modCtx_lastAdmit (n : Nat) (f : Ctx → Ctx) : (modCtx s n f).lastAdmit = s.lastAdmit := rfl
@[simp] theorem modCtx_served (n : Nat) (f : Ctx → Ctx) : (modCtx s n f).served = s.served := rfl
@[simp] theorem modCtx_lastServed (n : Nat) (f : Ctx → Ctx) : (modCtx s n f).lastServed = s.lastServed := rfl
@[simp] theorem modCtx_inputs (n : Nat) (f : Ctx → Ctx) : (modCtx s n f).inputs = s.inputs := rfl
@[simp] theorem modCtx_agenda (n : Nat) (f : Ctx → Ctx) : (modCtx s n f).agenda = s.agenda := rfl
@[simp] theorem modCtx_iss (n : Nat) (f : Ctx → Ctx) : (modCtx s n f).iss = s.iss := rfl

@[simp] theorem modLaunch_now (n : Nat) (f : Launch → Launch) : (modLaunch s n f).now = s.now := rfl
@[simp] theorem modLaunch_tick (n : Nat) (f : Launch → Launch) : (modLaunch s n f).tick = s.tick := rfl
@[simp] theorem modLaunch_nextId (n : Nat) (f : Launch → Launch) : (modLaunch s n f).nextId = s.nextId := rfl
@[simp] theorem modLaunch_booted (n : Nat) (f : Launch → Launch) : (modLaunch s n f).booted = s.booted := rfl
@[simp] theorem modLaunch_measure (n : Nat) (f : Launch → Launch) : (modLaunch s n f).measure = s.measure := rfl
@[simp] theorem modLaunch_encKey (n : Nat) (f : Launch → Launch) : (modLaunch s n f).encKey = s.encKey := rfl
@[simp] theorem modLaunch_memAlive (n : Nat) (f : Launch → Launch) : (modLaunch s n f).memAlive = s.memAlive := rfl
@[simp] theorem modLaunch_corAlive (n : Nat) (f : Launch → Launch) : (modLaunch s n f).corAlive = s.corAlive := rfl
@[simp] theorem modLaunch_margin (n : Nat) (f : Launch → Launch) : (modLaunch s n f).margin = s.margin := rfl
@[simp] theorem modLaunch_tokenWait (n : Nat) (f : Launch → Launch) : (modLaunch s n f).tokenWait = s.tokenWait := rfl
@[simp] theorem modLaunch_hold (n : Nat) (f : Launch → Launch) : (modLaunch s n f).hold = s.hold := rfl
@[simp] theorem modLaunch_keys (n : Nat) (f : Launch → Launch) : (modLaunch s n f).keys = s.keys := rfl
@[simp] theorem modLaunch_keyCtx (n : Nat) (f : Launch → Launch) : (modLaunch s n f).keyCtx = s.keyCtx := rfl
@[simp] theorem modLaunch_mem (n : Nat) (f : Launch → Launch) : (modLaunch s n f).mem = s.mem := rfl
@[simp] theorem modLaunch_mcond (n : Nat) (f : Launch → Launch) : (modLaunch s n f).mcond = s.mcond := rfl
@[simp] theorem modLaunch_mkey (n : Nat) (f : Launch → Launch) : (modLaunch s n f).mkey = s.mkey := rfl
@[simp] theorem modLaunch_clocks (n : Nat) (f : Launch → Launch) : (modLaunch s n f).clocks = s.clocks := rfl
@[simp] theorem modLaunch_reqs (n : Nat) (f : Launch → Launch) : (modLaunch s n f).reqs = s.reqs := rfl
@[simp] theorem modLaunch_xings (n : Nat) (f : Launch → Launch) : (modLaunch s n f).xings = s.xings := rfl
@[simp] theorem modLaunch_walks (n : Nat) (f : Launch → Launch) : (modLaunch s n f).walks = s.walks := rfl
@[simp] theorem modLaunch_shared (n : Nat) (f : Launch → Launch) : (modLaunch s n f).shared = s.shared := rfl
@[simp] theorem modLaunch_cores (n : Nat) (f : Launch → Launch) : (modLaunch s n f).cores = s.cores := rfl
@[simp] theorem modLaunch_ctxs (n : Nat) (f : Launch → Launch) : (modLaunch s n f).ctxs = s.ctxs := rfl
@[simp] theorem modLaunch_teams (n : Nat) (f : Launch → Launch) : (modLaunch s n f).teams = s.teams := rfl
@[simp] theorem modLaunch_trains (n : Nat) (f : Launch → Launch) : (modLaunch s n f).trains = s.trains := rfl
@[simp] theorem modLaunch_queues (n : Nat) (f : Launch → Launch) : (modLaunch s n f).queues = s.queues := rfl
@[simp] theorem modLaunch_cmds (n : Nat) (f : Launch → Launch) : (modLaunch s n f).cmds = s.cmds := rfl
@[simp] theorem modLaunch_tasks (n : Nat) (f : Launch → Launch) : (modLaunch s n f).tasks = s.tasks := rfl
@[simp] theorem modLaunch_heldDecs (n : Nat) (f : Launch → Launch) : (modLaunch s n f).heldDecs = s.heldDecs := rfl
@[simp] theorem modLaunch_errs (n : Nat) (f : Launch → Launch) : (modLaunch s n f).errs = s.errs := rfl
@[simp] theorem modLaunch_held (n : Nat) (f : Launch → Launch) : (modLaunch s n f).held = s.held := rfl
@[simp] theorem modLaunch_samples (n : Nat) (f : Launch → Launch) : (modLaunch s n f).samples = s.samples := rfl
@[simp] theorem modLaunch_seq (n : Nat) (f : Launch → Launch) : (modLaunch s n f).seq = s.seq := rfl
@[simp] theorem modLaunch_toks (n : Nat) (f : Launch → Launch) : (modLaunch s n f).toks = s.toks := rfl
@[simp] theorem modLaunch_owned (n : Nat) (f : Launch → Launch) : (modLaunch s n f).owned = s.owned := rfl
@[simp] theorem modLaunch_links (n : Nat) (f : Launch → Launch) : (modLaunch s n f).links = s.links := rfl
@[simp] theorem modLaunch_reports (n : Nat) (f : Launch → Launch) : (modLaunch s n f).reports = s.reports := rfl
@[simp] theorem modLaunch_redirects (n : Nat) (f : Launch → Launch) : (modLaunch s n f).redirects = s.redirects := rfl
@[simp] theorem modLaunch_lastAdmit (n : Nat) (f : Launch → Launch) : (modLaunch s n f).lastAdmit = s.lastAdmit := rfl
@[simp] theorem modLaunch_served (n : Nat) (f : Launch → Launch) : (modLaunch s n f).served = s.served := rfl
@[simp] theorem modLaunch_lastServed (n : Nat) (f : Launch → Launch) : (modLaunch s n f).lastServed = s.lastServed := rfl
@[simp] theorem modLaunch_inputs (n : Nat) (f : Launch → Launch) : (modLaunch s n f).inputs = s.inputs := rfl
@[simp] theorem modLaunch_agenda (n : Nat) (f : Launch → Launch) : (modLaunch s n f).agenda = s.agenda := rfl
@[simp] theorem modLaunch_iss (n : Nat) (f : Launch → Launch) : (modLaunch s n f).iss = s.iss := rfl

@[simp] theorem modQ_now (n : Nat) (f : QSlot → QSlot) : (modQ s n f).now = s.now := rfl
@[simp] theorem modQ_tick (n : Nat) (f : QSlot → QSlot) : (modQ s n f).tick = s.tick := rfl
@[simp] theorem modQ_nextId (n : Nat) (f : QSlot → QSlot) : (modQ s n f).nextId = s.nextId := rfl
@[simp] theorem modQ_booted (n : Nat) (f : QSlot → QSlot) : (modQ s n f).booted = s.booted := rfl
@[simp] theorem modQ_measure (n : Nat) (f : QSlot → QSlot) : (modQ s n f).measure = s.measure := rfl
@[simp] theorem modQ_encKey (n : Nat) (f : QSlot → QSlot) : (modQ s n f).encKey = s.encKey := rfl
@[simp] theorem modQ_memAlive (n : Nat) (f : QSlot → QSlot) : (modQ s n f).memAlive = s.memAlive := rfl
@[simp] theorem modQ_corAlive (n : Nat) (f : QSlot → QSlot) : (modQ s n f).corAlive = s.corAlive := rfl
@[simp] theorem modQ_margin (n : Nat) (f : QSlot → QSlot) : (modQ s n f).margin = s.margin := rfl
@[simp] theorem modQ_tokenWait (n : Nat) (f : QSlot → QSlot) : (modQ s n f).tokenWait = s.tokenWait := rfl
@[simp] theorem modQ_hold (n : Nat) (f : QSlot → QSlot) : (modQ s n f).hold = s.hold := rfl
@[simp] theorem modQ_keys (n : Nat) (f : QSlot → QSlot) : (modQ s n f).keys = s.keys := rfl
@[simp] theorem modQ_keyCtx (n : Nat) (f : QSlot → QSlot) : (modQ s n f).keyCtx = s.keyCtx := rfl
@[simp] theorem modQ_mem (n : Nat) (f : QSlot → QSlot) : (modQ s n f).mem = s.mem := rfl
@[simp] theorem modQ_mcond (n : Nat) (f : QSlot → QSlot) : (modQ s n f).mcond = s.mcond := rfl
@[simp] theorem modQ_mkey (n : Nat) (f : QSlot → QSlot) : (modQ s n f).mkey = s.mkey := rfl
@[simp] theorem modQ_clocks (n : Nat) (f : QSlot → QSlot) : (modQ s n f).clocks = s.clocks := rfl
@[simp] theorem modQ_reqs (n : Nat) (f : QSlot → QSlot) : (modQ s n f).reqs = s.reqs := rfl
@[simp] theorem modQ_xings (n : Nat) (f : QSlot → QSlot) : (modQ s n f).xings = s.xings := rfl
@[simp] theorem modQ_walks (n : Nat) (f : QSlot → QSlot) : (modQ s n f).walks = s.walks := rfl
@[simp] theorem modQ_shared (n : Nat) (f : QSlot → QSlot) : (modQ s n f).shared = s.shared := rfl
@[simp] theorem modQ_cores (n : Nat) (f : QSlot → QSlot) : (modQ s n f).cores = s.cores := rfl
@[simp] theorem modQ_ctxs (n : Nat) (f : QSlot → QSlot) : (modQ s n f).ctxs = s.ctxs := rfl
@[simp] theorem modQ_launches (n : Nat) (f : QSlot → QSlot) : (modQ s n f).launches = s.launches := rfl
@[simp] theorem modQ_teams (n : Nat) (f : QSlot → QSlot) : (modQ s n f).teams = s.teams := rfl
@[simp] theorem modQ_trains (n : Nat) (f : QSlot → QSlot) : (modQ s n f).trains = s.trains := rfl
@[simp] theorem modQ_cmds (n : Nat) (f : QSlot → QSlot) : (modQ s n f).cmds = s.cmds := rfl
@[simp] theorem modQ_tasks (n : Nat) (f : QSlot → QSlot) : (modQ s n f).tasks = s.tasks := rfl
@[simp] theorem modQ_heldDecs (n : Nat) (f : QSlot → QSlot) : (modQ s n f).heldDecs = s.heldDecs := rfl
@[simp] theorem modQ_errs (n : Nat) (f : QSlot → QSlot) : (modQ s n f).errs = s.errs := rfl
@[simp] theorem modQ_held (n : Nat) (f : QSlot → QSlot) : (modQ s n f).held = s.held := rfl
@[simp] theorem modQ_samples (n : Nat) (f : QSlot → QSlot) : (modQ s n f).samples = s.samples := rfl
@[simp] theorem modQ_seq (n : Nat) (f : QSlot → QSlot) : (modQ s n f).seq = s.seq := rfl
@[simp] theorem modQ_toks (n : Nat) (f : QSlot → QSlot) : (modQ s n f).toks = s.toks := rfl
@[simp] theorem modQ_owned (n : Nat) (f : QSlot → QSlot) : (modQ s n f).owned = s.owned := rfl
@[simp] theorem modQ_links (n : Nat) (f : QSlot → QSlot) : (modQ s n f).links = s.links := rfl
@[simp] theorem modQ_reports (n : Nat) (f : QSlot → QSlot) : (modQ s n f).reports = s.reports := rfl
@[simp] theorem modQ_redirects (n : Nat) (f : QSlot → QSlot) : (modQ s n f).redirects = s.redirects := rfl
@[simp] theorem modQ_lastAdmit (n : Nat) (f : QSlot → QSlot) : (modQ s n f).lastAdmit = s.lastAdmit := rfl
@[simp] theorem modQ_served (n : Nat) (f : QSlot → QSlot) : (modQ s n f).served = s.served := rfl
@[simp] theorem modQ_lastServed (n : Nat) (f : QSlot → QSlot) : (modQ s n f).lastServed = s.lastServed := rfl
@[simp] theorem modQ_inputs (n : Nat) (f : QSlot → QSlot) : (modQ s n f).inputs = s.inputs := rfl
@[simp] theorem modQ_agenda (n : Nat) (f : QSlot → QSlot) : (modQ s n f).agenda = s.agenda := rfl
@[simp] theorem modQ_iss (n : Nat) (f : QSlot → QSlot) : (modQ s n f).iss = s.iss := rfl

@[simp] theorem modCmd_now (n : Nat) (f : Cmd → Cmd) : (modCmd s n f).now = s.now := rfl
@[simp] theorem modCmd_tick (n : Nat) (f : Cmd → Cmd) : (modCmd s n f).tick = s.tick := rfl
@[simp] theorem modCmd_nextId (n : Nat) (f : Cmd → Cmd) : (modCmd s n f).nextId = s.nextId := rfl
@[simp] theorem modCmd_booted (n : Nat) (f : Cmd → Cmd) : (modCmd s n f).booted = s.booted := rfl
@[simp] theorem modCmd_measure (n : Nat) (f : Cmd → Cmd) : (modCmd s n f).measure = s.measure := rfl
@[simp] theorem modCmd_encKey (n : Nat) (f : Cmd → Cmd) : (modCmd s n f).encKey = s.encKey := rfl
@[simp] theorem modCmd_memAlive (n : Nat) (f : Cmd → Cmd) : (modCmd s n f).memAlive = s.memAlive := rfl
@[simp] theorem modCmd_corAlive (n : Nat) (f : Cmd → Cmd) : (modCmd s n f).corAlive = s.corAlive := rfl
@[simp] theorem modCmd_margin (n : Nat) (f : Cmd → Cmd) : (modCmd s n f).margin = s.margin := rfl
@[simp] theorem modCmd_tokenWait (n : Nat) (f : Cmd → Cmd) : (modCmd s n f).tokenWait = s.tokenWait := rfl
@[simp] theorem modCmd_hold (n : Nat) (f : Cmd → Cmd) : (modCmd s n f).hold = s.hold := rfl
@[simp] theorem modCmd_keys (n : Nat) (f : Cmd → Cmd) : (modCmd s n f).keys = s.keys := rfl
@[simp] theorem modCmd_keyCtx (n : Nat) (f : Cmd → Cmd) : (modCmd s n f).keyCtx = s.keyCtx := rfl
@[simp] theorem modCmd_mem (n : Nat) (f : Cmd → Cmd) : (modCmd s n f).mem = s.mem := rfl
@[simp] theorem modCmd_mcond (n : Nat) (f : Cmd → Cmd) : (modCmd s n f).mcond = s.mcond := rfl
@[simp] theorem modCmd_mkey (n : Nat) (f : Cmd → Cmd) : (modCmd s n f).mkey = s.mkey := rfl
@[simp] theorem modCmd_clocks (n : Nat) (f : Cmd → Cmd) : (modCmd s n f).clocks = s.clocks := rfl
@[simp] theorem modCmd_reqs (n : Nat) (f : Cmd → Cmd) : (modCmd s n f).reqs = s.reqs := rfl
@[simp] theorem modCmd_xings (n : Nat) (f : Cmd → Cmd) : (modCmd s n f).xings = s.xings := rfl
@[simp] theorem modCmd_walks (n : Nat) (f : Cmd → Cmd) : (modCmd s n f).walks = s.walks := rfl
@[simp] theorem modCmd_shared (n : Nat) (f : Cmd → Cmd) : (modCmd s n f).shared = s.shared := rfl
@[simp] theorem modCmd_cores (n : Nat) (f : Cmd → Cmd) : (modCmd s n f).cores = s.cores := rfl
@[simp] theorem modCmd_ctxs (n : Nat) (f : Cmd → Cmd) : (modCmd s n f).ctxs = s.ctxs := rfl
@[simp] theorem modCmd_launches (n : Nat) (f : Cmd → Cmd) : (modCmd s n f).launches = s.launches := rfl
@[simp] theorem modCmd_teams (n : Nat) (f : Cmd → Cmd) : (modCmd s n f).teams = s.teams := rfl
@[simp] theorem modCmd_trains (n : Nat) (f : Cmd → Cmd) : (modCmd s n f).trains = s.trains := rfl
@[simp] theorem modCmd_queues (n : Nat) (f : Cmd → Cmd) : (modCmd s n f).queues = s.queues := rfl
@[simp] theorem modCmd_tasks (n : Nat) (f : Cmd → Cmd) : (modCmd s n f).tasks = s.tasks := rfl
@[simp] theorem modCmd_heldDecs (n : Nat) (f : Cmd → Cmd) : (modCmd s n f).heldDecs = s.heldDecs := rfl
@[simp] theorem modCmd_errs (n : Nat) (f : Cmd → Cmd) : (modCmd s n f).errs = s.errs := rfl
@[simp] theorem modCmd_held (n : Nat) (f : Cmd → Cmd) : (modCmd s n f).held = s.held := rfl
@[simp] theorem modCmd_samples (n : Nat) (f : Cmd → Cmd) : (modCmd s n f).samples = s.samples := rfl
@[simp] theorem modCmd_seq (n : Nat) (f : Cmd → Cmd) : (modCmd s n f).seq = s.seq := rfl
@[simp] theorem modCmd_toks (n : Nat) (f : Cmd → Cmd) : (modCmd s n f).toks = s.toks := rfl
@[simp] theorem modCmd_owned (n : Nat) (f : Cmd → Cmd) : (modCmd s n f).owned = s.owned := rfl
@[simp] theorem modCmd_links (n : Nat) (f : Cmd → Cmd) : (modCmd s n f).links = s.links := rfl
@[simp] theorem modCmd_reports (n : Nat) (f : Cmd → Cmd) : (modCmd s n f).reports = s.reports := rfl
@[simp] theorem modCmd_redirects (n : Nat) (f : Cmd → Cmd) : (modCmd s n f).redirects = s.redirects := rfl
@[simp] theorem modCmd_lastAdmit (n : Nat) (f : Cmd → Cmd) : (modCmd s n f).lastAdmit = s.lastAdmit := rfl
@[simp] theorem modCmd_served (n : Nat) (f : Cmd → Cmd) : (modCmd s n f).served = s.served := rfl
@[simp] theorem modCmd_lastServed (n : Nat) (f : Cmd → Cmd) : (modCmd s n f).lastServed = s.lastServed := rfl
@[simp] theorem modCmd_inputs (n : Nat) (f : Cmd → Cmd) : (modCmd s n f).inputs = s.inputs := rfl
@[simp] theorem modCmd_agenda (n : Nat) (f : Cmd → Cmd) : (modCmd s n f).agenda = s.agenda := rfl
@[simp] theorem modCmd_iss (n : Nat) (f : Cmd → Cmd) : (modCmd s n f).iss = s.iss := rfl

@[simp] theorem delCmd_now (n : Nat) : (delCmd s n).now = s.now := rfl
@[simp] theorem delCmd_tick (n : Nat) : (delCmd s n).tick = s.tick := rfl
@[simp] theorem delCmd_nextId (n : Nat) : (delCmd s n).nextId = s.nextId := rfl
@[simp] theorem delCmd_booted (n : Nat) : (delCmd s n).booted = s.booted := rfl
@[simp] theorem delCmd_measure (n : Nat) : (delCmd s n).measure = s.measure := rfl
@[simp] theorem delCmd_encKey (n : Nat) : (delCmd s n).encKey = s.encKey := rfl
@[simp] theorem delCmd_memAlive (n : Nat) : (delCmd s n).memAlive = s.memAlive := rfl
@[simp] theorem delCmd_corAlive (n : Nat) : (delCmd s n).corAlive = s.corAlive := rfl
@[simp] theorem delCmd_margin (n : Nat) : (delCmd s n).margin = s.margin := rfl
@[simp] theorem delCmd_tokenWait (n : Nat) : (delCmd s n).tokenWait = s.tokenWait := rfl
@[simp] theorem delCmd_hold (n : Nat) : (delCmd s n).hold = s.hold := rfl
@[simp] theorem delCmd_keys (n : Nat) : (delCmd s n).keys = s.keys := rfl
@[simp] theorem delCmd_keyCtx (n : Nat) : (delCmd s n).keyCtx = s.keyCtx := rfl
@[simp] theorem delCmd_mem (n : Nat) : (delCmd s n).mem = s.mem := rfl
@[simp] theorem delCmd_mcond (n : Nat) : (delCmd s n).mcond = s.mcond := rfl
@[simp] theorem delCmd_mkey (n : Nat) : (delCmd s n).mkey = s.mkey := rfl
@[simp] theorem delCmd_clocks (n : Nat) : (delCmd s n).clocks = s.clocks := rfl
@[simp] theorem delCmd_reqs (n : Nat) : (delCmd s n).reqs = s.reqs := rfl
@[simp] theorem delCmd_xings (n : Nat) : (delCmd s n).xings = s.xings := rfl
@[simp] theorem delCmd_walks (n : Nat) : (delCmd s n).walks = s.walks := rfl
@[simp] theorem delCmd_shared (n : Nat) : (delCmd s n).shared = s.shared := rfl
@[simp] theorem delCmd_cores (n : Nat) : (delCmd s n).cores = s.cores := rfl
@[simp] theorem delCmd_ctxs (n : Nat) : (delCmd s n).ctxs = s.ctxs := rfl
@[simp] theorem delCmd_launches (n : Nat) : (delCmd s n).launches = s.launches := rfl
@[simp] theorem delCmd_teams (n : Nat) : (delCmd s n).teams = s.teams := rfl
@[simp] theorem delCmd_trains (n : Nat) : (delCmd s n).trains = s.trains := rfl
@[simp] theorem delCmd_queues (n : Nat) : (delCmd s n).queues = s.queues := rfl
@[simp] theorem delCmd_tasks (n : Nat) : (delCmd s n).tasks = s.tasks := rfl
@[simp] theorem delCmd_heldDecs (n : Nat) : (delCmd s n).heldDecs = s.heldDecs := rfl
@[simp] theorem delCmd_errs (n : Nat) : (delCmd s n).errs = s.errs := rfl
@[simp] theorem delCmd_held (n : Nat) : (delCmd s n).held = s.held := rfl
@[simp] theorem delCmd_samples (n : Nat) : (delCmd s n).samples = s.samples := rfl
@[simp] theorem delCmd_seq (n : Nat) : (delCmd s n).seq = s.seq := rfl
@[simp] theorem delCmd_toks (n : Nat) : (delCmd s n).toks = s.toks := rfl
@[simp] theorem delCmd_owned (n : Nat) : (delCmd s n).owned = s.owned := rfl
@[simp] theorem delCmd_links (n : Nat) : (delCmd s n).links = s.links := rfl
@[simp] theorem delCmd_reports (n : Nat) : (delCmd s n).reports = s.reports := rfl
@[simp] theorem delCmd_redirects (n : Nat) : (delCmd s n).redirects = s.redirects := rfl
@[simp] theorem delCmd_lastAdmit (n : Nat) : (delCmd s n).lastAdmit = s.lastAdmit := rfl
@[simp] theorem delCmd_served (n : Nat) : (delCmd s n).served = s.served := rfl
@[simp] theorem delCmd_lastServed (n : Nat) : (delCmd s n).lastServed = s.lastServed := rfl
@[simp] theorem delCmd_inputs (n : Nat) : (delCmd s n).inputs = s.inputs := rfl
@[simp] theorem delCmd_agenda (n : Nat) : (delCmd s n).agenda = s.agenda := rfl
@[simp] theorem delCmd_iss (n : Nat) : (delCmd s n).iss = s.iss := rfl

@[simp] theorem modTask_now (n : Nat) (f : Task → Task) : (modTask s n f).now = s.now := rfl
@[simp] theorem modTask_tick (n : Nat) (f : Task → Task) : (modTask s n f).tick = s.tick := rfl
@[simp] theorem modTask_nextId (n : Nat) (f : Task → Task) : (modTask s n f).nextId = s.nextId := rfl
@[simp] theorem modTask_booted (n : Nat) (f : Task → Task) : (modTask s n f).booted = s.booted := rfl
@[simp] theorem modTask_measure (n : Nat) (f : Task → Task) : (modTask s n f).measure = s.measure := rfl
@[simp] theorem modTask_encKey (n : Nat) (f : Task → Task) : (modTask s n f).encKey = s.encKey := rfl
@[simp] theorem modTask_memAlive (n : Nat) (f : Task → Task) : (modTask s n f).memAlive = s.memAlive := rfl
@[simp] theorem modTask_corAlive (n : Nat) (f : Task → Task) : (modTask s n f).corAlive = s.corAlive := rfl
@[simp] theorem modTask_margin (n : Nat) (f : Task → Task) : (modTask s n f).margin = s.margin := rfl
@[simp] theorem modTask_tokenWait (n : Nat) (f : Task → Task) : (modTask s n f).tokenWait = s.tokenWait := rfl
@[simp] theorem modTask_hold (n : Nat) (f : Task → Task) : (modTask s n f).hold = s.hold := rfl
@[simp] theorem modTask_keys (n : Nat) (f : Task → Task) : (modTask s n f).keys = s.keys := rfl
@[simp] theorem modTask_keyCtx (n : Nat) (f : Task → Task) : (modTask s n f).keyCtx = s.keyCtx := rfl
@[simp] theorem modTask_mem (n : Nat) (f : Task → Task) : (modTask s n f).mem = s.mem := rfl
@[simp] theorem modTask_mcond (n : Nat) (f : Task → Task) : (modTask s n f).mcond = s.mcond := rfl
@[simp] theorem modTask_mkey (n : Nat) (f : Task → Task) : (modTask s n f).mkey = s.mkey := rfl
@[simp] theorem modTask_clocks (n : Nat) (f : Task → Task) : (modTask s n f).clocks = s.clocks := rfl
@[simp] theorem modTask_reqs (n : Nat) (f : Task → Task) : (modTask s n f).reqs = s.reqs := rfl
@[simp] theorem modTask_xings (n : Nat) (f : Task → Task) : (modTask s n f).xings = s.xings := rfl
@[simp] theorem modTask_walks (n : Nat) (f : Task → Task) : (modTask s n f).walks = s.walks := rfl
@[simp] theorem modTask_shared (n : Nat) (f : Task → Task) : (modTask s n f).shared = s.shared := rfl
@[simp] theorem modTask_cores (n : Nat) (f : Task → Task) : (modTask s n f).cores = s.cores := rfl
@[simp] theorem modTask_ctxs (n : Nat) (f : Task → Task) : (modTask s n f).ctxs = s.ctxs := rfl
@[simp] theorem modTask_launches (n : Nat) (f : Task → Task) : (modTask s n f).launches = s.launches := rfl
@[simp] theorem modTask_teams (n : Nat) (f : Task → Task) : (modTask s n f).teams = s.teams := rfl
@[simp] theorem modTask_trains (n : Nat) (f : Task → Task) : (modTask s n f).trains = s.trains := rfl
@[simp] theorem modTask_queues (n : Nat) (f : Task → Task) : (modTask s n f).queues = s.queues := rfl
@[simp] theorem modTask_cmds (n : Nat) (f : Task → Task) : (modTask s n f).cmds = s.cmds := rfl
@[simp] theorem modTask_heldDecs (n : Nat) (f : Task → Task) : (modTask s n f).heldDecs = s.heldDecs := rfl
@[simp] theorem modTask_errs (n : Nat) (f : Task → Task) : (modTask s n f).errs = s.errs := rfl
@[simp] theorem modTask_held (n : Nat) (f : Task → Task) : (modTask s n f).held = s.held := rfl
@[simp] theorem modTask_samples (n : Nat) (f : Task → Task) : (modTask s n f).samples = s.samples := rfl
@[simp] theorem modTask_seq (n : Nat) (f : Task → Task) : (modTask s n f).seq = s.seq := rfl
@[simp] theorem modTask_toks (n : Nat) (f : Task → Task) : (modTask s n f).toks = s.toks := rfl
@[simp] theorem modTask_owned (n : Nat) (f : Task → Task) : (modTask s n f).owned = s.owned := rfl
@[simp] theorem modTask_links (n : Nat) (f : Task → Task) : (modTask s n f).links = s.links := rfl
@[simp] theorem modTask_reports (n : Nat) (f : Task → Task) : (modTask s n f).reports = s.reports := rfl
@[simp] theorem modTask_redirects (n : Nat) (f : Task → Task) : (modTask s n f).redirects = s.redirects := rfl
@[simp] theorem modTask_lastAdmit (n : Nat) (f : Task → Task) : (modTask s n f).lastAdmit = s.lastAdmit := rfl
@[simp] theorem modTask_served (n : Nat) (f : Task → Task) : (modTask s n f).served = s.served := rfl
@[simp] theorem modTask_lastServed (n : Nat) (f : Task → Task) : (modTask s n f).lastServed = s.lastServed := rfl
@[simp] theorem modTask_inputs (n : Nat) (f : Task → Task) : (modTask s n f).inputs = s.inputs := rfl
@[simp] theorem modTask_agenda (n : Nat) (f : Task → Task) : (modTask s n f).agenda = s.agenda := rfl
@[simp] theorem modTask_iss (n : Nat) (f : Task → Task) : (modTask s n f).iss = s.iss := rfl

@[simp] theorem delTask_now (n : Nat) : (delTask s n).now = s.now := rfl
@[simp] theorem delTask_tick (n : Nat) : (delTask s n).tick = s.tick := rfl
@[simp] theorem delTask_nextId (n : Nat) : (delTask s n).nextId = s.nextId := rfl
@[simp] theorem delTask_booted (n : Nat) : (delTask s n).booted = s.booted := rfl
@[simp] theorem delTask_measure (n : Nat) : (delTask s n).measure = s.measure := rfl
@[simp] theorem delTask_encKey (n : Nat) : (delTask s n).encKey = s.encKey := rfl
@[simp] theorem delTask_memAlive (n : Nat) : (delTask s n).memAlive = s.memAlive := rfl
@[simp] theorem delTask_corAlive (n : Nat) : (delTask s n).corAlive = s.corAlive := rfl
@[simp] theorem delTask_margin (n : Nat) : (delTask s n).margin = s.margin := rfl
@[simp] theorem delTask_tokenWait (n : Nat) : (delTask s n).tokenWait = s.tokenWait := rfl
@[simp] theorem delTask_hold (n : Nat) : (delTask s n).hold = s.hold := rfl
@[simp] theorem delTask_keys (n : Nat) : (delTask s n).keys = s.keys := rfl
@[simp] theorem delTask_keyCtx (n : Nat) : (delTask s n).keyCtx = s.keyCtx := rfl
@[simp] theorem delTask_mem (n : Nat) : (delTask s n).mem = s.mem := rfl
@[simp] theorem delTask_mcond (n : Nat) : (delTask s n).mcond = s.mcond := rfl
@[simp] theorem delTask_mkey (n : Nat) : (delTask s n).mkey = s.mkey := rfl
@[simp] theorem delTask_clocks (n : Nat) : (delTask s n).clocks = s.clocks := rfl
@[simp] theorem delTask_reqs (n : Nat) : (delTask s n).reqs = s.reqs := rfl
@[simp] theorem delTask_xings (n : Nat) : (delTask s n).xings = s.xings := rfl
@[simp] theorem delTask_walks (n : Nat) : (delTask s n).walks = s.walks := rfl
@[simp] theorem delTask_shared (n : Nat) : (delTask s n).shared = s.shared := rfl
@[simp] theorem delTask_cores (n : Nat) : (delTask s n).cores = s.cores := rfl
@[simp] theorem delTask_ctxs (n : Nat) : (delTask s n).ctxs = s.ctxs := rfl
@[simp] theorem delTask_launches (n : Nat) : (delTask s n).launches = s.launches := rfl
@[simp] theorem delTask_teams (n : Nat) : (delTask s n).teams = s.teams := rfl
@[simp] theorem delTask_trains (n : Nat) : (delTask s n).trains = s.trains := rfl
@[simp] theorem delTask_queues (n : Nat) : (delTask s n).queues = s.queues := rfl
@[simp] theorem delTask_cmds (n : Nat) : (delTask s n).cmds = s.cmds := rfl
@[simp] theorem delTask_heldDecs (n : Nat) : (delTask s n).heldDecs = s.heldDecs := rfl
@[simp] theorem delTask_errs (n : Nat) : (delTask s n).errs = s.errs := rfl
@[simp] theorem delTask_held (n : Nat) : (delTask s n).held = s.held := rfl
@[simp] theorem delTask_samples (n : Nat) : (delTask s n).samples = s.samples := rfl
@[simp] theorem delTask_seq (n : Nat) : (delTask s n).seq = s.seq := rfl
@[simp] theorem delTask_toks (n : Nat) : (delTask s n).toks = s.toks := rfl
@[simp] theorem delTask_owned (n : Nat) : (delTask s n).owned = s.owned := rfl
@[simp] theorem delTask_links (n : Nat) : (delTask s n).links = s.links := rfl
@[simp] theorem delTask_reports (n : Nat) : (delTask s n).reports = s.reports := rfl
@[simp] theorem delTask_redirects (n : Nat) : (delTask s n).redirects = s.redirects := rfl
@[simp] theorem delTask_lastAdmit (n : Nat) : (delTask s n).lastAdmit = s.lastAdmit := rfl
@[simp] theorem delTask_served (n : Nat) : (delTask s n).served = s.served := rfl
@[simp] theorem delTask_lastServed (n : Nat) : (delTask s n).lastServed = s.lastServed := rfl
@[simp] theorem delTask_inputs (n : Nat) : (delTask s n).inputs = s.inputs := rfl
@[simp] theorem delTask_agenda (n : Nat) : (delTask s n).agenda = s.agenda := rfl
@[simp] theorem delTask_iss (n : Nat) : (delTask s n).iss = s.iss := rfl

@[simp] theorem modReq_now (n : Nat) (f : Req → Req) : (modReq s n f).now = s.now := rfl
@[simp] theorem modReq_tick (n : Nat) (f : Req → Req) : (modReq s n f).tick = s.tick := rfl
@[simp] theorem modReq_nextId (n : Nat) (f : Req → Req) : (modReq s n f).nextId = s.nextId := rfl
@[simp] theorem modReq_booted (n : Nat) (f : Req → Req) : (modReq s n f).booted = s.booted := rfl
@[simp] theorem modReq_measure (n : Nat) (f : Req → Req) : (modReq s n f).measure = s.measure := rfl
@[simp] theorem modReq_encKey (n : Nat) (f : Req → Req) : (modReq s n f).encKey = s.encKey := rfl
@[simp] theorem modReq_memAlive (n : Nat) (f : Req → Req) : (modReq s n f).memAlive = s.memAlive := rfl
@[simp] theorem modReq_corAlive (n : Nat) (f : Req → Req) : (modReq s n f).corAlive = s.corAlive := rfl
@[simp] theorem modReq_margin (n : Nat) (f : Req → Req) : (modReq s n f).margin = s.margin := rfl
@[simp] theorem modReq_tokenWait (n : Nat) (f : Req → Req) : (modReq s n f).tokenWait = s.tokenWait := rfl
@[simp] theorem modReq_hold (n : Nat) (f : Req → Req) : (modReq s n f).hold = s.hold := rfl
@[simp] theorem modReq_keys (n : Nat) (f : Req → Req) : (modReq s n f).keys = s.keys := rfl
@[simp] theorem modReq_keyCtx (n : Nat) (f : Req → Req) : (modReq s n f).keyCtx = s.keyCtx := rfl
@[simp] theorem modReq_mem (n : Nat) (f : Req → Req) : (modReq s n f).mem = s.mem := rfl
@[simp] theorem modReq_mcond (n : Nat) (f : Req → Req) : (modReq s n f).mcond = s.mcond := rfl
@[simp] theorem modReq_mkey (n : Nat) (f : Req → Req) : (modReq s n f).mkey = s.mkey := rfl
@[simp] theorem modReq_clocks (n : Nat) (f : Req → Req) : (modReq s n f).clocks = s.clocks := rfl
@[simp] theorem modReq_xings (n : Nat) (f : Req → Req) : (modReq s n f).xings = s.xings := rfl
@[simp] theorem modReq_walks (n : Nat) (f : Req → Req) : (modReq s n f).walks = s.walks := rfl
@[simp] theorem modReq_shared (n : Nat) (f : Req → Req) : (modReq s n f).shared = s.shared := rfl
@[simp] theorem modReq_cores (n : Nat) (f : Req → Req) : (modReq s n f).cores = s.cores := rfl
@[simp] theorem modReq_ctxs (n : Nat) (f : Req → Req) : (modReq s n f).ctxs = s.ctxs := rfl
@[simp] theorem modReq_launches (n : Nat) (f : Req → Req) : (modReq s n f).launches = s.launches := rfl
@[simp] theorem modReq_teams (n : Nat) (f : Req → Req) : (modReq s n f).teams = s.teams := rfl
@[simp] theorem modReq_trains (n : Nat) (f : Req → Req) : (modReq s n f).trains = s.trains := rfl
@[simp] theorem modReq_queues (n : Nat) (f : Req → Req) : (modReq s n f).queues = s.queues := rfl
@[simp] theorem modReq_cmds (n : Nat) (f : Req → Req) : (modReq s n f).cmds = s.cmds := rfl
@[simp] theorem modReq_tasks (n : Nat) (f : Req → Req) : (modReq s n f).tasks = s.tasks := rfl
@[simp] theorem modReq_heldDecs (n : Nat) (f : Req → Req) : (modReq s n f).heldDecs = s.heldDecs := rfl
@[simp] theorem modReq_errs (n : Nat) (f : Req → Req) : (modReq s n f).errs = s.errs := rfl
@[simp] theorem modReq_held (n : Nat) (f : Req → Req) : (modReq s n f).held = s.held := rfl
@[simp] theorem modReq_samples (n : Nat) (f : Req → Req) : (modReq s n f).samples = s.samples := rfl
@[simp] theorem modReq_seq (n : Nat) (f : Req → Req) : (modReq s n f).seq = s.seq := rfl
@[simp] theorem modReq_toks (n : Nat) (f : Req → Req) : (modReq s n f).toks = s.toks := rfl
@[simp] theorem modReq_owned (n : Nat) (f : Req → Req) : (modReq s n f).owned = s.owned := rfl
@[simp] theorem modReq_links (n : Nat) (f : Req → Req) : (modReq s n f).links = s.links := rfl
@[simp] theorem modReq_reports (n : Nat) (f : Req → Req) : (modReq s n f).reports = s.reports := rfl
@[simp] theorem modReq_redirects (n : Nat) (f : Req → Req) : (modReq s n f).redirects = s.redirects := rfl
@[simp] theorem modReq_lastAdmit (n : Nat) (f : Req → Req) : (modReq s n f).lastAdmit = s.lastAdmit := rfl
@[simp] theorem modReq_served (n : Nat) (f : Req → Req) : (modReq s n f).served = s.served := rfl
@[simp] theorem modReq_lastServed (n : Nat) (f : Req → Req) : (modReq s n f).lastServed = s.lastServed := rfl
@[simp] theorem modReq_inputs (n : Nat) (f : Req → Req) : (modReq s n f).inputs = s.inputs := rfl
@[simp] theorem modReq_agenda (n : Nat) (f : Req → Req) : (modReq s n f).agenda = s.agenda := rfl
@[simp] theorem modReq_iss (n : Nat) (f : Req → Req) : (modReq s n f).iss = s.iss := rfl

@[simp] theorem delReq_now (n : Nat) : (delReq s n).now = s.now := rfl
@[simp] theorem delReq_tick (n : Nat) : (delReq s n).tick = s.tick := rfl
@[simp] theorem delReq_nextId (n : Nat) : (delReq s n).nextId = s.nextId := rfl
@[simp] theorem delReq_booted (n : Nat) : (delReq s n).booted = s.booted := rfl
@[simp] theorem delReq_measure (n : Nat) : (delReq s n).measure = s.measure := rfl
@[simp] theorem delReq_encKey (n : Nat) : (delReq s n).encKey = s.encKey := rfl
@[simp] theorem delReq_memAlive (n : Nat) : (delReq s n).memAlive = s.memAlive := rfl
@[simp] theorem delReq_corAlive (n : Nat) : (delReq s n).corAlive = s.corAlive := rfl
@[simp] theorem delReq_margin (n : Nat) : (delReq s n).margin = s.margin := rfl
@[simp] theorem delReq_tokenWait (n : Nat) : (delReq s n).tokenWait = s.tokenWait := rfl
@[simp] theorem delReq_hold (n : Nat) : (delReq s n).hold = s.hold := rfl
@[simp] theorem delReq_keys (n : Nat) : (delReq s n).keys = s.keys := rfl
@[simp] theorem delReq_keyCtx (n : Nat) : (delReq s n).keyCtx = s.keyCtx := rfl
@[simp] theorem delReq_mem (n : Nat) : (delReq s n).mem = s.mem := rfl
@[simp] theorem delReq_mcond (n : Nat) : (delReq s n).mcond = s.mcond := rfl
@[simp] theorem delReq_mkey (n : Nat) : (delReq s n).mkey = s.mkey := rfl
@[simp] theorem delReq_clocks (n : Nat) : (delReq s n).clocks = s.clocks := rfl
@[simp] theorem delReq_xings (n : Nat) : (delReq s n).xings = s.xings := rfl
@[simp] theorem delReq_walks (n : Nat) : (delReq s n).walks = s.walks := rfl
@[simp] theorem delReq_shared (n : Nat) : (delReq s n).shared = s.shared := rfl
@[simp] theorem delReq_cores (n : Nat) : (delReq s n).cores = s.cores := rfl
@[simp] theorem delReq_ctxs (n : Nat) : (delReq s n).ctxs = s.ctxs := rfl
@[simp] theorem delReq_launches (n : Nat) : (delReq s n).launches = s.launches := rfl
@[simp] theorem delReq_teams (n : Nat) : (delReq s n).teams = s.teams := rfl
@[simp] theorem delReq_trains (n : Nat) : (delReq s n).trains = s.trains := rfl
@[simp] theorem delReq_queues (n : Nat) : (delReq s n).queues = s.queues := rfl
@[simp] theorem delReq_cmds (n : Nat) : (delReq s n).cmds = s.cmds := rfl
@[simp] theorem delReq_tasks (n : Nat) : (delReq s n).tasks = s.tasks := rfl
@[simp] theorem delReq_heldDecs (n : Nat) : (delReq s n).heldDecs = s.heldDecs := rfl
@[simp] theorem delReq_errs (n : Nat) : (delReq s n).errs = s.errs := rfl
@[simp] theorem delReq_held (n : Nat) : (delReq s n).held = s.held := rfl
@[simp] theorem delReq_samples (n : Nat) : (delReq s n).samples = s.samples := rfl
@[simp] theorem delReq_seq (n : Nat) : (delReq s n).seq = s.seq := rfl
@[simp] theorem delReq_toks (n : Nat) : (delReq s n).toks = s.toks := rfl
@[simp] theorem delReq_owned (n : Nat) : (delReq s n).owned = s.owned := rfl
@[simp] theorem delReq_links (n : Nat) : (delReq s n).links = s.links := rfl
@[simp] theorem delReq_reports (n : Nat) : (delReq s n).reports = s.reports := rfl
@[simp] theorem delReq_redirects (n : Nat) : (delReq s n).redirects = s.redirects := rfl
@[simp] theorem delReq_lastAdmit (n : Nat) : (delReq s n).lastAdmit = s.lastAdmit := rfl
@[simp] theorem delReq_served (n : Nat) : (delReq s n).served = s.served := rfl
@[simp] theorem delReq_lastServed (n : Nat) : (delReq s n).lastServed = s.lastServed := rfl
@[simp] theorem delReq_inputs (n : Nat) : (delReq s n).inputs = s.inputs := rfl
@[simp] theorem delReq_agenda (n : Nat) : (delReq s n).agenda = s.agenda := rfl
@[simp] theorem delReq_iss (n : Nat) : (delReq s n).iss = s.iss := rfl

@[simp] theorem modCore_now (n : Nat) (f : Core → Core) : (modCore s n f).now = s.now := rfl
@[simp] theorem modCore_tick (n : Nat) (f : Core → Core) : (modCore s n f).tick = s.tick := rfl
@[simp] theorem modCore_nextId (n : Nat) (f : Core → Core) : (modCore s n f).nextId = s.nextId := rfl
@[simp] theorem modCore_booted (n : Nat) (f : Core → Core) : (modCore s n f).booted = s.booted := rfl
@[simp] theorem modCore_measure (n : Nat) (f : Core → Core) : (modCore s n f).measure = s.measure := rfl
@[simp] theorem modCore_encKey (n : Nat) (f : Core → Core) : (modCore s n f).encKey = s.encKey := rfl
@[simp] theorem modCore_memAlive (n : Nat) (f : Core → Core) : (modCore s n f).memAlive = s.memAlive := rfl
@[simp] theorem modCore_corAlive (n : Nat) (f : Core → Core) : (modCore s n f).corAlive = s.corAlive := rfl
@[simp] theorem modCore_margin (n : Nat) (f : Core → Core) : (modCore s n f).margin = s.margin := rfl
@[simp] theorem modCore_tokenWait (n : Nat) (f : Core → Core) : (modCore s n f).tokenWait = s.tokenWait := rfl
@[simp] theorem modCore_hold (n : Nat) (f : Core → Core) : (modCore s n f).hold = s.hold := rfl
@[simp] theorem modCore_keys (n : Nat) (f : Core → Core) : (modCore s n f).keys = s.keys := rfl
@[simp] theorem modCore_keyCtx (n : Nat) (f : Core → Core) : (modCore s n f).keyCtx = s.keyCtx := rfl
@[simp] theorem modCore_mem (n : Nat) (f : Core → Core) : (modCore s n f).mem = s.mem := rfl
@[simp] theorem modCore_mcond (n : Nat) (f : Core → Core) : (modCore s n f).mcond = s.mcond := rfl
@[simp] theorem modCore_mkey (n : Nat) (f : Core → Core) : (modCore s n f).mkey = s.mkey := rfl
@[simp] theorem modCore_clocks (n : Nat) (f : Core → Core) : (modCore s n f).clocks = s.clocks := rfl
@[simp] theorem modCore_reqs (n : Nat) (f : Core → Core) : (modCore s n f).reqs = s.reqs := rfl
@[simp] theorem modCore_xings (n : Nat) (f : Core → Core) : (modCore s n f).xings = s.xings := rfl
@[simp] theorem modCore_walks (n : Nat) (f : Core → Core) : (modCore s n f).walks = s.walks := rfl
@[simp] theorem modCore_shared (n : Nat) (f : Core → Core) : (modCore s n f).shared = s.shared := rfl
@[simp] theorem modCore_ctxs (n : Nat) (f : Core → Core) : (modCore s n f).ctxs = s.ctxs := rfl
@[simp] theorem modCore_launches (n : Nat) (f : Core → Core) : (modCore s n f).launches = s.launches := rfl
@[simp] theorem modCore_teams (n : Nat) (f : Core → Core) : (modCore s n f).teams = s.teams := rfl
@[simp] theorem modCore_trains (n : Nat) (f : Core → Core) : (modCore s n f).trains = s.trains := rfl
@[simp] theorem modCore_queues (n : Nat) (f : Core → Core) : (modCore s n f).queues = s.queues := rfl
@[simp] theorem modCore_cmds (n : Nat) (f : Core → Core) : (modCore s n f).cmds = s.cmds := rfl
@[simp] theorem modCore_tasks (n : Nat) (f : Core → Core) : (modCore s n f).tasks = s.tasks := rfl
@[simp] theorem modCore_heldDecs (n : Nat) (f : Core → Core) : (modCore s n f).heldDecs = s.heldDecs := rfl
@[simp] theorem modCore_errs (n : Nat) (f : Core → Core) : (modCore s n f).errs = s.errs := rfl
@[simp] theorem modCore_held (n : Nat) (f : Core → Core) : (modCore s n f).held = s.held := rfl
@[simp] theorem modCore_samples (n : Nat) (f : Core → Core) : (modCore s n f).samples = s.samples := rfl
@[simp] theorem modCore_seq (n : Nat) (f : Core → Core) : (modCore s n f).seq = s.seq := rfl
@[simp] theorem modCore_toks (n : Nat) (f : Core → Core) : (modCore s n f).toks = s.toks := rfl
@[simp] theorem modCore_owned (n : Nat) (f : Core → Core) : (modCore s n f).owned = s.owned := rfl
@[simp] theorem modCore_links (n : Nat) (f : Core → Core) : (modCore s n f).links = s.links := rfl
@[simp] theorem modCore_reports (n : Nat) (f : Core → Core) : (modCore s n f).reports = s.reports := rfl
@[simp] theorem modCore_redirects (n : Nat) (f : Core → Core) : (modCore s n f).redirects = s.redirects := rfl
@[simp] theorem modCore_lastAdmit (n : Nat) (f : Core → Core) : (modCore s n f).lastAdmit = s.lastAdmit := rfl
@[simp] theorem modCore_served (n : Nat) (f : Core → Core) : (modCore s n f).served = s.served := rfl
@[simp] theorem modCore_lastServed (n : Nat) (f : Core → Core) : (modCore s n f).lastServed = s.lastServed := rfl
@[simp] theorem modCore_inputs (n : Nat) (f : Core → Core) : (modCore s n f).inputs = s.inputs := rfl
@[simp] theorem modCore_agenda (n : Nat) (f : Core → Core) : (modCore s n f).agenda = s.agenda := rfl
@[simp] theorem modCore_iss (n : Nat) (f : Core → Core) : (modCore s n f).iss = s.iss := rfl

@[simp] theorem post_now (i : Instr) : (post s i).now = s.now := rfl
@[simp] theorem post_tick (i : Instr) : (post s i).tick = s.tick := rfl
@[simp] theorem post_nextId (i : Instr) : (post s i).nextId = s.nextId := rfl
@[simp] theorem post_booted (i : Instr) : (post s i).booted = s.booted := rfl
@[simp] theorem post_measure (i : Instr) : (post s i).measure = s.measure := rfl
@[simp] theorem post_encKey (i : Instr) : (post s i).encKey = s.encKey := rfl
@[simp] theorem post_memAlive (i : Instr) : (post s i).memAlive = s.memAlive := rfl
@[simp] theorem post_corAlive (i : Instr) : (post s i).corAlive = s.corAlive := rfl
@[simp] theorem post_margin (i : Instr) : (post s i).margin = s.margin := rfl
@[simp] theorem post_tokenWait (i : Instr) : (post s i).tokenWait = s.tokenWait := rfl
@[simp] theorem post_hold (i : Instr) : (post s i).hold = s.hold := rfl
@[simp] theorem post_keys (i : Instr) : (post s i).keys = s.keys := rfl
@[simp] theorem post_keyCtx (i : Instr) : (post s i).keyCtx = s.keyCtx := rfl
@[simp] theorem post_mem (i : Instr) : (post s i).mem = s.mem := rfl
@[simp] theorem post_mcond (i : Instr) : (post s i).mcond = s.mcond := rfl
@[simp] theorem post_mkey (i : Instr) : (post s i).mkey = s.mkey := rfl
@[simp] theorem post_clocks (i : Instr) : (post s i).clocks = s.clocks := rfl
@[simp] theorem post_reqs (i : Instr) : (post s i).reqs = s.reqs := rfl
@[simp] theorem post_xings (i : Instr) : (post s i).xings = s.xings := rfl
@[simp] theorem post_walks (i : Instr) : (post s i).walks = s.walks := rfl
@[simp] theorem post_shared (i : Instr) : (post s i).shared = s.shared := rfl
@[simp] theorem post_cores (i : Instr) : (post s i).cores = s.cores := rfl
@[simp] theorem post_ctxs (i : Instr) : (post s i).ctxs = s.ctxs := rfl
@[simp] theorem post_launches (i : Instr) : (post s i).launches = s.launches := rfl
@[simp] theorem post_teams (i : Instr) : (post s i).teams = s.teams := rfl
@[simp] theorem post_trains (i : Instr) : (post s i).trains = s.trains := rfl
@[simp] theorem post_queues (i : Instr) : (post s i).queues = s.queues := rfl
@[simp] theorem post_cmds (i : Instr) : (post s i).cmds = s.cmds := rfl
@[simp] theorem post_tasks (i : Instr) : (post s i).tasks = s.tasks := rfl
@[simp] theorem post_heldDecs (i : Instr) : (post s i).heldDecs = s.heldDecs := rfl
@[simp] theorem post_errs (i : Instr) : (post s i).errs = s.errs := rfl
@[simp] theorem post_held (i : Instr) : (post s i).held = s.held := rfl
@[simp] theorem post_samples (i : Instr) : (post s i).samples = s.samples := rfl
@[simp] theorem post_seq (i : Instr) : (post s i).seq = s.seq := rfl
@[simp] theorem post_toks (i : Instr) : (post s i).toks = s.toks := rfl
@[simp] theorem post_owned (i : Instr) : (post s i).owned = s.owned := rfl
@[simp] theorem post_links (i : Instr) : (post s i).links = s.links := rfl
@[simp] theorem post_reports (i : Instr) : (post s i).reports = s.reports := rfl
@[simp] theorem post_redirects (i : Instr) : (post s i).redirects = s.redirects := rfl
@[simp] theorem post_lastAdmit (i : Instr) : (post s i).lastAdmit = s.lastAdmit := rfl
@[simp] theorem post_served (i : Instr) : (post s i).served = s.served := rfl
@[simp] theorem post_lastServed (i : Instr) : (post s i).lastServed = s.lastServed := rfl
@[simp] theorem post_inputs (i : Instr) : (post s i).inputs = s.inputs := rfl
@[simp] theorem post_iss (i : Instr) : (post s i).iss = s.iss := rfl

@[simp] theorem atTime_tick (n : Nat) : (atTime s n).tick = s.tick := rfl
@[simp] theorem atTime_nextId (n : Nat) : (atTime s n).nextId = s.nextId := rfl
@[simp] theorem atTime_booted (n : Nat) : (atTime s n).booted = s.booted := rfl
@[simp] theorem atTime_measure (n : Nat) : (atTime s n).measure = s.measure := rfl
@[simp] theorem atTime_encKey (n : Nat) : (atTime s n).encKey = s.encKey := rfl
@[simp] theorem atTime_memAlive (n : Nat) : (atTime s n).memAlive = s.memAlive := rfl
@[simp] theorem atTime_corAlive (n : Nat) : (atTime s n).corAlive = s.corAlive := rfl
@[simp] theorem atTime_margin (n : Nat) : (atTime s n).margin = s.margin := rfl
@[simp] theorem atTime_tokenWait (n : Nat) : (atTime s n).tokenWait = s.tokenWait := rfl
@[simp] theorem atTime_hold (n : Nat) : (atTime s n).hold = s.hold := rfl
@[simp] theorem atTime_keys (n : Nat) : (atTime s n).keys = s.keys := rfl
@[simp] theorem atTime_keyCtx (n : Nat) : (atTime s n).keyCtx = s.keyCtx := rfl
@[simp] theorem atTime_mem (n : Nat) : (atTime s n).mem = s.mem := rfl
@[simp] theorem atTime_mcond (n : Nat) : (atTime s n).mcond = s.mcond := rfl
@[simp] theorem atTime_mkey (n : Nat) : (atTime s n).mkey = s.mkey := rfl
@[simp] theorem atTime_clocks (n : Nat) : (atTime s n).clocks = s.clocks := rfl
@[simp] theorem atTime_reqs (n : Nat) : (atTime s n).reqs = s.reqs := rfl
@[simp] theorem atTime_xings (n : Nat) : (atTime s n).xings = s.xings := rfl
@[simp] theorem atTime_walks (n : Nat) : (atTime s n).walks = s.walks := rfl
@[simp] theorem atTime_shared (n : Nat) : (atTime s n).shared = s.shared := rfl
@[simp] theorem atTime_cores (n : Nat) : (atTime s n).cores = s.cores := rfl
@[simp] theorem atTime_ctxs (n : Nat) : (atTime s n).ctxs = s.ctxs := rfl
@[simp] theorem atTime_launches (n : Nat) : (atTime s n).launches = s.launches := rfl
@[simp] theorem atTime_teams (n : Nat) : (atTime s n).teams = s.teams := rfl
@[simp] theorem atTime_trains (n : Nat) : (atTime s n).trains = s.trains := rfl
@[simp] theorem atTime_queues (n : Nat) : (atTime s n).queues = s.queues := rfl
@[simp] theorem atTime_cmds (n : Nat) : (atTime s n).cmds = s.cmds := rfl
@[simp] theorem atTime_tasks (n : Nat) : (atTime s n).tasks = s.tasks := rfl
@[simp] theorem atTime_heldDecs (n : Nat) : (atTime s n).heldDecs = s.heldDecs := rfl
@[simp] theorem atTime_errs (n : Nat) : (atTime s n).errs = s.errs := rfl
@[simp] theorem atTime_held (n : Nat) : (atTime s n).held = s.held := rfl
@[simp] theorem atTime_samples (n : Nat) : (atTime s n).samples = s.samples := rfl
@[simp] theorem atTime_seq (n : Nat) : (atTime s n).seq = s.seq := rfl
@[simp] theorem atTime_toks (n : Nat) : (atTime s n).toks = s.toks := rfl
@[simp] theorem atTime_owned (n : Nat) : (atTime s n).owned = s.owned := rfl
@[simp] theorem atTime_links (n : Nat) : (atTime s n).links = s.links := rfl
@[simp] theorem atTime_reports (n : Nat) : (atTime s n).reports = s.reports := rfl
@[simp] theorem atTime_redirects (n : Nat) : (atTime s n).redirects = s.redirects := rfl
@[simp] theorem atTime_lastAdmit (n : Nat) : (atTime s n).lastAdmit = s.lastAdmit := rfl
@[simp] theorem atTime_served (n : Nat) : (atTime s n).served = s.served := rfl
@[simp] theorem atTime_lastServed (n : Nat) : (atTime s n).lastServed = s.lastServed := rfl
@[simp] theorem atTime_inputs (n : Nat) : (atTime s n).inputs = s.inputs := rfl
@[simp] theorem atTime_agenda (n : Nat) : (atTime s n).agenda = s.agenda := rfl
@[simp] theorem atTime_iss (n : Nat) : (atTime s n).iss = s.iss := rfl

@[simp] theorem poke_now (n : Nat) (bs : List Byte) : (poke s n bs).now = s.now := rfl
@[simp] theorem poke_tick (n : Nat) (bs : List Byte) : (poke s n bs).tick = s.tick := rfl
@[simp] theorem poke_nextId (n : Nat) (bs : List Byte) : (poke s n bs).nextId = s.nextId := rfl
@[simp] theorem poke_booted (n : Nat) (bs : List Byte) : (poke s n bs).booted = s.booted := rfl
@[simp] theorem poke_measure (n : Nat) (bs : List Byte) : (poke s n bs).measure = s.measure := rfl
@[simp] theorem poke_encKey (n : Nat) (bs : List Byte) : (poke s n bs).encKey = s.encKey := rfl
@[simp] theorem poke_memAlive (n : Nat) (bs : List Byte) : (poke s n bs).memAlive = s.memAlive := rfl
@[simp] theorem poke_corAlive (n : Nat) (bs : List Byte) : (poke s n bs).corAlive = s.corAlive := rfl
@[simp] theorem poke_margin (n : Nat) (bs : List Byte) : (poke s n bs).margin = s.margin := rfl
@[simp] theorem poke_tokenWait (n : Nat) (bs : List Byte) : (poke s n bs).tokenWait = s.tokenWait := rfl
@[simp] theorem poke_hold (n : Nat) (bs : List Byte) : (poke s n bs).hold = s.hold := rfl
@[simp] theorem poke_keys (n : Nat) (bs : List Byte) : (poke s n bs).keys = s.keys := rfl
@[simp] theorem poke_keyCtx (n : Nat) (bs : List Byte) : (poke s n bs).keyCtx = s.keyCtx := rfl
@[simp] theorem poke_mcond (n : Nat) (bs : List Byte) : (poke s n bs).mcond = s.mcond := rfl
@[simp] theorem poke_mkey (n : Nat) (bs : List Byte) : (poke s n bs).mkey = s.mkey := rfl
@[simp] theorem poke_clocks (n : Nat) (bs : List Byte) : (poke s n bs).clocks = s.clocks := rfl
@[simp] theorem poke_reqs (n : Nat) (bs : List Byte) : (poke s n bs).reqs = s.reqs := rfl
@[simp] theorem poke_xings (n : Nat) (bs : List Byte) : (poke s n bs).xings = s.xings := rfl
@[simp] theorem poke_walks (n : Nat) (bs : List Byte) : (poke s n bs).walks = s.walks := rfl
@[simp] theorem poke_shared (n : Nat) (bs : List Byte) : (poke s n bs).shared = s.shared := rfl
@[simp] theorem poke_cores (n : Nat) (bs : List Byte) : (poke s n bs).cores = s.cores := rfl
@[simp] theorem poke_ctxs (n : Nat) (bs : List Byte) : (poke s n bs).ctxs = s.ctxs := rfl
@[simp] theorem poke_launches (n : Nat) (bs : List Byte) : (poke s n bs).launches = s.launches := rfl
@[simp] theorem poke_teams (n : Nat) (bs : List Byte) : (poke s n bs).teams = s.teams := rfl
@[simp] theorem poke_trains (n : Nat) (bs : List Byte) : (poke s n bs).trains = s.trains := rfl
@[simp] theorem poke_queues (n : Nat) (bs : List Byte) : (poke s n bs).queues = s.queues := rfl
@[simp] theorem poke_cmds (n : Nat) (bs : List Byte) : (poke s n bs).cmds = s.cmds := rfl
@[simp] theorem poke_tasks (n : Nat) (bs : List Byte) : (poke s n bs).tasks = s.tasks := rfl
@[simp] theorem poke_heldDecs (n : Nat) (bs : List Byte) : (poke s n bs).heldDecs = s.heldDecs := rfl
@[simp] theorem poke_errs (n : Nat) (bs : List Byte) : (poke s n bs).errs = s.errs := rfl
@[simp] theorem poke_held (n : Nat) (bs : List Byte) : (poke s n bs).held = s.held := rfl
@[simp] theorem poke_samples (n : Nat) (bs : List Byte) : (poke s n bs).samples = s.samples := rfl
@[simp] theorem poke_seq (n : Nat) (bs : List Byte) : (poke s n bs).seq = s.seq := rfl
@[simp] theorem poke_toks (n : Nat) (bs : List Byte) : (poke s n bs).toks = s.toks := rfl
@[simp] theorem poke_owned (n : Nat) (bs : List Byte) : (poke s n bs).owned = s.owned := rfl
@[simp] theorem poke_links (n : Nat) (bs : List Byte) : (poke s n bs).links = s.links := rfl
@[simp] theorem poke_reports (n : Nat) (bs : List Byte) : (poke s n bs).reports = s.reports := rfl
@[simp] theorem poke_redirects (n : Nat) (bs : List Byte) : (poke s n bs).redirects = s.redirects := rfl
@[simp] theorem poke_lastAdmit (n : Nat) (bs : List Byte) : (poke s n bs).lastAdmit = s.lastAdmit := rfl
@[simp] theorem poke_served (n : Nat) (bs : List Byte) : (poke s n bs).served = s.served := rfl
@[simp] theorem poke_lastServed (n : Nat) (bs : List Byte) : (poke s n bs).lastServed = s.lastServed := rfl
@[simp] theorem poke_inputs (n : Nat) (bs : List Byte) : (poke s n bs).inputs = s.inputs := rfl
@[simp] theorem poke_agenda (n : Nat) (bs : List Byte) : (poke s n bs).agenda = s.agenda := rfl
@[simp] theorem poke_iss (n : Nat) (bs : List Byte) : (poke s n bs).iss = s.iss := rfl

@[simp] theorem postOnce_now (i : Instr) : (postOnce s i).now = s.now := by unfold postOnce; split <;> rfl
@[simp] theorem postOnce_tick (i : Instr) : (postOnce s i).tick = s.tick := by unfold postOnce; split <;> rfl
@[simp] theorem postOnce_nextId (i : Instr) : (postOnce s i).nextId = s.nextId := by unfold postOnce; split <;> rfl
@[simp] theorem postOnce_booted (i : Instr) : (postOnce s i).booted = s.booted := by unfold postOnce; split <;> rfl
@[simp] theorem postOnce_measure (i : Instr) : (postOnce s i).measure = s.measure := by unfold postOnce; split <;> rfl
@[simp] theorem postOnce_encKey (i : Instr) : (postOnce s i).encKey = s.encKey := by unfold postOnce; split <;> rfl
@[simp] theorem postOnce_memAlive (i : Instr) : (postOnce s i).memAlive = s.memAlive := by unfold postOnce; split <;> rfl
@[simp] theorem postOnce_corAlive (i : Instr) : (postOnce s i).corAlive = s.corAlive := by unfold postOnce; split <;> rfl
@[simp] theorem postOnce_margin (i : Instr) : (postOnce s i).margin = s.margin := by unfold postOnce; split <;> rfl
@[simp] theorem postOnce_tokenWait (i : Instr) : (postOnce s i).tokenWait = s.tokenWait := by unfold postOnce; split <;> rfl
@[simp] theorem postOnce_hold (i : Instr) : (postOnce s i).hold = s.hold := by unfold postOnce; split <;> rfl
@[simp] theorem postOnce_keys (i : Instr) : (postOnce s i).keys = s.keys := by unfold postOnce; split <;> rfl
@[simp] theorem postOnce_mem (i : Instr) : (postOnce s i).mem = s.mem := by unfold postOnce; split <;> rfl
@[simp] theorem postOnce_mcond (i : Instr) : (postOnce s i).mcond = s.mcond := by unfold postOnce; split <;> rfl
@[simp] theorem postOnce_mkey (i : Instr) : (postOnce s i).mkey = s.mkey := by unfold postOnce; split <;> rfl
@[simp] theorem postOnce_clocks (i : Instr) : (postOnce s i).clocks = s.clocks := by unfold postOnce; split <;> rfl
@[simp] theorem postOnce_reqs (i : Instr) : (postOnce s i).reqs = s.reqs := by unfold postOnce; split <;> rfl
@[simp] theorem postOnce_xings (i : Instr) : (postOnce s i).xings = s.xings := by unfold postOnce; split <;> rfl
@[simp] theorem postOnce_walks (i : Instr) : (postOnce s i).walks = s.walks := by unfold postOnce; split <;> rfl
@[simp] theorem postOnce_shared (i : Instr) : (postOnce s i).shared = s.shared := by unfold postOnce; split <;> rfl
@[simp] theorem postOnce_cores (i : Instr) : (postOnce s i).cores = s.cores := by unfold postOnce; split <;> rfl
@[simp] theorem postOnce_ctxs (i : Instr) : (postOnce s i).ctxs = s.ctxs := by unfold postOnce; split <;> rfl
@[simp] theorem postOnce_launches (i : Instr) : (postOnce s i).launches = s.launches := by unfold postOnce; split <;> rfl
@[simp] theorem postOnce_teams (i : Instr) : (postOnce s i).teams = s.teams := by unfold postOnce; split <;> rfl
@[simp] theorem postOnce_trains (i : Instr) : (postOnce s i).trains = s.trains := by unfold postOnce; split <;> rfl
@[simp] theorem postOnce_queues (i : Instr) : (postOnce s i).queues = s.queues := by unfold postOnce; split <;> rfl
@[simp] theorem postOnce_cmds (i : Instr) : (postOnce s i).cmds = s.cmds := by unfold postOnce; split <;> rfl
@[simp] theorem postOnce_tasks (i : Instr) : (postOnce s i).tasks = s.tasks := by unfold postOnce; split <;> rfl
@[simp] theorem postOnce_heldDecs (i : Instr) : (postOnce s i).heldDecs = s.heldDecs := by unfold postOnce; split <;> rfl
@[simp] theorem postOnce_errs (i : Instr) : (postOnce s i).errs = s.errs := by unfold postOnce; split <;> rfl
@[simp] theorem postOnce_held (i : Instr) : (postOnce s i).held = s.held := by unfold postOnce; split <;> rfl
@[simp] theorem postOnce_samples (i : Instr) : (postOnce s i).samples = s.samples := by unfold postOnce; split <;> rfl
@[simp] theorem postOnce_seq (i : Instr) : (postOnce s i).seq = s.seq := by unfold postOnce; split <;> rfl
@[simp] theorem postOnce_toks (i : Instr) : (postOnce s i).toks = s.toks := by unfold postOnce; split <;> rfl
@[simp] theorem postOnce_keyCtx (i : Instr) : (postOnce s i).keyCtx = s.keyCtx := by unfold postOnce; split <;> rfl
@[simp] theorem postOnce_owned (i : Instr) : (postOnce s i).owned = s.owned := by unfold postOnce; split <;> rfl
@[simp] theorem postOnce_links (i : Instr) : (postOnce s i).links = s.links := by unfold postOnce; split <;> rfl
@[simp] theorem postOnce_reports (i : Instr) : (postOnce s i).reports = s.reports := by unfold postOnce; split <;> rfl
@[simp] theorem postOnce_redirects (i : Instr) : (postOnce s i).redirects = s.redirects := by unfold postOnce; split <;> rfl
@[simp] theorem postOnce_lastAdmit (i : Instr) : (postOnce s i).lastAdmit = s.lastAdmit := by unfold postOnce; split <;> rfl
@[simp] theorem postOnce_served (i : Instr) : (postOnce s i).served = s.served := by unfold postOnce; split <;> rfl
@[simp] theorem postOnce_lastServed (i : Instr) : (postOnce s i).lastServed = s.lastServed := by unfold postOnce; split <;> rfl
@[simp] theorem postOnce_inputs (i : Instr) : (postOnce s i).inputs = s.inputs := by unfold postOnce; split <;> rfl
@[simp] theorem postOnce_iss (i : Instr) : (postOnce s i).iss = s.iss := by unfold postOnce; split <;> rfl

@[simp] theorem addErr_now (e : ErrRec) : (addErr s e).now = s.now := by simp [addErr]
@[simp] theorem addErr_tick (e : ErrRec) : (addErr s e).tick = s.tick := by simp [addErr]
@[simp] theorem addErr_nextId (e : ErrRec) : (addErr s e).nextId = s.nextId := by simp [addErr]
@[simp] theorem addErr_booted (e : ErrRec) : (addErr s e).booted = s.booted := by simp [addErr]
@[simp] theorem addErr_measure (e : ErrRec) : (addErr s e).measure = s.measure := by simp [addErr]
@[simp] theorem addErr_encKey (e : ErrRec) : (addErr s e).encKey = s.encKey := by simp [addErr]
@[simp] theorem addErr_memAlive (e : ErrRec) : (addErr s e).memAlive = s.memAlive := by simp [addErr]
@[simp] theorem addErr_corAlive (e : ErrRec) : (addErr s e).corAlive = s.corAlive := by simp [addErr]
@[simp] theorem addErr_margin (e : ErrRec) : (addErr s e).margin = s.margin := by simp [addErr]
@[simp] theorem addErr_tokenWait (e : ErrRec) : (addErr s e).tokenWait = s.tokenWait := by simp [addErr]
@[simp] theorem addErr_hold (e : ErrRec) : (addErr s e).hold = s.hold := by simp [addErr]
@[simp] theorem addErr_keys (e : ErrRec) : (addErr s e).keys = s.keys := by simp [addErr]
@[simp] theorem addErr_mem (e : ErrRec) : (addErr s e).mem = s.mem := by simp [addErr]
@[simp] theorem addErr_mcond (e : ErrRec) : (addErr s e).mcond = s.mcond := by simp [addErr]
@[simp] theorem addErr_mkey (e : ErrRec) : (addErr s e).mkey = s.mkey := by simp [addErr]
@[simp] theorem addErr_clocks (e : ErrRec) : (addErr s e).clocks = s.clocks := by simp [addErr]
@[simp] theorem addErr_reqs (e : ErrRec) : (addErr s e).reqs = s.reqs := by simp [addErr]
@[simp] theorem addErr_xings (e : ErrRec) : (addErr s e).xings = s.xings := by simp [addErr]
@[simp] theorem addErr_walks (e : ErrRec) : (addErr s e).walks = s.walks := by simp [addErr]
@[simp] theorem addErr_shared (e : ErrRec) : (addErr s e).shared = s.shared := by simp [addErr]
@[simp] theorem addErr_cores (e : ErrRec) : (addErr s e).cores = s.cores := by simp [addErr]
@[simp] theorem addErr_ctxs (e : ErrRec) : (addErr s e).ctxs = s.ctxs := by simp [addErr]
@[simp] theorem addErr_launches (e : ErrRec) : (addErr s e).launches = s.launches := by simp [addErr]
@[simp] theorem addErr_teams (e : ErrRec) : (addErr s e).teams = s.teams := by simp [addErr]
@[simp] theorem addErr_trains (e : ErrRec) : (addErr s e).trains = s.trains := by simp [addErr]
@[simp] theorem addErr_queues (e : ErrRec) : (addErr s e).queues = s.queues := by simp [addErr]
@[simp] theorem addErr_cmds (e : ErrRec) : (addErr s e).cmds = s.cmds := by simp [addErr]
@[simp] theorem addErr_tasks (e : ErrRec) : (addErr s e).tasks = s.tasks := by simp [addErr]
@[simp] theorem addErr_heldDecs (e : ErrRec) : (addErr s e).heldDecs = s.heldDecs := by simp [addErr]
@[simp] theorem addErr_held (e : ErrRec) : (addErr s e).held = s.held := by simp [addErr]
@[simp] theorem addErr_samples (e : ErrRec) : (addErr s e).samples = s.samples := by simp [addErr]
@[simp] theorem addErr_seq (e : ErrRec) : (addErr s e).seq = s.seq := by simp [addErr]
@[simp] theorem addErr_toks (e : ErrRec) : (addErr s e).toks = s.toks := by simp [addErr]
@[simp] theorem addErr_keyCtx (e : ErrRec) : (addErr s e).keyCtx = s.keyCtx := by simp [addErr]
@[simp] theorem addErr_owned (e : ErrRec) : (addErr s e).owned = s.owned := by simp [addErr]
@[simp] theorem addErr_links (e : ErrRec) : (addErr s e).links = s.links := by simp [addErr]
@[simp] theorem addErr_reports (e : ErrRec) : (addErr s e).reports = s.reports := by simp [addErr]
@[simp] theorem addErr_redirects (e : ErrRec) : (addErr s e).redirects = s.redirects := by simp [addErr]
@[simp] theorem addErr_lastAdmit (e : ErrRec) : (addErr s e).lastAdmit = s.lastAdmit := by simp [addErr]
@[simp] theorem addErr_served (e : ErrRec) : (addErr s e).served = s.served := by simp [addErr]
@[simp] theorem addErr_lastServed (e : ErrRec) : (addErr s e).lastServed = s.lastServed := by simp [addErr]
@[simp] theorem addErr_inputs (e : ErrRec) : (addErr s e).inputs = s.inputs := by simp [addErr]
@[simp] theorem addErr_iss (e : ErrRec) : (addErr s e).iss = s.iss := by simp [addErr]
@[simp] theorem addErr_errs (e : ErrRec) : (addErr s e).errs = s.errs ++ [{ e with time := s.now / Config.us }] := by simp [addErr]
@[simp] theorem fresh_now : (fresh s).2.now = s.now := rfl
@[simp] theorem fresh_tick : (fresh s).2.tick = s.tick := rfl
@[simp] theorem fresh_booted : (fresh s).2.booted = s.booted := rfl
@[simp] theorem fresh_measure : (fresh s).2.measure = s.measure := rfl
@[simp] theorem fresh_encKey : (fresh s).2.encKey = s.encKey := rfl
@[simp] theorem fresh_memAlive : (fresh s).2.memAlive = s.memAlive := rfl
@[simp] theorem fresh_corAlive : (fresh s).2.corAlive = s.corAlive := rfl
@[simp] theorem fresh_margin : (fresh s).2.margin = s.margin := rfl
@[simp] theorem fresh_tokenWait : (fresh s).2.tokenWait = s.tokenWait := rfl
@[simp] theorem fresh_hold : (fresh s).2.hold = s.hold := rfl
@[simp] theorem fresh_keys : (fresh s).2.keys = s.keys := rfl
@[simp] theorem fresh_keyCtx : (fresh s).2.keyCtx = s.keyCtx := rfl
@[simp] theorem fresh_mem : (fresh s).2.mem = s.mem := rfl
@[simp] theorem fresh_mcond : (fresh s).2.mcond = s.mcond := rfl
@[simp] theorem fresh_mkey : (fresh s).2.mkey = s.mkey := rfl
@[simp] theorem fresh_clocks : (fresh s).2.clocks = s.clocks := rfl
@[simp] theorem fresh_reqs : (fresh s).2.reqs = s.reqs := rfl
@[simp] theorem fresh_xings : (fresh s).2.xings = s.xings := rfl
@[simp] theorem fresh_walks : (fresh s).2.walks = s.walks := rfl
@[simp] theorem fresh_shared : (fresh s).2.shared = s.shared := rfl
@[simp] theorem fresh_cores : (fresh s).2.cores = s.cores := rfl
@[simp] theorem fresh_ctxs : (fresh s).2.ctxs = s.ctxs := rfl
@[simp] theorem fresh_launches : (fresh s).2.launches = s.launches := rfl
@[simp] theorem fresh_teams : (fresh s).2.teams = s.teams := rfl
@[simp] theorem fresh_trains : (fresh s).2.trains = s.trains := rfl
@[simp] theorem fresh_queues : (fresh s).2.queues = s.queues := rfl
@[simp] theorem fresh_cmds : (fresh s).2.cmds = s.cmds := rfl
@[simp] theorem fresh_tasks : (fresh s).2.tasks = s.tasks := rfl
@[simp] theorem fresh_heldDecs : (fresh s).2.heldDecs = s.heldDecs := rfl
@[simp] theorem fresh_errs : (fresh s).2.errs = s.errs := rfl
@[simp] theorem fresh_held : (fresh s).2.held = s.held := rfl
@[simp] theorem fresh_samples : (fresh s).2.samples = s.samples := rfl
@[simp] theorem fresh_seq : (fresh s).2.seq = s.seq := rfl
@[simp] theorem fresh_toks : (fresh s).2.toks = s.toks := rfl
@[simp] theorem fresh_owned : (fresh s).2.owned = s.owned := rfl
@[simp] theorem fresh_links : (fresh s).2.links = s.links := rfl
@[simp] theorem fresh_reports : (fresh s).2.reports = s.reports := rfl
@[simp] theorem fresh_redirects : (fresh s).2.redirects = s.redirects := rfl
@[simp] theorem fresh_lastAdmit : (fresh s).2.lastAdmit = s.lastAdmit := rfl
@[simp] theorem fresh_served : (fresh s).2.served = s.served := rfl
@[simp] theorem fresh_lastServed : (fresh s).2.lastServed = s.lastServed := rfl
@[simp] theorem fresh_inputs : (fresh s).2.inputs = s.inputs := rfl
@[simp] theorem fresh_agenda : (fresh s).2.agenda = s.agenda := rfl
@[simp] theorem fresh_iss : (fresh s).2.iss = s.iss := rfl
@[simp] theorem fresh_fst : (fresh s).1 = s.nextId := rfl
@[simp] theorem fresh_nextId : (fresh s).2.nextId = s.nextId + 1 := rfl
@[simp] theorem post_agenda (i : Instr) : (post s i).agenda = s.agenda ++ [i] := rfl
@[simp] theorem atTime_now (n : Nat) : (atTime s n).now = max s.now n := rfl
@[simp] theorem poke_mem (n : Nat) (bs : List Byte) : (poke s n bs).mem = csetAll s.mem n bs := rfl

/-! Finding a part after it has been set. -/

theorem find_map_mod {α : Type} (l : List α) (key : α → Nat) (n : Nat) (f : α → α) (hk : ∀ x, key (f x) = key x) :
    (l.map (fun u => if key u = n then f u else u)).find? (fun u => key u == n) = (l.find? (fun u => key u == n)).map f := by
  induction l with
  | nil => rfl
  | cons x t ih =>
    by_cases h : key x = n
    · simp [h, hk]
    · simp [h, ih]
theorem find_map_mod_ne {α : Type} (l : List α) (key : α → Nat) {n m : Nat} (f : α → α) (hk : ∀ x, key (f x) = key x)
    (h : m ≠ n) :
    (l.map (fun u => if key u = n then f u else u)).find? (fun u => key u == m) = l.find? (fun u => key u == m) := by
  induction l with
  | nil => rfl
  | cons x t ih =>
    have h' : n ≠ m := fun e => h e.symm
    by_cases hx : key x = n
    · simp [hx, hk, h', ih]
    · by_cases hm : key x = m
      · simp [hm, h]
      · simp [hx, hm, ih]
theorem find_map_set {α : Type} (l : List α) (key : α → Nat) (v : α) {x : α} (h : l.find? (fun u => key u == key v) = some x) :
    (l.map (fun u => if key u = key v then v else u)).find? (fun u => key u == key v) = some v := by
  induction l with
  | nil => simp at h
  | cons y t ih =>
    by_cases hy : key y = key v
    · simp [hy]
    · have ht : t.find? (fun u => key u == key v) = some x := by simpa [hy] using h
      simp only [List.map_cons, hy, if_false, List.find?_cons, beq_eq_false_iff_ne.2 hy]
      exact ih ht

/-- A part that has been changed is found changed. -/
theorem findTrain_modTrain (n : Nat) (f : Train → Train) (hf : ∀ x, (f x).uid = x.uid) :
    findTrain (modTrain s n f) n = (findTrain s n).map f := find_map_mod s.trains (·.uid) n f hf
theorem findTrain_modTrain_ne {n m : Nat} (f : Train → Train) (hf : ∀ x, (f x).uid = x.uid) (h : m ≠ n) :
    findTrain (modTrain s n f) m = findTrain s m := find_map_mod_ne s.trains (·.uid) f hf h

/-- A part that has been changed is found changed. -/
theorem findTeam_modTeam (n : Nat) (f : Team → Team) (hf : ∀ x, (f x).id = x.id) :
    findTeam (modTeam s n f) n = (findTeam s n).map f := find_map_mod s.teams (·.id) n f hf
theorem findTeam_modTeam_ne {n m : Nat} (f : Team → Team) (hf : ∀ x, (f x).id = x.id) (h : m ≠ n) :
    findTeam (modTeam s n f) m = findTeam s m := find_map_mod_ne s.teams (·.id) f hf h

/-- A part that has been changed is found changed. -/
theorem findCtx_modCtx (n : Nat) (f : Ctx → Ctx) (hf : ∀ x, (f x).num = x.num) :
    findCtx (modCtx s n f) n = (findCtx s n).map f := find_map_mod s.ctxs (·.num) n f hf
theorem findCtx_modCtx_ne {n m : Nat} (f : Ctx → Ctx) (hf : ∀ x, (f x).num = x.num) (h : m ≠ n) :
    findCtx (modCtx s n f) m = findCtx s m := find_map_mod_ne s.ctxs (·.num) f hf h

/-- A part that has been changed is found changed. -/
theorem findLaunch_modLaunch (n : Nat) (f : Launch → Launch) (hf : ∀ x, (f x).id = x.id) :
    findLaunch (modLaunch s n f) n = (findLaunch s n).map f := find_map_mod s.launches (·.id) n f hf
theorem findLaunch_modLaunch_ne {n m : Nat} (f : Launch → Launch) (hf : ∀ x, (f x).id = x.id) (h : m ≠ n) :
    findLaunch (modLaunch s n f) m = findLaunch s m := find_map_mod_ne s.launches (·.id) f hf h

/-- A part that has been changed is found changed. -/
theorem findQ_modQ (n : Nat) (f : QSlot → QSlot) (hf : ∀ x, (f x).slot = x.slot) :
    findQ (modQ s n f) n = (findQ s n).map f := find_map_mod s.queues (·.slot) n f hf
theorem findQ_modQ_ne {n m : Nat} (f : QSlot → QSlot) (hf : ∀ x, (f x).slot = x.slot) (h : m ≠ n) :
    findQ (modQ s n f) m = findQ s m := find_map_mod_ne s.queues (·.slot) f hf h

/-- A part that has been changed is found changed. -/
theorem findCmd_modCmd (n : Nat) (f : Cmd → Cmd) (hf : ∀ x, (f x).id = x.id) :
    findCmd (modCmd s n f) n = (findCmd s n).map f := find_map_mod s.cmds (·.id) n f hf
theorem findCmd_modCmd_ne {n m : Nat} (f : Cmd → Cmd) (hf : ∀ x, (f x).id = x.id) (h : m ≠ n) :
    findCmd (modCmd s n f) m = findCmd s m := find_map_mod_ne s.cmds (·.id) f hf h

/-- A part that has been changed is found changed. -/
theorem findTask_modTask (n : Nat) (f : Task → Task) (hf : ∀ x, (f x).id = x.id) :
    findTask (modTask s n f) n = (findTask s n).map f := find_map_mod s.tasks (·.id) n f hf
theorem findTask_modTask_ne {n m : Nat} (f : Task → Task) (hf : ∀ x, (f x).id = x.id) (h : m ≠ n) :
    findTask (modTask s n f) m = findTask s m := find_map_mod_ne s.tasks (·.id) f hf h

/-- A part that has been changed is found changed. -/
theorem findReq_modReq (n : Nat) (f : Req → Req) (hf : ∀ x, (f x).id = x.id) :
    findReq (modReq s n f) n = (findReq s n).map f := find_map_mod s.reqs (·.id) n f hf
theorem findReq_modReq_ne {n m : Nat} (f : Req → Req) (hf : ∀ x, (f x).id = x.id) (h : m ≠ n) :
    findReq (modReq s n f) m = findReq s m := find_map_mod_ne s.reqs (·.id) f hf h

/-- A train that has been set is found. -/
theorem findTrain_setTrain {t u : Train} (h : findTrain s u.uid = some t) : findTrain (setTrain s u) u.uid = some u :=
  find_map_set s.trains (·.uid) u h
theorem findTeam_setTeam {t u : Team} (h : findTeam s u.id = some t) : findTeam (setTeam s u) u.id = some u :=
  find_map_set s.teams (·.id) u h
/-- A part found has the number asked for. -/
theorem findTrain_uid {n : Nat} {t : Train} (h : findTrain s n = some t) : t.uid = n := by
  have := List.find?_some h
  simpa using this
theorem findTeam_id {n : Nat} {t : Team} (h : findTeam s n = some t) : t.id = n := by
  have := List.find?_some h
  simpa using this

end Sys2Proof.Laws
end

