-- ==== Sys2Proof/Laws/Memory.lean ====
section
/-! SUPPORT. Every operation that writes device memory keeps its canonical form, and writes the bytes that it names and no
others. -/

namespace Sys2Proof.Laws
open Sys2Proof Sys2Proof.Machine

variable {s : State}

/-- A property that each step of a fold keeps holds of its result. -/
theorem foldl_keeps {α β : Type} {p : α → Prop} {f : α → β → α} {a : α} {l : List β} (h : p a) (hf : ∀ a b, p a → p (f a b)) :
    p (l.foldl f a) := by
  induction l generalizing a with
  | nil => exact h
  | cons b t ih => exact ih (hf a b h)

/-- A quantity that no step of a fold changes. -/
theorem foldl_const {α β γ : Type} {g : α → γ} {f : α → β → α} (hf : ∀ a b, g (f a b) = g a) (a : α) (l : List β) :
    g (l.foldl f a) = g a := by
  induction l generalizing a with
  | nil => rfl
  | cons b t ih => rw [List.foldl_cons, ih, hf]

/-! Operations beside a write that leave every byte. -/

@[simp] theorem corrected_mem (u : Nat) (e : ErrRec) : (corrected s u e).mem = s.mem := by
  unfold corrected
  by_cases h : (s.held.any fun h => h.unit == u && decide (s.now < h.due)) = true
  · simp only [h, if_true]
  · simp only [h, if_false, post_mem, Bool.false_eq_true]
@[simp] theorem noteTok_mem (k : Tok) : (noteTok s k).mem = s.mem := rfl
@[simp] theorem noteHbm_mem (ctx team : Nat) (ks : List Nat) : (noteHbm s ctx team ks).mem = s.mem := by
  unfold noteHbm; rw [foldl_const (g := State.mem)]; intro a l; split <;> rfl
@[simp] theorem wakeWatch_mem (ks : List Nat) : (wakeWatch s ks).mem = s.mem := by
  unfold wakeWatch
  rw [foldl_const (g := State.mem)]
  · rw [foldl_const (g := State.mem)]
    intro a t
    rw [foldl_const (g := State.mem)]
    intro b i
    split
    · split <;> simp
    · rfl
  · intro a q; split <;> simp
@[simp] theorem noteHalf_mem (core ctx span h : Nat) : (noteHalf s core ctx span h).mem = s.mem := by
  unfold noteHalf; split <;> simp
@[simp] theorem noteHalves_mem (core ctx span : Nat) (hs : List Nat) : (noteHalves s core ctx span hs).mem = s.mem := by
  unfold noteHalves; rw [foldl_const (g := State.mem)]; intro a h; simp
@[simp] theorem unitError_mem (core unit : Nat) (u : HwUnit) : (unitError s core unit u).mem = s.mem := by
  unfold unitError; simp
@[simp] theorem noteScr_mem (tm : Team) (h : Nat) : (noteScr s tm h).mem = s.mem := by
  unfold noteScr; dsimp only; split <;> simp
@[simp] theorem noteScrPart_mem (tm : Team) (offs : List Nat) : (noteScrPart s tm offs).mem = s.mem := by
  unfold noteScrPart
  split
  · rfl
  · dsimp only
    rw [foldl_const (g := State.mem)]
    intro a h
    split
    · rfl
    · split <;> simp
@[simp] theorem scrWrite_mem (team : Nat) (obs : List (Nat × Byte)) : (scrWrite s team obs).mem = s.mem := by
  unfold scrWrite
  rw [wakeWatch_mem]
  rw [modTeam_mem]
  split <;> simp
@[simp] theorem reconsider_mem : (reconsider s).mem = s.mem := by
  unfold reconsider; rw [foldl_const (g := State.mem)]; intro a h; simp
@[simp] theorem tlbPurge_mem (p : TlbE → Bool) : (tlbPurge s p).mem = s.mem := rfl

/-! Writes keep the canonical form. -/

theorem unclock_inv (h : State.Inv s) (ks : List Nat) : State.Inv (unclock s ks) := by
  unfold unclock; split <;> exact h
theorem poke_inv (h : State.Inv s) (pa : Nat) (bs : List Byte) : State.Inv (poke s pa bs) := cwf_csetAll h
/-- What a change of a sector's key can do to memory: nothing, or new bytes for all of the sector. -/
theorem rekey_cases (s : State) (sec ver : Nat) :
    (rekey s sec ver).mem = s.mem ∨
      ((aget 0 s.mkey sec ≠ 0 ∧ aget 0 s.mkey sec ≠ ver) ∧
        ∃ bs : List Byte, bs.length = 64 ∧ (rekey s sec ver).mem = csetAll s.mem (64 * sec) bs) := by
  unfold rekey
  by_cases h1 : 2 ^ 46 ≤ sec
  · left; simp only [if_pos h1]
  · by_cases h2 : aget 0 s.mkey sec = 0 ∨ aget 0 s.mkey sec = ver
    · left; simp only [if_neg h1, if_pos h2]
    · right
      simp only [if_neg h1, if_neg h2]
      exact ⟨not_or.mp h2, _, by simp only [List.length_map, List.length_range], rfl⟩
theorem rekey_inv (h : State.Inv s) (sec ver : Nat) : State.Inv (rekey s sec ver) := by
  unfold State.Inv Memory.wf
  rcases rekey_cases s sec ver with e | ⟨_, bs, _, e⟩ <;> rw [e]
  · exact h
  · exact cwf_csetAll h
/-- The condition of a half-sector that a write leaves, and its records, change no byte. -/
@[simp] theorem condHome_mem (w : Who) (ks full left : List Nat) (h : Nat) : (condHome w ks full left s h).mem = s.mem := by
  unfold condHome
  split
  · rfl
  · dsimp only
    split
    · rfl
    · split <;> simp
theorem writeParts_inv (h : State.Inv s) (w : Who) (kbs : List (Nat × Byte)) (ver : Nat) (full left : List Nat) :
    State.Inv (writeParts s w kbs ver full left) := by
  unfold State.Inv Memory.wf writeParts
  simp only [wakeWatch_mem]
  refine cwf_csetAt (foldl_keeps (p := State.Inv) (foldl_keeps (p := State.Inv) h fun a b ha => rekey_inv ha b ver) ?_)
  intro a b ha
  unfold State.Inv
  rw [condHome_mem]
  exact ha
theorem writeHome_inv (h : State.Inv s) (w : Who) (kbs : List (Nat × Byte)) (ver : Nat) : State.Inv (writeHome s w kbs ver) :=
  writeParts_inv h _ _ _ _ _
theorem writeKeyed_inv (h : State.Inv s) (w : Who) (kv : List (Nat × Nat)) (bs : List Byte) : State.Inv (writeKeyed s w kv bs) :=
  foldl_keeps (p := State.Inv) h fun _ _ ha => writeHome_inv ha _ _ _
theorem setNode_inv (h : State.Inv s) (ctx n : Nat) (v : Node) : State.Inv (setNode s ctx n v) := by
  unfold setNode
  split
  · exact h
  · exact poke_inv (s := modCtx s ctx _) h _ _
theorem post_inv (h : State.Inv s) (i : Instr) : State.Inv (post s i) := h
theorem postOnce_inv (h : State.Inv s) (i : Instr) : State.Inv (postOnce s i) := by
  unfold State.Inv at *; simpa using h
theorem bridleIncAt_inv (h : State.Inv s) (leaving : Bool) (ctx sec : Nat) : State.Inv (bridleIncAt s leaving ctx sec) := by
  unfold bridleIncAt
  split
  · exact h
  · split
    · exact h
    · dsimp only
      split
      · exact setNode_inv h _ _ _
      · exact postOnce_inv (setNode_inv h _ _ _) _
theorem bridleIncs_inv (h : State.Inv s) (l : List (Nat × Nat)) : State.Inv (bridleIncs s l) :=
  foldl_keeps (p := State.Inv) h fun _ b ha => bridleIncAt_inv ha false b.1 b.2
theorem putHome_inv (h : State.Inv s) (w : Who) (kv : List (Nat × Nat)) (bs : List Byte) (sects : List (Nat × Nat)) :
    State.Inv (putHome s w kv bs sects) := bridleIncs_inv (writeKeyed_inv (unclock_inv h _) _ _ _) _
theorem putAt_inv (h : State.Inv s) (ctx span off : Nat) (kv : List (Nat × Nat)) (bs : List Byte) :
    State.Inv (putAt s ctx span off kv bs) := putHome_inv h _ _ _ _
theorem feWrite_inv (h : State.Inv s) {s' : State} {ctx span off : Nat} {bs : List Byte}
    (e : feWrite s ctx span off bs = .ok s') : State.Inv s' := by
  unfold feWrite at e
  split at e
  · cases e
  · split at e
    · cases e
    · cases e; exact putHome_inv h _ _ _ _
theorem descPut_inv (h : State.Inv s) (ctx desc off : Nat) (bs : List Byte) : State.Inv (descPut s ctx desc off bs) := by
  unfold descPut
  split
  · exact h
  · exact writeKeyed_inv h _ _ _
theorem policyPut_inv (h : State.Inv s) (ctx off : Nat) (bs : List Byte) : State.Inv (policyPut s ctx off bs) := by
  unfold policyPut
  split
  · exact h
  · exact writeKeyed_inv h _ _ _
theorem ringPut_inv (h : State.Inv s) (c : Ctx) (bs : List Byte) : State.Inv (ringPut s c bs) := by
  unfold ringPut
  split
  · exact h
  · dsimp only
    split
    · exact policyPut_inv h _ _ _
    · exact policyPut_inv (policyPut_inv h _ _ _) _ _ _
theorem recordPut_inv (h : State.Inv s) (team ctx : Nat) (loc : Word) (f : Nat → Nat) : State.Inv (recordPut s team ctx loc f) := by
  unfold recordPut
  dsimp only
  split
  · split
    · exact h
    · unfold State.Inv Memory.wf
      rw [scrWrite_mem]
      exact h
  · split
    · exact h
    · split
      · exact h
      · exact bridleIncs_inv (writeHome_inv (unclock_inv h _) _ _ _) _
theorem hostPut_inv (h : State.Inv s) (a : HostAcc) (kv : List (Nat × Nat)) (bs : List Byte) : State.Inv (hostPut s a kv bs) := by
  unfold hostPut
  split
  · exact writeHome_inv (unclock_inv h _) _ _ _
  · exact foldl_keeps (p := State.Inv) h fun _ _ ha => ha

/-! What a write changes. -/

/-- Bytes outside those that `poke` names stand. -/
theorem poke_out {pa a : Nat} {bs : List Byte} (h : a < pa ∨ pa + bs.length ≤ a) : cget (poke s pa bs).mem a = cget s.mem a :=
  cget_csetAll_out h
/-- The bytes that `poke` names take its values. -/
theorem poke_in {pa i : Nat} {bs : List Byte} (h : i < bs.length) : cget (poke s pa bs).mem (pa + i) = bs[i] := cget_csetAll_in h
/-- A byte in a sector that a write leaves alone stands. -/
theorem rekey_out {sec ver a : Nat} (h : a / 64 ≠ sec) : cget (rekey s sec ver).mem a = cget s.mem a := by
  rcases rekey_cases s sec ver with e | ⟨_, bs, hl, e⟩ <;> rw [e]
  exact cget_csetAll_out (by omega)
/-- A sector that was never written under another key is not disturbed by the rest of a write to it. -/
theorem rekey_same {sec ver : Nat} (h : aget 0 s.mkey sec = 0 ∨ aget 0 s.mkey sec = ver) : (rekey s sec ver).mem = s.mem := by
  rcases rekey_cases s sec ver with e | ⟨hn, _⟩
  · exact e
  · rcases h with h | h
    · exact absurd h hn.1
    · exact absurd h hn.2
/-- What a list without repeats lists. -/
theorem mem_nub {l : List Nat} {x : Nat} : x ∈ nub l ↔ x ∈ l := by
  induction l with
  | nil => exact Iff.rfl
  | cons h t ih =>
    simp only [nub, List.mem_cons, List.mem_filter, decide_eq_true_eq, ih]
    by_cases e : x = h <;> simp [e]
/-- A byte in no sector of a write at a home stands. -/
theorem writeHome_out {w : Who} {kbs : List (Nat × Byte)} {ver a : Nat} (h : ∀ e ∈ kbs, e.1 / 64 ≠ a / 64) :
    cget (writeHome s w kbs ver).mem a = cget s.mem a := by
  unfold writeHome writeParts
  simp only [wakeWatch_mem]
  rw [cget_csetAt_out (fun e he hk => h e he (by rw [hk]))]
  rw [foldl_const (g := fun s : State => cget s.mem a)]
  · have hk : ∀ sec ∈ nub ((nub (kbs.map (·.1))).map (· / 64)), a / 64 ≠ sec := by
      intro sec hs
      obtain ⟨k, hk, rfl⟩ := List.mem_map.mp (mem_nub.mp hs)
      obtain ⟨e, he, rfl⟩ := List.mem_map.mp (mem_nub.mp hk)
      exact fun hc => h e he hc.symm
    generalize nub ((nub (kbs.map (·.1))).map (· / 64)) = l at hk
    induction l generalizing s with
    | nil => rfl
    | cons sec t ih =>
      rw [List.foldl_cons, ih (s := rekey s sec ver) (fun x hx => hk x (List.mem_cons_of_mem _ hx)),
        rekey_out (hk sec List.mem_cons_self)]
  · intro b i
    rw [condHome_mem]

end Sys2Proof.Laws
end

