-- ==== Sys2Proof/Laws/Run.lean ====
section
/-! SUPPORT. What the shared operations of an issuing run can do: masks, slots, registers, the frame of a meaning and the end
of an issue. -/

namespace Sys2Proof.Laws
open Sys2Proof Sys2Proof.Machine

/-! Masks. -/

theorem packNat_one_lt (g : Nat → Nat) (n : Nat) : packNat 1 g n < 2 ^ n := by
  induction n with
  | zero => simp [packNat]
  | succ n ih =>
    simp only [packNat, Nat.pow_succ, Nat.one_mul]
    have : g n % (2 ^ 0 * 2) < 2 := Nat.mod_lt _ (by decide)
    have h2 : g n % (2 ^ 0 * 2) * 2 ^ n ≤ 1 * 2 ^ n := Nat.mul_le_mul_right _ (by omega)
    omega

theorem testBit_packNat_one (g : Nat → Nat) (n i : Nat) : (packNat 1 g n).testBit i = decide (i < n ∧ g i % 2 = 1) := by
  induction n with
  | zero => simp [packNat]
  | succ n ih =>
    simp only [packNat, Nat.one_mul]
    have h := packNat_one_lt g n
    rw [Nat.add_comm, Nat.mul_comm, Nat.testBit_two_pow_mul_add _ h, ih]
    split
    · have : i < n + 1 := by omega
      simp_all
    · rename_i hn
      by_cases he : i = n
      · subst he
        simp [Nat.testBit_zero]
      · have : ¬ i < n + 1 := by omega
        simp only [this, false_and, decide_false]
        rw [Nat.testBit_lt_two_pow]
        have h1 : g n % 2 ^ 1 < 2 := Nat.mod_lt _ (by decide)
        exact Nat.lt_of_lt_of_le h1 (by
          have : 2 ^ 1 ≤ 2 ^ (i - n) := Nat.pow_le_pow_right (by decide) (by omega)
          simpa using this)

/-- A slot is in the mask of a test exactly when it meets the test. -/
theorem inMask_maskOf (p : Nat → Bool) (i : Nat) : inMask (maskOf p) i = (decide (i < 32) && p i) := by
  unfold inMask maskOf
  rw [BitVec.getLsbD_ofNat, testBit_packNat_one]
  by_cases hi : i < 32 <;> by_cases hp : p i <;> simp [hi, hp]

theorem inMask_lt {m : Mask} {i : Nat} (h : inMask m i = true) : i < 32 := by
  unfold inMask at h
  exact BitVec.lt_of_getLsbD h

theorem mem_slotsOf {m : Mask} {i : Nat} : i ∈ slotsOf m ↔ inMask m i = true := by
  unfold slotsOf
  simp only [List.mem_filter, List.mem_range]
  exact ⟨fun h => h.2, fun h => ⟨inMask_lt h, h⟩⟩

/-- A mask with no slot in it is zero. -/
theorem mask_eq_zero {m : Mask} (h : ∀ i < 32, inMask m i = false) : m = 0#32 := by
  apply BitVec.eq_of_getLsbD_eq
  intro i hi
  simpa [inMask] using h i hi

theorem slotsOf_zero : slotsOf 0#32 = [] := by decide

/-- With no slot in error, the active slots are those of the run that their guard passes. -/
theorem inMask_active {iss : Issue} {t : Train} (h : iss.bad = []) (i : Nat) :
    inMask (activeMask iss t) i = (decide (i < 32) && inMask iss.slots i && guardPass (issGuard iss (slotAt t i)) (slotAt t i)) := by
  unfold activeMask
  rw [inMask_maskOf]
  simp [h, Bool.and_assoc]

theorem active_in_run {iss : Issue} {t : Train} {i : Nat} (h : inMask (activeMask iss t) i = true) : inMask iss.slots i = true := by
  unfold activeMask at h
  rw [inMask_maskOf] at h
  simp at h
  exact h.2.1.1

/-! Slots. -/

@[simp] theorem length_mapSlots (t : Train) (f : Nat → Slot → Slot) : (mapSlots t f).slots.length = t.slots.length := by
  simp [mapSlots]

/-- A slot after a change of every slot. -/
theorem slotAt_mapSlots {t : Train} {f : Nat → Slot → Slot} {i : Nat} (h : i < t.slots.length) :
    slotAt (mapSlots t f) i = f i (slotAt t i) := by
  have h2 : i < (t.slots.zipIdx.map (fun p => f p.2 p.1)).length := by simpa using h
  simp only [slotAt, mapSlots, List.getD_eq_getElem?_getD, List.getElem?_eq_getElem h2, List.getElem?_eq_getElem h,
    Option.getD_some, List.getElem_map, List.getElem_zipIdx]
  simp

theorem mapSlots_eq_self {t : Train} {f : Nat → Slot → Slot} (h : ∀ i < t.slots.length, f i (slotAt t i) = slotAt t i) :
    mapSlots t f = t := by
  have h0 : t.slots.zipIdx.map (fun p => f p.2 p.1) = t.slots := by
    apply List.ext_getElem
    · simp
    · intro i h1 h2
      have := h i h2
      simp only [slotAt, List.getD_eq_getElem?_getD, List.getElem?_eq_getElem h2, Option.getD_some] at this
      simpa using this
  simp only [mapSlots, h0]

@[simp] theorem mapSlots_rest (t : Train) (f : Nat → Slot → Slot) : { mapSlots t f with slots := t.slots } = t := rfl
@[simp] theorem mapSlots_mapSlots (t : Train) (f g : Nat → Slot → Slot) :
    mapSlots (mapSlots t f) g = mapSlots t (fun i x => g i (f i x)) := by
  have h : (t.slots.zipIdx.map (fun p => f p.2 p.1)).zipIdx.map (fun p => g p.2 p.1)
      = t.slots.zipIdx.map (fun p => g p.2 (f p.2 p.1)) := by
    apply List.ext_getElem
    · simp
    · intro i h1 h2
      simp
  simp only [mapSlots, h]

@[simp] theorem mapSlots_uid (t : Train) (f : Nat → Slot → Slot) : (mapSlots t f).uid = t.uid := rfl
@[simp] theorem mapSlots_k (t : Train) (f : Nat → Slot → Slot) : (mapSlots t f).k = t.k := rfl
@[simp] theorem mapSlots_A (t : Train) (f : Nat → Slot → Slot) : (mapSlots t f).A = t.A := rfl
@[simp] theorem mapSlots_B (t : Train) (f : Nat → Slot → Slot) : (mapSlots t f).B = t.B := rfl
@[simp] theorem mapSlots_fflags (t : Train) (f : Nat → Slot → Slot) : (mapSlots t f).fflags = t.fflags := rfl
@[simp] theorem mapSlots_sstep (t : Train) (f : Nat → Slot → Slot) : (mapSlots t f).sstep = t.sstep := rfl

/-! One register of a slot whose half-sectors are sound. -/

theorem partWrite_sound {x : Slot} (h : x.rcond = []) (k : Nat) : partWrite x k = x.rcond := by simp [partWrite, h]
theorem putReg_sound {x : Slot} (h : x.rcond = []) (r : Nat) (v : Word) :
    putReg x r v = { x with regs := cset x.regs r (putVal x r v) } := by
  simp only [putReg, partWrite_sound h]
theorem cget_putReg (x : Slot) (r r' : Nat) (v : Word) :
    cget (putReg x r v).regs r' = if r' = r then putVal x r' v else cget x.regs r' := by
  by_cases h : r' = r
  · subst h
    simp [putReg, cget_cset]
  · simp [putReg, cget_cset, h]
theorem putA_sound {x : Slot} (h : x.rcond = []) (n : R3) (v : Addr) : putA x n v = { x with areg := cset x.areg n.toNat v } := by
  simp only [putA, partWrite_sound h]
theorem setPred_sound {x : Slot} (h : x.rcond = []) (p : R3) (v : Bool) : setPred x p v = { x with pred := (setPred x p v).pred } := by
  simp only [setPred, partWrite_sound h]
/-- Outside a trap frame a register takes the value that is written. -/
theorem putVal_plain {x : Slot} (h : x.frame = []) (r : Nat) (v : Word) : putVal x r v = v := by simp [putVal, h, afind]

theorem slot_sound {t : Train} (h : ∀ x ∈ t.slots, x.rcond = []) (i : Nat) : (slotAt t i).rcond = [] := by
  unfold slotAt
  rw [List.getD_eq_getElem?_getD]
  cases hx : t.slots[i]? with
  | none => rfl
  | some x => exact h x (List.mem_of_getElem? hx)

/-! The frame of a meaning. -/

theorem badSlots_sound {iss : Issue} {t : Train} {ins : Instr} (h : ∀ x ∈ t.slots, x.rcond = []) : badSlots iss t ins = [] := by
  unfold badSlots
  rw [List.filterMap_eq_nil_iff]
  intro i _
  simp [slotFault, halvesFault, regFault, slot_sound h]

theorem all_sound {t : Train} (h : ∀ x ∈ t.slots, x.rcond = []) : (t.slots.all (fun x => x.rcond.isEmpty)) = true := by
  rw [List.all_eq_true]
  intro x hx
  simp [h x hx]
theorem noteParts_sound {s : State} {t : Train} (h : ∀ x ∈ t.slots, x.rcond = []) : noteParts s t = s := by
  unfold noteParts
  rw [if_pos (all_sound h)]
theorem noteRegs_sound {s : State} {iss : Issue} {t : Train} {ins : Instr} (h : ∀ x ∈ t.slots, x.rcond = []) :
    noteRegs s iss t ins = s := by
  unfold noteRegs noteRegsOf
  rw [if_pos (all_sound h)]

/-- An instruction that issues without an operand fault runs its body on the active slots, and with none it does nothing but
complete (R22, R113). -/
theorem runIns_issues {i : Instr} {s : State} {iss : Issue} {t : Train} (h : Issues i s iss t)
    (body : State → Issue → Train → Mask → State) :
    runIns i s body = .next (if activeMask iss t = 0#32 then settle s iss t [] else body s iss t (activeMask iss t)) := by
  unfold runIns
  simp only [h.issue, h.train, h.fields, badSlots_sound h.sound, noteRegs_sound h.sound, noteParts_sound h.sound]
  have : { iss with bad := [] } = iss := by
    have := h.bad
    cases iss
    simp_all
  rw [this]

/-- An operand fault of the whole run (R69, R416). -/
theorem runIns_faults {i : Instr} {s : State} {iss : Issue} {t : Train} {d info : Nat} (h1 : s.iss = some iss)
    (h2 : findTrain s iss.tr = some t) (h3 : fieldFault t i = some (d, info)) (body : State → Issue → Train → Mask → State) :
    runIns i s body = .next (faultAll s iss t iss.slots (cause 1 d) (BitVec.ofNat 64 info)) := by
  unfold runIns
  simp only [h1, h2, h3]

theorem afind_nil {α : Type} (k : Nat) : afind ([] : List (Nat × α)) k = none := rfl

/-- Without outcomes no walk begins. -/
theorem openWalks_nil (s : State) (iss : Issue) (t : Train) : openWalks s iss t [] = (s, []) := rfl
theorem allOuts_nil {iss : Issue} (h : iss.bad = []) : allOuts iss [] = [] := by
  simp [allOuts, badOuts, h, afind]

theorem findTrain_uid' {s : State} {u : Nat} {t : Train} (h : findTrain s u = some t) : t.uid = u := by
  have := List.find?_some h
  simpa using this

/-- The end of an issue that its whole run completes, when no single step follows. -/
theorem settle_done {s : State} {iss : Issue} {t : Train} (h : iss.bad = []) (hs : t.sstep = false)
    (ht : (findTrain s t.uid).isSome = true) :
    settle s iss t [] = { setTrain s (settleTrain s.now iss t []) with iss := none } := by
  have h1 : findTrain { setTrain s (settleTrain s.now iss t []) with iss := none } t.uid = some (settleTrain s.now iss t []) := by
    obtain ⟨y, hy⟩ := Option.isSome_iff_exists.1 ht
    exact find_map_set s.trains (·.uid) (settleTrain s.now iss t []) (x := y) hy
  have h2 : (settleTrain s.now iss t []).sstep = false := hs
  have h3 : trapOf iss [] = none := rfl
  simp only [settle, openWalks_nil, allOuts_nil h, h3, stepNote, h1, h2, Bool.not_false, if_true]

/-- A train after an issue that its whole run completes. -/
theorem settleTrain_nil (now : Nat) (iss : Issue) (t : Train) :
    settleTrain now iss t [] =
      { mapSlots t (fun i x => if inMask iss.slots i then slotDone iss (nextPc iss) x
          else if x.st = .ready then { x with skip := x.skip + 1 } else x) with
        aging := 0, canSince := none, lastIss := now, escape := none } := by
  simp only [settleTrain]
  congr 1

end Sys2Proof.Laws
end

