-- ==== Sys2Proof/Laws/Vec.lean ====
section
/-! SUPPORT. The shared operations of vector and uniform instructions meet the terms of Safety: what each can do is said once,
for every instruction whose meaning is a call of it. -/

namespace Sys2Proof.Laws
open Sys2Proof Sys2Proof.Machine

theorem slotDone_parts (iss : Issue) (pc : Pc) (x : Slot) (a : Cells 64) (b : Cells 80) (c : BitVec 8) :
    slotDone iss pc { x with regs := a, areg := b, pred := c } = { slotDone iss pc x with regs := a, areg := b, pred := c } := by
  by_cases h : 1 < repLeft iss x
  · have h' : 1 < repLeft iss { x with regs := a, areg := b, pred := c } := h
    simp only [slotDone, h, h', if_true]
    rfl
  · have h' : ¬ 1 < repLeft iss { x with regs := a, areg := b, pred := c } := h
    simp only [slotDone, h, h', if_false]
    rfl
@[simp] theorem slotDone_regs (iss : Issue) (pc : Pc) (x : Slot) : (slotDone iss pc x).regs = x.regs := by
  simp only [slotDone]; split <;> rfl
@[simp] theorem slotDone_areg (iss : Issue) (pc : Pc) (x : Slot) : (slotDone iss pc x).areg = x.areg := by
  simp only [slotDone]; split <;> rfl
@[simp] theorem slotDone_pred (iss : Issue) (pc : Pc) (x : Slot) : (slotDone iss pc x).pred = x.pred := by
  simp only [slotDone]; split <;> rfl

/-- A slot of a train after an issue that its whole run completes. -/
theorem slotAt_settleTrain {now : Nat} {iss : Issue} {t : Train} {n : Nat} (h : n < t.slots.length) :
    slotAt (settleTrain now iss t []) n =
      if inMask iss.slots n then slotDone iss (nextPc iss) (slotAt t n)
      else { slotAt t n with skip := if (slotAt t n).st = .ready then (slotAt t n).skip + 1 else (slotAt t n).skip } := by
  have : slotAt (settleTrain now iss t []) n = slotAt (mapSlots t (settleSlot iss [])) n := rfl
  rw [this, slotAt_mapSlots h]
  simp only [settleSlot, outOf, afind, Option.getD_none]
  by_cases hm : inMask iss.slots n
  · simp [hm]
  · by_cases hr : (slotAt t n).st = .ready <;> simp [hm, hr]

/-- The end of an issue, when the meaning has made the train `u` of `t`, changing registers, address registers and predicates
of slots of the run, k registers and flags. -/
theorem settle_completed {s : State} {iss : Issue} {t u : Train} {i : Instr} (h : Issues i s iss t)
    (hu : u = { t with slots := u.slots, k := u.k, fflags := u.fflags }) (hl : u.slots.length = 32)
    (hf : ∀ n < 32, slotAt u n = if inMask iss.slots n then
        { slotAt t n with regs := (slotAt u n).regs, areg := (slotAt u n).areg, pred := (slotAt u n).pred } else slotAt t n) :
    ∃ t', settle s iss u [] = { setTrain s t' with iss := none } ∧
      OnlyTrain s { setTrain s t' with iss := none } t t' ∧
      Completed s iss t t' (fun _ => nextPc iss) ∧ t'.k = u.k ∧ t'.fflags = u.fflags ∧
      (∀ n < 32, (slotAt t' n).regs = (slotAt u n).regs ∧ (slotAt t' n).areg = (slotAt u n).areg ∧
        (slotAt t' n).pred = (slotAt u n).pred) := by
  have hi : t.uid = iss.tr := findTrain_uid' h.train
  have hui : u.uid = t.uid := by rw [hu]
  have hus : u.sstep = false := by rw [hu]; exact h.free
  have hs : ∀ n < 32, slotAt (settleTrain s.now iss u []) n = _ := fun n hn => slotAt_settleTrain (by rw [hl]; exact hn)
  refine ⟨settleTrain s.now iss u [], settle_done h.bad hus (by rw [hui, hi, h.train]; rfl), ⟨rfl, hui, fun _ => rfl⟩, ?_, rfl,
    rfl, ?_⟩
  · refine ⟨?_, by simp [settleTrain, mapSlots, hl], ?_⟩
    · conv => lhs; rw [hu]
      rfl
    · intro n hn
      simp only [SlotMoved]
      rw [hs n hn]
      by_cases hm : inMask iss.slots n
      · have := hf n hn
        simp only [hm, if_true] at this ⊢
        rw [this, slotDone_parts]
      · have := hf n hn
        simp only [hm, Bool.false_eq_true, if_false] at this ⊢
        rw [this]
  · intro n hn
    rw [hs n hn]
    by_cases hm : inMask iss.slots n <;> simp [hm]

/-- An instruction whose meaning changes its active slots by `g` and ends the issue: the frame, and what stands after. -/
theorem run_completed {i : Instr} {s : State} {iss : Issue} {t : Train} (h : Issues i s iss t) (g : Nat → Slot → Slot)
    (k : Cells 64) (fl : BitVec 5)
    (hx : exec i s = .next (settle s iss
      { mapSlots t (fun n x => if inMask (activeMask iss t) n then g n x else x) with k := k, fflags := fl } []))
    (hg : ∀ n x, x.rcond = [] → g n x = { x with regs := (g n x).regs, areg := (g n x).areg, pred := (g n x).pred }) :
    ∃ s' t', exec i s = .next s' ∧ OnlyTrain s s' t t' ∧ Completed s iss t t' (fun _ => nextPc iss) ∧ t'.k = k ∧
      t'.fflags = fl ∧
      ∀ n < 32,
        (slotAt t' n).regs = (if inMask (activeMask iss t) n then (g n (slotAt t n)).regs else (slotAt t n).regs) ∧
        (slotAt t' n).areg = (if inMask (activeMask iss t) n then (g n (slotAt t n)).areg else (slotAt t n).areg) ∧
        (slotAt t' n).pred = (if inMask (activeMask iss t) n then (g n (slotAt t n)).pred else (slotAt t n).pred) := by
  let u : Train := { mapSlots t (fun n x => if inMask (activeMask iss t) n then g n x else x) with k := k, fflags := fl }
  have hs : ∀ n < 32, slotAt u n = if inMask (activeMask iss t) n then g n (slotAt t n) else slotAt t n :=
    fun n hn => slotAt_mapSlots (t := t) (f := fun n x => if inMask (activeMask iss t) n then g n x else x)
      (by rw [h.width]; exact hn)
  obtain ⟨t', h1, h2, h3, h4, h5, h6⟩ := settle_completed (s := s) (iss := iss) (u := u) h rfl
    (by
      have := length_mapSlots t (fun n x => if inMask (activeMask iss t) n then g n x else x)
      rw [h.width] at this
      exact this) (fun n hn => by
      rw [hs n hn]
      by_cases hm : inMask (activeMask iss t) n
      · simp only [active_in_run hm, hm, if_true]
        exact hg n (slotAt t n) (slot_sound h.sound n)
      · simp only [hm, Bool.false_eq_true, if_false]
        split <;> rfl)
  refine ⟨_, t', hx.trans (by rw [← h1]), h2, h3, h4, h5, ?_⟩
  intro n hn
  have := h6 n hn
  rw [hs n hn] at this
  refine ⟨this.1.trans ?_, this.2.1.trans ?_, this.2.2.trans ?_⟩ <;> split <;> rfl

/-- Nothing changes where no slot is active. -/
theorem mapSlots_inactive {iss : Issue} {t : Train} (g : Nat → Slot → Slot) (h : activeMask iss t = 0#32) :
    mapSlots t (fun n x => if inMask (activeMask iss t) n then g n x else x) = t :=
  mapSlots_eq_self (fun n _ => by simp [h, inMask])

/-- A change of no train changes nothing. -/
theorem modTrain_self {s : State} {n : Nat} : modTrain s n (fun u => u) = s := by
  simp only [modTrain, ite_self, List.map_id']

theorem active_of_one {m : Mask} {n : Nat} (h : slotsOf m = [n]) : m ≠ 0#32 ∧ inMask m n = true := by
  constructor
  · intro hz
    rw [hz, slotsOf_zero] at h
    cases h
  · exact mem_slotsOf.1 (h ▸ List.mem_singleton.2 rfl)

/-- Ports that are ready stop nothing. -/
theorem portStop_ready {i : Instr} {d : Reg} {v : Word} {s : State} {iss : Issue} {t : Train} {n : Nat}
    (hr : PortsReady i d v s iss t n) :
    portStop iss (s, []) t n (popPorts i) (if isQ d && !(pushPorts i).isEmpty then some (portOf d, v) else none) = none := by
  generalize hpush : (if (isQ d && !(pushPorts i).isEmpty) = true then some (portOf d, v) else none) = push
  unfold portStop
  dsimp only
  split
  · rename_i k hk
    obtain ⟨q, hq, hv⟩ := List.exists_of_findSome?_eq_some hk
    rw [hr.pops q hq] at hv
    cases hv
  · split
    · rename_i q hk
      have hv := List.find?_some hk
      rw [hr.pops q (List.mem_of_find?_eq_some hk)] at hv
      cases hv
    · simp only [hr.first, lowerParked, List.any_nil, Bool.or_self, Bool.false_eq_true, if_false]
      subst hpush
      by_cases hc : (isQ d && !(pushPorts i).isEmpty) = true
      · simp only [hc, if_true]
        have hq : isQ d = true := by simp at hc; exact hc.1
        have hp : pushPorts i ≠ [] := by simp at hc; exact hc.2
        rw [hr.push hq hp]
        split <;> rfl
      · simp only [hc, Bool.false_eq_true, if_false]
        split <;> rfl

/-- One slot of a vector instruction whose ports are ready. -/
theorem portSlot_ready {i : Instr} {d : Reg} {f : State → Train → Nat → Word} {s : State} {iss : Issue} {t : Train} {n : Nat}
    (ht : findTrain s iss.tr = some t) (_hp : portFree i = false) (hr : PortsReady i d (f s t n) s iss t n) :
    portSlot i d f (s, []) iss n =
      (if isQ d && !(pushPorts i).isEmpty then
        wakePort (pushDo (makePops s iss.tr n (popPorts i)) iss.tr n (portOf d) (f s t n)) iss.tr (portOf d)
      else modTrain (makePops s iss.tr n (popPorts i)) iss.tr (fun u => writeW u n d (f s t n)), []) := by
  simp only [portSlot, ht]
  rw [portStop_ready hr]
  by_cases hc : (isQ d && !(pushPorts i).isEmpty) = true <;> simp [hc]

/-- A result for each active slot: what `vecOp` can do for an instruction without port fields. -/
theorem vecOp_slots {i : Instr} {d : Reg} {f : (Reg → Word) → Word} (he : ∀ s, exec i s = vecOp i d f s) :
    VecSlots i d (fun t n => f (readReg t n)) := by
  intro s iss t h hp
  let g : Nat → Slot → Slot := fun n x => if isW d then putReg x (wIdx t d) (f (readReg t n)) else x
  have h1 : (fun n x => if (inMask (activeMask iss t) n && isW d) = true then putReg x (wIdx t d) (f (readReg t n)) else x)
      = (fun n x => if inMask (activeMask iss t) n = true then g n x else x) := by
    funext n x
    by_cases h1 : inMask (activeMask iss t) n = true <;> by_cases h2 : isW d = true <;> simp [h1, h2, g]
  have hx : exec i s = .next (settle s iss
      { mapSlots t (fun n x => if inMask (activeMask iss t) n then g n x else x) with k := t.k, fflags := t.fflags } []) := by
    rw [he, vecOp, runIns_issues h]
    congr 1
    split
    · rw [mapSlots_inactive g ‹_›]
    · rw [h1]
      rfl
  obtain ⟨s', t', a1, a2, a3, a4, a5, a6⟩ := run_completed h g t.k t.fflags hx (fun n x hr => by
    simp only [g]
    split
    · rw [putReg_sound hr]
    · rfl)
  refine ⟨s', t', a1, a2, a3, ?_, ?_, ?_, a4, a5⟩
  · intro n hn r
    rw [(a6 n hn).1]
    by_cases hm : inMask (activeMask iss t) n = true <;> by_cases hw : isW d = true <;> simp [g, hm, hw, cget_putReg]
  · intro n hn r
    rw [(a6 n hn).2.1]
    split
    · simp only [g]
      split <;> rfl
    · rfl
  · intro n hn
    rw [(a6 n hn).2.2]
    split
    · simp only [g]
      split <;> rfl
    · rfl

theorem getLsbD_orFold {α : Type} (l : List α) (f : α → BitVec 5) (a : BitVec 5) (b : Nat) :
    (l.foldl (fun x i => x ||| f i) a).getLsbD b = true ↔ a.getLsbD b = true ∨ ∃ i ∈ l, (f i).getLsbD b = true := by
  induction l generalizing a with
  | nil => simp
  | cons x t ih =>
    rw [List.foldl_cons, ih]
    simp [or_assoc]

/-- What `vecOp` can do, in all forms. -/
theorem vecOp_word {i : Instr} {d : Reg} {f : (Reg → Word) → Word} (he : ∀ s, exec i s = vecOp i d f s) : VecWord i d f := by
  refine ⟨vecOp_slots he, ?_⟩
  intro s iss t n h hp hr s1 s2 s3 u hu
  have h3 : s3 = s2 := modTrain_self
  have ha := active_of_one hr.one
  rw [he, vecOp, runIns_issues h, if_neg ha.1]
  simp only [hp, Bool.false_eq_true, if_false, hr.one, List.foldl_cons, List.foldl_nil]
  rw [portSlot_ready h.train hp hr]
  rw [h3] at hu ⊢
  simp only [s2, s1] at hu
  simp only [hu]
  rfl

/-- A result with flags for each active slot: what `vecFlag` can do. -/
theorem vecFlag_flags {i : Instr} {d : Reg} {f : (Reg → Word) → Word × BitVec 5} (he : ∀ s, exec i s = vecFlag i d f s) :
    VecFlags i d f := by
  refine ⟨?_, ?_⟩
  case refine_2 =>
    intro s iss t n h hp hr s1 s2 s3 u hu
    have ha := active_of_one hr.one
    rw [he, vecFlag, runIns_issues h, if_neg ha.1]
    simp only [hp, Bool.false_eq_true, if_false, hr.one, List.foldl_cons, List.foldl_nil]
    rw [portSlot_ready h.train hp hr]
    simp only [h.train, afind, Option.isNone_none, if_true]
    have hu' : findTrain (modTrain s2 iss.tr (fun u => { u with fflags := u.fflags ||| (f (readAny s t n)).2 })) iss.tr = some u := hu
    simp only [s2, s1] at hu'
    simp only [hu']
    rfl
  intro s iss t h hp
  let g : Nat → Slot → Slot := fun n x => if isW d then putReg x (wIdx t d) (f (readReg t n)).1 else x
  let fl := t.fflags ||| (slotsOf (activeMask iss t)).foldl (fun a n => a ||| (f (readReg t n)).2) 0#5
  have h1 : (fun n x => if (inMask (activeMask iss t) n && isW d) = true then putReg x (wIdx t d) (f (readReg t n)).1 else x)
      = (fun n x => if inMask (activeMask iss t) n = true then g n x else x) := by
    funext n x
    by_cases h1 : inMask (activeMask iss t) n = true <;> by_cases h2 : isW d = true <;> simp [h1, h2, g]
  have hx : exec i s = .next (settle s iss
      { mapSlots t (fun n x => if inMask (activeMask iss t) n then g n x else x) with k := t.k, fflags := fl } []) := by
    rw [he, vecFlag, runIns_issues h]
    congr 1
    split
    · rename_i hz
      rw [mapSlots_inactive g hz]
      simp [fl, hz, slotsOf_zero]
    · rw [h1]
      rfl
  obtain ⟨s', t', a1, a2, a3, a4, a5, a6⟩ := run_completed h g t.k fl hx (fun n x hr => by
    simp only [g]
    split
    · rw [putReg_sound hr]
    · rfl)
  refine ⟨s', t', a1, a2, a3, ?_, ?_, ?_, a4, ?_⟩
  · intro n hn r
    rw [(a6 n hn).1]
    by_cases hm : inMask (activeMask iss t) n = true <;> by_cases hw : isW d = true <;> simp [g, hm, hw, cget_putReg]
  · intro n hn r
    rw [(a6 n hn).2.1]
    split
    · simp only [g]
      split <;> rfl
    · rfl
  · intro n hn
    rw [(a6 n hn).2.2]
    split
    · simp only [g]
      split <;> rfl
    · rfl
  · intro b
    rw [a5]
    simp only [fl, BitVec.getLsbD_or, Bool.or_eq_true, getLsbD_orFold, mem_slotsOf]
    constructor
    · rintro (h | h | ⟨n, hm, hb⟩)
      · exact .inl h
      · simp at h
      · exact .inr ⟨n, inMask_lt hm, hm, hb⟩
    · rintro (h | ⟨n, _, hm, hb⟩)
      · exact .inl h
      · exact .inr (.inr ⟨n, hm, hb⟩)

/-- What `vecSlot` can do when it writes one address register of each active slot. -/
theorem vecSlot_addr {i : Instr} {ad : R3} {v : (Reg → Word) → Slot → Addr}
    (he : ∀ s, exec i s = vecSlot i (fun _ rd x => putA x ad (v rd x)) s) : VecAddr i ad v := by
  let f : Issue → (Reg → Word) → Slot → Slot := fun _ rd x => putA x ad (v rd x)
  have hf : ∀ iss t n, (f iss (readReg t n) (slotAt t n)).areg
      = cset (slotAt t n).areg ad.toNat (v (readReg t n) (slotAt t n)) := fun _ _ _ => rfl
  have hg : ∀ iss rd (x : Slot), x.rcond = [] → f iss rd x = { x with areg := (f iss rd x).areg } := fun _ _ _ h => putA_sound h _ _
  refine ⟨?_, ?_⟩
  case refine_2 =>
    intro s iss t n h hp hr s1 s2 s3 u hu
    have ha := active_of_one hr.one
    rw [he, vecSlot, runIns_issues h, if_neg ha.1]
    simp only [hp, Bool.false_eq_true, if_false, hr.one, List.foldl_cons, List.foldl_nil, h.train]
    rw [portSlot_ready h.train hp hr]
    simp only [afind, Option.isNone_none, if_true]
    have hu' : findTrain (modTrain s2 iss.tr (fun u => modSlot u n (fun x => putA x ad (v (readAny s t n) x)))) iss.tr = some u := hu
    simp only [s2, s1] at hu'
    simp only [hu']
    rfl
  intro s iss t h hp
  let g : Nat → Slot → Slot := fun n x => f iss (readReg t n) x
  have hx : exec i s = .next (settle s iss
      { mapSlots t (fun n x => if inMask (activeMask iss t) n then g n x else x) with k := t.k, fflags := t.fflags } []) := by
    rw [he, vecSlot, runIns_issues h]
    congr 1
    split
    · rw [mapSlots_inactive g ‹_›]
    · rfl
  have hgr : ∀ n x, (g n x).regs = x.regs := fun _ _ => rfl
  have hgp : ∀ n x, (g n x).pred = x.pred := fun _ _ => rfl
  obtain ⟨s', t', a1, a2, a3, a4, a5, a6⟩ := run_completed h g t.k t.fflags hx (fun n x hs => by
    rw [hgr, hgp]
    exact hg iss (readReg t n) x hs)
  refine ⟨s', t', a1, a2, a3, ?_, ?_, ?_, a4, a5⟩
  · intro n hn r
    rw [(a6 n hn).2.1]
    by_cases hm : inMask (activeMask iss t) n = true
    · have h0 := hf iss t n
      simp only [hm, if_true, true_and, g]
      rw [h0]
      exact cget_cset
    · simp [hm]
  · intro n hn r
    rw [(a6 n hn).1]
    split
    · rw [hgr]
    · rfl
  · intro n hn
    rw [(a6 n hn).2.2]
    split
    · rw [hgp]
    · rfl

/-- A predicate after a write of one. -/
theorem slotPred_setPred (x : Slot) (p q : R3) (v : Bool) (hp : p ≠ 0#3) :
    slotPred (setPred x p v) q = if q = p then v else slotPred x q := by
  have hp8 : p.toNat < 8 := p.isLt
  have hq8 : q.toNat < 8 := q.isLt
  have hb : ∀ j < 8, (setPred x p v).pred.getLsbD j = if j = p.toNat then v else x.pred.getLsbD j := by
    intro j hj
    simp only [setPred, BitVec.getLsbD_ofNat, testBit_packNat_one, hj, decide_true, Bool.true_and, true_and]
    split <;> split <;> simp_all
  unfold slotPred
  by_cases hq : q = 0#3
  · subst hq
    simp [Ne.symm hp]
  · simp only [hq, if_false]
    rw [hb q.toNat hq8]
    by_cases he : q = p
    · simp [he]
    · have : q.toNat ≠ p.toNat := fun e => he (BitVec.eq_of_toNat_eq e)
      simp [he, this]

/-- What `vecSlotFlag` can do when it writes one predicate of each active slot. -/
theorem vecSlotFlag_pred {i : Instr} {p : R3} {v : (Reg → Word) → Slot → Bool} {fl : (Reg → Word) → BitVec 5}
    (he : ∀ s, exec i s = vecSlotFlag i (fun rd x => setPred x p (v rd x)) fl s) : VecPred i p v fl := by
  let f : (Reg → Word) → Slot → Slot := fun rd x => setPred x p (v rd x)
  have hf : ∀ t n, f (readReg t n) (slotAt t n) = setPred (slotAt t n) p (v (readReg t n) (slotAt t n)) := fun _ _ => rfl
  have hg : ∀ rd (x : Slot), x.rcond = [] → f rd x = { x with pred := (f rd x).pred } := fun _ _ h => setPred_sound h _ _
  intro hp0
  refine ⟨?_, ?_⟩
  case refine_2 =>
    intro s iss t n h hp hr s1 s2 s3 u hu
    have ha := active_of_one hr.one
    rw [he, vecSlotFlag, runIns_issues h, if_neg ha.1]
    simp only [hp, Bool.false_eq_true, if_false, hr.one, List.foldl_cons, List.foldl_nil, h.train]
    rw [portSlot_ready h.train hp hr]
    simp only [afind, Option.isNone_none, if_true]
    have hu' : findTrain (modTrain s2 iss.tr (fun u => { modSlot u n (fun x => setPred x p (v (readAny s t n) x)) with
      fflags := u.fflags ||| fl (readAny s t n) })) iss.tr = some u := hu
    simp only [s2, s1] at hu'
    simp only [hu']
    rfl
  intro s iss t h hp
  let g : Nat → Slot → Slot := fun n x => f (readReg t n) x
  let fl' := t.fflags ||| (slotsOf (activeMask iss t)).foldl (fun a n => a ||| fl (readReg t n)) 0#5
  have hx : exec i s = .next (settle s iss
      { mapSlots t (fun n x => if inMask (activeMask iss t) n then g n x else x) with k := t.k, fflags := fl' } []) := by
    rw [he, vecSlotFlag, runIns_issues h]
    congr 1
    split
    · rename_i hz
      rw [mapSlots_inactive g hz]
      simp [fl', hz, slotsOf_zero]
    · rfl
  have hgr : ∀ n x, (g n x).regs = x.regs := fun _ _ => rfl
  have hga : ∀ n x, (g n x).areg = x.areg := fun _ _ => rfl
  obtain ⟨s', t', a1, a2, a3, a4, a5, a6⟩ := run_completed h g t.k fl' hx (fun n x hs => by
    rw [hgr, hga]
    exact hg (readReg t n) x hs)
  refine ⟨s', t', a1, a2, a3, ?_, ?_, ?_, a4, ?_⟩
  · intro n hn q
    have h0 := (a6 n hn).2.2
    by_cases hm : inMask (activeMask iss t) n = true
    · simp only [hm, if_true, g] at h0
      have : slotPred (slotAt t' n) q = slotPred (f (readReg t n) (slotAt t n)) q := by simp only [slotPred, h0]
      rw [this, hf, slotPred_setPred _ _ _ _ hp0]
      simp [hm]
    · simp only [hm, Bool.false_eq_true, if_false] at h0
      simp [hm, slotPred, h0]
  · intro n hn r
    rw [(a6 n hn).1]
    split
    · rw [hgr]
    · rfl
  · intro n hn r
    rw [(a6 n hn).2.1]
    split
    · rw [hga]
    · rfl
  · intro b
    rw [a5]
    simp only [fl', BitVec.getLsbD_or, Bool.or_eq_true, getLsbD_orFold, mem_slotsOf]
    constructor
    · rintro (h | h | ⟨n, hm, hb⟩)
      · exact .inl h
      · simp at h
      · exact .inr ⟨n, inMask_lt hm, hm, hb⟩
    · rintro (h | ⟨n, _, hm, hb⟩)
      · exact .inl h
      · exact .inr (.inr ⟨n, hm, hb⟩)

/-- What a uniform instruction can do that writes one k register. -/
theorem uniOp_k {i : Instr} {d : Reg} {f : Train → Word} (he : ∀ s, exec i s = uniOp i s (fun t _ => writeK t d (f t))) :
    UniK i d f := by
  intro s iss t h ha
  have hx : exec i s = .next (settle s iss
      { mapSlots t (fun n x => if inMask (activeMask iss t) n then x else x) with
        k := (writeK t d (f t)).k, fflags := t.fflags } []) := by
    rw [he, uniOp, runIns_issues h, if_neg ha]
    congr 2
    have : mapSlots t (fun n x => if inMask (activeMask iss t) n then x else x) = t :=
      mapSlots_eq_self (fun n _ => by split <;> rfl)
    rw [this]
    simp only [writeK]
    split <;> rfl
  obtain ⟨s', t', a1, a2, a3, a4, a5, a6⟩ := run_completed h (fun _ x => x) (writeK t d (f t)).k t.fflags hx (fun _ _ _ => rfl)
  refine ⟨s', t', a1, a2, a3, ?_, ?_, ?_, ?_, a5⟩
  · intro r
    rw [a4]
    by_cases hk : isK d = true <;> simp [writeK, hk, cget_cset]
  · intro n hn r
    rw [(a6 n hn).1]
    split <;> rfl
  · intro n hn r
    rw [(a6 n hn).2.1]
    split <;> rfl
  · intro n hn
    rw [(a6 n hn).2.2]
    split <;> rfl

/-- Sub-elements of a packed word. -/
theorem packNat_lt (w : Nat) (g : Nat → Nat) (n : Nat) : packNat w g n < 2 ^ (w * n) := by
  induction n with
  | zero => simp [packNat]
  | succ n ih =>
    simp only [packNat, Nat.mul_succ, Nat.pow_add]
    have h1 : g n % 2 ^ w + 1 ≤ 2 ^ w := Nat.mod_lt _ (Nat.two_pow_pos w)
    have h2 := Nat.mul_le_mul_right (2 ^ (w * n)) h1
    rw [Nat.add_mul, Nat.one_mul] at h2
    rw [Nat.mul_comm (2 ^ (w * n))]
    omega
theorem packNat_elem (w : Nat) (g : Nat → Nat) {n e : Nat} (h : e < n) : packNat w g n / 2 ^ (w * e) % 2 ^ w = g e % 2 ^ w := by
  induction n with
  | zero => omega
  | succ n ih =>
    simp only [packNat]
    by_cases he : e = n
    · subst he
      rw [Nat.add_mul_div_right _ _ (Nat.two_pow_pos _), Nat.div_eq_of_lt (packNat_lt w g e), Nat.zero_add, Nat.mod_mod]
    · have hl : e < n := by omega
      have h2 : 2 ^ (w * n) = 2 ^ (w * e) * 2 ^ w * 2 ^ (w * (n - e - 1)) := by
        rw [← Nat.pow_add, ← Nat.pow_add]
        congr 1
        have : n = e + 1 + (n - e - 1) := by omega
        conv => lhs; rw [this]
        simp [Nat.mul_add]
      rw [h2, show g n % 2 ^ w * (2 ^ (w * e) * 2 ^ w * 2 ^ (w * (n - e - 1)))
          = 2 ^ w * (g n % 2 ^ w * 2 ^ (w * (n - e - 1))) * 2 ^ (w * e) by ac_rfl,
        Nat.add_mul_div_right _ _ (Nat.two_pow_pos _), Nat.add_mul_mod_self_left, ih hl]
/-- Sub-element `e` of a packed word (R40). -/
theorem subN_packW {w : Nat} (hw : w ∣ 64) (g : Nat → Nat) {e : Nat} (h : e < 64 / w) : subN (packW w g) w e = g e % 2 ^ w := by
  have h64 : w * (64 / w) = 64 := Nat.mul_div_cancel' hw
  have hlt : packNat w g (64 / w) < 2 ^ 64 := by
    have := packNat_lt w g (64 / w)
    rwa [h64] at this
  simp only [subN, packW, bitsN, BitVec.toNat_ofNat, Nat.mod_eq_of_lt hlt, Nat.shiftRight_eq_div_pow]
  exact packNat_elem w g h
theorem wbits_dvd (w : Width) : wbits w ∣ 64 := by cases w <;> decide
theorem fbits_dvd (f : Fmt) : fbits f ∣ 64 := by cases f <;> decide
theorem subN_lt (x : Word) (w e : Nat) : subN x w e < 2 ^ w := Nat.mod_lt _ (Nat.two_pow_pos w)

/-- What a word form says of each sub-element. -/
theorem VecWord.elems {i : Instr} {d : Reg} {w : Nat} {f : (Reg → Word) → Word} {g : (Reg → Nat) → Nat} (h : VecWord i d f)
    (hf : ∀ rd, ∀ e < 64 / w, subN (f rd) w e = g (fun r => subN (rd r) w e)) : VecElems i d w g := ⟨f, h, hf⟩

/-- An operation on pairs of sub-elements, in all its forms. -/
theorem elems2 {i : Instr} {d a b : Reg} {w : Width} {f : Nat → Nat → Nat → Nat} {g : (Reg → Nat) → Nat}
    (he : ∀ s, exec i s = vecOp i d (fun rd => map2 w f (rd a) (rd b)) s)
    (hf : ∀ v : Reg → Nat, (∀ r, v r < 2 ^ wbits w) → f (wbits w) (v a) (v b) % 2 ^ wbits w = g v) :
    VecElems i d (wbits w) g :=
  VecWord.elems (vecOp_word he) (fun rd e h => by
    rw [map2, subN_packW (wbits_dvd w) _ h]
    exact hf (fun r => subN (rd r) (wbits w) e) (fun r => subN_lt _ _ _))
/-- An operation on single sub-elements, in all its forms. -/
theorem elems1 {i : Instr} {d a : Reg} {w : Width} {f : Nat → Nat → Nat} {g : (Reg → Nat) → Nat}
    (he : ∀ s, exec i s = vecOp i d (fun rd => map1 w f (rd a)) s)
    (hf : ∀ v : Reg → Nat, (∀ r, v r < 2 ^ wbits w) → f (wbits w) (v a) % 2 ^ wbits w = g v) :
    VecElems i d (wbits w) g :=
  VecWord.elems (vecOp_word he) (fun rd e h => by
    rw [map1, subN_packW (wbits_dvd w) _ h]
    exact hf (fun r => subN (rd r) (wbits w) e) (fun r => subN_lt _ _ _))
/-- A wrapped number is below 2^w. -/
theorem wrapN_mod (w : Nat) (x : Int) : wrapN w x % 2 ^ w = wrapN w x := by
  apply Nat.mod_eq_of_lt
  unfold wrapN
  have : (0:Int) < (2 ^ w : Nat) := by exact_mod_cast Nat.two_pow_pos w
  have h1 := Int.emod_nonneg x (Int.ne_of_gt this)
  have h2 := Int.emod_lt_of_pos x this
  omega
/-- Reading as signed and wrapping give the number back. -/
theorem wrapN_sInt (w x : Nat) (_hw : 0 < w) (h : x < 2 ^ w) : wrapN w (sInt w x) = x := by
  unfold wrapN sInt
  split
  · rw [Int.emod_eq_of_lt (by omega) (by exact_mod_cast h)]; simp
  · have : ((x:Int) - 2^w) % ((2^w : Nat) : Int) = x := by
      have e : ((x:Int) - 2^w) = (x : Int) + ((2^w : Nat):Int) * (-1) := by push_cast; omega
      rw [e, Int.add_mul_emod_self_left]
      exact Int.emod_eq_of_lt (by omega) (by exact_mod_cast h)
    rw [this]; simp

end Sys2Proof.Laws
end

