-- ==== Sys2Proof/Tests/Slice0.lean ====
section
/-! SUPPORT. The model's own tests: words that decode as the spec writes them, ill-formed terms, single steps with the spec's
values, and for each statement a state and operands that meet its hypotheses. -/

namespace Sys2Proof.Tests
open Sys2Proof Sys2Proof.Machine

/-! Words, written out from the layouts of spec/03. -/

/-- Words with their extensions decode to instructions. -/
def decodesTo (l : List (Option Nat × Nat × Instr)) : Bool :=
  l.all (fun x => match decodeN x.1 x.2.1 with
    | .ok i => decide (i = x.2.2)
    | .error _ => false)
theorem test_words_sys : decodesTo [(none, 0x00200000, .sysNop), (none, 0x00400000, .sysExit),
    (none, 0x00800000, .sysEret), (none, 0x00A00000, .sysBrk), (none, 0x01200000, .sysSpin), (none, 0x01600000, .sysYield),
    (none, 0x01A00000, .sysLcommit), (none, 0x01C00000, .sysLcancel), (none, 0x01E00000, .sysLrepeat),
    (none, 0x00600F80, .sysTrap 31#5), (none, 0x00D88287, .sysSrd 98#7 7#7 5#7),
    (none, 0x00DE3F93, .sysSrd 120#7 19#7 127#7), (none, 0x00E371FF, .sysSwr 13#7 99#7 127#7),
    (none, 0x01000200, .sysFence .acq .dev), (none, 0x01000A80, .sysFence .full .sys),
    (none, 0x01400709, .sysWaitw true 6#3 9#7), (none, 0x01803200, .sysDlaunch 100#7)] = true := by decide
theorem test_words_pfx : decodesTo [(none, 0x0800737F, .rep 3#2 2#2 1#2 true false true 63#6),
    (none, 0x0900007D, .grd 7#3 true 5#3), (none, 0x0A0FFFFF, .xim 0xFFFFF#20)] = true := by decide
theorem test_words_ctl : decodesTo [(none, 0x10000F80, .ctlWin 31#5), (none, 0x10213080, .ctlOsalloc 4#7 97#7 .reg .keep),
    (none, 0x1038B0F2, .ctlOsalloc 98#7 97#7 .qst (.strict 4)), (none, 0x1038B0C1, .ctlOsalloc 98#7 97#7 .bobj (.lapse 0)),
    (none, 0x10403180, .ctlOsfree 99#7), (none, 0x10601FFF, .ctlBar 63#6 127#7), (none, 0x108001E4, .ctlBarr 3#6 100#7),
    (none, 0x10A004FF, .ctlBarw 9#6), (none, 0x10C00780, .ctlPrio 15#4), (none, 0x10E00280, .ctlMigr 5#3),
    (none, 0x111FB280, .ctlQbind 126#7 101#7), (none, 0x113E0000, .ctlQunbind 120#7),
    (none, 0x1158FC80, .ctlQlen 99#7 121#7)] = true := by decide
theorem test_words_bra_jmp : decodesTo [(none, 0x1B7FFFFC, .bra 3#3 false (BitVec.ofInt 43 (-4))),
    (none, 0x18000005, .bra 0#3 false 5#43), (some 1, 0x1F800001, .bra 7#3 true (BitVec.ofNat 43 (2 ^ 23 + 1))),
    (none, 0x2001FFFF, .jmpJmp (BitVec.ofInt 37 (-1))), (some 1, 0x20000002, .jmpJmp (BitVec.ofNat 37 (2 ^ 17 + 2))),
    (none, 0x213C0007, .jmpCall 30#7 7#37), (none, 0x22007800, .jmpRet 30#7), (none, 0x23018800, .jmpJmpr 98#7),
    (none, 0x243C2400, .jmpCallr 30#7 9#7)] = true := by decide
theorem test_words_iop_1 : decodesTo [(none, 0x28010286, .iopAdd .w8 4#7 5#7 6#7),
    (none, 0x28A10286, .iopSub .w16 4#7 5#7 6#7), (none, 0x29410286, .iopMul .w32 4#7 5#7 6#7),
    (none, 0x29E10286, .iopMinI .w64 4#7 5#7 6#7), (none, 0x2A010286, .iopMinN .w8 4#7 5#7 6#7),
    (none, 0x2AA10286, .iopMaxI .w16 4#7 5#7 6#7), (none, 0x2B410286, .iopMaxN .w32 4#7 5#7 6#7),
    (none, 0x2BE10286, .iopAddsI .w64 4#7 5#7 6#7), (none, 0x2C010286, .iopAddsN .w8 4#7 5#7 6#7),
    (none, 0x2CA10286, .iopSubsI .w16 4#7 5#7 6#7), (none, 0x2D410286, .iopSubsN .w32 4#7 5#7 6#7),
    (none, 0x2DE10286, .iopShl .w64 4#7 5#7 6#7), (none, 0x2E010286, .iopShr .w8 4#7 5#7 6#7),
    (none, 0x2EA10286, .iopSar .w16 4#7 5#7 6#7), (some 0, 0x2F010286, .iopMulhI .w8 4#7 5#7 6#7),
    (some 1, 0x2F210286, .iopMulhN .w16 4#7 5#7 6#7), (some 2, 0x2F410286, .iopRol .w32 4#7 5#7 6#7),
    (some 3, 0x2F610286, .iopRor .w64 4#7 5#7 6#7), (some 4, 0x2F010286, .iopAvgN .w8 4#7 5#7 6#7),
    (none, 0x2F410286, .iopMulhI .w32 4#7 5#7 6#7), (some 5, 0x2F613100, .iopAbs .w64 4#7 98#7),
    (none, 0x2F9E3FE2, .iopAnd 120#7 127#7 98#7), (none, 0x2FBE3FE2, .iopOr 120#7 127#7 98#7),
    (none, 0x2FDE3FE2, .iopXor 120#7 127#7 98#7)] = true := by decide
theorem test_words_iop_2 : decodesTo [(none, 0x2FFE3FE2, .iopAndn 120#7 127#7 98#7)] = true := by decide
theorem test_words_imm : decodesTo [(none, 0x30712400, .iopiAddi 7#7 9#7 (BitVec.ofInt 31 (-1024))),
    (none, 0x30712C00, .iopiAndi 7#7 9#7 (BitVec.ofInt 31 (-1024))),
    (none, 0x30713400, .iopiOri 7#7 9#7 (BitVec.ofInt 31 (-1024))),
    (none, 0x30713C00, .iopiXori 7#7 9#7 (BitVec.ofInt 31 (-1024))),
    (some 1, 0x30712003, .iopiAddi 7#7 9#7 (BitVec.ofNat 31 (2 ^ 11 + 3))), (none, 0x38712028, .shiShli .w8 7#7 9#7 40#8),
    (none, 0x38712529, .shiShri .w16 7#7 9#7 41#8), (none, 0x38712A2A, .shiSari .w32 7#7 9#7 42#8),
    (none, 0x38712F2B, .shiRoli .w64 7#7 9#7 43#8), (none, 0x3871302C, .shiRori .w8 7#7 9#7 44#8),
    (none, 0x464C1234, .limmIns 100#7 3#2 0x1234#16), (none, 0x46491234, .limmSet 100#7 2#2 0x1234#16),
    (none, 0x46461234, .limmSets 100#7 1#2 0x1234#16)] = true := by decide
theorem test_words_bit_cmp_1 : decodesTo [(none, 0x48004103, .bitBextI .w8 1#7 2#7 3#7),
    (none, 0x48A04103, .bitBextN .w16 1#7 2#7 3#7), (none, 0x49404103, .bitBins .w32 1#7 2#7 3#7),
    (none, 0x49804100, .bitPopc .w8 1#7 2#7), (none, 0x4A204100, .bitClz .w16 1#7 2#7),
    (none, 0x4AC04100, .bitCtz .w32 1#7 2#7), (none, 0x4B604100, .bitBrev .w64 1#7 2#7),
    (none, 0x4B804103, .bitBperm 1#7 2#7 3#7), (none, 0x51000162, .cmp 1#3 .eq (.int .w8) .set 2#7 98#7),
    (none, 0x52124162, .cmp 2#3 .ne (.int .w16) .and 2#7 98#7), (none, 0x53248162, .cmp 3#3 .ltI (.int .w32) .or 2#7 98#7),
    (none, 0x5436C162, .cmp 4#3 .leI (.int .w64) .xor 2#7 98#7),
    (none, 0x55410162, .cmp 5#3 .gtI (.int .w8) .andn 2#7 98#7),
    (none, 0x56520162, .cmp 6#3 .geI (.int .w16) .set 2#7 98#7),
    (none, 0x57644162, .cmp 7#3 .ltN (.int .w32) .and 2#7 98#7),
    (none, 0x51768162, .cmp 1#3 .leN (.int .w64) .or 2#7 98#7), (none, 0x5280C162, .cmp 2#3 .gtN (.int .w8) .xor 2#7 98#7),
    (none, 0x53930162, .cmp 3#3 .geN (.int .w16) .andn 2#7 98#7),
    (none, 0x54A40162, .cmp 4#3 .test (.int .w32) .set 2#7 98#7),
    (none, 0x51080162, .cmp 1#3 .feq (.flt .f16) .set 2#7 98#7),
    (none, 0x521A4162, .cmp 2#3 .fne (.flt .bf16) .and 2#7 98#7),
    (none, 0x532C8162, .cmp 3#3 .flt (.flt .f32) .or 2#7 98#7),
    (none, 0x543EC162, .cmp 4#3 .fle (.flt .f64) .xor 2#7 98#7),
    (none, 0x55490162, .cmp 5#3 .fgt (.flt .f16) .andn 2#7 98#7)] = true := by decide
theorem test_words_bit_cmp_2 : decodesTo [(none, 0x565A0162, .cmp 6#3 .fge (.flt .bf16) .set 2#7 98#7),
    (none, 0x576C4162, .cmp 7#3 .fun_ (.flt .f32) .and 2#7 98#7),
    (none, 0x517E8162, .cmp 1#3 .ford (.flt .f64) .or 2#7 98#7)] = true := by decide
theorem test_words_scal : decodesTo [(none, 0x58183BFF, .scalAdd 96#7 119#7 127#7),
    (none, 0x58383BFF, .scalSub 96#7 119#7 127#7), (none, 0x58583BFF, .scalMul 96#7 119#7 127#7),
    (none, 0x58783BFF, .scalAnd 96#7 119#7 127#7), (none, 0x58983BFF, .scalOr 96#7 119#7 127#7),
    (none, 0x58B83BFF, .scalXor 96#7 119#7 127#7), (none, 0x58D83BFF, .scalShl 96#7 119#7 127#7),
    (none, 0x58F83BFF, .scalShr 96#7 119#7 127#7), (none, 0x59183BFF, .scalSar 96#7 119#7 127#7),
    (none, 0x59383BFF, .scalMinI 96#7 119#7 127#7), (none, 0x59583BFF, .scalMinN 96#7 119#7 127#7),
    (none, 0x59783BFF, .scalMaxI 96#7 119#7 127#7), (none, 0x59983BFF, .scalMaxN 96#7 119#7 127#7),
    (none, 0x59B86FE3, .scalRdlane 97#7 95#7 99#7), (none, 0x59C13080, .scalBcast 4#7 97#7)] = true := by decide
theorem test_words_float_1 : decodesTo [(some 3, 0x60004103, .fopAdd .f16 .rd 1#7 2#7 3#7),
    (some 2, 0x62204103, .fopSub .bf16 .ru 1#7 2#7 3#7), (some 1, 0x64404103, .fopMul .f32 .rz 1#7 2#7 3#7),
    (some 0, 0x66604103, .fopDiv .f64 .rn 1#7 2#7 3#7), (none, 0x64004103, .fopAdd .f32 .rn 1#7 2#7 3#7),
    (some 2, 0x66804100, .fopSqrt .f64 .ru 1#7 2#7), (none, 0x62A04103, .fopMin .bf16 1#7 2#7 3#7),
    (none, 0x64C04103, .fopMax .f32 1#7 2#7 3#7), (none, 0x63204103, .fopCopysign .bf16 1#7 2#7 3#7),
    (none, 0x66E04100, .fopAbs .f64 1#7 2#7), (none, 0x61004100, .fopNeg .f16 1#7 2#7),
    (none, 0x6E004103, .fmaFma .f64 .rn 1#7 2#7 3#7), (none, 0x6CA04103, .fmaFms .f32 .rz 1#7 2#7 3#7),
    (none, 0x6B404103, .fmaFnma .bf16 .ru 1#7 2#7 3#7), (none, 0x69E04103, .fmaFnms .f16 .rd 1#7 2#7 3#7),
    (none, 0x7400414B, .cvtFloatFloat .f16 .f64 .rna 1#7 2#7), (none, 0x7480410A, .cvtFloatFloat .bf16 .f32 .rn 1#7 2#7),
    (none, 0x75004112, .cvtIntFloat .f32 true .w32 .rz 1#7 2#7),
    (none, 0x75804134, .cvtIntFloat .f64 false .w8 .rd 1#7 2#7),
    (none, 0x7380412B, .cvtFloatInt false .w64 .f64 .ru 1#7 2#7),
    (none, 0x70804149, .cvtFloatInt true .w16 .bf16 .rna 1#7 2#7), (none, 0x76176C0A, .cvtBxPack .bx4 93#7 88#7),
    (none, 0x7516000C, .cvtBxUnpack .bx4 88#7 0#7), (none, 0x76976C0A, .cvtBxPack .bx6 93#7 88#7)] = true := by decide
theorem test_words_float_2 : decodesTo [(none, 0x7516000D, .cvtBxUnpack .bx6 88#7 0#7),
    (none, 0x77176C0A, .cvtBxPack .bx9 93#7 88#7), (none, 0x7516000E, .cvtBxUnpack .bx9 88#7 0#7),
    (none, 0x78004100, .sfuRcp .f16 1#7 2#7), (none, 0x79404100, .sfuRsqrt .bf16 1#7 2#7),
    (none, 0x7A804100, .sfuSqrt .f32 1#7 2#7), (none, 0x7B004100, .sfuExp2 .f16 1#7 2#7),
    (none, 0x7C404100, .sfuLog2 .bf16 1#7 2#7), (none, 0x7D804100, .sfuSinpi .f32 1#7 2#7),
    (none, 0x7E004100, .sfuCospi .f16 1#7 2#7), (none, 0x7F804103, .sfuTwd 1#7 2#7 3#7)] = true := by decide
theorem test_words_xl_1 : decodesTo [(some 32, 0x80004103, .xlShfl .w8 1#7 2#7 3#7 (some 0)),
    (some 33, 0x80A04103, .xlShflx .w16 1#7 2#7 3#7 (some 1)), (some 34, 0x81404103, .xlShflu .w32 1#7 2#7 3#7 (some 2)),
    (some 35, 0x81E04103, .xlShfld .w64 1#7 2#7 3#7 (some 3)), (none, 0x82004280, .xlBal 1#7 5#3 none),
    (none, 0x82804300, .xlVoteAny 1#7 6#3 none), (none, 0x83004280, .xlVoteAll 1#7 5#3 none),
    (some 55, 0x83A04100, .xlVoteEq .w16 1#7 2#7 (some 23)), (none, 0x84004100, .xlQx 1#7 2#7 .xor1 none),
    (none, 0x84004101, .xlQx 1#7 2#7 .xor2 none), (none, 0x84004102, .xlQx 1#7 2#7 .xor3 none),
    (none, 0x84004104, .xlQx 1#7 2#7 .b0 none), (none, 0x84004105, .xlQx 1#7 2#7 .b1 none),
    (none, 0x84004106, .xlQx 1#7 2#7 .b2 none), (none, 0x84004107, .xlQx 1#7 2#7 .b3 none),
    (none, 0x84804100, .xlRed 1#7 2#7 .add (.i .w8) none), (none, 0x85004100, .xlScan false 1#7 2#7 .add (.i .w8) none),
    (none, 0x84804115, .xlRed 1#7 2#7 .min (.n .w16) none), (none, 0x85204115, .xlScan true 1#7 2#7 .min (.n .w16) none),
    (none, 0x8480412A, .xlRed 1#7 2#7 .max (.f .f32) none), (none, 0x8500412A, .xlScan false 1#7 2#7 .max (.f .f32) none),
    (none, 0x84804133, .xlRed 1#7 2#7 .and (.i .w64) none), (none, 0x85204133, .xlScan true 1#7 2#7 .and (.i .w64) none),
    (none, 0x84804146, .xlRed 1#7 2#7 .or (.n .w32) none)] = true := by decide
theorem test_words_xl_2 : decodesTo [(none, 0x85004146, .xlScan false 1#7 2#7 .or (.n .w32) none),
    (none, 0x84804151, .xlRed 1#7 2#7 .xor (.i .w16) none), (none, 0x85204151, .xlScan true 1#7 2#7 .xor (.i .w16) none)] = true := by decide
theorem test_words_ld_st_1 : decodesTo [(none, 0x88400FFF, .ld .b8 false .plain 4#7 0#3 (BitVec.ofInt 28 (-1))),
    (none, 0x904004FE, .ldx .b8 false .plain 4#7 0#3 9#7 (BitVec.ofInt 7 (-2))),
    (none, 0x9E200005, .st .b8 false .plain 98#7 0#3 5#28), (none, 0xA04004BF, .stx .b8 false .plain 4#7 0#3 9#7 63#7),
    (none, 0x88426FFF, .ld .b16 true .plain 4#7 1#3 (BitVec.ofInt 28 (-1))),
    (none, 0x904244FE, .ldx .b16 false .plain 4#7 1#3 9#7 (BitVec.ofInt 7 (-2))),
    (none, 0x9E226005, .st .b16 true .plain 98#7 1#3 5#28), (none, 0xA04244BF, .stx .b16 false .plain 4#7 1#3 9#7 63#7),
    (none, 0x88448FFF, .ld .b32 false .plain 4#7 2#3 (BitVec.ofInt 28 (-1))),
    (none, 0x904484FE, .ldx .b32 false .plain 4#7 2#3 9#7 (BitVec.ofInt 7 (-2))),
    (none, 0x9E248005, .st .b32 false .plain 98#7 2#3 5#28), (none, 0xA04484BF, .stx .b32 false .plain 4#7 2#3 9#7 63#7),
    (none, 0x8846EFFF, .ld .b64 true .plain 4#7 3#3 (BitVec.ofInt 28 (-1))),
    (none, 0x9046C4FE, .ldx .b64 false .plain 4#7 3#3 9#7 (BitVec.ofInt 7 (-2))),
    (none, 0x9E26E005, .st .b64 true .plain 98#7 3#3 5#28), (none, 0xA046C4BF, .stx .b64 false .plain 4#7 3#3 9#7 63#7),
    (none, 0x88490FFF, .ld .b128 false .plain 4#7 4#3 (BitVec.ofInt 28 (-1))),
    (none, 0x904904FE, .ldx .b128 false .plain 4#7 4#3 9#7 (BitVec.ofInt 7 (-2))),
    (none, 0x9E290005, .st .b128 false .plain 98#7 4#3 5#28), (none, 0xA04904BF, .stx .b128 false .plain 4#7 4#3 9#7 63#7),
    (none, 0x884B6FFF, .ld .i8 true .plain 4#7 5#3 (BitVec.ofInt 28 (-1))),
    (none, 0x904B44FE, .ldx .i8 false .plain 4#7 5#3 9#7 (BitVec.ofInt 7 (-2))),
    (none, 0x884D8FFF, .ld .i16 false .plain 4#7 6#3 (BitVec.ofInt 28 (-1))),
    (none, 0x904D84FE, .ldx .i16 false .plain 4#7 6#3 9#7 (BitVec.ofInt 7 (-2)))] = true := by decide
theorem test_words_ld_st_2 : decodesTo [(none, 0x884FEFFF, .ld .i32 true .plain 4#7 7#3 (BitVec.ofInt 28 (-1))),
    (none, 0x904FC4FE, .ldx .i32 false .plain 4#7 7#3 9#7 (BitVec.ofInt 7 (-2))),
    (none, 0x8842D000, .ld .b64 false (.strong .dev) 4#7 1#3 0#28),
    (some 720897, 0x8842C001, .ld .b64 false (.ordered .sys) 4#7 1#3 (BitVec.ofNat 28 (2 ^ 12 + 1))),
    (some 393216, 0x9842D000, .st .b64 false (.strong .core) 4#7 1#3 0#28),
    (some 536576, 0x9042C480, .ldx .b64 true (.strong .die) 4#7 1#3 9#7 0#7),
    (some 204800, 0xA042C480, .stx .b64 true (.ordered .thr) 4#7 1#3 9#7 0#7),
    (none, 0x98076002, .stPoison true .plain 3#3 2#28)] = true := by decide
theorem test_words_atom_adr : decodesTo [(none, 0xA8000009, .atomAdd .a32 (.dev .thr) false 0#7 0#3 9#7),
    (none, 0xA8422989, .atomMinI .a64 (.dev .trn) true 4#7 1#3 9#7),
    (none, 0xA8044209, .atomMinN .a32 (.dev .core) false 0#7 2#3 9#7),
    (none, 0xA8466B89, .atomMaxI .a64 (.dev .die) true 4#7 3#3 9#7),
    (none, 0xA8088409, .atomMaxN .a32 (.dev .dev) false 0#7 4#3 9#7),
    (none, 0xA84AAD89, .atomAnd .a64 (.dev .sys) true 4#7 5#3 9#7),
    (none, 0xA80CC609, .atomOr .a32 .scratch false 0#7 6#3 9#7),
    (none, 0xA84EE889, .atomXor .a64 (.dev .thr) true 4#7 7#3 9#7),
    (none, 0xA8010109, .atomSwap .a32 (.dev .trn) false 0#7 0#3 9#7),
    (none, 0xA8432A89, .atomCas .a64 (.dev .core) true 4#7 1#3 9#7),
    (none, 0xA8054309, .atomFadd .a32 (.dev .die) false 0#7 2#3 9#7),
    (none, 0xADE316F6, .atomSwap .a128 .scratch true 94#7 1#3 118#7), (none, 0xB02A0009, .adrAdda 1#3 2#3 4 9#7),
    (none, 0xB1EBFFFF, .adrAddai 7#3 2#3 (BitVec.ofInt 38 (-1))),
    (some 1, 0xB1E80003, .adrAddai 7#3 2#3 (BitVec.ofNat 38 (2 ^ 18 + 3))), (none, 0xB2624062, .adrMovawReg 3#3 9#7 98#7),
    (none, 0xB2627FFF, .adrMovawImm 3#3 9#7 8191#13), (none, 0xB3026C00, .adrMovwa 9#7 5#3 true),
    (none, 0xB4C00009, .adrSpna 6#3 9#7), (none, 0xB5298000, .adrCmpa 1#3 2#3 3#3 .eq),
    (none, 0xB5299000, .adrCmpa 1#3 2#3 3#3 .ne), (none, 0xB529A000, .adrCmpa 1#3 2#3 3#3 .lt),
    (none, 0xB529B000, .adrCmpa 1#3 2#3 3#3 .le)] = true := by decide
theorem test_words_engine : decodesTo [(none, 0xB800327F, .acpCopy 100#7 127#7), (none, 0xB820327F, .acpFill 100#7 127#7),
    (none, 0xB840327F, .acpRing 100#7 127#7), (none, 0xB860327F, .acpPfill 100#7 127#7),
    (none, 0xC018B200, .mxRes 98#7 100#7), (none, 0xC0203200, .mxRel 100#7), (none, 0xC0403266, .mxWld 100#7 102#7),
    (none, 0xC0600380, .mxTask 7#3), (none, 0xC0800163, .mxDep 2#3 99#7), (none, 0xC80004E2, .boInit 9#7 98#7),
    (none, 0xC82004E2, .boExpect 9#7 98#7), (none, 0xC84004E2, .boArrive 9#7 98#7), (none, 0xC86004E2, .boWait 9#7 98#7),
    (none, 0xC8810480, .boTest 4#7 9#7), (none, 0xC8A10480, .boErr 4#7 9#7), (none, 0xD0010309, .btEnroll 4#7 6#3 9#7),
    (none, 0xD0200480, .btUnenroll 9#7), (none, 0xD040048A, .btReparent 9#7 10#7), (none, 0xD0610480, .btSettle 4#7 9#7),
    (none, 0xD0810480, .btRead 4#7 9#7), (none, 0xD0A1048A, .btCmp 4#7 9#7 10#7)] = true := by decide

/-! Several facts that are decided at once, before what stands behind them. -/

theorem and3 {a b c x : Prop} (h : a ∧ b ∧ c) (k : x) : a ∧ b ∧ c ∧ x :=
  ⟨h.1, h.2.1, h.2.2, k⟩
theorem and4 {a b c d x : Prop} (h : a ∧ b ∧ c ∧ d) (k : x) : a ∧ b ∧ c ∧ d ∧ x :=
  ⟨h.1, h.2.1, h.2.2.1, h.2.2.2, k⟩
theorem and5 {a b c d e x : Prop} (h : a ∧ b ∧ c ∧ d ∧ e) (k : x) : a ∧ b ∧ c ∧ d ∧ e ∧ x :=
  ⟨h.1, h.2.1, h.2.2.1, h.2.2.2.1, h.2.2.2.2, k⟩
theorem and6 {a b c d e f x : Prop} (h : a ∧ b ∧ c ∧ d ∧ e ∧ f) (k : x) : a ∧ b ∧ c ∧ d ∧ e ∧ f ∧ x :=
  ⟨h.1, h.2.1, h.2.2.1, h.2.2.2.1, h.2.2.2.2.1, h.2.2.2.2.2, k⟩
theorem and7 {a b c d e f g x : Prop} (h : a ∧ b ∧ c ∧ d ∧ e ∧ f ∧ g) (k : x) : a ∧ b ∧ c ∧ d ∧ e ∧ f ∧ g ∧ x :=
  ⟨h.1, h.2.1, h.2.2.1, h.2.2.2.1, h.2.2.2.2.1, h.2.2.2.2.2.1, h.2.2.2.2.2.2, k⟩
theorem and8 {a b c d e f g y x : Prop} (h : a ∧ b ∧ c ∧ d ∧ e ∧ f ∧ g ∧ y) (k : x) : a ∧ b ∧ c ∧ d ∧ e ∧ f ∧ g ∧ y ∧ x :=
  ⟨h.1, h.2.1, h.2.2.1, h.2.2.2.1, h.2.2.2.2.1, h.2.2.2.2.2.1, h.2.2.2.2.2.2.1, h.2.2.2.2.2.2.2, k⟩

/-! A small device: one train of 32 ready slots that stands at a word. -/

/-- A slot that holds registers. -/
def slotOf (regs : List (Nat × Nat)) : Slot :=
  { fetchSlot with regs := csetAt [] (regs.map (fun p => (p.1, BitVec.ofNat 64 p.2))) }
/-- A train whose slot 0 holds registers, and the others none. -/
def trainOf (regs : List (Nat × Nat)) : Train := { fetchTrain 2 1 with slots := slotOf regs :: List.replicate 31 fetchSlot }
/-- A train with k registers. -/
def withK (t : Train) (ks : List (Nat × Nat)) : Train := { t with k := csetAt [] (ks.map (fun p => (p.1, BitVec.ofNat 64 p.2))) }
/-- The device with a train whose first run issues. -/
def stateOf (t : Train) : State := { fetchState State.reset 0 with trains := [t], iss := some (issueOf t (slotAt t 0)) }
/-- The device after an instruction of the train. -/
def afterS (i : Instr) (t : Train) : State :=
  match exec i (stateOf t) with
  | .next s => s
  | _ => State.reset
/-- The train after it. -/
def after (i : Instr) (t : Train) : Train := (findTrain (afterS i t) 2).getD (fetchTrain 0 0)
/-- A train with one live slot. -/
def oneOf (regs : List (Nat × Nat)) : Train := { fetchTrain 2 1 with slots := slotOf regs :: List.replicate 31 Slot.blank }
/-- Register `r` of slot `n`. -/
def regOf (t : Train) (n r : Nat) : Nat := (cget (slotAt t n).regs r).toNat
/-- Register w1 of slot 0 after an instruction, for each row: the instruction, registers before, w1 after, flags after. -/
def rows (l : List (Instr × List (Nat × Nat) × Nat × BitVec 5)) : Bool :=
  l.all (fun x => let t := after x.1 (oneOf x.2.1)
    decide (regOf t 0 1 = x.2.2.1) && decide (t.fflags = x.2.2.2))

/-! Steps, with the values of the spec's own examples. -/

/-- R117: the table at width 8. -/
theorem test_iop_corners : rows [(.iopAdd .w8 1#7 2#7 3#7, [(2, 0x7F), (3, 0x01)], 0x80, 0#5),
    (.iopAddsI .w8 1#7 2#7 3#7, [(2, 0x7F), (3, 0x01)], 0x7F, 0#5), (.iopAddsI .w8 1#7 2#7 3#7, [(2, 0x80), (3, 0xFF)], 0x80, 0#5),
    (.iopAddsN .w8 1#7 2#7 3#7, [(2, 0xFF), (3, 0x01)], 0xFF, 0#5), (.iopSubsN .w8 1#7 2#7 3#7, [(2, 0x01), (3, 0x02)], 0, 0#5),
    (.iopMulhI .w8 1#7 2#7 3#7, [(2, 0x80), (3, 0x80)], 0x40, 0#5), (.iopMulhN .w8 1#7 2#7 3#7, [(2, 0xFF), (3, 0xFF)], 0xFE, 0#5),
    (.iopAvgN .w8 1#7 2#7 3#7, [(2, 0xFF)], 0x80, 0#5), (.iopAbs .w8 1#7 2#7, [(2, 0x80)], 0x80, 0#5),
    (.iopRol .w8 1#7 2#7 3#7, [(2, 0x81), (3, 0x09)], 0x03, 0#5)] = true := by decide +kernel
/-- R117: shift amounts used whole. -/
theorem test_iop_shifts :
    let r := [(2, 0x8040201008040201), (3, 0x0800090703020100)]
    rows [(.iopShl .w8 1#7 2#7 3#7, r, 0x0040000040100401, 0#5), (.iopShr .w8 1#7 2#7 3#7, r, 0x0040000001010101, 0#5),
      (.iopSar .w8 1#7 2#7 3#7, r, 0xFF40000001010101, 0#5), (.iopRol .w8 1#7 2#7 3#7, r, 0x8040400840100401, 0#5)] = true := by decide +kernel
/-- R115: the rest of iop, by hand from the rule. -/
theorem test_iop_rest : rows [(.iopSub .w16 1#7 2#7 3#7, [(2, 0x10000), (3, 1)], 0x1FFFF, 0#5), (.iopMul .w32 1#7 2#7 3#7, [(2, 0x10001), (3, 0x10001)], 0x20001, 0#5),
    (.iopMinI .w8 1#7 2#7 3#7, [(2, 0xFF), (3, 0x01)], 0xFF, 0#5), (.iopMinN .w8 1#7 2#7 3#7, [(2, 0xFF), (3, 0x01)], 0x01, 0#5),
    (.iopMaxI .w8 1#7 2#7 3#7, [(2, 0xFF), (3, 0x01)], 0x01, 0#5), (.iopMaxN .w8 1#7 2#7 3#7, [(2, 0xFF), (3, 0x01)], 0xFF, 0#5),
    (.iopSubsI .w8 1#7 2#7 3#7, [(2, 0x80), (3, 0x01)], 0x80, 0#5), (.iopRor .w8 1#7 2#7 3#7, [(2, 0x81), (3, 0x01)], 0xC0, 0#5),
    (.iopAnd 1#7 2#7 3#7, [(2, 12), (3, 10)], 8, 0#5), (.iopOr 1#7 2#7 127#7, [(2, 12)], 12, 0#5),
    (.iopXor 1#7 2#7 3#7, [(2, 12), (3, 10)], 6, 0#5), (.iopAndn 1#7 2#7 3#7, [(2, 12), (3, 10)], 4, 0#5)] = true := by decide +kernel
/-- R118 to R120: immediates. -/
theorem test_immediates : rows [(.iopiAddi 1#7 1#7 (BitVec.ofInt 31 (-1)), [(1, 0)], 2 ^ 64 - 1, 0#5),
    (.iopiAndi 1#7 1#7 (BitVec.ofInt 31 (-2)), [(1, 7)], 6, 0#5), (.iopiOri 1#7 1#7 8#31, [(1, 7)], 15, 0#5), (.iopiXori 1#7 1#7 1#31, [(1, 7)], 6, 0#5),
    (.shiSari .w32 1#7 6#7 40#8, [(6, 0x8000000070000000)], 0xFFFFFFFF00000000, 0#5), (.shiShli .w32 1#7 6#7 4#8, [(6, 0xF000000000000001)], 0x10, 0#5),
    (.shiShri .w64 1#7 6#7 63#8, [(6, 2 ^ 63)], 1, 0#5), (.shiRoli .w8 1#7 6#7 9#8, [(6, 0x81)], 3, 0#5), (.shiRori .w8 1#7 6#7 255#8, [(6, 0x81)], 3, 0#5),
    (.limmSets 1#7 1#2 0x8000#16, [(1, 5)], 0xFFFFFFFF80000000, 0#5), (.limmSet 1#7 3#2 1#16, [(1, 5)], 2 ^ 48, 0#5),
    (.limmIns 1#7 0#2 2#16, [(1, 0x10005)], 0x10002, 0#5)] = true := by decide +kernel
/-- R120: limm to a k register. -/
theorem test_limm_uniform : cget (after (.limmSets 100#7 1#2 0x8000#16) (trainOf [])).k 4 = 0xFFFFFFFF80000000#64 := by decide +kernel
/-- R122, R123: fields at width 32, the second cut at the top; counts, reversal and a permute. -/
theorem test_bit :
    let r := [(1, 0xAAAAAAAAAAAAAAAA), (2, 0x7000000000000FF0), (3, 0x0000011C00000104)]
    rows [(.bitBextN .w32 1#7 2#7 3#7, r, 0x00000007000000FF, 0#5), (.bitBextI .w32 1#7 2#7 3#7, r, 0x00000007FFFFFFFF, 0#5),
      (.bitBins .w32 1#7 2#7 3#7, r, 0x0AAAAAAAAAAAAF0A, 0#5), (.bitPopc .w32 1#7 2#7, r, 0x0000000300000008, 0#5),
      (.bitClz .w32 1#7 2#7, r, 0x0000000100000014, 0#5), (.bitCtz .w32 1#7 2#7, r, 0x0000001C00000004, 0#5),
      (.bitBrev .w32 1#7 2#7, r, 0x0000000E0FF00000, 0#5), (.bitBrev .w64 1#7 2#7, [(2, 1)], 2 ^ 63, 0#5),
      (.bitBperm 1#7 2#7 3#7, [(1, 0x0F0E0D0C0B0A0908), (2, 0x0706050403020100), (3, 0x8001070F08000710)], 0x0001070F08000700, 0#5)] = true := by decide +kernel
/-- R126 to R128: scal at 64 bits. -/
theorem test_scal :
    let t := withK (trainOf [(9, 77)]) [(1, 0), (2, 2 ^ 64 - 1), (3, 70)]
    let k := fun (i : Instr) => (cget (after i t).k 4).toNat
    k (.scalAdd 100#7 98#7 98#7) = 2 ^ 64 - 2 ∧ k (.scalSub 100#7 97#7 98#7) = 1 ∧ k (.scalMul 100#7 98#7 98#7) = 1 ∧
    k (.scalAnd 100#7 98#7 99#7) = 70 ∧ k (.scalOr 100#7 97#7 99#7) = 70 ∧ k (.scalXor 100#7 98#7 99#7) = 2 ^ 64 - 71 ∧
    k (.scalShl 100#7 98#7 99#7) = 0 ∧ k (.scalShr 100#7 98#7 99#7) = 0 ∧ k (.scalSar 100#7 98#7 99#7) = 2 ^ 64 - 1 ∧
    k (.scalMinI 100#7 98#7 99#7) = 2 ^ 64 - 1 ∧ k (.scalMinN 100#7 98#7 99#7) = 70 ∧ k (.scalMaxI 100#7 98#7 99#7) = 70 ∧
    k (.scalMaxN 100#7 98#7 99#7) = 2 ^ 64 - 1 ∧ k (.scalRdlane 100#7 9#7 97#7) = 77 ∧
    regOf (after (.scalBcast 1#7 99#7) t) 31 1 = 70 := by decide +kernel
/-- R124, R125, R130: a comparison, and address arithmetic. -/
theorem test_cmp_adr :
    let t := trainOf [(2, 0xFFFFFFFF), (3, 1), (4, 5), (5, 0xFF800000)]
    slotPred (slotAt (after (.cmp 1#3 .ltI (.int .w32) .set 2#7 3#7) t) 0) 1#3 = true ∧
    slotPred (slotAt (after (.cmp 1#3 .ltN (.int .w32) .set 2#7 3#7) t) 0) 1#3 = false ∧
    slotPred (slotAt (after (.cmp 1#3 .flt (.flt .f32) .set 5#7 3#7) t) 0) 1#3 = true ∧
    (after (.cmp 1#3 .fge (.flt .f32) .set 2#7 3#7) t).fflags = 16#5 ∧
    cget (slotAt (after (.adrAdda 1#3 1#3 3 4#7) t) 0).areg 1 = 40#80 ∧
    cget (slotAt (after (.adrAddai 1#3 1#3 (BitVec.ofInt 38 (-1))) t) 0).areg 1 = BitVec.ofNat 80 (2 ^ 64 - 1) ∧
    cget (slotAt (after (.adrMovawReg 1#3 3#7 2#7) t) 0).areg 1 = BitVec.ofNat 80 (65535 * 2 ^ 64 + 1) ∧
    cget (slotAt (after (.adrMovawImm 1#3 3#7 8191#13) t) 0).areg 1 = BitVec.ofNat 80 (8191 * 2 ^ 64 + 1) ∧
    cget (slotAt (after (.adrSpna 1#3 4#7) t) 0).areg 1 = BitVec.ofNat 80 (5 * 2 ^ 64) ∧
    regOf (after (.adrMovwa 1#7 1#3 false) t) 0 1 = 0 ∧
    slotPred (slotAt (after (.adrCmpa 1#3 1#3 2#3 .eq) t) 0) 1#3 = true := by decide +kernel
/-- R153 to R158: one rounding against two, and the flags. -/
theorem test_float :
    let r := [(1, 0xBF800000), (2, 0x3F800001), (3, 0x3F7FFFFE)]
    rows [(.fmaFma .f32 .rn 1#7 2#7 3#7, r, 0xA8800000, 0#5), (.fopMul .f32 .rn 1#7 2#7 3#7, r, 0x3F800000, 1#5),
      (.fopAdd .f32 .rn 1#7 1#7 4#7, [(1, 0x3F800000), (4, 0xBF800000)], 0, 0#5), (.fopAdd .f32 .rd 1#7 1#7 4#7, [(4, 0x80000000)], 0x80000000, 0#5),
      (.fopSub .f16 .rn 1#7 2#7 3#7, [(2, 0x3C00), (3, 0x4000)], 0xBC00, 0#5), (.fopDiv .f64 .rn 1#7 2#7 3#7, [(2, 0x3FF0000000000000)], 0x7FF0000000000000, 8#5),
      (.fopSqrt .f64 .rn 1#7 2#7, [(2, 0x4010000000000000)], 0x4000000000000000, 0#5), (.fopMin .f32 1#7 2#7 3#7, [(2, 0x7FC00001), (3, 0x3F800000)], 0x3F800000, 0#5),
      (.fopMax .f32 1#7 2#7 3#7, [(2, 0x80000000)], 0, 0#5), (.fopAbs .f32 1#7 2#7, [(2, 0xFFC00001)], 0x7FC00000, 0#5),
      (.fopNeg .bf16 1#7 2#7, [(2, 0x3F80)], 0x800080008000BF80, 0#5), (.fopCopysign .f32 1#7 2#7 3#7, [(2, 0x3F800000), (3, 0xFF800001)], 0xBF800000, 16#5),
      (.fmaFms .f32 .rn 1#7 2#7 3#7, [(1, 0x3F800000), (2, 0x40000000), (3, 0x3F800000)], 0x3F800000, 0#5)] = true := by decide +kernel
/-- R157: an exact zero of fnma, by R47; fnms by hand. -/
theorem test_float_negated : rows [(.fmaFnma .f32 .rn 1#7 2#7 3#7, [], 0, 0#5),
    (.fmaFnms .f32 .rn 1#7 2#7 3#7, [(1, 0x3F8000003F800000), (2, 0x4000000040000000), (3, 0x3F8000003F800000)], 0xC0400000C0400000, 0#5)] = true := by decide +kernel
/-- R160: saturation to i8 under each rounding mode. -/
theorem test_saturation :
    let r := [(2, 0x4302B333C0200000)]
    rows [(.cvtFloatInt true .w8 .f32 .rn 1#7 2#7, r, 0x7FFE, 17#5), (.cvtFloatInt true .w8 .f32 .rz 1#7 2#7, r, 0x7FFE, 17#5),
      (.cvtFloatInt true .w8 .f32 .ru 1#7 2#7, r, 0x7FFE, 17#5), (.cvtFloatInt true .w8 .f32 .rd 1#7 2#7, r, 0x7FFD, 17#5),
      (.cvtFloatInt true .w8 .f32 .rna 1#7 2#7, r, 0x7FFD, 17#5), (.cvtFloatFloat .f16 .f32 .rn 1#7 2#7, [(2, 0x3F80000040000000)], 0x3C004000, 0#5),
      (.cvtIntFloat .f32 true .w8 .rn 1#7 2#7, [(2, 0xFF01)], 0xBF8000003F800000, 0#5)] = true := by decide +kernel
/-- The sixteen values of the worked pack, and its block. -/
def packRegs : List (Nat × Nat) := [(0, 0xBFC0000040C00000), (1, 0x000000003E800000), (2, 0x4040000040400000), (3, 0xBE0000003F000000),
  (4, 0x3F8000003F800000), (5, 0x000000003F400000), (6, 0xC020000040200000), (7, 0x3E99999A7FC00000)]
/-- R161, R55: the worked pack into bx6; its block unpacked. -/
theorem test_pack : let t := after (.cvtBxPack .bx6 20#7 0#7) (oneOf packRegs)
    regOf t 0 20 = 0x080098C0026C6481 ∧ regOf t 0 21 = 0x0C34A019 ∧ t.fflags = 19#5 := by decide +kernel
@[inherit_doc test_pack] theorem test_unpack :
    let t := after (.cvtBxUnpack .bx6 8#7 20#7) (oneOf [(20, 0x080098C0026C6481), (21, 0x0C34A019)])
    regOf t 0 8 = 0xBFC0000040C00000 ∧ regOf t 0 11 = 0x3F000000 ∧ regOf t 0 14 = 0xC020000040200000 ∧ regOf t 0 15 = 0x3E8000007FC00000 := by decide +kernel
/-- R164: special values and exact points of sfu; R165: the twiddles of N = 16. -/
theorem test_sfu : rows [(.sfuRcp .f16 1#7 2#7, [(2, 0x3C0038003C004000)], 0x3C0040003C003800, 0#5),
    (.sfuExp2 .f32 1#7 2#7, [(2, 0x3F80000000000000)], 0x400000003F800000, 0#5), (.sfuLog2 .f32 1#7 2#7, [(2, 0x3F80000041000000)], 0x40400000, 0#5),
    (.sfuRsqrt .f32 1#7 2#7, [(2, 0x4080000000000000)], 0x3F0000007F800000, 13#5), (.sfuSqrt .f32 1#7 2#7, [(2, 0x4080000080000000)], 0x4000000080000000, 1#5),
    (.sfuSinpi .f32 1#7 2#7, [(2, 0x3F000000BF800000)], 0x3F80000080000000, 0#5), (.sfuCospi .f32 1#7 2#7, [(2, 0x3F0000003F800000)], 0x00000000BF800000, 0#5),
    (.sfuTwd 1#7 4#7 5#7, [(5, 4)], 0x3F800000, 0#5), (.sfuTwd 1#7 4#7 5#7, [(4, 2), (5, 4)], 0xBF3504F33F3504F3, 1#5),
    (.sfuTwd 1#7 4#7 5#7, [(4, 4), (5, 4)], 0xBF80000000000000, 0#5), (.sfuTwd 1#7 4#7 5#7, [(4, 12), (5, 4)], 0x3F80000000000000, 0#5),
    (.sfuTwd 1#7 4#7 5#7, [(4, 20), (5, 4)], 0xBF80000000000000, 0#5)] = true := by decide +kernel
/-- A run whose slots hold what `f` gives, with p1 where `p` says, behind the guard of p1. -/
def guarded (p : Nat → Bool) (f : Nat → List (Nat × Nat)) : State :=
  let t := { fetchTrain 2 1 with slots := (List.range 32).map (fun n => { slotOf (f n) with pred := if p n then 2#8 else 0#8 }) }
  { stateOf t with iss := some { issueOf t (slotAt t 0) with kinds := [1], grd := some ⟨1, false, 1#3⟩, wpc := 4#40 } }
/-- The train after an instruction of that run. -/
def guardedAfter (i : Instr) (s : State) : Train :=
  match exec i s with
  | .next s => (findTrain s 2).getD (fetchTrain 0 0)
  | _ => fetchTrain 0 0
/-- R173, R174: the 64-element shift with one member guarded off. -/
theorem test_shflu :
    let t := guardedAfter (.xlShflu .w32 4#7 5#7 6#7 none) (guarded (· != 1)
      (fun n => [(4, 0xFFFFFFFFFFFFFFFF), (5, (2 * n + 1) * 2 ^ 32 + 2 * n), (6, 1)]))
    regOf t 0 4 = 0 ∧ regOf t 1 4 = 0xFFFFFFFFFFFFFFFF ∧ regOf t 2 4 = 0x0000000400000003 ∧ regOf t 31 4 = 0x0000003E0000003D := by decide +kernel
/-- R177: the tree against a compacted sum. -/
theorem test_red :
    let t := guardedAfter (.xlRed 1#7 2#7 .add (.f .f32) none) (guarded (fun n => n == 0 || n == 2 || n == 3)
      (fun n => [(1, 9), (2, if n = 0 then 0x4B800000 else if n = 2 ∨ n = 3 then 0x3F800000 else 0x40E0000040E00000)]))
    regOf t 0 1 = 0x4B800001 ∧ regOf t 2 1 = 0x4B800001 ∧ regOf t 3 1 = 0x4B800001 ∧ regOf t 1 1 = 9 ∧ regOf t 31 1 = 9 ∧
      t.fflags = 0#5 := by decide +kernel
/-- R173 to R177: the other xl forms, by hand from the rules. -/
theorem test_xl :
    let s := guarded (· != 1) (fun n => [(5, n), (6, 8 * 3), (7, 2)])
    let r := fun (i : Instr) (n : Nat) => regOf (guardedAfter i s) n 4
    r (.xlShfl .w64 4#7 5#7 6#7 none) 9 = 3 ∧ r (.xlShflx .w64 4#7 5#7 6#7 none) 9 = 10 ∧ r (.xlShfld .w64 4#7 5#7 7#7 none) 9 = 11 ∧
    r (.xlShfld .w64 4#7 5#7 7#7 none) 31 = 31 ∧ r (.xlBal 4#7 0#3 none) 9 = 0xFFFFFFFD ∧ r (.xlVoteAny 4#7 1#3 none) 9 = 1 ∧
    r (.xlVoteAll 4#7 2#3 none) 9 = 0 ∧ r (.xlVoteEq .w32 4#7 6#7 none) 9 = 3 ∧ r (.xlQx 4#7 5#7 .xor1 none) 9 = 8 ∧ r (.xlQx 4#7 5#7 .b3 none) 9 = 11 ∧
    r (.xlScan false 4#7 5#7 .add (.i .w64) none) 3 = 5 ∧ r (.xlScan true 4#7 5#7 .add (.i .w64) none) 3 = 2 := by decide +kernel

/-! Witnesses: for each statement with hypotheses, states and operands that meet all of them together. -/

/-- The hypotheses of `Issues`, as a check. -/
def issuesB (i : Instr) (s : State) (iss : Issue) (t : Train) : Bool :=
  decide (s.iss = some iss) && decide (findTrain s iss.tr = some t) && decide (fieldFault t i = none) &&
    t.slots.all (fun x => x.rcond.isEmpty) && iss.bad.isEmpty && decide (t.slots.length = 32) && decide (t.trap = none) && !t.sstep
theorem issues_of {i : Instr} {s : State} {iss : Issue} {t : Train} (h : issuesB i s iss t = true) : Issues i s iss t := by
  simp only [issuesB, Bool.and_eq_true, decide_eq_true_eq, List.all_eq_true, List.isEmpty_iff, Bool.not_eq_true'] at h
  obtain ⟨⟨⟨⟨⟨⟨⟨a, b⟩, c⟩, d⟩, e⟩, f⟩, g⟩, k⟩ := h
  exact ⟨a, b, c, d, e, f, g, k⟩
/-- The hypotheses of `PortsReady`, as a check. -/
def portsB (i : Instr) (d : Reg) (v : Word) (s : State) (iss : Issue) (t : Train) (n : Nat) : Bool :=
  decide (slotsOf (activeMask iss t) = [n]) && (popPorts i).all (fun q => decide ((popChk s t n q).1 = .ok)) &&
    (!isQ d || (pushPorts i).isEmpty ||
      decide (pushChk ((popPorts i).foldl (fun s q => popDo s t.uid n q) s) t n (portOf d) v = .ok)) &&
    !lowerWaits s t.uid n iss.start (parkCount iss (slotAt t n))
theorem ports_of {i : Instr} {d : Reg} {v : Word} {s : State} {iss : Issue} {t : Train} {n : Nat}
    (h : portsB i d v s iss t n = true) : PortsReady i d v s iss t n := by
  simp only [portsB, Bool.and_eq_true, decide_eq_true_eq, List.all_eq_true, Bool.or_eq_true, Bool.not_eq_true',
    List.isEmpty_iff] at h
  obtain ⟨⟨⟨a, b⟩, c⟩, d'⟩ := h
  refine ⟨a, b, fun hq hp => ?_, d'⟩
  rcases c with (c | c) | c
  · rw [hq] at c; cases c
  · exact absurd c hp
  · exact c
/-- The hypotheses of `MayEnter`, as a check. -/
def enterB (s : State) (t : Train) : Bool :=
  decide (t.prol = none) && t.thand.getLsbD 40 && !t.inHand && !entryWaits s t.uid
theorem enter_of {s : State} {t : Train} (h : enterB s t = true) : MayEnter s t := by
  simp only [enterB, Bool.and_eq_true, decide_eq_true_eq, Bool.not_eq_true'] at h
  obtain ⟨⟨⟨a, b⟩, c⟩, d⟩ := h
  exact ⟨a, b, c, d⟩
theorem mask_lt {m : Mask} {n : Nat} (h : inMask m n = true) : n < 32 := by
  refine Nat.lt_of_not_le (fun hn => ?_)
  simp [inMask, BitVec.getLsbD_of_ge m n hn] at h
theorem all_mask {m : Mask} {p : Nat → Prop} (h : ∀ n < 32, inMask m n = true → p n) : ∀ n, inMask m n = true → p n :=
  fun n hn => h n (mask_lt hn) hn
theorem all_slots {t : Train} {p : Slot → Bool} (h : t.slots.all p = true) : ∀ x ∈ t.slots, p x = true :=
  List.all_eq_true.mp h

/-- A slot waits for members of an xl word. -/
def waitsMember (x : Slot) : Bool :=
  match x.wait with
  | .member _ _ _ _ => true
  | _ => false
theorem not_member {t : Train} (h : t.slots.all (fun x => !waitsMember x) = true) :
    ∀ x ∈ t.slots, ∀ e m p g, x.wait ≠ .member e m p g := by
  intro x hx e m p g hw
  have := all_slots h x hx
  simp [waitsMember, hw] at this
/-- The hypotheses of `XlReady`, as a check. -/
def xlB (i : Instr) (mk : Option (BitVec 5)) (qx : Bool) (s : State) (iss : Issue) (t : Train) : Bool :=
  let m := (xlMembers t qx mk).2
  issuesB i s iss t && portFree i && (List.range 32).all (fun n =>
    (!(xlMembers t qx mk).1 || !inMask m n || decide ((slotAt t n).st ≠ .exited)) &&
    (!inMask m n || !slotLive (slotAt t n) || inMask iss.slots n) && (!inMask (activeMask iss t) n || inMask m n)) &&
    t.slots.all (fun x => !waitsMember x)
theorem xl_of {i : Instr} {mk : Option (BitVec 5)} {qx : Bool} {s : State} {iss : Issue} {t : Train}
    (h : xlB i mk qx s iss t = true) : XlReady i mk qx s iss t := by
  simp only [xlB, Bool.and_eq_true, List.all_eq_true, List.mem_range, Bool.or_eq_true, Bool.not_eq_true',
    decide_eq_true_eq] at h
  obtain ⟨⟨⟨a, b⟩, c⟩, d⟩ := h
  refine ⟨issues_of a, b, fun he n hn => ?_, fun n hn hl => ?_, fun n hn => ?_, not_member (by simpa using d)⟩
  · have := (c n (mask_lt hn)).1.1
    simp [he, hn] at this
    exact this
  · have := (c n (mask_lt hn)).1.2
    simp [hn, hl] at this
    exact this
  · have := (c n (mask_lt hn)).2
    simp [hn] at this
    exact this

/-- The run of the train of `stateOf`. -/
def issOf (t : Train) : Issue := issueOf t (slotAt t 0)
/-- An instruction issues on that train. -/
def Runs (i : Instr) (t : Train) : Prop := Issues i (stateOf t) (issOf t) t
def runsB (i : Instr) (t : Train) : Bool := issuesB i (stateOf t) (issOf t) t
theorem runs_of {i : Instr} {t : Train} (h : runsB i t = true) : Runs i t := issues_of h
/-- A train of one live slot with a completions port q1 that holds 7, and a command port q0. -/
def portTrain : Train := { oneOf [(2, 5)] with ports := [(0, .copyCmd), (1, .completions 0 4)], compl := [7#64] }

/-- SubElements: the last byte of a register, and the one sub-element of width 64. -/
theorem witness_SubElements : 7 < 64 / wbits .w8 ∧ 0 < 64 / wbits .w64 ∧ (3 : Nat) < 2 ^ wbits .w16 := by decide
/-- IopForms, ImmediateForms, BitSubElements: without ports, at the last register, zr and k registers; limm to both. -/
theorem witness_IopForms : Runs (.iopAdd .w8 95#7 127#7 119#7) (oneOf []) ∧ portFree (.iopAdd .w8 95#7 127#7 119#7) = true :=
  ⟨runs_of (by decide +kernel), by decide⟩
@[inherit_doc witness_IopForms] theorem witness_ImmediateForms :
    (Runs (.iopiAddi 1#7 2#7 5#31) (oneOf []) ∧ portFree (.iopiAddi 1#7 2#7 5#31) = true) ∧
    (isK 95#7 = false ∧ Runs (.limmSet 95#7 3#2 5#16) (oneOf []) ∧ portFree (.limmSet 95#7 3#2 5#16) = true) ∧
    (isK 96#7 = true ∧ Runs (.limmIns 96#7 3#2 5#16) (oneOf []) ∧ activeMask (issOf (oneOf [])) (oneOf []) ≠ 0#32) ∧
    (isK 119#7 = true ∧ Runs (.limmSets 119#7 0#2 5#16) (oneOf []) ∧ activeMask (issOf (oneOf [])) (oneOf []) ≠ 0#32) :=
  ⟨⟨runs_of (by decide +kernel), by decide⟩, ⟨by decide, runs_of (by decide +kernel), by decide⟩,
   ⟨by decide, runs_of (by decide +kernel), by decide⟩, ⟨by decide, runs_of (by decide +kernel), by decide⟩⟩
@[inherit_doc witness_IopForms] theorem witness_BitSubElements :
    Runs (.bitBins .w64 94#7 0#7 127#7) (oneOf []) ∧ portFree (.bitBins .w64 94#7 0#7 127#7) = true :=
  ⟨runs_of (by decide +kernel), by decide⟩
/-- VecPorts of every vector statement: an item popped for a source, and a result pushed. -/
theorem witness_ports :
    let i := Instr.iopAdd .w8 120#7 121#7 2#7
    let s := stateOf portTrain
    let iss := issOf portTrain
    let v := subN (readAny s portTrain 0 121#7) 8 0 + 5
    Runs i portTrain ∧ portFree i = false ∧ PortsReady i 120#7 (BitVec.ofNat 64 v) s iss portTrain 0 ∧
    (findTrain (wakePort (pushDo (makePops s iss.tr 0 (popPorts i)) iss.tr 0 0 (BitVec.ofNat 64 v)) iss.tr 0) iss.tr).isSome = true :=
  ⟨runs_of (by decide +kernel), by decide, ports_of (by decide +kernel), by decide +kernel⟩
@[inherit_doc witness_ports] theorem witness_pop :
    let s := stateOf portTrain
    let iss := issOf portTrain
    (Runs (.fopAbs .f32 1#7 121#7) portTrain ∧ portFree (.fopAbs .f32 1#7 121#7) = false ∧
      PortsReady (.fopAbs .f32 1#7 121#7) 1#7 7#64 s iss portTrain 0) ∧
    (Runs (.adrSpna 1#3 121#7) portTrain ∧ portFree (.adrSpna 1#3 121#7) = false ∧
      PortsReady (.adrSpna 1#3 121#7) 127#7 0#64 s iss portTrain 0) ∧
    (Runs (.cmp 7#3 .eq (.int .w8) .set 121#7 2#7) portTrain ∧ portFree (.cmp 7#3 .eq (.int .w8) .set 121#7 2#7) = false ∧
      PortsReady (.cmp 7#3 .eq (.int .w8) .set 121#7 2#7) 127#7 0#64 s iss portTrain 0) ∧
    (findTrain (makePops s iss.tr 0 [1]) iss.tr).isSome = true :=
  ⟨⟨runs_of (by decide +kernel), by decide, ports_of (by decide +kernel)⟩,
   ⟨runs_of (by decide +kernel), by decide, ports_of (by decide +kernel)⟩,
   ⟨runs_of (by decide +kernel), by decide, ports_of (by decide +kernel)⟩, by decide +kernel⟩
/-- Comparisons, AddressForms: predicate p7, and a cmpa of two address registers. -/
theorem witness_Comparisons : (7#3 : R3) ≠ 0#3 ∧ Runs (.cmp 7#3 .test (.int .w64) .andn 0#7 95#7) (oneOf []) ∧
    portFree (.cmp 7#3 .test (.int .w64) .andn 0#7 95#7) = true ∧ Runs (.cmp 1#3 .ford (.flt .f64) .xor 0#7 95#7) (oneOf []) ∧
    portFree (.cmp 1#3 .ford (.flt .f64) .xor 0#7 95#7) = true :=
  ⟨by decide, runs_of (by decide +kernel), by decide, runs_of (by decide +kernel), by decide⟩
@[inherit_doc witness_Comparisons] theorem witness_AddressForms : Runs (.adrAdda 7#3 0#3 4 95#7) (oneOf []) ∧
    portFree (.adrAdda 7#3 0#3 4 95#7) = true ∧ Runs (.adrMovwa 95#7 7#3 true) (oneOf []) ∧ portFree (.adrMovwa 95#7 7#3 true) = true ∧
    (1#3 : R3) ≠ 0#3 ∧ Runs (.adrCmpa 1#3 7#3 0#3 .le) (oneOf []) :=
  ⟨runs_of (by decide +kernel), by decide, runs_of (by decide +kernel), by decide, by decide, runs_of (by decide +kernel)⟩
/-- ScalarForms: a k register of an active run, and rdlane of slot 31. -/
theorem witness_ScalarForms : let t := withK (oneOf []) [(1, 31)]
    Runs (.scalAdd 119#7 96#7 127#7) t ∧ activeMask (issOf t) t ≠ 0#32 ∧ Runs (.scalBcast 95#7 119#7) t ∧ portFree (.scalBcast 95#7 119#7) = true ∧
    Runs (.scalRdlane 96#7 95#7 97#7) t ∧ (readReg t 0 97#7).toNat ≤ 31 :=
  ⟨runs_of (by decide +kernel), by decide, runs_of (by decide +kernel), by decide, runs_of (by decide +kernel), by decide⟩
/-- FloatForms, SpecialFunctions: each family; DeliveryIsExact: the largest pattern, which is a NaN, and zero. -/
theorem witness_FloatForms : Runs (.fopAdd .f64 .ru 95#7 0#7 127#7) (oneOf []) ∧ portFree (.fopAdd .f64 .ru 95#7 0#7 127#7) = true ∧
    Runs (.fmaFma .f16 .rn 95#7 0#7 1#7) (oneOf []) ∧ portFree (.fmaFma .f16 .rn 95#7 0#7 1#7) = true ∧
    Runs (.fopMin .bf16 95#7 0#7 1#7) (oneOf []) ∧ portFree (.fopMin .bf16 95#7 0#7 1#7) = true :=
  ⟨runs_of (by decide +kernel), by decide, runs_of (by decide +kernel), by decide, runs_of (by decide +kernel), by decide⟩
@[inherit_doc witness_FloatForms] theorem witness_DeliveryIsExact : 0xFFFF < 2 ^ fbits .f16 ∧
    (unpack (fpOf .f16) 0xFFFF).isNan = true ∧ (unpack (fpOf .f16) 0x7C00).isNan = false ∧ (unpack (fpOf .f64) 0).isNan = false := by decide +kernel
@[inherit_doc witness_FloatForms] theorem witness_SpecialFunctions : Runs (.sfuRcp .f32 95#7 0#7) (oneOf []) ∧
    portFree (.sfuRcp .f32 95#7 0#7) = true ∧ Runs (.sfuTwd 95#7 0#7 1#7) (oneOf []) ∧ portFree (.sfuTwd 95#7 0#7 1#7) = true ∧
    Fmt.f16 ≠ .f64 ∧ 2 ^ (fbits .f16 - 1) < 0x8001 ∧ 0x8001 ≤ 2 ^ (fbits .f16 - 1) + (fpOf .f16).inf ∧ (unpack (fpOf .f16) 0x7C01).isNan = true ∧
    31 < 32 :=
  ⟨runs_of (by decide +kernel), by decide, runs_of (by decide +kernel), by decide +kernel⟩
/-- Conversions: both directions of a block, its registers at the end of the window. -/
theorem witness_Conversions : Runs (.cvtFloatInt true .w8 .f64 .rna 95#7 0#7) (oneOf []) ∧
    portFree (.cvtFloatInt true .w8 .f64 .rna 95#7 0#7) = true ∧ groupOk 3 93#7 = true ∧ groupOk 8 88#7 = true ∧
    Runs (.cvtBxPack .bx9 93#7 88#7) (oneOf []) ∧ Runs (.cvtBxUnpack .bx9 88#7 93#7) (oneOf []) :=
  ⟨runs_of (by decide +kernel), and3 (by decide +kernel) ⟨runs_of (by decide +kernel), runs_of (by decide +kernel)⟩⟩
/-- A train of which slots 0 and 1 alone are there, and k0 names them. -/
def twoTrain : Train :=
  let t := withK (trainOf [(2, 0x0101010101010101)]) [(0, 3)]
  { t with slots := t.slots.take 2 ++ List.replicate 30 Slot.blank }
/-- XlShuffles, XlReductions: every slot a member, or those of k0; a selector at its bound; qx with helpers. -/
theorem witness_XlShuffles : let t := trainOf [(2, 0x0101010101010101)]
    XlReady (.xlShfl .w32 1#7 2#7 2#7 none) none false (stateOf t) (issOf t) t ∧
    (∀ n, inMask (activeMask (issOf t) t) n = true → ∀ j < 64 / wbits .w32, (readReg t n 2#7).toNat / 2 ^ (8 * j) % 256 % 8 < 64 / wbits .w32) ∧
    XlReady (.xlQx 1#7 2#7 .xor3 (some 0#5)) (some 0#5) true (stateOf twoTrain) (issOf twoTrain) twoTrain :=
  ⟨xl_of (by decide +kernel), all_mask (by decide +kernel), xl_of (by decide +kernel)⟩
@[inherit_doc witness_XlShuffles] theorem witness_XlReductions :
    XlReady (.xlRed 1#7 2#7 .add (.i .w64) (some 0#5)) (some 0#5) false (stateOf twoTrain) (issOf twoTrain) twoTrain ∧
    XlReady (.xlVoteEq .w64 1#7 2#7 none) none false (stateOf twoTrain) (issOf twoTrain) twoTrain ∧
    (RedOp.add = .add ∧ ∀ f, Ty.i .w64 ≠ .f f) ∧ (List.replicate 32 (2 ^ 64 - 1, 0#5)).length = 32 ∧ 2 ^ 64 - 1 < 2 ^ tyBits (.i .w64) :=
  ⟨xl_of (by decide +kernel), xl_of (by decide +kernel), ⟨rfl, by simp⟩, by decide +kernel⟩
/-- A train with a handler. -/
def handled (t : Train) : Train := { t with thand := 0x10000001000#64 }
/-- The eleven xl forms, and whether helpers are members. -/
def xlForms (mk : Option (BitVec 5)) : List (Instr × Bool) :=
  [(.xlShfl .w32 1#7 2#7 3#7 mk, false), (.xlShflx .w32 1#7 2#7 3#7 mk, false), (.xlShflu .w32 1#7 2#7 3#7 mk, false),
    (.xlShfld .w32 1#7 2#7 3#7 mk, false), (.xlBal 1#7 0#3 mk, false), (.xlVoteAny 1#7 0#3 mk, false), (.xlVoteAll 1#7 0#3 mk, false),
    (.xlVoteEq .w32 1#7 2#7 mk, false), (.xlQx 1#7 2#7 .xor3 mk, true), (.xlRed 1#7 2#7 .add (.i .w64) mk, false),
    (.xlScan false 1#7 2#7 .add (.i .w64) mk, false)]
theorem all_forms {l : List (Instr × Bool)} {p : Instr × Bool → Bool} (h : l.all p = true) : ∀ f ∈ l, p f = true := List.all_eq_true.mp h
/-- XlMembers: k0 names a slot that has exited; and a member that is elsewhere. -/
theorem witness_XlMembers : let x := handled { twoTrain with slots := twoTrain.slots.map (fun y => if y.st = .absent then { y with st := .exited } else y), k := [(0, 7#64)] }
    let y := { twoTrain with slots := fetchSlot :: { fetchSlot with pc := 8#40 } :: twoTrain.slots.drop 2 }
    ((∀ f ∈ xlForms (some 0#5), Runs f.1 x ∧ inMask (xlMembers x f.2 (some 0#5)).2 2 = true) ∧ (∀ z ∈ x.slots, ∀ e m p g, z.wait ≠ .member e m p g) ∧
      (slotAt x 2).st = .exited ∧ (issOf x).slots ≠ 0#32 ∧ MayEnter (stateOf x) x) ∧
    ((∀ f ∈ xlForms none, Runs f.1 y ∧ (∀ n, inMask (xlMembers y f.2 none).2 n = true → (slotAt y n).st ≠ .exited) ∧
        inMask (xlMembers y f.2 none).2 1 = true) ∧ (∀ z ∈ y.slots, ∀ e m p g, z.wait ≠ .member e m p g) ∧
      slotLive (slotAt y 1) = true ∧ (slotAt y 1).st ≠ .member ∧ inMask (issOf y).slots 1 = false) := by
  refine ⟨⟨fun f hf => ?_, not_member (by decide +kernel), by decide +kernel, by decide +kernel, enter_of (by decide +kernel)⟩,
    fun f hf => ?_, not_member (by decide +kernel), by decide +kernel⟩
  · have h := all_forms (l := xlForms (some 0#5)) (p := fun f => runsB f.1 (handled { twoTrain with slots := twoTrain.slots.map (fun y => if y.st = .absent then { y with st := .exited } else y), k := [(0, 7#64)] }) &&
      inMask (xlMembers (handled { twoTrain with slots := twoTrain.slots.map (fun y => if y.st = .absent then { y with st := .exited } else y), k := [(0, 7#64)] }) f.2 (some 0#5)).2 2) (by decide +kernel) f hf
    rw [Bool.and_eq_true] at h
    exact ⟨runs_of h.1, h.2⟩
  · have h := all_forms (l := xlForms none) (p := fun f => runsB f.1 { twoTrain with slots := fetchSlot :: { fetchSlot with pc := 8#40 } :: twoTrain.slots.drop 2 } &&
      (List.range 32).all (fun n => !inMask (xlMembers { twoTrain with slots := fetchSlot :: { fetchSlot with pc := 8#40 } :: twoTrain.slots.drop 2 } f.2 none).2 n ||
        decide ((slotAt { twoTrain with slots := fetchSlot :: { fetchSlot with pc := 8#40 } :: twoTrain.slots.drop 2 } n).st ≠ .exited)) &&
      inMask (xlMembers { twoTrain with slots := fetchSlot :: { fetchSlot with pc := 8#40 } :: twoTrain.slots.drop 2 } f.2 none).2 1) (by decide +kernel) f hf
    simp only [Bool.and_eq_true, List.all_eq_true, List.mem_range, Bool.or_eq_true, Bool.not_eq_true', decide_eq_true_eq] at h
    exact ⟨runs_of h.1.1, fun n hn => (h.1.2 n (mask_lt hn)).resolve_left (by simp [hn]), h.2⟩

/-! Control flow, traps and the sys family. -/

/-- A store of slot 0 that is on its way, under number 9; and a load. -/
def storeReq (t : Train) : Req := mkReq 0 (issOf t) t 0 (slotAt t 0) 9 8 (.store [5#8]) .plain .none 0#80 [(2097216, 1)] [] []
def loadReq (t : Train) : Req := mkReq 0 (issOf t) t 0 (slotAt t 0) 9 8 (.load .b8 0 none) .plain (.w 1 false) 0#80 [(2097216, 1)] [] []
/-- The device of `stateOf` with requests on their way. -/
def withReqs (t : Train) (l : List Req) : State := { stateOf t with reqs := l, nextId := 10 }
/-- The device of `stateOf`, its context allowed to debug. -/
def debugState (t : Train) : State := { stateOf t with ctxs := [{ fetchCtx with budget := { fetchCtx.budget with debug := true } }] }

/-- BranchesAndJumps: the highest target, and a register that names it; then a misaligned target and one too far. -/
theorem witness_BranchesAndJumps : let t := oneOf [(1, 2 ^ 40 - 4)]
    let far := fun (n : Nat) => if slotPred (slotAt t n) 0#3 = false then ((issOf t).wpc.toNat : Int) + 4
      else ((issOf t).wpc.toNat : Int) + 4 + 4 * (BitVec.ofNat 43 (2 ^ 38 - 2)).toInt
    (Runs (.bra 0#3 false (BitVec.ofNat 43 (2 ^ 38 - 2))) t ∧ ∀ n < 32, inMask (activeMask (issOf t) t) n = true → TargetOk (far n)) ∧
    (Runs (.jmpCallr 95#7 1#7) t ∧ ∀ n < 32, inMask (activeMask (issOf t) t) n = true → TargetOk ((readReg t n 1#7).toNat : Int)) :=
  ⟨⟨runs_of (by decide +kernel), by unfold TargetOk; decide +kernel⟩, runs_of (by decide +kernel), by unfold TargetOk; decide +kernel⟩
@[inherit_doc witness_BranchesAndJumps] theorem witness_bad_targets : let t := handled (oneOf [(1, 2)])
    let u := handled (oneOf [(1, 2 ^ 40)])
    let mis := fun (t : Train) => maskOf (fun n => inMask (activeMask (issOf t) t) n && decide (((readReg t n 1#7).toNat : Int) % 4 ≠ 0))
    let far := fun (t : Train) => maskOf (fun n => inMask (activeMask (issOf t) t) n && decide (((readReg t n 1#7).toNat : Int) % 4 = 0) &&
      decide ((2 ^ 40 - 4 : Int) < ((readReg t n 1#7).toNat : Int)))
    (Runs (.jmpRet 1#7) t ∧ MayEnter (stateOf t) t ∧ mis t ≠ 0#32) ∧ (Runs (.jmpRet 1#7) u ∧ MayEnter (stateOf u) u ∧ mis u = 0#32 ∧ far u ≠ 0#32) :=
  ⟨⟨runs_of (by decide +kernel), enter_of (by decide +kernel), by decide +kernel⟩, runs_of (by decide +kernel), enter_of (by decide +kernel), by decide +kernel⟩
/-- PrefixesIdleAndExit, TrapsAreTaken: a live run; a k register as a vector destination, and one beyond the allocation. -/
theorem witness_PrefixesIdleAndExit : (stateOf (oneOf [])).iss = some (issOf (oneOf [])) ∧ Runs .sysNop (oneOf []) ∧ Runs .sysYield (oneOf []) ∧
    Runs .sysSpin (oneOf []) ∧ Runs .sysExit (oneOf []) ∧ activeMask (issOf (oneOf [])) (oneOf []) ≠ 0#32 ∧
    (∀ x ∈ (oneOf []).slots, x.st ≠ .member ∧ ∀ e m pc g, x.wait ≠ .member e m pc g) :=
  ⟨rfl, runs_of (by decide +kernel), runs_of (by decide +kernel), runs_of (by decide +kernel), runs_of (by decide +kernel), by decide +kernel,
   fun x hx => ⟨(by decide +kernel : ∀ x ∈ (oneOf []).slots, x.st ≠ .member) x hx, not_member (by decide +kernel) x hx⟩⟩
@[inherit_doc witness_PrefixesIdleAndExit] theorem witness_TrapsAreTaken : let t := handled (oneOf [])
    let small := { t with A := 32 }
    (activeMask (issOf t) t ≠ 0#32 ∧ MayEnter (stateOf t) t ∧ Runs (.sysTrap 31#5) t ∧ Runs .sysBrk t) ∧
    ((stateOf t).iss = some (issOf t) ∧ findTrain (stateOf t) (issOf t).tr = some t ∧ (fieldFault t (.iopAdd .w8 96#7 0#7 0#7)).map (·.1) = some 0 ∧
      (issOf t).bad = [] ∧ (issOf t).slots ≠ 0#32 ∧ t.slots.length = 32) ∧
    (fieldFault small (.iopAdd .w8 32#7 0#7 0#7)).map (·.1) = some 3 ∧ fieldFault small (.iopAdd .w8 31#7 0#7 0#7) = none ∧ MayEnter (stateOf small) small :=
  ⟨⟨by decide +kernel, enter_of (by decide +kernel), runs_of (by decide +kernel), runs_of (by decide +kernel)⟩, and3 (by decide +kernel) (enter_of (by decide +kernel))⟩
/-- A trap to enter with, of cause 1:0. -/
def someTrap : PTrap := ⟨cause 1 0, 8#40, 1#32, 3#32, 5#64, []⟩
/-- TrapEntry: the smallest allocation; no handler; inside a handler; a reply still to come; a trap that waits. -/
theorem witness_TrapEntry : let t := handled (oneOf [(2, 5)])
    (({ t with A := 32 } : Train).slots.length = 32 ∧ 32 ≤ ({ t with A := 32 } : Train).A) ∧
    (findTrain (stateOf (oneOf [])) 2 = some (oneOf []) ∧ (oneOf []).prol = none ∧ (oneOf []).thand.getLsbD 40 = false) ∧
    (findTrain (stateOf { t with inHand := true }) 2 = some { t with inHand := true }) ∧
    (findTrain (withReqs t [loadReq t]) 2 = some t ∧ t.prol = none ∧ t.thand.getLsbD 40 = true ∧ t.inHand = false ∧ entryWaits (withReqs t [loadReq t]) t.uid = true) ∧
    (findTrain (stateOf { t with trap := some someTrap }) 2 = some { t with trap := some someTrap } ∧ entryWaits (stateOf { t with trap := some someTrap }) 2 = false) := by
  decide +kernel
/-- TrapReturn: the train that a trap has sent to its handler; and what it was before. -/
theorem witness_TrapReturn : let t := handled (oneOf [(2, 5)])
    let u := enterTrain t someTrap
    (Runs .sysEret u ∧ activeMask (issOf u) u = liveMask u ∧ activeMask (issOf u) u ≠ 0#32 ∧ u.inHand = true ∧ eretFault u = none ∧
      ∀ n < 32, slotLive (slotAt u n) = true → fld (savedWord u n 0) 40 4 ≠ 7 ∧ fld (savedWord u n 0) 40 4 ≠ 4) ∧
    (t.slots.length = 32 ∧ 32 ≤ t.A ∧ t.B < 1024 ∧ t.prio < 16 ∧
      ∀ x ∈ t.slots, x.rcount < 128 ∧ x.guard.cnt < 16 ∧ (x.guard.cnt = 0 → x.guard = Guard.none) ∧ x.pred.getLsbD 0 = false ∧ x.st ≠ .barrier) :=
  ⟨⟨runs_of (by decide +kernel), by decide +kernel⟩, by decide +kernel⟩
/-- TrapReturn: slot 0 saved as exited, and as waiting at a barrier whose phase has completed, and has not. -/
theorem witness_ResumedSlots : let t := fun (st : Nat) => { fetchTrain 2 1 with slots := slotOf [(112, st * 2 ^ 40)] :: List.replicate 31 Slot.blank }
    let again := { t 1 with slots := slotOf [(112, 2 ^ 40), (127, 1)] :: (t 1).slots.drop 1 }
    let s := fetchState State.reset 0x10600000
    slotLive (slotAt (t 7) 0) = true ∧ fld (savedWord (t 7) 0 0) 40 4 = 7 ∧ fld (savedWord (t 4) 0 0) 40 4 = 4 ∧
    (savedTrain (t 4) 3).getLsbD 0 = false ∧ slotLive (slotAt again 0) = true ∧ (savedTrain again 3).getLsbD 0 = true ∧ fld (savedWord again 0 0) 40 4 = 1 ∧
    (behindPrefixes s (t 4) 4 0#40 none none none).map (·.ins) = some (.ctlBar 0#6 0#7) ∧ barPassed (t 4) 0 = true ∧
    afind ({ t 4 with lastBar := [(0, (true, false))] } : Train).lastBar 0 = some (true, false) := by decide +kernel
/-- TrapReturn: a train under single step; the nop that it completes sends it to its handler, with the next word as fpc (R424). -/
theorem witness_SingleStep : let t := { handled (oneOf []) with sstep := true }
    ((stateOf t).iss = some (issOf t) ∧ findTrain (stateOf t) (issOf t).tr = some t ∧ t.slots.length = 32 ∧ (issOf t).bad = [] ∧
      (∀ x ∈ t.slots, x.rcond = []) ∧ t.step = none ∧ (issOf t).rep = none ∧ (issOf t).slots ≠ 0#32 ∧ (nextPc (issOf t)).toNat ≤ 2 ^ 40 - 4) ∧
    MayEnter (stateOf t) t ∧
    (findTrain (afterS .sysNop t) 2).map (fun u => (u.inHand, savedTrain u 0, savedTrain u 1, savedTrain u 3)) = some (true, 353#64, 4#64, 0#64) :=
  ⟨by decide +kernel, enter_of (by decide +kernel), by decide +kernel⟩
/-- SpecialRegisters: osmap at its last word, phold in a debug context, a pushed read; the traps at the first index beyond. -/
theorem witness_SpecialRegisters : let t := withK (oneOf [(3, 31), (4, 32)]) [(0, 31), (1, 32)]
    let h := handled t
    let p := { oneOf [] with ports := [(0, .copyCmd)] }
    (Runs (.sysSrd 1#7 7#7 3#7) t ∧ activeMask (issOf t) t ≠ 0#32 ∧ (7#7 ≠ specPhold) ∧ portFree (.sysSrd 1#7 7#7 3#7) = true ∧ isK 1#7 = false ∧
      ∀ n, inMask (activeMask (issOf t) t) n = true → (readReg t n 3#7).toNat < specWords 7#7) ∧
    (Runs (.sysSrd 119#7 7#7 96#7) t ∧ isK 119#7 = true ∧ Runs (.sysSrd 127#7 7#7 96#7) t ∧ isW 127#7 = false ∧ isQ 127#7 = false ∧ isQ 96#7 = false ∧ (readReg t (lowSlot (activeMask (issOf t) t)) 96#7).toNat < specWords 7#7) ∧
    (Issues (.sysSrd 1#7 specPhold 127#7) (debugState t) (issOf t) t ∧ debugTrain (debugState t) t = true ∧ (readReg t 0 127#7).toNat < specWords specPhold) ∧
    (Runs (.sysSrd 120#7 2#7 127#7) p ∧ portFree (.sysSrd 120#7 2#7 127#7) = false ∧ isK 120#7 = false ∧ (readAny (stateOf p) p 0 127#7).toNat < specWords 2#7 ∧
      PortsReady (.sysSrd 120#7 2#7 127#7) 120#7 (specVal (stateOf p) (issOf p) p 0 2#7 0) (stateOf p) (issOf p) p 0) ∧
    (Runs (.sysSrd 1#7 7#7 4#7) h ∧ MayEnter (stateOf h) h ∧ isQ 4#7 = false ∧ (slotsOf (activeMask (issOf h) h)).head? = some 0 ∧ specWords 7#7 ≤ (readReg h 0 4#7).toNat) ∧
    (Runs (.sysSrd 1#7 specPhold 127#7) h ∧ isZ 127#7 = true ∧ debugTrain (stateOf h) h = false) ∧
    (Runs (.sysSwr 7#7 96#7 97#7) h ∧ specWords 7#7 ≤ (readReg h 0 97#7).toNat) ∧
    (Runs (.sysSwr specPhold 96#7 127#7) h ∧ (readReg h 0 127#7).toNat = 0) :=
  ⟨⟨runs_of (by decide +kernel), and4 (by decide +kernel) (all_mask (by decide +kernel))⟩,
   ⟨runs_of (by decide +kernel), by decide +kernel, runs_of (by decide +kernel), by decide +kernel⟩, ⟨issues_of (by decide +kernel), by decide +kernel⟩,
   ⟨runs_of (by decide +kernel), and3 (by decide +kernel) (ports_of (by decide +kernel))⟩,
   ⟨runs_of (by decide +kernel), enter_of (by decide +kernel), by decide +kernel⟩, ⟨runs_of (by decide +kernel), by decide +kernel⟩,
   ⟨runs_of (by decide +kernel), by decide +kernel⟩, runs_of (by decide +kernel), by decide +kernel⟩
/-- What the special registers hold where the model has a team and a context. -/
theorem witness_special_values : (findTeam (stateOf (oneOf [])) 1).isSome = true ∧ (findCtx (stateOf (oneOf [])) (ctxOf (stateOf (oneOf [])) (oneOf []))).isSome = true := by
  decide +kernel
/-- SpecialWrites: a write of thand, one of phold in a debug context; the end of a hold, and one that a later hold has put off. -/
theorem witness_SpecialWrites : let t := withK (oneOf []) [(0, 9)]
    let s := { stateOf t with hold := ⟨3#16, 100⟩ }
    (Runs (.sysSwr 16#7 96#7 127#7) t ∧ activeMask (issOf t) t ≠ 0#32 ∧ (readReg t 0 127#7).toNat < specWords 16#7 ∧ (16#7 ≠ specPhold)) ∧
    (Issues (.sysSwr specPhold 96#7 127#7) (debugState t) (issOf t) t ∧ debugTrain (debugState t) t = true) ∧ findTrain (stateOf t) t.uid = some t ∧
    s.hold.until_ ≤ 100 ∧ 99 < s.hold.until_ ∧ s.now < s.hold.until_ :=
  ⟨⟨runs_of (by decide +kernel), by decide +kernel⟩, ⟨issues_of (by decide +kernel), by decide +kernel⟩, by decide +kernel⟩
/-- FencesAndWaits: a fence with nothing before it; a store before it; a wait on scratch whose word differs, is equal. -/
theorem witness_FencesAndWaits : let t := oneOf []
    let u := { t with slots := { slotAt t 0 with st := .wait, wait := .fence .rel .die 1#32 } :: t.slots.drop 1 }
    let v := { t with slots := { slotAt t 0 with st := .wait, wait := .rel .die } :: t.slots.drop 1 }
    (Runs (.sysFence .full .sys) t ∧ activeMask (issOf t) t ≠ 0#32 ∧ ∀ n, inMask (activeMask (issOf t) t) n = true → fencePending (stateOf t) t.uid n .full .sys = false) ∧
    (Issues (.sysFence .rel .die) (withReqs t [storeReq t]) (issOf t) t ∧ inMask (activeMask (issOf t) t) 0 = true ∧ fencePending (withReqs t [storeReq t]) t.uid 0 .rel .die = true) ∧
    (findTrain (stateOf u) u.uid = some u ∧ u.halted = false ∧ u.slots.length = 32 ∧ (slotAt u 0).wait = .fence .rel .die 1#32) ∧
    (findTrain (withReqs v [storeReq t]) v.uid = some v ∧ (slotAt v 0).wait = .rel .die ∧ relPending (withReqs v [storeReq t]) v.uid 0 .die = true) :=
  ⟨⟨runs_of (by decide +kernel), by decide +kernel, all_mask (by decide +kernel)⟩, ⟨issues_of (by decide +kernel), by decide +kernel⟩, by decide +kernel⟩
/-- A team that holds 64 KiB of scratch at offset 0 and barrier objects at 0x10000. -/
def heldTeam : Team := { fetchTeam 1 with
  allocs := [⟨1, .scr, .keep, 0, 65536, 0⟩, ⟨2, .bobj, .keep, 65536, 4096, 0⟩], nb := 4, bobjs := [(0x10000, ⟨0, 0, 0, true⟩)] }
/-- The device of `stateOf` with that team. -/
def heldState (t : Train) : State := { stateOf t with teams := [heldTeam] }
/-- No slot makes the instruction of slot `n` again, and no request of it has come back with a fault. -/
def byB (s : State) (t : Train) (n : Nat) : Bool :=
  (List.range 32).all (fun k => k == n || (slotAt t k).again == 0 || (slotAt t k).again != insOf (slotAt t n) s.nextId) &&
    s.reqs.all (fun r => r.tr != t.uid || r.grp != insOf (slotAt t n) s.nextId || r.flt == 0)
theorem by_of {s : State} {t : Train} {n : Nat} (h : byB s t n = true) : ByItself s t n := by
  simp only [byB, Bool.and_eq_true, List.all_eq_true, List.mem_range, Bool.or_eq_true, beq_iff_eq, bne_iff_ne] at h
  refine ⟨fun k hk hn => ?_, fun r hr ht hg => ?_⟩
  · rcases h.1 k hk with (h | h) | h
    · exact absurd h hn
    · exact .inl h
    · exact .inr h
  · rcases h.2 r hr with (h | h) | h
    · exact absurd ht h
    · exact absurd hg h
    · exact h
/-- A read of a wait, where it has a value: it is not polled. -/
def waitsOn (s : State) (t : Train) (scr : Bool) (va : Addr) (npc : Pc) (first : Bool) (v : Word) : Bool :=
  match waitRead s t 0 scr va npc first with
  | (.val w _ p _, _) => decide (w = v) && p.isNone
  | _ => false
theorem wait_val {s : State} {t : Train} {scr : Bool} {va : Addr} {npc : Pc} {first : Bool} {v : Word}
    (h : waitsOn s t scr va npc first v = true) : ∃ keys l s1, waitRead s t 0 scr va npc first = (.val v keys none l, s1) := by
  unfold waitsOn at h
  split at h
  · rename_i heq
    simp only [Bool.and_eq_true, decide_eq_true_eq, Option.isNone_iff_eq_none] at h
    obtain ⟨rfl, rfl⟩ := h
    exact ⟨_, _, _, heq⟩
  · simp at h
@[inherit_doc witness_FencesAndWaits] theorem witness_waits : let t := oneOf [(3, 1)]
    let s0 := fun (t : Train) => { heldState t with nextId := (heldState t).nextId + 1 }
    let u := { t with slots := { slotAt t 0 with st := .wait, wait := .watch true [] 0#80 0#64 none } :: t.slots.drop 1 }
    (Issues (.sysWaitw true 0#3 3#7) (heldState t) (issOf t) t ∧ slotsOf (activeMask (issOf t) t) = [0] ∧
      portStop (issOf t) (s0 t, []) t 0 (popPorts (.sysWaitw true 0#3 3#7)) none = none ∧
      (∃ keys l s1, waitRead (s0 t) t 0 true (readA t 0 0#3) (nextPc (issOf t)) true = (.val 0#64 keys none l, s1)) ∧
      lateBad (heldState t) t.uid (insOf (slotAt t 0) (heldState t).nextId) = [] ∧ 0#64 ≠ readAny (heldState t) t 0 3#7 ∧ 0#64 = readAny (heldState t) t 0 127#7) ∧
    (findTrain (heldState u) u.uid = some u ∧ u.halted = false ∧ u.trap = none ∧ (slotAt u 0).wait = .watch true [] 0#80 0#64 none ∧
      ∃ keys l s1, waitRead (heldState u) u 0 true 0#80 (slotAt u 0).npc false = (.val 0#64 keys none l, s1)) :=
  ⟨⟨issues_of (by decide +kernel), by decide +kernel, by decide +kernel, wait_val (by decide +kernel), by decide +kernel⟩, and4 (by decide +kernel) (wait_val (by decide +kernel))⟩
/-- A prologue run. -/
def prologueTrain : Train := { oneOf [] with prol := some (3, 0, 0, 0) }
/-- LaunchesFromPrograms: a queue with 63 descriptors, and a full one; on a core; a prologue run. -/
theorem witness_LaunchesFromPrograms : let t := withK (oneOf []) [(0, 64)]
    let h := handled (oneOf [])
    let s := fun (n : Nat) => { stateOf t with ctxs := [{ fetchCtx with dlq := List.replicate n (0#64, 0) }] }
    (Issues (.sysDlaunch 96#7) (s 63) (issOf t) t ∧ activeMask (issOf t) t ≠ 0#32 ∧ findCtx (s 63) (ctxOf (s 63) t) = some { fetchCtx with dlq := List.replicate 63 (0#64, 0) } ∧
      findTeam (s 63) t.team = some (fetchTeam 1) ∧ (readReg t 0 96#7).toNat % 64 = 0 ∧ unackedWrites (s 63) t.uid = [] ∧ (List.replicate 63 (0#64, 0)).length < 64) ∧
    (Issues (.sysDlaunch 96#7) (s 64) (issOf t) t ∧ 64 ≤ (List.replicate 64 ((0#64 : Word), 0)).length) ∧
    (activeMask (issOf h) h ≠ 0#32 ∧ MayEnter (stateOf h) h ∧ Runs .sysLcommit h ∧ Runs .sysLcancel h ∧ Runs .sysLrepeat h) ∧
    (Runs .sysLcancel prologueTrain ∧ activeMask (issOf prologueTrain) prologueTrain ≠ 0#32 ∧ prologueTrain.prol = some (3, 0, 0, 0)) :=
  ⟨⟨issues_of (by decide +kernel), by decide +kernel⟩, ⟨issues_of (by decide +kernel), by decide +kernel⟩,
   ⟨by decide +kernel, enter_of (by decide +kernel), runs_of (by decide +kernel), runs_of (by decide +kernel), runs_of (by decide +kernel)⟩,
   runs_of (by decide +kernel), by decide +kernel⟩

/-! The ctl family. -/

theorem place_some (tick : Nat) : ∃ b, placeRange tick (fetchTeam 1) 256 = some b := by
  by_cases h : rangeFree (fetchTeam 1) (256 * (Config.placeChoice tick 32768 % 32768)) 256 = true
  · exact ⟨_, by simp only [placeRange, h]; rfl⟩
  · exact ⟨0, by simp only [placeRange, h]; rfl⟩
/-- A neighbour team that holds all but 31 KiB of the core's store. -/
def fullState (t : Train) : State := { stateOf t with teams := [fetchTeam 1, { fetchTeam 5 with allocs := [⟨1, .scr, .keep, 0, 8323072, 0⟩] }] }
/-- Allocations: a size out of range and one below the window base; the smallest and the largest; a place; a core without
room; a handle that is none, and one that is. -/
theorem witness_Allocations : let t := withK (oneOf []) [(0, 32), (1, 1), (2, 1024), (3, 65537)]
    let h := handled t
    let w := { h with B := 96 }
    (Runs (.ctlOsalloc 1#7 99#7 .bobj .keep) h ∧ activeMask (issOf h) h ≠ 0#32 ∧ findTeam (stateOf h) h.team = some (fetchTeam 1) ∧
      allocFault (stateOf h) h (fetchTeam 1) .bobj (readReg h 0 99#7).toNat = some (5, 0) ∧ MayEnter (stateOf h) h) ∧
    (Runs (.ctlOsalloc 1#7 96#7 .reg .keep) w ∧ allocFault (stateOf w) w (fetchTeam 1) .reg (readReg w 0 96#7).toNat = some (1, 3) ∧ MayEnter (stateOf w) w) ∧
    (Runs (.ctlOsalloc 1#7 96#7 .reg .keep) t ∧ allocFault (stateOf t) t (fetchTeam 1) .reg (readReg t 0 96#7).toNat = none ∧
      allocBytes .reg (readReg t 0 96#7).toNat ≤ t.A * 256 + coreFree (stateOf t) t.core) ∧
    (Runs (.ctlOsalloc 97#7 97#7 .scr (.strict 4)) t ∧ allocFault (stateOf t) t (fetchTeam 1) .scr (readReg t 0 97#7).toNat = none ∧
      AllocKind.scr ≠ .reg ∧ allocBytes .scr (readReg t 0 97#7).toNat = 256 ∧ 256 ≤ coreFree (stateOf t) t.core ∧ ∃ b, placeRange (stateOf t).tick (fetchTeam 1) 256 = some b) ∧
    (Issues (.ctlOsalloc 1#7 98#7 .reg .keep) (fullState t) (issOf t) t ∧ findTeam (fullState t) t.team = some (fetchTeam 1) ∧
      allocFault (fullState t) t (fetchTeam 1) .reg (readReg t 0 98#7).toNat = none ∧ t.A * 256 + coreFree (fullState t) t.core < allocBytes .reg (readReg t 0 98#7).toNat) :=
  ⟨⟨runs_of (by decide +kernel), and3 (by decide +kernel) (enter_of (by decide +kernel))⟩,
   ⟨runs_of (by decide +kernel), by decide +kernel, enter_of (by decide +kernel)⟩,
   ⟨runs_of (by decide +kernel), by decide +kernel⟩,
   ⟨runs_of (by decide +kernel), and4 (by decide +kernel) (place_some _)⟩,
   issues_of (by decide +kernel), by decide +kernel⟩
@[inherit_doc witness_Allocations] theorem witness_frees : let t := withK (oneOf []) [(0, 2 ^ 40 + 2 ^ 32), (1, 5)]
    let h := handled t
    (Issues (.ctlOsfree 96#7) (heldState t) (issOf t) t ∧ activeMask (issOf t) t ≠ 0#32 ∧ findTeam (heldState t) t.team = some heldTeam ∧
      heldTeam.allocs.find? (fun x => handleOf x == readReg t 0 96#7) = some ⟨1, .scr, .keep, 0, 65536, 0⟩ ∧ teamCmds (heldState t) heldTeam.id = [] ∧ teamTasks (heldState t) heldTeam.id = []) ∧
    (Issues (.ctlOsfree 97#7) (heldState h) (issOf h) h ∧ (∀ x ∈ heldTeam.allocs, handleOf x ≠ readReg h 0 97#7) ∧ MayEnter (heldState h) h) :=
  ⟨⟨issues_of (by decide +kernel), by decide +kernel⟩, issues_of (by decide +kernel), by decide +kernel, enter_of (by decide +kernel)⟩
/-- NamedBarriers: the last barrier of the team, by the whole team and by a count of one; the first number beyond it. -/
theorem witness_NamedBarriers : let t := withK (oneOf []) [(0, 1)]
    let h := handled t
    (findTeam (heldState t) t.team = some heldTeam ∧ activeMask (issOf t) t ≠ 0#32 ∧ (∀ x ∈ t.slots, x.wait = .none) ∧
      Issues (.ctlBar 3#6 127#7) (heldState t) (issOf t) t ∧ barFault (heldState t) t heldTeam (activeMask (issOf t) t) 3 (some (barCount t 127#7)) = none ∧
      ∀ n < 32, relPending (heldState t) t.uid n .core = false) ∧
    (Issues (.ctlBarr 3#6 96#7) (heldState t) (issOf t) t ∧ barFault (heldState t) t heldTeam (activeMask (issOf t) t) 3 (some (barCount t 96#7)) = none) ∧
    (Issues (.ctlBar 4#6 127#7) (heldState h) (issOf h) h ∧ barFault (heldState h) h heldTeam (activeMask (issOf h) h) 4 (some (barCount h 127#7)) = some 6 ∧ MayEnter (heldState h) h) ∧
    (Issues (.ctlBarw 3#6) (heldState t) (issOf t) t ∧ 3 < heldTeam.nb ∧ activeMask (issOf t) t = liveMask t) :=
  ⟨(and3 (by decide +kernel) ⟨issues_of (by decide +kernel), by decide +kernel⟩),
   ⟨issues_of (by decide +kernel), by decide +kernel⟩, ⟨issues_of (by decide +kernel), by decide +kernel, enter_of (by decide +kernel)⟩,
   issues_of (by decide +kernel), by decide +kernel⟩
/-- The device of `stateOf` with the page of offset 0x10000 in the translation buffer of its core. -/
def tlbState (t : Train) : State :=
  let s := stateOf t
  match walkPage s fetchCtx 0 1 with
  | .ok l => { s with cores := [(0, { Core.reset with tlb := [tlbOf 0 0 1 l] })] }
  | _ => s
/-- The locations that a lookup gives, where it changes nothing. -/
def looks (s : State) (t : Train) (a : Addr) (n acc : Nat) : Option (List (Nat × Nat)) :=
  match devLook s t (slotAt t 0) a n acc with
  | (.ok kv, s') => if s' = s then some kv else none
  | _ => none
theorem look_ok {s : State} {t : Train} {a : Addr} {n acc : Nat} {kv : List (Nat × Nat)} (h : looks s t a n acc = some kv) :
    devLook s t (slotAt t 0) a n acc = (.ok kv, s) := by
  unfold looks at h
  split at h
  · rename_i heq
    split at h
    · next hs => cases h; rw [heq, hs]
    · cases h
  · cases h
/-- The refusal that a lookup gives, where it changes nothing. -/
def looksBad (s : State) (t : Train) (a : Addr) (n acc : Nat) : Option (Nat × Nat) :=
  match devLook s t (slotAt t 0) a n acc with
  | (.bad ty l, s') => if s' = s then some (ty, l) else none
  | _ => none
theorem look_bad {s : State} {t : Train} {a : Addr} {n acc ty l : Nat} (h : looksBad s t a n acc = some (ty, l)) :
    devLook s t (slotAt t 0) a n acc = (.bad ty l, s) := by
  unfold looksBad at h
  split at h
  · rename_i heq
    split at h
    · next hs => cases h; rw [heq, hs]
    · cases h
  · cases h
/-- A slot with an address register. -/
def withA (t : Train) (a : Nat) : Train := { t with slots := { slotAt t 0 with areg := [(1, BitVec.ofNat 80 a)] } :: t.slots.drop 1 }
/-- Migration: an address on the train's own die; a train with an allocation; one that waits, is granted, times out with a slot
free and with none, lands. -/
theorem witness_Migration : let t := withA (oneOf []) 0x10000
    let h := handled t
    let w := { t with migr := .waiting 0, lastIss := 7 }
    let f := { t with migr := .waiting 1 }
    let r := { t with migr := .transit 5 9 }
    (Issues (.ctlMigr 1#3) (tlbState t) (issOf t) t ∧ activeMask (issOf t) t ≠ 0#32 ∧ findTeam (tlbState t) t.team = some (fetchTeam 1) ∧
      activeMask (issOf t) t = liveMask t ∧ trainsLeft (tlbState t) (fetchTeam 1).id ≤ 1 ∧ (fetchTeam 1).allocs = [] ∧ (fetchTeam 1).nb = 0 ∧ t.ports = [] ∧
      devLook (tlbState t) t (slotAt t 0) (readA t 0 1#3) 1 accRead = (.ok [(2097152, 1)], tlbState t) ∧ homeDie 2097152 = dieOf t.core) ∧
    (Issues (.ctlMigr 1#3) (heldState h) (issOf h) h ∧ findTeam (heldState h) h.team = some heldTeam ∧ heldTeam.allocs ≠ [] ∧ MayEnter (heldState h) h) ∧
    (findTrain (stateOf w) w.uid = some w ∧ w.slots.length = 32 ∧ w.migr = .waiting 0 ∧ mooringCore (stateOf w) 0 (w.A * 256) = some 1 ∧ w.lastIss + 4800 = 4807 ∧
      mooringCore (atTime (stateOf w) 4807) 0 (w.A * 256) = some 1) ∧
    (findTrain ({ stateOf f with cores := (dieCores 1).map (fun c => (c, { Core.reset with fenced := true })) }) f.uid = some f ∧
      mooringCore ({ stateOf f with cores := (dieCores 1).map (fun c => (c, { Core.reset with fenced := true })) }) 1 (f.A * 256) = none ∧
      f.lastIss + 4800 = 4800 ∧
      mooringCore (atTime { stateOf f with cores := (dieCores 1).map (fun c => (c, { Core.reset with fenced := true })) } 4800) 1 (f.A * 256) = none) ∧
    (findTrain (stateOf r) r.uid = some r ∧ r.migr = .transit 5 9 ∧ unackedWrites (stateOf r) r.uid = []) :=
  ⟨⟨issues_of (by decide +kernel), and7 (by decide +kernel) ⟨look_ok (by decide +kernel), by decide +kernel⟩⟩, ⟨issues_of (by decide +kernel), by decide +kernel, by decide, enter_of (by decide +kernel)⟩, by decide +kernel⟩
/-- A page homed on die 1: the migration that leaves. -/
def farState (t : Train) : State :=
  let s := tlbState t
  { s with cores := s.cores.map (fun p => (p.1, { p.2 with tlb := p.2.tlb.map (fun e => { e with leaf := e.leaf + BitVec.ofNat 64 (2 ^ 38) }) })) }
@[inherit_doc witness_Migration] theorem witness_far_home : let t := withA (oneOf []) 0x10000
    Issues (.ctlMigr 1#3) (farState t) (issOf t) t ∧
    devLook (farState t) t (slotAt t 0) (readA t 0 1#3) 1 accRead = (.ok [(2 ^ 38 + 2097152, 1)], farState t) ∧
    ¬(2 ^ 52 ≤ 2 ^ 38 + 2097152 ∨ homeDie (2 ^ 38 + 2097152) = dieOf t.core ∨ (farState t).corAlive.getLsbD (homeDie (2 ^ 38 + 2097152)) = false) :=
  ⟨issues_of (by decide +kernel), look_ok (by decide +kernel), by decide +kernel⟩
/-- WindowPriorityAndPorts: the last base that is allocated, and the first beyond; a port not bound, bound, inside an item. -/
theorem witness_WindowPriorityAndPorts : let t := withK (oneOf []) [(0, 2 ^ 61), (1, 7), (2, 2 ^ 63)]
    let h := handled t
    let p := { h with ports := [(0, .copyCmd)], slots := { slotAt h 0 with qpart := [(0, [5#64])] } :: h.slots.drop 1 }
    let m := activeMask (issOf h) h
    (Runs (.ctlWin 3#5) t ∧ 32 * 3 < t.A ∧ Runs (.ctlWin 4#5) h ∧ h.A ≤ 32 * 4 ∧ MayEnter (stateOf h) h ∧ Runs (.ctlPrio 15#4) t ∧ Runs (.ctlPrio 15#4) { t with inHand := true }) ∧
    (m ≠ 0#32 ∧ Runs (.ctlQbind 126#7 97#7) h ∧ bindOf (stateOf h) h (readReg h 0 97#7) = none) ∧
    (Runs (.ctlQbind 126#7 96#7) t ∧ bindOf (stateOf t) t (readReg t 0 96#7) = some .copyCmd ∧ afind t.ports (portOf 126#7) = none) ∧
    (Runs (.ctlQbind 120#7 96#7) p ∧ bindOf (stateOf p) p (readReg p 0 96#7) = some .copyCmd ∧ afind p.ports (portOf 120#7) ≠ none ∧ MayEnter (stateOf p) p) ∧
    (Runs (.ctlQunbind 120#7) p ∧ (∃ x ∈ p.slots, partOf x (portOf 120#7) ≠ [])) ∧
    (Runs (.ctlQunbind 121#7) t ∧ ∀ x ∈ t.slots, partOf x (portOf 121#7) = [] ∧ x.wait ≠ .port (portOf 121#7)) ∧
    (Runs (.ctlQlen 1#7 120#7) p ∧ isQ 1#7 = false ∧ afind p.ports (portOf 120#7) = some .copyCmd ∧ afind t.ports (portOf 126#7) = none) ∧
    (afind portTrain.ports (portOf 121#7) = some (.completions 0 4) ∧ portTrain.compl.length < 2 ^ 24) :=
  ⟨⟨runs_of (by decide +kernel), by decide +kernel, runs_of (by decide +kernel), by decide +kernel, enter_of (by decide +kernel), runs_of (by decide +kernel), runs_of (by decide +kernel)⟩,
   ⟨by decide +kernel, runs_of (by decide +kernel), by decide +kernel⟩, ⟨runs_of (by decide +kernel), by decide +kernel⟩,
   ⟨runs_of (by decide +kernel), by decide +kernel, by decide +kernel, enter_of (by decide +kernel)⟩, ⟨runs_of (by decide +kernel), by decide +kernel⟩,
   ⟨runs_of (by decide +kernel), by decide +kernel⟩, ⟨runs_of (by decide +kernel), by decide +kernel⟩, by decide +kernel⟩

/-! Memory accesses. -/

def rdOk : Rd → Bool
  | .ok _ => true
  | _ => false
theorem rd_ok {r : Rd} (h : rdOk r = true) : ∃ bs, r = .ok bs := by
  cases r with
  | ok bs => exact ⟨bs, rfl⟩
  | bad d => simp [rdOk] at h
def exOk {α β : Type} : Except α β → Bool
  | .ok _ => true
  | _ => false
theorem ex_ok {α β : Type} {r : Except α β} (h : exOk r = true) : ∃ b, r = .ok b := by
  cases r with
  | ok b => exact ⟨b, rfl⟩
  | error a => simp [exOk] at h
/-- Locations of `n` bytes of the page at offset 0x10000. -/
def kvOf (off n : Nat) : List (Nat × Nat) := (List.range n).map (fun j => (2097152 + off + j, 1))
/-- Loads: the last pair of scratch; from memory the last byte of the page, and with an index that is popped. -/
theorem witness_Loads : let t := withA (oneOf []) 65520
    let u := withA (oneOf []) 131071
    let p := { withA (oneOf []) 0x10000 with ports := [(1, .completions 0 4)], compl := [7#64] }
    (Issues (.ld .b128 true .plain 94#7 1#3 0#28) (heldState t) (issOf t) t ∧ portFree (.ld .b128 true .plain 94#7 1#3 0#28) = true ∧ t.prol = none ∧
      findTeam (heldState t) t.team = some heldTeam ∧ heldTeam.scond = [] ∧ activeMask (issOf t) t ≠ 0#32 ∧
      ∀ n ∈ accSlots (isK 94#7) (activeMask (issOf t) t), inScratch heldTeam (addrOff (effAddr t n 1#3 0#64)) 16 = true ∧
        (∀ l ∈ linesOf (addrOff (effAddr t n 1#3 0#64)) 16, lineAbsent heldTeam l = false) ∧
        ∀ j < 16, expired (heldState t).now heldTeam ((addrOff (effAddr t n 1#3 0#64) + j) / 256) = none) ∧
    (Issues (.ld .b8 false .plain 119#7 1#3 0#28) (tlbState u) (issOf u) u ∧ u.prol = none ∧ activeMask (issOf u) u ≠ 0#32 ∧
      lineLoad (tlbState u) u.core + 2 * (accSlots (isK 119#7) (activeMask (issOf u) u)).length ≤ 4096 ∧ isQ 119#7 = false ∧
      popPorts (.ld .b8 false .plain 119#7 1#3 0#28) = [] ∧
      ∀ n ∈ accSlots (isK 119#7) (activeMask (issOf u) u), devLook (tlbState u) u (slotAt u n) (effAddr u n 1#3 0#64) 1 accRead = (.ok (kvOf 65535 1), tlbState u)) ∧
    (Issues (.ldx .b64 false .plain 1#7 1#3 121#7 0#7) (tlbState p) (issOf p) p ∧ popPorts (.ldx .b64 false .plain 1#7 1#3 121#7 0#7) = [1] ∧
      slotsOf (activeMask (issOf p) p) = [0] ∧ (popChk (tlbState p) p 0 1).1 = .ok ∧ lowerWaits (tlbState p) p.uid 0 (issOf p).start (parkCount (issOf p) (slotAt p 0)) = false ∧
      devLook (tlbState p) p (slotAt p 0) (effAddr p 0 1#3 (readAny (tlbState p) p 0 121#7 * 8#64)) 8 accRead = (.ok (kvOf 56 8), tlbState p)) ∧
    (addrOff 0x1003F#80 % 64 + 1 ≤ 64 ∧ (kvOf 63 1).length = 1 ∧ isOrdered .plain = false) :=
  ⟨⟨issues_of (by decide +kernel), by decide +kernel⟩, ⟨issues_of (by decide +kernel), and5 (by decide +kernel) (fun n hn => by
        have h : n = 0 := (by decide +kernel : ∀ n ∈ accSlots (isK 119#7) (activeMask (issOf (withA (oneOf []) 131071)) (withA (oneOf []) 131071)), n = 0) n hn
        subst h
        exact look_ok (by decide +kernel))⟩,
   ⟨issues_of (by decide +kernel), and4 (by decide +kernel) (look_ok (by decide +kernel))⟩, by decide +kernel⟩
/-- The first read of a wait has still to go out. -/
def waitsOwn (s : State) (t : Train) (va : Addr) (npc : Pc) : Bool :=
  match waitRead s t 0 false va npc true with
  | (.own k, _) => k.isNone
  | _ => false
theorem wait_own {s : State} {t : Train} {va : Addr} {npc : Pc} (h : waitsOwn s t va npc = true) :
    ∃ s1, waitRead s t 0 false va npc true = (.own none, s1) := by
  unfold waitsOwn at h
  split at h
  · rename_i heq
    rw [Option.isNone_iff_eq_none] at h
    subst h
    exact ⟨_, heq⟩
  · simp at h
/-- FencesAndWaits: a store of the slot itself to the word that it waits for is on its way. -/
theorem witness_waits_own : let t := withA (oneOf []) 0x10040
    let s := { tlbState t with reqs := [storeReq t], nextId := 10 }
    let s0 := { s with nextId := s.nextId + 1 }
    Issues (.sysWaitw false 1#3 3#7) s (issOf t) t ∧ slotsOf (activeMask (issOf t) t) = [0] ∧
      portStop (issOf t) (s0, []) t 0 (popPorts (.sysWaitw false 1#3 3#7)) none = none ∧ lateBad s t.uid (insOf (slotAt t 0) s.nextId) = [] ∧
      ∃ s1, waitRead s0 t 0 false (readA t 0 1#3) (nextPc (issOf t)) true = (.own none, s1) :=
  ⟨issues_of (by decide +kernel), by decide +kernel, by decide +kernel, by decide +kernel, wait_own (by decide +kernel)⟩
/-- Stores: the last pair of scratch, by a release; memory; poison in scratch and in memory, and outside a debug context. -/
theorem witness_Stores : let t := withA (oneOf []) 65520
    let u := withA (oneOf []) 0x10000
    let v := withA (oneOf []) 65504
    let d := { heldState v with ctxs := (debugState v).ctxs }
    (Issues (.st .b128 true (.ordered .core) 94#7 1#3 0#28) (heldState t) (issOf t) t ∧ portFree (.st .b128 true (.ordered .core) 94#7 1#3 0#28) = true ∧
      t.prol = none ∧ findTeam (heldState t) t.team = some heldTeam ∧ activeMask (issOf t) t ≠ 0#32 ∧
      ∀ n ∈ accSlots (isK 94#7) (activeMask (issOf t) t), inScratch heldTeam (addrOff (effAddr t n 1#3 0#64)) 16 = true ∧
        (∀ l ∈ linesOf (addrOff (effAddr t n 1#3 0#64)) 16, lineAbsent heldTeam l = false) ∧ relPending (heldState t) t.uid n .core = false) ∧
    (Issues (.st .b64 false .plain 1#7 1#3 0#28) (tlbState u) (issOf u) u ∧ portFree (.st .b64 false .plain 1#7 1#3 0#28) = true ∧
      lineLoad (tlbState u) u.core + 2 * (accSlots (isK 1#7) (activeMask (issOf u) u)).length ≤ 4096 ∧ accSlots (isK 1#7) (activeMask (issOf u) u) = [0] ∧
      devLook (tlbState u) u (slotAt u 0) (effAddr u 0 1#3 0#64) 8 accWrite = (.ok (kvOf 0 8), tlbState u) ∧ addrOff (effAddr u 0 1#3 0#64) % 64 + 8 ≤ 64 ∧ (kvOf 0 8).length = 8) ∧
    (Runs (.stPoison true .plain 1#3 0#28) (handled t) ∧ slotsOf (activeMask (issOf (handled t)) (handled t)) = [0] ∧ debugTrain (stateOf (handled t)) (handled t) = false ∧
      MayEnter (stateOf (handled t)) (handled t)) ∧
    (Issues (.stPoison true .plain 1#3 0#28) d (issOf v) v ∧ debugTrain d v = true ∧ addrOff (effAddr v 0 1#3 0#64) % 32 = 0 ∧ findTeam d v.team = some heldTeam ∧
      scrCheck (issOf v) heldTeam (effAddr v 0 1#3 0#64) 32 = none) ∧
    (Issues (.stPoison false .plain 1#3 0#28) { tlbState u with ctxs := (debugState u).ctxs } (issOf u) u ∧
      devLook { tlbState u with ctxs := (debugState u).ctxs } u (slotAt u 0) (effAddr u 0 1#3 0#64) 32 accWrite = (.ok (kvOf 0 32), { tlbState u with ctxs := (debugState u).ctxs })) :=
  ⟨⟨issues_of (by decide +kernel), by decide +kernel⟩, ⟨issues_of (by decide +kernel), and3 (by decide +kernel) ⟨look_ok (by decide +kernel), by decide +kernel⟩⟩,
   ⟨runs_of (by decide +kernel), by decide +kernel, by decide +kernel, enter_of (by decide +kernel)⟩,
   ⟨issues_of (by decide +kernel), by decide +kernel⟩, issues_of (by decide +kernel), look_ok (by decide +kernel)⟩
/-- Atomics: the largest operands; the last 16 bytes of scratch; the first word of the page. -/
theorem witness_Atomics : let t := withA (oneOf []) 65520
    let u := withA (oneOf []) 0x10000
    (2 ^ 128 - 1 < 2 ^ (8 * atomBytes .a128) ∧ 2 ^ 32 - 1 < 2 ^ (8 * atomBytes .a32)) ∧
    (Issues (.atomCas .a128 .scratch true 94#7 1#3 93#7) (heldState t) (issOf t) t ∧ portFree (.atomCas .a128 .scratch true 94#7 1#3 93#7) = true ∧
      slotsOf (activeMask (issOf t) t) = [0] ∧ addrOff (readA t 0 1#3) % atomBytes .a128 = 0 ∧ findTeam (heldState t) t.team = some heldTeam ∧
      scrCheck (issOf t) heldTeam (readA t 0 1#3) 16 = none ∧ heldTeam.scond = [] ∧ ∀ j < 16, expired (heldState t).now heldTeam ((addrOff (readA t 0 1#3) + j) / 256) = none) ∧
    (Issues (.atomFadd .a64 (.dev .sys) false 0#7 1#3 95#7) (tlbState u) (issOf u) u ∧ portFree (.atomFadd .a64 (.dev .sys) false 0#7 1#3 95#7) = true ∧
      lineLoad (tlbState u) u.core < 4096 ∧ addrOff (readA u 0 1#3) % atomBytes .a64 = 0 ∧
      devLook (tlbState u) u (slotAt u 0) (readA u 0 1#3) 8 accAtomic = (.ok (kvOf 0 8), tlbState u)) :=
  ⟨by decide, ⟨issues_of (by decide +kernel), by decide +kernel⟩, issues_of (by decide +kernel), and3 (by decide +kernel) (look_ok (by decide +kernel))⟩
/-- What a translation answers. -/
def trKv (r : Except (Nat × Nat) (List (Nat × Nat))) : List (Nat × Nat) :=
  match r with
  | .ok kv => kv
  | .error _ => []
def trErr (r : Except (Nat × Nat) (List (Nat × Nat))) : Option (Nat × Nat) :=
  match r with
  | .ok _ => none
  | .error e => some e
/-- AccessFaults: a page that is not mapped, after its walk; the first byte beyond scratch; a misaligned atomic; a prologue, where memory is
sound, in error, far, not mapped, and one whose span is the wake window. -/
theorem witness_AccessFaults : let t0 := handled (withA (oneOf []) 0x20000)
    let t := { t0 with slots := { slotAt t0 0 with walked := true } :: t0.slots.drop 1 }
    let u := handled (withA (oneOf []) 65536)
    let m := handled (withA (oneOf []) 2)
    let p := { withA (oneOf []) 0x10000 with prol := some (3, 0, 0, 0) }
    let q := { withA (oneOf []) 4088 with prol := some (3, 0, 0, 0) }
    let wk := { stateOf q with mem := csetAll (stateOf q).mem 0x140000 (bytesN 16 (0x10 * 2 ^ 80 + 4)) }
    let e := { withA (oneOf []) 0x20000 with prol := some (3, 0, 0, 0) }
    let pb := { stateOf p with mcond := [(65536, .bad)] }
    let pf := { stateOf p with mem := csetAll (stateOf p).mem 0x140000 (bytesN 16 (0x10 * 2 ^ 80 + 2)) }
    let pl := fun (t : Train) (s : State) => transNow s (ctxOf s t) (addrSpan (effAddr t 0 1#3 0#64)) (addrOff (effAddr t 0 1#3 0#64)) 8 accWrite
    (slotsOf (activeMask (issOf t) t) = [0] ∧ t.prol = none ∧ MayEnter (stateOf t) t ∧ ByItself (stateOf t) t 0 ∧ Runs (.ld .b64 false .plain 1#7 1#3 0#28) t ∧ Runs (.st .b64 false .plain 1#7 1#3 0#28) t ∧
      lineLoad (stateOf t) t.core + 2 ≤ 4096 ∧ devLook (stateOf t) t (slotAt t 0) (effAddr t 0 1#3 0#64) 8 accRead = (.bad 1 3, stateOf t) ∧
      devLook (stateOf t) t (slotAt t 0) (effAddr t 0 1#3 0#64) 8 accWrite = (.bad 1 3, stateOf t)) ∧
    (Issues (.ld .b8 true .plain 1#7 1#3 0#28) (heldState u) (issOf u) u ∧ Issues (.st .b8 true .plain 1#7 1#3 0#28) (heldState u) (issOf u) u ∧ MayEnter (heldState u) u ∧ ByItself (heldState u) u 0 ∧
      portFree (.ld .b8 true .plain 1#7 1#3 0#28) = true ∧ findTeam (heldState u) u.team = some heldTeam ∧ inScratch heldTeam (addrOff (effAddr u 0 1#3 0#64)) 1 = false) ∧
    (Runs (.atomAdd .a32 (.dev .dev) true 1#7 1#3 2#7) m ∧ MayEnter (stateOf m) m ∧ ByItself (stateOf m) m 0 ∧ (findTeam (stateOf m) m.team).isSome = true ∧ lineLoad (stateOf m) m.core < 4096 ∧
      addrOff (readA m 0 1#3) % atomBytes .a32 ≠ 0) ∧
    (Runs (.ld .b64 false .plain 1#7 1#3 0#28) p ∧ Runs (.st .b64 false .plain 1#7 1#3 0#28) p ∧ p.prol.isSome = true ∧ activeMask (issOf p) p ≠ 0#32 ∧
      exOk (pl p (stateOf p)) = true ∧ (∀ x ∈ trKv (pl p (stateOf p)), x.1 < 2 ^ 52 ∧ aget HalfCond.clean (stateOf p).mcond (x.1 / 32) ≠ .bad) ∧
      wakeSpan (stateOf p) (ctxOf (stateOf p) p) (addrSpan (effAddr p 0 1#3 0#64)) = false ∧
      (∀ x ∈ trKv (pl p pb), x.1 < 2 ^ 52) ∧ (∃ x ∈ trKv (pl p pb), aget HalfCond.clean pb.mcond (x.1 / 32) = .bad) ∧
      (∃ x ∈ trKv (pl p pf), 2 ^ 52 ≤ x.1) ∧ trErr (pl e (stateOf e)) = some (1, 3)) ∧
    (Issues (.st .b64 false .plain 1#7 1#3 0#28) wk (issOf q) q ∧ wakeSpan wk (ctxOf wk q) (addrSpan (effAddr q 0 1#3 0#64)) = true ∧ stBytes .b64 = 8 ∧
      addrOff (effAddr q 0 1#3 0#64) % 8 = 0 ∧ addrOff (effAddr q 0 1#3 0#64) < 4096) :=
  ⟨⟨by decide +kernel, by decide +kernel, enter_of (by decide +kernel), by_of (by decide +kernel), runs_of (by decide +kernel), runs_of (by decide +kernel), by decide +kernel, look_bad (by decide +kernel), look_bad (by decide +kernel)⟩,
   ⟨issues_of (by decide +kernel), issues_of (by decide +kernel), enter_of (by decide +kernel), by_of (by decide +kernel), by decide +kernel⟩,
   ⟨runs_of (by decide +kernel), enter_of (by decide +kernel), by_of (by decide +kernel), by decide +kernel⟩, ⟨runs_of (by decide +kernel), runs_of (by decide +kernel), by decide +kernel⟩,
   issues_of (by decide +kernel), by decide +kernel⟩
/-- LoadReplies: the reply of a load that nothing holds back, read from the die and from the home. -/
theorem witness_LoadReplies : let t := oneOf []
    let r := loadReq t
    let g := { r with ord := .strong .dev }
    (findReq (withReqs t [r]) r.id = some r ∧ r.kind = .load .b8 0 none ∧ findTrain (withReqs t [r]) r.tr = some t ∧ t.slots.length = 32 ∧ r.slot < 32 ∧
      loadBlocked (withReqs t [r]) r = false ∧ homeLoad r = false ∧ (∃ bs, readDie (withReqs t [r]) (dieOf r.core) (r.keys.zip r.keyIds) = .ok bs) ∧ (∀ n, r.dst ≠ .q n)) ∧
    (findReq (withReqs t [g]) g.id = some g ∧ loadBlocked (withReqs t [g]) g = false ∧ homeLoad g = true ∧ ∃ bs, readHome (withReqs t [g]) (g.keys.zip g.keyIds) = .ok bs) :=
  ⟨(and7 (by decide +kernel) ⟨rd_ok (by decide +kernel), fun n => by simp [loadReq, mkReq]⟩), and3 (by decide +kernel) (rd_ok (by decide +kernel))⟩
/-- A step answers a next state. -/
def nextOk (o : Host.Outcome State Fault Refusal) : Bool :=
  match o with
  | .next _ => true
  | _ => false
/-- WritesTravel: a write that enters near and far, at its home, with poison, over a crossing and held there, to its
acknowledgement; an atomic at its home, and its reply. -/
theorem witness_WritesTravel : let t := oneOf []
    let r := storeReq t
    let f := { r with keys := [2 ^ 38] }
    let h := { r with stage := .home }
    let p := { h with kind := .poison }
    let lp := { h with link := .poison }
    let a := { h with kind := .atom .add .a32 1#128 0#128 true 0#128, keys := (kvOf 0 4).map (·.1), keyIds := [1, 1, 1, 1], dst := .w 1 false }
    let d := { a with stage := .applied }
    let al := { a with link := .poison }
    let lb := { f with link := .bad }
    let ls := { f with link := .single 271 }
    let x := { withReqs t [r] with xings := [((0, 1), [.write 9])] }
    let w := { x with hold := ⟨2#16, 5⟩ }
    let y := { withReqs t [d] with xings := [((0, 1), [.ack 9])] }
    (findReq (withReqs t [r]) 9 = some r ∧ isWrite r = true ∧ r.stage = .fresh ∧ freshBlocked (withReqs t [r]) r = false ∧ reqHome r = dieOf r.core ∧ reqHome f ≠ dieOf f.core ∧
      findReq (withReqs t [f]) 9 = some f ∧ freshBlocked (withReqs t [f]) f = false) ∧
    (findReq (withReqs t [h]) 9 = some h ∧ h.kind = .store [5#8] ∧ h.link ≠ .poison ∧ homeBlocked (withReqs t [h]) h = false ∧ h.sects = [] ∧
      ∀ k ∈ h.keys, aget 0 (withReqs t [h]).mkey (k / 64) = 0 ∨ aget 0 (withReqs t [h]).mkey (k / 64) = h.keyIds.headD 0) ∧
    (findReq (withReqs t [p]) 9 = some p ∧ p.kind = .poison ∧ p.stage = .home ∧ homeBlocked (withReqs t [p]) p = false) ∧
    (findReq (withReqs t [lp]) 9 = some lp ∧ lp.kind = .store [5#8] ∧ lp.link = .poison ∧ homeBlocked (withReqs t [lp]) lp = false ∧ lp.sects = []) ∧
    (findReq (withReqs t [al]) 9 = some al ∧ al.stage = .home ∧ homeBlocked (withReqs t [al]) al = false ∧ al.link = .poison) ∧
    (findReq (withReqs t [lb]) 9 = some lb ∧ lb.link = .bad ∧ findReq (withReqs t [ls]) 9 = some ls ∧ ls.link = .single 271 ∧ lb.core < 224) ∧
    (heldPair x 0 1 = false ∧ x.xings = [] ++ ((0, 1), .write 9 :: []) :: [] ∧ heldPair w 0 1 = true ∧
      findReq x 9 = some r ∧ r.link = .clean ∧ nextOk (exec (.writeHomeApply 9) { x with xings := [((0, 1), [])], reqs := [{ r with stage := .home }] }) = true ∧
      heldPair y 0 1 = false ∧ nextOk (exec (.writeAck 9) { y with xings := [((0, 1), [])] }) = true) ∧ hasReply r = false ∧
    (findReq (withReqs t [a]) 9 = some a ∧ homeBlocked (withReqs t [a]) a = false ∧ (∃ bs, readHome (withReqs t [a]) (a.keys.zip a.keyIds) = .ok bs) ∧
      ∀ k ∈ a.keys, aget 0 (withReqs t [a]).mkey (k / 64) = 0 ∨ aget 0 (withReqs t [a]).mkey (k / 64) = a.keyIds.headD 0) ∧
    (findReq (withReqs t [d]) 9 = some d ∧ d.stage = .applied ∧ d.replied = false ∧ findTrain (withReqs t [d]) d.tr = some t ∧ d.slot < 32) :=
  (and8 (by decide +kernel) ⟨⟨by decide +kernel, by decide +kernel, rd_ok (by decide +kernel), by decide +kernel⟩, by decide +kernel⟩)
/-- A walk of a page of the context, and a train that waits for it. -/
def walkOf (page : Nat) : Walk := ⟨7, 0, 0, page, 0, 0, false, none⟩
def missTrain : Train := { oneOf [] with slots := { slotAt (oneOf []) 0 with st := .miss, wait := .miss 7 accRead false } :: (oneOf []).slots.drop 1 }
def walkState (page : Nat) : State := { stateOf missTrain with walks := [walkOf page] }
def lkIs (l : Lk) (p : Leaf → Bool) : Bool :=
  match l with
  | .ok l => p l
  | _ => false
theorem lk_ok {l : Lk} {p : Leaf → Bool} (h : lkIs l p = true) : ∃ f, l = .ok f ∧ p f = true := by
  cases l <;> simp_all [lkIs]
def lkBad (l : Lk) : Option (Nat × Nat) :=
  match l with
  | .bad t n => some (t, n)
  | _ => none
theorem lk_bad {l : Lk} {t n : Nat} (h : lkBad l = some (t, n)) : l = .bad t n := by
  cases l <;> simp_all [lkBad]
/-- StandingWakes: a line that is present, a port that serves, a run left out 256 times, one not chosen for 4,096 cycles, a
trap that may be entered. -/
theorem witness_StandingWakes : let t := oneOf []
    let p := { portTrain with slots := { slotAt portTrain 0 with st := .qport, wait := .port 1 } :: portTrain.slots.drop 1 }
    let e := { t with slots := { slotAt t 0 with skip := 256 } :: t.slots.drop 1 }
    let c := { t with canSince := some 3 }
    let q := { t with trap := some someTrap }
    (findTeam (heldState t) heldTeam.id = some heldTeam ∧ lineAbsent heldTeam 0 = false ∧ findTrain (heldState t) t.uid = some t) ∧
    (findTrain (stateOf p) p.uid = some p ∧ p.halted = false ∧ (slotAt p 0).wait = .port 1 ∧ portServes (stateOf p) p 0 1 = true) ∧
    (findTrain (stateOf e) e.uid = some e ∧ escapeSlot (stateOf e) e = some 0 ∧ lateIns (stateOf e) e.uid = none) ∧
    (findTrain { stateOf c with now := 4099 } c.uid = some c ∧ c.canSince = some 3 ∧ 3 + 4096 ≤ ({ stateOf c with now := 4099 } : State).now) ∧
    (findTrain (stateOf q) q.uid = some q ∧ q.trap = some someTrap ∧ entryWaits (stateOf q) q.uid = false) ∧
    (findTrain (withReqs q [loadReq q]) q.uid = some q ∧ entryWaits (withReqs q [loadReq q]) q.uid = true) := by decide +kernel
@[inherit_doc witness_StandingWakes] theorem witness_walks :
    let held := { missTrain with slots := { slotAt (oneOf []) 0 with st := .miss, wait := .miss 7 accRead true } :: (oneOf []).slots.drop 1 }
    let hs := { walkState 1 with trains := [held] }
    (walking hs (walkOf 1) = true ∧ (slotAt held 0).wait = .miss 7 accRead true ∧ held.halted = false) ∧
    ((walkState 1).walks.find? (fun v => v.id == 7) = some (walkOf 1) ∧ (walkOf 1).offered = false ∧ (walkOf 1).eng = none ∧ walking (walkState 1) (walkOf 1) = true ∧
      (∃ f, walkNow (walkState 1) (walkOf 1) = .ok f ∧ decide (leafCheck (walkState 1) f accRead = none) = true) ∧ (slotAt missTrain 0).wait = .miss 7 accRead false) ∧
    ((walkState 5).walks.find? (fun v => v.id == 7) = some (walkOf 5) ∧ walkNow (walkState 5) (walkOf 5) = .bad 1 3) ∧
    ({ walkState 1 with walks := [{ walkOf 1 with offered := true }] } : State).walks.find? (fun v => v.id == 7) = some { walkOf 1 with offered := true } ∧
    ({ walkState 1 with walks := [{ walkOf 1 with offered := true, eng := some 9 }] } : State).walks.find? (fun v => v.id == 7) =
      some { walkOf 1 with offered := true, eng := some 9 } ∧
    ((walkState 1).booted = true ∧ findCtx (walkState 1) fetchCtx.num = some fetchCtx) ∧
    (tlbHit (aget [] ({ walkState 1 with shared := [(0, (coreOf (tlbState (oneOf [])) 0).tlb)] } : State).shared (walkOf 1).die) 0 0 1).isSome = true :=
  ⟨by decide +kernel, (and4 (by decide +kernel) ⟨lk_ok (by decide +kernel), by decide +kernel⟩), ⟨by decide, lk_bad (by decide +kernel)⟩, by decide +kernel⟩
/-- A page that a context before had passes by an entry of the table of level 3: its bytes are zeroed, those of a page that nobody
had are not; a store on its way holds the request up (R455). -/
theorem test_page_passes :
    let s := { walkState 1 with mem := cset (walkState 1).mem 0x210004 7#8, owned := [⟨0x21, 1, 128⟩] }
    let i := Instr.translationInvalidate 0 0x130010 0x21000F#64
    let at0 := fun (s : State) => (match exec i s with
      | .next x => some (cget x.mem 0x210004, peekN x 0x130010 8, x.owned)
      | _ => none)
    at0 s = some (0#8, 0x21000F, [⟨0x21, 1, 0⟩]) ∧ at0 { s with owned := [] } = some (7#8, 0x21000F, [⟨0x21, 1, 0⟩]) ∧
    inputWaits s i = false ∧ passesTo s fetchCtx 0x130010 0x21000F#64 0x21 = true ∧
    inputWaits { s with reqs := [{ loadReq missTrain with kind := .store [1#8], keys := [0x210004], stage := .crossing }] } i = true := by decide +kernel
/-- RetentionAndBitErrors: an expired granule, a KEEP granule, and half-sectors of every place. -/
theorem witness_RetentionAndBitErrors :
    let tm := { fetchTeam 1 with allocs := [⟨1, .scr, .strict 0, 0, 256, 0⟩, ⟨2, .scr, .keep, 256, 256, 0⟩], resv := [⟨63, 0, 0, 0, 1, 64, 0, [], []⟩] }
    let s := { stateOf (oneOf []) with teams := [tm], now := 2 ^ 60 }
    findTeam s tm.id = some tm ∧ expired s.now tm 0 = some true ∧ 0 ∉ tm.marked ∧ anyAlloc tm (256 * 1) = some ⟨2, .scr, .keep, 256, 256, 0⟩ ∧
    findTrain s 2 = some (oneOf []) ∧ 4 * 31 < (oneOf []).A ∧ ¬ 4 * 1024 < (oneOf []).A ∧ (∀ h ∈ [1024, 1027], 1024 ≤ h ∧ h ≤ 1027) ∧ 31 < 32 ∧ (resvOf tm 63).isSome = true ∧
    (1 : Nat) < 65536 ∧ (teamTrains s tm.id).find? (fun u => u.idx == (oneOf []).idx) = some (oneOf []) ∧ (oneOf []).slots.length = 32 ∧
    (findTeam { s with teams := [{ tm with life := .spilled }] } tm.id = some { tm with life := .spilled } ∧
      findReq (withReqs (oneOf []) [{ storeReq (oneOf []) with stage := .crossing }]) 9 = some { storeReq (oneOf []) with stage := .crossing } ∧ isWrite (storeReq (oneOf [])) = true) := by decide +kernel

/-! Engines, barrier objects and the bridle tree. -/

def issGo : Iss → Bool
  | .go _ => true
  | _ => false
theorem iss_go {r : Iss} (h : issGo r = true) : ∃ s, r = .go s := by
  cases r <;> simp_all [issGo]
def recOkB : RecRd → Bool
  | .ok _ => true
  | _ => false
theorem rec_ok {r : RecRd} (h : recOkB r = true) : ∃ bs, r = .ok bs := by
  cases r <;> simp_all [recOkB]
/-- Words as bytes. -/
def wordsB (ws : List Nat) : List Byte := ws.flatMap (bytesN 8)
/-- The worked record of spec/11, and the two reservations that it names. -/
def workedRec : List Byte := wordsB [1, 0x0100000300000320, 0x0000004000000100, 0x8000, 0x0000000400000100, 0, 0, 0]
/-- A team with an object at 0x40, scratch from 0x100 on, that record at 0x100, and the reservations. -/
def mxTeam : Team := { fetchTeam 1 with
  allocs := [⟨1, .bobj, .keep, 0, 256, 0⟩, ⟨2, .scr, .keep, 256, 65280, 0⟩], bobjs := [(0x40, ⟨5, 2, 0, false⟩)],
  scratch := csetAll [] 0x100 workedRec, resv := [⟨0, 0, 13, 0, 4, 3072, 0, [], []⟩, ⟨1, 0, 13, 0, 4, 3072, 3072, [], []⟩] }
/-- The device of `stateOf` with that team. -/
def mxState (t : Train) : State := { stateOf t with teams := [mxTeam] }
/-- A record in scratch is named by bit 63. -/
def recVa : Nat := 2 ^ 63 + 0x100
/-- EngineForms, commands: a location in memory and one in scratch, an object and none; a bad location, object and ring. -/
theorem witness_EngineForms : let t := withK (oneOf []) [(0, 0x10040), (1, 0x40), (2, 0x41), (3, 0x41)]
    let h := handled t
    (Issues (.acpCopy 96#7 97#7) (mxState t) (issOf t) t ∧ activeMask (issOf t) t ≠ 0#32 ∧ findTeam (mxState t) t.team = some mxTeam ∧
      fld (readReg t 0 96#7) 0 63 % 64 = 0 ∧ (readReg t 0 96#7).getLsbD 63 = false ∧ isBobj mxTeam (readReg t 0 97#7).toNat = true ∧
      (queuedCmds (mxState t) t.core).length < 64 ∧ (∃ s1, cmdIssue (mxState t) t .copy (readReg t 0 96#7) (some (readReg t 0 97#7).toNat) = .go s1)) ∧
    (Issues (.acpFill 98#7 127#7) (mxState h) (issOf h) h ∧ fld (readReg h 0 98#7) 0 63 % 64 ≠ 0 ∧ MayEnter (mxState h) h) ∧
    (Issues (.mxWld 96#7 99#7) (mxState h) (issOf h) h ∧ isBobj mxTeam (readReg h 0 99#7).toNat = false) ∧
    (Issues (.acpRing 96#7 127#7) (mxState h) (issOf h) h ∧ ringOk (mxState h) mxTeam = false) :=
  ⟨⟨issues_of (by decide +kernel), and6 (by decide +kernel) (iss_go (by decide +kernel))⟩,
   ⟨issues_of (by decide +kernel), by decide +kernel, enter_of (by decide +kernel)⟩, ⟨issues_of (by decide +kernel), by decide +kernel⟩,
   issues_of (by decide +kernel), by decide +kernel⟩
/-- EngineForms, reservations: the worked request, placed at once and with nothing free; a reservation that is held, is not, is in use. -/
theorem witness_reservations : let t := withK (oneOf []) [(0, 0x340000C02F000000), (1, 1), (2, 5), (3, 3 * 2 ^ 62)]
    let h := handled t
    let full := { mxTeam with resv := (List.range 64).map (fun n => ⟨n, 0, 13, 0, 4, 3072, 3072 * n, [], []⟩) }
    let busy := { mxState h with cmds := [{ id := 9, fn := .wld, team := 1, tr := 2, core := 0, loc := 0#64, desc := some (wordsB [1, 0x10000, 0, 0, 0, 0, 0, 0]), obj := none, tag := false, lines := [], stage := .running, pos := 0, need := [], sects := [], olds := [], lapse := false, rot := 0, wrote := [], oldx := [], oldk := [] }] }
    (Issues (.mxRes 98#7 96#7) (mxState t) (issOf t) t ∧ resvOk (readReg t 0 96#7) = true ∧ mxTeam.resv.length < 64 ∧ (coreResvs (mxState t) t.core).length < 64 ∧
      (fld (readReg t 0 96#7) 24 14 + 1) * 64 = 3072 ∧ 6144 + 3072 ≤ 2 ^ 20 ∧ (∀ r ∈ coreResvs (mxState t) t.core, 6144 + 3072 ≤ r.base ∨ r.base + r.len ≤ 6144) ∧
      (∃ r ∈ coreResvs (mxState t) t.core, 6144 = r.base + r.len) ∧ resvOf mxTeam 2 = none ∧ ∀ k < 2, resvOf mxTeam k ≠ none) ∧
    (Issues (.mxRes 98#7 96#7) { mxState t with teams := [full] } (issOf t) t ∧ 64 ≤ full.resv.length) ∧
    (Issues (.mxRes 98#7 99#7) (mxState h) (issOf h) h ∧ resvOk (readReg h 0 99#7) = false ∧ MayEnter (mxState h) h) ∧
    (Issues (.mxRel 98#7) (mxState h) (issOf h) h ∧ resvOf mxTeam (readReg h 0 98#7).toNat = none) ∧
    (Issues (.mxRel 97#7) (mxState t) (issOf t) t ∧ resvOf mxTeam (readReg t 0 97#7).toNat ≠ none ∧ resvBusy (mxState t) mxTeam (readReg t 0 97#7).toNat = false) ∧
    (Issues (.mxRel 97#7) busy (issOf h) h ∧ resvBusy busy mxTeam (readReg h 0 97#7).toNat = true ∧ MayEnter busy h) :=
  ⟨⟨issues_of (by decide +kernel), by decide +kernel⟩, ⟨issues_of (by decide +kernel), by decide +kernel⟩, ⟨issues_of (by decide +kernel), by decide +kernel, enter_of (by decide +kernel)⟩,
   ⟨issues_of (by decide +kernel), by decide +kernel⟩, ⟨issues_of (by decide +kernel), by decide +kernel⟩, issues_of (by decide +kernel), by decide +kernel, enter_of (by decide +kernel)⟩
/-- EngineForms, tasks: the worked record; a span that is not 0; a decrement of 1, of 65,535 and the first beyond. -/
theorem witness_task_forms : let t := withK (withA (oneOf []) recVa) [(0, 1), (1, 65535), (2, 65536)]
    let h := handled t
    let x := handled (withA (oneOf []) (2 ^ 64 + recVa))
    let z := { mxTeam with resv := [] }
    (Issues (.mxTask 1#3) (mxState t) (issOf t) t ∧ findTeam (mxState t) t.team = some mxTeam ∧ taskLocOk mxTeam (readA t 0 1#3) = true ∧ cmdNeed (mxState t) t = [] ∧
      recAbsent mxTeam (aOff (readA t 0 1#3)) = false ∧ (recMiss (mxState t) (issOf t) t mxTeam (activeMask (issOf t) t) (aOff (readA t 0 1#3)) accAtomic).isNone = true ∧ (∃ bs, recRead (mxState t) mxTeam (aOff (readA t 0 1#3)) 64 accRead = .ok bs) ∧
      (∃ b, recRead (recNote (mxState t) mxTeam (aOff (readA t 0 1#3)) 64) mxTeam (aOff (readA t 0 1#3)) 8 accAtomic = .ok b) ∧ (∃ b, recRead (mxState t) mxTeam (aOff (readA t 0 1#3)) 8 accAtomic = .ok b) ∧ taskFault mxTeam workedRec = none ∧ (recOf workedRec).count ≠ 0 ∧ readyRoom (mxState t) t.core = true) ∧
    (Issues (.mxTask 1#3) { mxState h with teams := [z] } (issOf h) h ∧ taskLocOk z (readA h 0 1#3) = true ∧ taskFault z workedRec = some 3) ∧
    (Issues (.mxTask 1#3) (mxState x) (issOf x) x ∧ taskLocOk mxTeam (readA x 0 1#3) = false ∧ MayEnter (mxState x) x) ∧
    (Issues (.mxDep 1#3 96#7) (mxState t) (issOf t) t ∧ (readReg t 0 96#7).toNat = 1 ∧ Issues (.mxDep 1#3 97#7) (mxState t) (issOf t) t ∧ (readReg t 0 97#7).toNat = 65535) ∧
    (Issues (.mxDep 1#3 98#7) (mxState h) (issOf h) h ∧ 65535 < (readReg h 0 98#7).toNat ∧ MayEnter (mxState h) h) ∧
    ((65535 : Nat) < 65536 ∧ (7 : Nat) < 8 ∧ (31 : Nat) < 32 ∧ (255 : Nat) < 256 ∧ (2 ^ 32 - 1 : Nat) < 2 ^ 32 ∧ 1 ≤ 65535) :=
  ⟨⟨issues_of (by decide +kernel), and5 (by decide +kernel) ⟨rec_ok (by decide +kernel), rec_ok (by decide +kernel), rec_ok (by decide +kernel), by decide +kernel⟩⟩,
   ⟨issues_of (by decide +kernel), by decide +kernel⟩, ⟨issues_of (by decide +kernel), by decide +kernel, enter_of (by decide +kernel)⟩,
   ⟨issues_of (by decide +kernel), by decide +kernel, issues_of (by decide +kernel), by decide +kernel⟩, ⟨issues_of (by decide +kernel), by decide +kernel, enter_of (by decide +kernel)⟩, by decide⟩
/-- The bytes of a record that is read. -/
def recBs (r : RecRd) : List Byte :=
  match r with
  | .ok bs => bs
  | _ => []
@[inherit_doc witness_EngineForms] theorem witness_records :
    let s := mxState (oneOf [])
    let z := { mxTeam with resv := [] }
    let sloc : Word := BitVec.ofNat 64 recVa
    let dloc : Word := 0x10040#64
    let w := fun (n : Nat) => n + 2 ^ 16
    let kv := transNow s mxTeam.ctx 0 (fld dloc 0 63) 8 accAtomic
    let r := recRead s mxTeam sloc 8 accAtomic
    (findTeam s mxTeam.id = some mxTeam ∧ sloc.getLsbD 63 = true ∧ (0 : Nat) < fld sloc 0 63 ∧ expired s.now mxTeam (0 / 256) = none) ∧
    (dloc.getLsbD 63 = false ∧ findCtx s mxTeam.ctx = some fetchCtx ∧ fetchCtx.nodes = [] ∧
      exOk kv = true ∧ rdOk (readHome s (trKv kv)) = true ∧ ∀ p ∈ trKv kv, aget 0 s.mkey (p.1 / 64) = 0) ∧
    (w 65535 % 2 ^ 16 ≠ 0 ∧ w 1 % 2 ^ 16 ≠ 0 ∧ w 0 % 2 ^ 16 = 0) ∧
    (recOkB (recRead s mxTeam sloc 64 accRead) = true ∧ enqCheck mxTeam (recBs (recRead s mxTeam sloc 64 accRead)) = 0 ∧
      enqCheck z (recBs (recRead { s with teams := [z] } z sloc 64 accRead)) = 32) ∧
    (recLocOk mxTeam sloc = true ∧ decLook s mxTeam 0 sloc = (true, s) ∧ recOkB r = true ∧
        (decWord (leN ((recBs r).take 8)) 2).2.2 = true ∧ (decWord (w 1) 1).2.1 = true ∧ (decWord (w 2) 1).2.1 = false ∧ (decWord (w 2) 1).2.2 = false ∧
      readyRoom (recNote s mxTeam sloc 8) 0 = true ∧ recAbsent mxTeam sloc = false ∧ recLocOk mxTeam 0x10041#64 = false) :=
  ⟨by decide +kernel, by decide +kernel, by decide, by decide +kernel, by decide +kernel⟩
/-- A command of the engine of core 0. -/
def cmdOf (fn : CmdFn) (stage : CmdStage) (desc : Option (List Byte)) (loc : Word) : Cmd :=
  { id := 9, fn := fn, team := 1, tr := 2, core := 0, loc := loc, desc := desc, obj := none, tag := false, lines := [], stage := stage, pos := 0,
    need := [], sects := [], olds := [], lapse := false, rot := 0, wrote := [], oldx := [], oldk := [] }
/-- The device with commands of `mxTeam`. -/
def cmdState (l : List Cmd) : State := { mxState (oneOf []) with cmds := l, nextId := 20, iss := none }
/-- A copy of eight bytes from the page to scratch; a pfill of one line; a rotation of 64 bytes; one row of a reservation. -/
def copyFrom (src : Nat) : List Byte := wordsB [0x230 + 0, src, 0x8000, 0, 2] ++ wordsB (List.replicate 3 0) ++ wordsB [8] ++ wordsB (List.replicate 7 0) ++ wordsB [8] ++ wordsB (List.replicate 7 0)
def copyBytes : List Byte := copyFrom 0x10000
def pfillBytes : List Byte := wordsB [0x10000, 0, 0x8000, 0]
def ringBytes : List Byte := wordsB [0, 0x8000, 0x9000, 64]
def wldBytes : List Byte := wordsB [0, 0x10000, 63 * 2 ^ 21, 0, 0, 0, 0, 0]
/-- A team of the formation, on core `8 * 0 + p`. -/
def ringTeam (p : Nat) : Team := { mxTeam with id := p + 1, form := some 3, fpos := p, core := p, rings := 1 }
/-- Eight commands in one rotation. -/
def ringState : State := { cmdState ((List.range 8).map (fun p => { cmdOf .ring .running (some ringBytes) 0#64 with id := 9 + p, team := p + 1, core := p })) with teams := (List.range 8).map ringTeam }
/-- Memory whose span 0 forwards its failed walks. -/
def fwdMem (m : List Host.Cell) : List Host.Cell := csetAll m 0x140000 (bytesN 16 (0x10 * 2 ^ 80 + 129))
/-- The descriptor of a command is found and read, and its lines have room. -/
def engReads (s : State) (c : Cmd) : Bool :=
  match engLook s c.id c.core 0 0 (fld c.loc 0 63) (descLen c.fn) accRead with
  | (.ok kv, s2) => (match readDie s2 (dieOf c.core) kv with
    | .ok bs => (destLines c.fn bs).all (lineRoom mxTeam)
    | .bad _ => false)
  | _ => false
/-- What an engine's write answers: 0 done, 1 not yet, 2 a failure. -/
def wrTag : EngWr → Nat
  | .ok _ => 0
  | .wait _ => 1
  | .fail _ _ => 2
/-- CommandsAtWork: the next command, its descriptor read or still to come, one set aside, and none; an element that lands, one that waits
for the fault service, and one that fails. -/
theorem witness_CommandsAtWork : let q := cmdOf .pfill .queued none 0x10000#64
    let d := cmdOf .copy .running (some copyBytes) 0#64
    let a := cmdOf .copy .aside (some copyBytes) 0#64
    let w := cmdOf .copy .running (some (copyFrom 0x50000)) 0#64
    let fwd := { cmdState [w] with mem := fwdMem (cmdState [w]).mem }
    let f := cmdOf .copy .queued none 0#64
    ((runningCmds (cmdState [q]) 0).length < 8 ∧ asideReady (cmdState [q]) 0 = none ∧ nextCmd (cmdState [q]) 0 = some q ∧ needMet (cmdState [q]) q = true ∧ q.desc = none ∧
      findTeam (cmdState [q]) q.team = some mxTeam ∧ (cmdState [q]).mcond = [] ∧ engReads (cmdState [q]) q = true) ∧
    (asideReady (cmdState []) 0 = none ∧ nextCmd (cmdState []) 0 = none) ∧
    (asideReady (cmdState [a]) 0 = some (a, copyBytes) ∧ findTeam (cmdState [a]) a.team = some mxTeam) ∧
    (findCmd (cmdState [d]) 9 = some d ∧ (d.desc.bind (copyD false)).isSome = true ∧ ((d.desc.bind (copyD false)).map CopyD.count) = some 2 ∧ d.pos < 2 ∧
      (∀ x ∈ d.desc.bind (copyD false), wrTag (copyElem (cmdState [d]) d mxTeam x) = 0) ∧ findCmd fwd 9 = some w ∧
      (∀ x ∈ w.desc.bind (copyD false), wrTag (copyElem fwd w mxTeam x) = 1 ∧ wrTag (copyElem (cmdState [w]) w mxTeam x) = 2)) ∧
    (findCmd (cmdState [f]) 9 = some f ∧ f.lines = [] ∧ f.sects = [] ∧ f.obj = none ∧ f.lapse = false ∧ mxTeam.draining = [] ∧ f.core < 224) ∧
    (pfillD pfillBytes).isSome = true ∧ (wldD wldBytes).isSome = true := by decide +kernel
/-- The engine's reads and writes that a landing makes. -/
theorem witness_landings :
    let p := cmdOf .pfill .running (some pfillBytes) 0#64
    let w := cmdOf .wld .running (some wldBytes) 0#64
    (findCmd (cmdState [p]) 9 = some p ∧ (match engDevRead (cmdState [p]) p 0 0 0x10000 64 with
      | (.ok bs _, s1) => decide (wrTag (engScrWrite s1 p mxTeam 0x8000 bs) = 0)
      | _ => false) = true) ∧
    (findCmd (cmdState [w]) 9 = some w ∧ (match (engRead (cmdState [w]) w mxTeam false 0 0x10000 64).1 with
      | .ok _ _ => true
      | _ => false) = true) := by decide +kernel
/-- A rotation whose eight commands are there; and one of seven. -/
theorem witness_rotation : let c := { cmdOf .ring .running (some ringBytes) 0#64 with id := 9 }
    let cs := (ringTeams ringState (ringTeam 0)).filterMap (fun o => ringCmd ringState o 0)
    findCmd ringState 9 = some c ∧ findTeam ringState c.team = some (ringTeam 0) ∧ c.pos = 0 ∧ (ringTeams ringState (ringTeam 0)).length = 8 ∧
    (∀ o ∈ ringTeams ringState (ringTeam 0), c.rot < o.rings) ∧ cs.length = 8 ∧ (∀ k ∈ cs, k.desc = c.desc) ∧ ringState.agenda = [] ∧ wrTag (engScrWrite ringState c (ringTeam 0) 0x9000 (cgetAll c.olds 0 64)) = 0 ∧ (∀ k ∈ cs, ringUp k = true ∧ ringHeld ringState k = false) ∧
    (c.desc.bind ringD).isSome = true ∧ (ringTeams { ringState with teams := ringState.teams.take 7 } (ringTeam 0)).length < 8 ∧ (0 : Nat) < 224 := by decide +kernel
/-- CommandsAtWork, ends: a command with lines, sectors, an object, an expired granule and the post bit, and one without; a port of
completions with room for one item, and full. -/
theorem witness_command_effects : let bs := wordsB [0x630, 0x10000, 0x8000, 0, 2] ++ copyBytes.drop 40
    let c := { cmdOf .copy .running (some bs) 0#64 with obj := some 0x40, lines := destLines .copy bs, lapse := true, sects := [5] }
    let t := fun (l : List Word) => { oneOf [] with ports := [(0, .completions 0 4)], compl := l }
    (findCmd (cmdState [c]) 9 = some c ∧ findTeam (cmdState [c]) c.team = some mxTeam ∧ (findTrain (cmdState [c]) c.tr).isSome = true ∧
      (c.desc.map (postBit c.fn)).getD false = true ∧ c.lines ≠ [] ∧ bitsN (2 ^ 46) 46 1 = 1 ∧ bitsN (2 ^ 47 - 2 ^ 46 - 1) 46 1 = 0) ∧
    (∃ h ∈ cmdRest c, h / 2 ∈ c.lines ∧ inScratchFor mxTeam c.id (32 * h) 32 = true ∧ expired (cmdState [c]).now mxTeam (h / 8) = none) ∧
    (findCmd (cmdState [cmdOf .wld .running none 0#64]) 9 = some (cmdOf .wld .running none 0#64)) ∧
    (findTrain (stateOf (t [])) 2 = some (t []) ∧ (t []).retired = false ∧ (t [1#64, 2#64, 3#64]).compl.length < 4 ∧ 4 ≤ (t [1#64, 2#64, 3#64, 4#64]).compl.length) ∧
    (∃ p ∈ (t []).ports, ∃ b, p.2 = .completions b 4) ∧ ∀ p ∈ (t []).ports, ∀ b k, p.2 = .completions b k → k = 4 := by
  refine ⟨by decide +kernel, by decide +kernel, by decide +kernel, by decide +kernel, ⟨_, List.mem_singleton.mpr rfl, 0, rfl⟩, fun p hp b k h => ?_⟩
  rw [List.mem_singleton.mp hp] at h
  cases h
  rfl
/-- A task of `mxTeam` on the worked record. -/
def taskOf (stage : TaskStage) (tile : Nat) (units : List (List UElem)) (snap : List Byte) : Task :=
  { id := 9, core := 0, team := 1, armTr := 2, loc := BitVec.ofNat 64 recVa, snap := snap, obj := none, tag := false, lines := [], stage := stage, eng := 0,
    tile := tile, cols := 0, units := units, sects := [], under := false, sig := 0#64, samp := none }
/-- The device with a task of it; its engines are there. -/
def taskState (k : Task) : State := { mxState (oneOf []) with tasks := [k], margin := [(0, 0xF000#64)], iss := none }
/-- The worked record with no object and nothing to post, draining by stores. -/
def plainRec : List Byte := wordsB [0, 0x0100000300000300, 0x0080000000000100, 0x8000, 0x0000000400000100, 0, 0, 0]
/-- TasksStartAndEnd, TilesDrain: a task that is ready, held, complete, not complete, draining by stores, by units. -/
theorem witness_TasksStartAndEnd : let q := taskOf .queued 0 [] plainRec
    let h := taskOf .held 0 [] plainRec
    let c := taskOf .running 4096 [] plainRec
    let r := taskOf .running 0 [] plainRec
    (freeEngine (taskState q) 0 = some 0 ∧ (readyTasks (taskState q) 0).find? (fun k => teamHere (taskState q) k.team) = some q ∧ findTeam (taskState q) q.team = some mxTeam ∧
      ((findCtx (taskState q) mxTeam.ctx).map (·.audOn)).getD false = false) ∧
    (findCtx { taskState q with ctxs := [{ fetchCtx with audOn := true }] } mxTeam.ctx = some { fetchCtx with audOn := true } ∧ (recRes mxTeam (recOf q.snap)).isSome = true) ∧
    freeEngine ({ taskState q with margin := [(0, 0#64)] } : State) 0 = none ∧
    ((taskState h).tasks.find? (heldFits (taskState h) 0) = some h ∧ (taskState h).tasks = [h] ∧ mxTeam.life = .resident ∧ (readyTasks (taskState h) 0).length < 256 ∧ (taskState h).heldDecs = []) ∧
    (findTask (taskState c) 9 = some c ∧ c.units = [] ∧ (recOf c.snap).N * (recOf c.snap).M * 64 ≤ c.tile ∧ (recOf c.snap).succ = [0, 0, 0, 0] ∧ (recOf c.snap).obj = none ∧
      (recOf c.snap).post = false ∧ c.under = false ∧ c.samp = none) ∧
    (findTask (taskState r) 9 = some r ∧ r.tile < (recOf r.snap).N * (recOf r.snap).M * 64 ∧ r.lines = [] ∧ r.sects = []) ∧ (255 : Nat) < 256 ∧
    mxTeam.isDying = false ∧ (findTeam { taskState c with teams := [{ mxTeam with life := .dying true }] } 1).map Team.isDying = some true := by decide +kernel
@[inherit_doc witness_TasksStartAndEnd] theorem witness_task_ends :
    let c := { taskOf .running 4096 [] workedRec with lines := [512], under := true }
    let u := taskOf .running 4096 [[⟨(kvOf 0 4).map (·.1), 1, 5#32, []⟩]] workedRec
    let f := { taskOf .running 0 [] plainRec with lines := [512], sects := [] }
    (findTask (taskState c) 9 = some c ∧ c.units = [] ∧ (recOf c.snap).N * (recOf c.snap).M * 64 ≤ c.tile ∧ (recOf c.snap).obj ≠ none ∧ (recOf c.snap).drain = 1) ∧
    (findTask { taskState u with teams := [{ mxTeam with life := .dying true }] } 9 = some u ∧ u.units ≠ []) ∧
    (findTask (taskState f) 9 = some f ∧ (∃ h ∈ taskRest mxTeam f (recOf f.snap), h / 2 ∈ f.lines ∧ inScratchFor mxTeam f.id (32 * h) 32 = true) ∧
      expired (taskState f).now mxTeam 128 = none) := by decide +kernel
def lkWait : EngLook → Bool
  | .wait => true
  | _ => false
/-- An add-on-store whose first element waits for its translation waits as a whole; one to scratch translates nothing. -/
theorem unit_waits {s : State} {k : Task} {tm : Team} {r : Rec} {e : Nat × Nat} {es : List (Nat × Nat)} (hd : r.dscr = false)
    (h : lkWait (engLook s k.id k.core tm.ctx r.dspan (cellOff r e.1 e.2) 4 accAtomic).1 = true) :
    ∃ s1, unitLook s k tm r (e :: es) = (false, s1) := by
  have hc : ∀ (l : List (Nat × Nat)) (x : State), l.foldl (fun (acc : Bool × State) (e : Nat × Nat) =>
      if acc.1 then match engLook acc.2 k.id k.core tm.ctx r.dspan (cellOff r e.1 e.2) 4 accAtomic with
        | (.wait, s) => (false, s)
        | (_, s) => (true, s)
      else acc) (false, x) = (false, x) := by
    intro l x
    induction l with
    | nil => rfl
    | cons y l ih => exact ih
  cases hl : engLook s k.id k.core tm.ctx r.dspan (cellOff r e.1 e.2) 4 accAtomic with
  | mk a s1 =>
    rw [hl] at h
    cases a <;> simp [lkWait] at h
    refine ⟨s1, ?_⟩
    simp only [unitLook, hd, Bool.false_eq_true, if_false, List.foldl_cons, if_true, hl]
    exact hc es s1
@[inherit_doc unit_waits] theorem witness_unitLook : let far := taskOf .running 0 [] (wordsB [0, 0x0100000300000320, 0x0080000000000000, 0x50000, 0x0000000400000100, 0, 0, 0])
    let u := taskOf .running 0 [] workedRec
    (∃ s1, unitLook { taskState far with mem := fwdMem (taskState far).mem } far mxTeam (recOf far.snap)
      ((List.range 64).flatMap (fun x => (List.range 64).map (fun y => (x, y)))) = (false, s1)) ∧
    unitLook (taskState u) u mxTeam (recOf u.snap) ((List.range 64).flatMap (fun x => (List.range 64).map (fun y => (x, y)))) = (true, taskState u) :=
  ⟨unit_waits (e := (0, 0)) (es := ((List.range 64).flatMap (fun x => (List.range 64).map (fun y => (x, y)))).drop 1) (by decide +kernel) (by decide +kernel),
   by simp [unitLook, show (recOf (taskOf .running 0 [] workedRec).snap).dscr = true from by decide +kernel]⟩
@[inherit_doc witness_TasksStartAndEnd] theorem witness_TilesDrain : let r := taskOf .running 0 [] plainRec
    let u := taskOf .running 0 [] workedRec
    let e : UElem := ⟨(kvOf 0 4).map (·.1), 1, 5#32, []⟩
    let k := taskOf .running 4096 [[e]] (wordsB [0, 0x0100000300000320, 0x0080000000000000, 0x10000, 0x0000000400000100, 0, 0, 0])
    let d := { taskOf .running 1 [] plainRec with cols := 63 }
    let far := fun (drain : Nat) => { taskOf .running 1 [] (wordsB [0, 0x0100000300000300 + 32 * drain, 0x0080000000000000, 0x50000, 0x0000000400000100, 0, 0, 0]) with cols := 63 }
    let bad := { mxTeam with resv := mxTeam.resv.map (fun v => { v with cond := [(0, .bad)] }) }
    let fwd := fun (k : Task) => { taskState k with mem := fwdMem (taskState k).mem }
    let rest := fun (k : Task) (x : Resv × Resv × Option Resv) => [(63, cellValue x.1 x.2.1 x.2.2 (recOf k.snap) 1 63)]
    (∀ x ∈ recRes bad (recOf r.snap), tileFault x.1 x.2.1 x.2.2 (recOf r.snap) 0 0 ≠ none) ∧ (recRes bad (recOf r.snap)).isSome = true ∧
    (∀ x ∈ recRes mxTeam (recOf d.snap), wrTag (drainRow d (recOf d.snap) 1 (rest d x) (taskState d)) = 0 ∧
      wrTag (drainRow (far 0) (recOf (far 0).snap) 1 (rest (far 0) x) (fwd (far 0))) = 1 ∧
      wrTag (drainRow (far 0) (recOf (far 0).snap) 1 (rest (far 0) x) (taskState (far 0))) = 2) ∧
    (recOf (far 1).snap).drain = 1 ∧
    (recRes mxTeam (recOf r.snap)).isSome = true ∧ (∀ x ∈ recRes mxTeam (recOf r.snap), tileFault x.1 x.2.1 x.2.2 (recOf r.snap) 0 0 = none) ∧ (recOf r.snap).drain ≠ 1 ∧
    (recOf u.snap).drain = 1 ∧ (recRes mxTeam (recOf u.snap)).isSome = true ∧
    k.units = [[e]] ∧ (recOf k.snap).dscr = false ∧ engineMay (taskState k) (dieOf k.core) e.keys = true ∧ rdOk (readHome (taskState k) (e.keys.map (fun x => (x, e.ver)))) = true := by decide +kernel
/-- BarrierObjects: the object in each form, its phase met and not, none at an offset, and a count out of range. -/
theorem witness_BarrierObjects : let t := oneOf [(1, 0x40), (2, 2 ^ 32 - 1), (3, 0x50), (4, 2 ^ 32), (5, 0x100)]
    let h := handled t
    (findTeam (mxState t) t.team = some mxTeam ∧ slotsOf (activeMask (issOf t) t) = [0] ∧ (∀ x ∈ t.slots, x.wait = .none ∧ x.walked = false) ∧ ByItself (mxState t) t 0) ∧
    (Issues (.boInit 1#7 2#7) (mxState t) (issOf t) t ∧ portFree (.boInit 1#7 2#7) = true ∧ isBobj mxTeam (readReg t 0 1#7).toNat = true ∧ objBusy (mxState t) mxTeam 0x40 = false ∧ (readReg t 0 2#7).toNat < 2 ^ 32) ∧
    (Issues (.boExpect 1#7 3#7) (mxState t) (issOf t) t ∧ (objOf mxTeam 0x40).expected + (readReg t 0 3#7).toNat < 2 ^ 32) ∧ Issues (.boArrive 1#7 2#7) (mxState t) (issOf t) t ∧
    (Issues (.boWait 1#7 2#7) (mxState t) (issOf t) t ∧ (objOf mxTeam 0x40).phase ≠ (readReg t 0 2#7).getLsbD 0 ∧ Issues (.boWait 1#7 127#7) (mxState t) (issOf t) t ∧ (objOf mxTeam 0x40).phase = (readReg t 0 127#7).getLsbD 0) ∧
    Issues (.boTest 6#7 1#7) (mxState t) (issOf t) t ∧ Issues (.boErr 6#7 1#7) (mxState t) (issOf t) t ∧
    (Issues (.boErr 6#7 5#7) (mxState h) (issOf h) h ∧ isBobj mxTeam (readReg h 0 5#7).toNat = false ∧ MayEnter (mxState h) h) ∧
    (Issues (.boInit 1#7 4#7) (mxState h) (issOf h) h ∧ 2 ^ 32 ≤ (readReg h 0 4#7).toNat) :=
  ⟨(and3 (by decide +kernel) (by_of (by decide +kernel))), ⟨issues_of (by decide +kernel), by decide +kernel⟩, ⟨issues_of (by decide +kernel), by decide +kernel⟩, issues_of (by decide +kernel),
   ⟨issues_of (by decide +kernel), by decide +kernel, issues_of (by decide +kernel), by decide +kernel⟩, issues_of (by decide +kernel), issues_of (by decide +kernel),
   ⟨issues_of (by decide +kernel), by decide +kernel, enter_of (by decide +kernel)⟩, issues_of (by decide +kernel), by decide +kernel⟩
/-- A context with a forest of four nodes: 0 is the root, 1 a child with an increment to come, 2 and 3 free. -/
def bridleCtx : Ctx := { fetchCtx with
  nmax := 4, nodePa := 0x400000, nodes := [(0, ⟨9, 0, 0xFFFF, 1, 0, 1, 0, 0⟩), (1, ⟨4, 1, 0, 0, 1, 1, 0, 0⟩)] }
/-- The device of `stateOf` in that context, with a bt request. -/
def bridleState (t : Train) (op : BtOp) (entry : Nat) : State :=
  { stateOf t with ctxs := [bridleCtx], nextId := 10, reqs := [{ mkReq 0 (issOf t) t 0 (slotAt t 0) 9 8 (.bt op) .plain (.w 1 false) 0#80 [] [] [] with entry := entry }] }
/-- Bridles: the forms with good and bad operands and without a forest; what each request meets; a roll-up. -/
theorem witness_Bridles : let t := oneOf [(1, 1), (2, 65536)]
    let h := handled t
    let s := { stateOf t with ctxs := [bridleCtx] }
    let r := fun (op : BtOp) (e : Nat) => { mkReq 0 (issOf t) t 0 (slotAt t 0) 9 8 (.bt op) .plain (.w 1 false) 0#80 [] [] [] with entry := e }
    (Issues (.btRead 3#7 1#7) s (issOf t) t ∧ slotsOf (activeMask (issOf t) t) = [0] ∧ findCtx s (ctxOf s t) = some bridleCtx ∧ portFree (.btRead 3#7 1#7) = true ∧ bridleCtx.nmax ≠ 0 ∧
      ¬(65536 ≤ (readReg t 0 1#7).toNat) ∧ askFault s bridleCtx.num (.read (readReg t 0 1#7).toNat) = none) ∧
    (Issues (.btRead 3#7 2#7) { stateOf h with ctxs := [bridleCtx] } (issOf h) h ∧ 65536 ≤ (readReg h 0 2#7).toNat ∧ MayEnter { stateOf h with ctxs := [bridleCtx] } h ∧
      ByItself { stateOf h with ctxs := [bridleCtx] } h 0) ∧
    (Runs (.btRead 3#7 1#7) h ∧ findCtx (stateOf h) (ctxOf (stateOf h) h) = some fetchCtx ∧ fetchCtx.nmax = 0) ∧
    (btCancelled (bridleState t (.read 1) 0) (r (.read 1) 0) = false ∧ btTurn (bridleState t (.read 1) 0) (r (.read 1) 0) = true ∧
      btCancelled { bridleState t (.settle 0) 0 with trains := [{ t with halted := true }] } (r (.settle 0) 0) = true) ∧
    (enrollFault (bridleState t (.enroll 0#80 0#64) 0) bridleCtx 0#80 0#64 = none ∧ reparentFault bridleCtx 1 0 = none) ∧
    (findReq (bridleState t (.read 1) 0) 9 = some (r (.read 1) 0) ∧ nodeLive bridleCtx 1 = true ∧ nodeLive bridleCtx 2 = false ∧ nodeLive bridleCtx 3 = false) ∧
    (btReady (bridleState t (.unenroll 1) 0) (r (.unenroll 1) 0) = true ∧ btTurn (bridleState t (.unenroll 1) 0) (r (.unenroll 1) 0) = true ∧ changing (bridleState t (.unenroll 1) 0) 0 9 = false ∧ (nodeOf bridleCtx 1).nchild = 0 ∧ (nodeOf bridleCtx 1).size = 0) ∧
    (btTurn { bridleState t (.unenroll 1) 0 with reqs := [{ r (.unenroll 1) 0 with id := 7 }, r (.unenroll 1) 0] } (r (.unenroll 1) 0) = false ∧ (r (.unenroll 1) 0).entry = 0) ∧
    (freeNode bridleCtx = some 2) ∧ (unapplied (bridleState t (.settle 0) 0) [] = [] ∧ ∀ k ∈ subtree bridleCtx 0, (nodeOf bridleCtx k).state < 2) ∧
    (findCtx s bridleCtx.num = some bridleCtx ∧ (nodeOf bridleCtx 1).pend ≠ 0 ∧ (nodeOf bridleCtx 1).parent ≠ 0xFFFF ∧ (nodeOf bridleCtx 1).parent ≠ 1 ∧ (nodeOf bridleCtx 1).state = 1) :=
  ⟨⟨issues_of (by decide +kernel), by decide +kernel⟩, ⟨issues_of (by decide +kernel), by decide +kernel, enter_of (by decide +kernel), by_of (by decide +kernel)⟩,
   ⟨runs_of (by decide +kernel), by decide +kernel⟩, by decide +kernel⟩
/-- BarrierObjects, counts: a count that completes the phase, one that does not, one that goes beyond it; no object, and another phase; a
team in its image, and one that is not. -/
theorem witness_object_counts : let s := mxState (oneOf [])
    let o := objOf mxTeam 0x40
    let im := { mxTeam with life := .spilled }
    findTeam s mxTeam.id = some mxTeam ∧ isBobj mxTeam 0x40 = true ∧ false = o.phase ∧ true ≠ o.phase ∧ isBobj mxTeam 0x48 = false ∧
    (0 < o.expected ∧ (o.arrived + 3) % 2 ^ 32 = o.expected ∧ ¬o.expected < o.arrived + 3) ∧ (o.arrived + 1) % 2 ^ 32 ≠ o.expected ∧
    o.expected < o.arrived + (2 ^ 32 - 1) ∧ teamOut mxTeam = false ∧ findTeam { s with teams := [im] } im.id = some im ∧ teamOut im = true := by decide +kernel
/-- TilesDrain, cells: a dense block and a sparse one, one whose group names three; finite elements, and a NaN. -/
theorem witness_cells : let v : Resv := ⟨0, 1, 13, 0, 4, 3072, 0, [], []⟩
    let x := { v with bytes := csetAll [] 0 (List.replicate 64 0xFF#8) }
    (0 < 4 ∧ denseAt v 0 0 ≠ none) ∧ denseAt x 0 0 = none ∧ denseAt { x with kind := 0 } 0 0 ≠ none ∧ (0 + 1) % 1 = 0 ∧ (0 + 1) % 2 ≠ 0 ∧
    (∀ p ∈ [FVal.fin true 3 (-2)].zip [FVal.fin false 5 1], ∃ s m e s' m' e', p = (.fin s m e, .fin s' m' e')) ∧
    (∃ p ∈ [FVal.nan false].zip [FVal.fin false 5 1], p.1.isNan = true ∨ p.2.isNan = true) :=
  ⟨by decide +kernel, by decide +kernel, by decide +kernel, by decide, by decide, by simp, by simp [FVal.isNan]⟩
/-- TilesDrain, stores: an element whose line is in scratch, and one whose is not; one in memory that lands, one whose page is not
mapped; the place of an add-on-store's element in scratch and in memory. -/
theorem witness_drain_writes : let d := { taskOf .running 0 [] plainRec with cols := 0 }
    let mem := fun (off : Nat) => taskOf .running 0 [] (wordsB [0, 0x0100000300000300, 0x0080000000000000, off, 0x0000000400000100, 0, 0, 0])
    let at_ := fun (k : Task) (n : Nat) => engLook (taskState k) k.id k.core mxTeam.ctx (recOf k.snap).dspan n 4 accWrite
    let u := taskOf .running 0 [] workedRec
    (findTask (taskState d) 9 = some d ∧ findTeam (taskState d) d.team = some mxTeam ∧ (recOf d.snap).dscr = true ∧ linesIn mxTeam 9 0x8000 4 = true ∧
      badPart (revived (taskState d).now mxTeam [0x8000, 0x8001, 0x8002, 0x8003]).scond [0x8000, 0x8001, 0x8002, 0x8003] = false ∧ linesIn mxTeam 9 65536 4 = false) ∧
    ((recOf (mem 0x10000).snap).dscr = false ∧ (match at_ (mem 0x10000) 0x10000 with
        | (.ok kv, s1) => engineMay s1 0 (kv.map (·.1)) && !badPart s1.mcond (kv.map (·.1)) && decide (kv ≠ []) && kv.all (fun p => decide (p.2 = 1)) &&
            kv.all (fun p => decide (aget 0 s1.mkey (p.1 / 64) = 0))
        | _ => false) = true ∧
      (match at_ (mem 0x50000) 0x50000 with
        | (.bad t, _) => decide (t = 1)
        | _ => false) = true) ∧
    (∀ x < 64, ∀ y < 64, linesIn mxTeam 9 (cellOff (recOf u.snap) x y) 4 = true) ∧
    (∀ x ∈ [0, 63], ∀ y ∈ [0, 63], exOk (engTrans (taskState (mem 0x10000)) 0 mxTeam.ctx 0 (cellOff (recOf (mem 0x10000).snap) x y) 4 accAtomic) = true) := by
  decide +kernel
/-- Bridles, changes: a node that is free, none; a parent's chain, after the roll-up that an end makes. -/
theorem witness_tree_changes : let s := { stateOf (oneOf []) with ctxs := [bridleCtx] }
    let full := { bridleCtx with nmax := 2 }
    (findCtx s bridleCtx.num = some bridleCtx ∧ freeNode bridleCtx = some 2 ∧ (1 : Nat) ≠ 2 ∧ 2 ∉ chainOf bridleCtx 1 ∧ (chainOf bridleCtx 1).Nodup ∧ chainOf bridleCtx 1 = [1, 0]) ∧
    (findCtx { s with ctxs := [full] } full.num = some full ∧ freeNode full = none) ∧
    ((findCtx (rollNode s bridleCtx.num 1) bridleCtx.num).map (fun c => decide ((nodeOf c 1).parent = 0 ∧ (chainOf c 0).Nodup)) = some true) ∧
    (findCtx (drainTree s bridleCtx.num 1 true) bridleCtx.num).isSome = true ∧ (findCtx (drainTree s bridleCtx.num 0 true) bridleCtx.num).isSome = true := by decide +kernel

/-! Launches, dispatchers, the front end, the host and the policy core. -/

/-- Memory with words of 8 bytes at offsets of the page at 0x10000. -/
def wordsAt (m : List Host.Cell) (l : List (Nat × List Nat)) : List Host.Cell :=
  l.foldl (fun m p => csetAll m (0x200000 + p.1) (wordsB p.2)) m
/-- A stage, and a launch of it for one team: 1 is the first word of its done. -/
def oneStage : StageD := ⟨0, 1, 33, 128, 8, 1, 2, 256⟩
def oneLaunch : Launch :=
  { id := 3, ctx := 0, cbase := 0x10000, stages := [oneStage], queues := [], args := [5#64], counts := [1], nexts := [0], retired := [0],
    since := [0], stalls := [0], done := true, dadr := 0x10040#64, dval := 1#64, prio := 7 }
/-- A device that runs nothing. -/
def idleState : State := { fetchState State.reset 0 with teams := [], trains := [], nextId := 20 }
/-- A decision finds a first candidate that is let in, is not blocked, and has its cores. -/
def admitsB (s : State) (die : Nat) : Bool :=
  match cands s die with
  | c :: rest => admissible s die c && !blockedBy s (c :: rest) c && (placeAll s die c.needs).isSome
  | [] => false
theorem admits_of {s : State} {die : Nat} (h : admitsB s die = true) : ∃ c rest cores, cands s die = c :: rest ∧
    admissible s die c = true ∧ blockedBy s (c :: rest) c = false ∧ placeAll s die c.needs = some cores := by
  simp only [admitsB] at h
  split at h
  · rename_i c rest hc
    simp only [Bool.and_eq_true, Bool.not_eq_true'] at h
    obtain ⟨cores, hp⟩ := Option.isSome_iff_exists.mp h.2
    exact ⟨c, rest, cores, hc, h.1.1, h.1.2, hp⟩
  · cases h
/-- TeamsAndAdmission: a team whose last train has retired; a launch that is done, and one with a write on its way. -/
theorem witness_TeamsAndAdmission : let r := { stateOf (fetchTrain 2 1) with trains := [], launches := [{ oneLaunch with id := 0 }] }
    let l := { idleState with launches := [oneLaunch] }
    let o := { l with reqs := [storeReq (oneOf [])] }
    (findTeam r (fetchTeam 1).id = some (fetchTeam 1) ∧ trainsLeft r 1 = 0 ∧ teamCmds r 1 = [] ∧ teamTasks r 1 = [] ∧ changesOf r 1 = [] ∧ r.heldDecs = [] ∧
      findLaunch r (fetchTeam 1).launch = some { oneLaunch with id := 0 }) ∧
    (findLaunch l oneLaunch.id = some oneLaunch ∧ orphanWrites l = false ∧ oneLaunch.done = true ∧
      ∃ s1, feWrite l oneLaunch.ctx 0 oneLaunch.dadr.toNat (bytesN 8 oneLaunch.dval.toNat) = .ok s1) ∧
    (findLaunch o oneLaunch.id = some oneLaunch ∧ orphanWrites o = true) :=
  ⟨by decide +kernel, (and3 (by decide +kernel) (ex_ok (by decide +kernel))), by decide +kernel⟩
@[inherit_doc witness_TeamsAndAdmission] theorem witness_admission : let l := { idleState with launches := [oneLaunch] }
    let z := { l with ctxs := [{ fetchCtx with budget := { fetchCtx.budget with slots := 0#16 } }] }
    let o := { l with launches := [{ oneLaunch with id := 2, since := [5] }, oneLaunch], now := 200000 }
    (∃ c rest cores, cands l 0 = c :: rest ∧ admissible l 0 c = true ∧ blockedBy l (c :: rest) c = false ∧ placeAll l 0 c.needs = some cores) ∧
    ((cands z 0).length = 1 ∧ ∀ c ∈ cands z 0, admissible z 0 c = false) ∧
    ((cands o 0).length = 2 ∧ (∃ c ∈ cands o 0, blockedBy o (cands o 0) c = true ∧ c.id = 2) ∧ ∃ c ∈ cands o 0, blockedBy o (cands o 0) c = false ∧ c.id = 3) ∧
    (findLaunch l oneLaunch.id = some oneLaunch ∧ oneLaunch.stages[0]? = some oneStage ∧ 0 < oneStage.threads ∧ l.trains = [] ∧ l.teams = [] ∧ 32 < oneStage.threads) ∧
    (l.now ≤ 7 ∧ ∃ x ∈ l.launches, x.id = 3 ∧ ∃ i < x.stages.length, x.nexts.getD i 0 < x.counts.getD i 0) ∧
    (findTeam (stateOf (oneOf [])) (fetchTeam 1).id = some (fetchTeam 1) ∧ (fetchTeam 1).life = .resident) :=
  ⟨admits_of (by decide +kernel), by decide +kernel, by decide +kernel, by decide +kernel, ⟨by decide +kernel, oneLaunch, by decide, by decide, 0, by decide +kernel⟩, by decide +kernel⟩
/-- Eviction: a team in each life, its train with it, a trap of it still to come; a count, a failure and an overrun for its object; back
on the core it was given, from a good image and from one in error. -/
theorem witness_Eviction : let t := { oneOf [(2, 5)] with halted := true }
    let p := { mxState (oneOf []) with trains := [{ oneOf [] with trap := some someTrap }] }
    let im := { mxTeam with life := .restoring, img := [(0, .bad)] }
    let st := fun (l : Life) => { mxState t with teams := [{ mxTeam with life := l }], nextId := 20 }
    (findTeam (mxState (oneOf [])) mxTeam.id = some mxTeam ∧ mxTeam.life = .resident ∧ trainsLeft (mxState (oneOf [])) mxTeam.id ≠ 0 ∧
      (∀ u ∈ teamTrains (mxState (oneOf [])) mxTeam.id, u.trap = none) ∧ findTrain (mxState (oneOf [])) 2 = some (oneOf []) ∧ (oneOf []).team = mxTeam.id ∧ (oneOf []).prol = none ∧ ∀ h, (oneOf []).migr ≠ .waiting h) ∧
    (findTeam p mxTeam.id = some mxTeam ∧ ∃ u ∈ teamTrains p mxTeam.id, u.trap ≠ none) ∧
    (findTeam (st .halting) mxTeam.id = some { mxTeam with life := .halting } ∧
      (∀ u ∈ teamTrains (st .halting) mxTeam.id, awaiting { st .halting with reqs := (st .halting).reqs.filter (fun r => !isSettle r) } u.uid = false ∧ u.migr = .none ∧
        swrPending (st .halting) u.uid = false ∧ u.trap = none) ∧
      scratchBusy (st .halting) mxTeam.id = false ∧ ((st .halting).redirects.filter (fun q => q.die == dieOf mxTeam.core)).length < 1024) ∧
    (findTeam (st .spilling) mxTeam.id = some { mxTeam with life := .spilling } ∧ (st .spilling).tasks = [] ∧ (st .spilling).cmds = []) ∧
    (isBobj mxTeam 0x40 = true ∧ false = (objOf mxTeam 0x40).phase ∧ 0 < (objOf mxTeam 0x40).expected ∧ ((objOf mxTeam 0x40).arrived + 3) % 2 ^ 32 = (objOf mxTeam 0x40).expected ∧
      (objOf mxTeam 0x40).expected < (objOf mxTeam 0x40).arrived + 4 ∧ 9 ≠ 0) ∧
    (findTeam (st .restoring) mxTeam.id = some { mxTeam with life := .restoring } ∧ ({ mxTeam with life := .restoring } : Team).core = 0 ∧ imageFault { mxTeam with life := .restoring } = none ∧
      findTrain (st .restoring) 2 = some t ∧ (slotAt t 0).wait = .none ∧ countsComing (st .restoring) mxTeam.id = false ∧
      countsComing { st .restoring with agenda := [.redirectCount mxTeam.id 0x40 8 false 0] } mxTeam.id = true) ∧
    (findTeam { st .restoring with teams := [im] } mxTeam.id = some im ∧ im.core = 0 ∧ imageFault im = some 141) :=
  ⟨(and7 (by decide +kernel) (fun h => by simp [oneOf, fetchTrain])),
   by decide +kernel⟩
/-- A packet of the ring, of a type and a body. -/
def pktOf (ty : Nat) (body : List Nat) : WPkt :=
  { hdr := ty + 256 * body.length, body := body.map (BitVec.ofNat 64), err := 0, cause := 0, arms := [], thenA := 5, elseA := 6, close := some 4, before := [ringFrame 0] }
/-- A mapped queue of context 0 in slot 3 that processes the packets given. -/
def queueWith (l : List WPkt) : QSlot :=
  { slot := 3, ctx := 0, desc := 0x10400#64, base := 0x11000#64, span := 0, z := 12, prio := 1, rptr := 0, wptr := 24, state := 1, fault := 0, pend := false,
    rpub := 0x10500#64, stack := [ringFrame 4], window := l, dead := [], stuck := false, frozen := false, heldWakes := [], busy := true, launches := [], watch := none }
/-- The device with that queue, and words in the page. -/
def queueState (q : QSlot) (l : List (Nat × List Nat)) : State := { idleState with queues := [q], mem := wordsAt idleState.mem l }
def headB (s : State) (slot : Nat) (q : QSlot) (p : WPkt) : Bool :=
  decide (findQ s slot = some q) && decide (q.window.head? = some p) && decide (q.state = 1) && q.busy && decide (p.err = 0) && !q.frozen && !rptrWaits s q &&
    (decide (bitsN p.hdr 24 1 ≠ 1) || q.launches.isEmpty)
theorem head_of {s : State} {slot : Nat} {q : QSlot} {p : WPkt} (h : headB s slot q p = true) : ∃ rest, AtHead s slot q p rest := by
  simp only [headB, Bool.and_eq_true, decide_eq_true_eq, Bool.or_eq_true, List.isEmpty_iff, Bool.not_eq_true'] at h
  obtain ⟨⟨⟨⟨⟨⟨⟨a, b⟩, c⟩, d⟩, e⟩, f⟩, w⟩, g⟩ := h
  obtain ⟨l, hl⟩ : ∃ l, q.window = p :: l := by
    cases hw : q.window with
    | nil => rw [hw] at b; cases b
    | cons x l => rw [hw] at b; cases b; exact ⟨l, rfl⟩
  exact ⟨l, a, hl, c, d, e, f, fun hw => g.elim (fun n => absurd hw n) id, w⟩
/-- A packet at the head of the queue of `queueWith`, with words in the page. -/
def Heads (p : WPkt) (l : List (Nat × List Nat)) : Prop := ∃ rest, AtHead (queueState (queueWith [p]) l) 3 (queueWith [p]) p rest
theorem heads_of {p : WPkt} {l : List (Nat × List Nat)} (h : headB (queueState (queueWith [p]) l) 3 (queueWith [p]) p = true) : Heads p l := head_of h
/-- What the front end reads for context 0 in that device. -/
def feHas (p : WPkt) (l : List (Nat × List Nat)) (off n v : Nat) : Bool :=
  match feRead (queueState (queueWith [p]) l) 0 0 off n with
  | .ok bs => decide (leN bs = v)
  | .error _ => false
/-- PacketFlow: a packet that ends, one of a queue that is to be unmapped, one with its wait flag set behind a launch, a stopped queue; each form with good and bad fields at the ends of their
ranges, a PRED that holds and one that does not, and one at an offset that is not mapped. -/
theorem witness_PacketFlow : let w := { pktOf 3 [0x10000, 1] with hdr := 3 + 256 * 2 + 2 ^ 24 }
    let q := { queueWith [w] with launches := [3] }
    (findQ (queueState (queueWith [pktOf 0 []]) []) 3 = some (queueWith [pktOf 0 []]) ∧ (queueWith [pktOf 0 []]).window = [pktOf 0 []] ∧ (queueWith [pktOf 0 []]).frozen = false) ∧
    (findQ (queueState { queueWith [pktOf 0 []] with frozen := true } []) 3 = some { queueWith [pktOf 0 []] with frozen := true } ∧ (pktOf 0 []).err = 0) ∧
    (findQ (queueState q []) 3 = some q ∧ q.window = [w] ∧ q.state = 1 ∧ q.busy = true ∧ w.err = 0 ∧ q.frozen = false ∧ bitsN w.hdr 24 1 = 1 ∧ q.launches ≠ [] ∧ bitsN w.hdr 0 8 = 3) ∧
    findQ (queueState { queueWith [w] with state := 3 } []) 3 = some { queueWith [w] with state := 3 } ∧
    Heads (pktOf 0 []) [] ∧
    (Heads (pktOf 3 [0x10000, 2 ^ 32 - 1]) [] ∧ Heads (pktOf 3 [0x10000, 2 ^ 32]) [] ∧ Heads (pktOf 3 [0x10000, 0]) [] ∧ Heads (pktOf 3 [0x10004, 1]) []) ∧
    (Heads (pktOf 5 [2 ^ 32 - 1]) [] ∧ Heads (pktOf 5 [255]) [] ∧ Heads (pktOf 5 [256]) [] ∧ Heads (pktOf 5 [2 ^ 32 + 257]) []) ∧
    Heads (pktOf 6 []) [] ∧
    (Heads (pktOf 4 [0x10040, 7, 4]) [(0x40, [7])] ∧ feHas (pktOf 4 [0x10040, 7, 4]) [(0x40, [7])] 0x10040 8 7 = true ∧ (7 : Nat) &&& 7 ≠ 0 ∧
      feHas (pktOf 4 [0x10040, 8, 4]) [(0x40, [7])] 0x10040 8 7 = true ∧ (7 : Nat) &&& 8 = 0 ∧ Heads (pktOf 4 [0x10040, 8, 4]) [(0x40, [7])] ∧
      Heads (pktOf 4 [0x10040, 7, 5]) [] ∧ Heads (pktOf 4 [0x20000, 7, 0]) [] ∧
      exOk (feRead (queueState (queueWith [pktOf 4 [0x20000, 7, 0]]) []) 0 0 0x20000 8) = false) :=
  (and4 (by decide +kernel) ⟨heads_of (by decide +kernel), ⟨heads_of (by decide +kernel), heads_of (by decide +kernel), heads_of (by decide +kernel), heads_of (by decide +kernel)⟩, ⟨heads_of (by decide +kernel), heads_of (by decide +kernel), heads_of (by decide +kernel), heads_of (by decide +kernel)⟩, heads_of (by decide +kernel), ⟨heads_of (by decide +kernel), and4 (by decide +kernel) ⟨heads_of (by decide +kernel), heads_of (by decide +kernel), heads_of (by decide +kernel), by decide +kernel⟩⟩⟩)
@[inherit_doc witness_PacketFlow] theorem witness_packets_wait :
    let q := queueWith [pktOf 0 []]
    let p := pktOf 4 [0x10040, 7, 4]
    let h := { storeReq (oneOf []) with core := 0xFF, stage := .home, keys := (kvOf 0x40 8).map (·.1) }
    let s := { queueState { queueWith [p] with rpub := 0#64 } [(0x40, [7])] with reqs := [h] }
    let m := { queueState q [] with mcond := [(0x200500 / 32, .bad)] }
    (findQ { queueState q [] with reqs := [h] } 3 = some q ∧ q.rpub ≠ 0#64 ∧ ioClear { queueState q [] with reqs := [h] } = false ∧ q.state = 1 ∧ q.busy = true ∧ q.frozen = false) ∧
    ((∃ rest, AtHead s 3 { queueWith [p] with rpub := 0#64 } p rest) ∧ feBehind s 0 0 0x10040 8 = true ∧ feBehind (queueState (queueWith [p]) [(0x40, [7])]) 0 0 0x10040 8 = false) ∧
    (findQ m 3 = some q ∧ exOk (feWrite m 0 0 q.rpub.toNat (bytesN 8 24)) = false) ∧
    (let c := { idleState with launches := [oneLaunch], reqs := [h] }
     findLaunch c oneLaunch.id = some oneLaunch ∧ oneLaunch.done = true ∧ ioClear c = false ∧ ioClear { c with reqs := [] } = true) :=
  ⟨by decide +kernel, ⟨head_of (by decide +kernel), by decide +kernel⟩, by decide +kernel⟩
/-- The answer of a translation, where it has one; the fault of a read. -/
def exGet {α β : Type} : Except α β → Option β
  | .ok b => some b
  | _ => none
theorem ex_get {α β : Type} {r : Except α β} {b : β} (h : exGet r = some b) : r = .ok b := by
  cases r with
  | ok c => cases h; rfl
  | error a => cases h
theorem some_of {α : Type} {o : Option α} (h : o.isSome = true) : ∃ a, o = some a := Option.isSome_iff_exists.mp h
def exErr {α β : Type} : Except α β → Option α
  | .error a => some a
  | _ => none
theorem ex_err {α β : Type} {r : Except α β} {a : α} (h : exErr r = some a) : r = .error a := by
  cases r with
  | ok c => cases h
  | error a => cases h; rfl
def rdBad : Rd → Option Nat
  | .bad d => some d
  | _ => none
theorem rd_bad {r : Rd} {d : Nat} (h : rdBad r = some d) : r = .bad d := by
  cases r with
  | ok b => cases h
  | bad e => cases h; rfl
/-- PacketAccesses: a word that satisfies its test, one that does not, one that cannot be read; a write that is aligned, and one that is not; the
object of a team, no such object, a count out of range; the last slot that can be woken, and the first beyond. -/
theorem witness_PacketAccesses : let wm := pktOf 7 [0x10040, 7, 0]
    let s := queueState (queueWith [wm]) [(0x40, [7])]
    let n := queueState { queueWith [wm] with watch := some [] } [(0x40, [8])]
    let b := { s with mcond := [(0x200040 / 32, .bad)] }
    let wr := pktOf 8 [0x10040, 9]
    let sb := pktOf 9 [0x40, 3]
    let st := { queueState (queueWith [sb]) [] with teams := [mxTeam] }
    (Heads wm [(0x40, [7])] ∧ bitsN wm.hdr 0 8 = 7 ∧ bodyW wm 0 % 8 = 0 ∧ bodyW wm 2 ≤ 4 ∧ transNow s 0 0 (bodyW wm 0) 8 accRead = .ok (kvOf 0x40 8) ∧
      (∃ bs, readDie s 4 (kvOf 0x40 8) = .ok bs) ∧ predTest (bodyW wm 2 % 16) 7 (bodyW wm 1) = true) ∧
    ((∃ rest, AtHead n 3 { queueWith [wm] with watch := some [] } wm rest) ∧ (∃ bs, readDie n 4 (kvOf 0x40 8) = .ok bs) ∧ predTest (bodyW wm 2 % 16) 8 (bodyW wm 1) = false ∧
      (some [] : Option (List Nat)) ≠ none ∧ atTime n 0 = n) ∧
    ((∃ rest, AtHead b 3 (queueWith [wm]) wm rest) ∧ transNow b 0 0 (bodyW wm 0) 8 accRead = .ok (kvOf 0x40 8) ∧ readDie b 4 (kvOf 0x40 8) = .bad 1 ∧ (1 : Nat) < 32) ∧
    (Heads wr [] ∧ bitsN wr.hdr 0 8 = 8 ∧ transNow s 0 0 (bodyW wr 0) 8 accWrite = .ok (kvOf 0x40 8) ∧ (∀ x ∈ kvOf 0x40 8, aget HalfCond.clean (queueState (queueWith [wr]) []).mcond (x.1 / 32) ≠ .bad) ∧ Heads (pktOf 8 [0x10044, 9]) [] ∧ bodyW (pktOf 8 [0x10044, 9]) 0 % 8 ≠ 0) ∧
    ((∃ rest, AtHead st 3 (queueWith [sb]) sb rest) ∧ signalTeam st 0 0 0 0x40 = some mxTeam ∧ signalTeam st 0 0 1 0x40 = none ∧ signalTeam st 0 0 0 0x100 = none ∧
      Heads (pktOf 9 [2 ^ 48, 2 ^ 32 - 1]) [] ∧ Heads (pktOf 9 [0x40, 2 ^ 32]) []) ∧
    (Heads (pktOf 9 [2 ^ 62 + 511, 64]) [] ∧ Heads (pktOf 9 [2 ^ 62 + 512, 64]) [] ∧ bodyW (pktOf 9 [2 ^ 62 + 512, 64]) 0 / 2 ^ 62 % 4 = 1) :=
  ⟨⟨heads_of (by decide +kernel), and3 (by decide +kernel) ⟨ex_get (by decide +kernel), rd_ok (by decide +kernel), by decide +kernel⟩⟩,
   ⟨head_of (by decide +kernel), rd_ok (by decide +kernel), by decide +kernel⟩,
   ⟨head_of (by decide +kernel), ex_get (by decide +kernel), rd_bad (by decide +kernel), by decide⟩,
   ⟨heads_of (by decide +kernel), by decide, ex_get (by decide +kernel), by decide +kernel, heads_of (by decide +kernel), by decide +kernel⟩,
   ⟨head_of (by decide +kernel), and3 (by decide +kernel) ⟨heads_of (by decide +kernel), heads_of (by decide +kernel)⟩⟩,
   heads_of (by decide +kernel), heads_of (by decide +kernel), by decide +kernel⟩
@[inherit_doc witness_PacketAccesses] theorem witness_accesses_wait :
    let wm := pktOf 7 [0x10040, 7, 0]
    let wr := pktOf 8 [0x10040, 9]
    let h := { storeReq (oneOf []) with core := 0xFF, stage := .home, keys := (kvOf 0x40 8).map (·.1) }
    let z := fun (p : WPkt) => { queueWith [p] with rpub := 0#64 }
    let on := fun (p : WPkt) => { queueState (z p) [(0x40, [7])] with reqs := [h] }
    let b := { queueState (queueWith [wr]) [] with mcond := [(0x200040 / 32, .bad)] }
    let kv := trKv (transNow b 0 0 (bodyW wr 0) 8 accWrite)
    ((∃ rest, AtHead (on wm) 3 (z wm) wm rest) ∧ ioBehind (on wm) ((kvOf 0x40 8).map (·.1)) = true ∧
      trKv (transNow (on wm) 0 0 (bodyW wm 0) 8 accRead) = kvOf 0x40 8) ∧
    ((∃ rest, AtHead (on wr) 3 (z wr) wr rest) ∧ ioClear (on wr) = false ∧ ioClear (queueState (queueWith [wr]) []) = true) ∧
    ((∃ rest, AtHead b 3 (queueWith [wr]) wr rest) ∧ ioClear b = true ∧
      kv ≠ [] ∧ (∃ x ∈ kv, aget HalfCond.clean b.mcond (x.1 / 32) = .bad) ∧ (∀ x ∈ kv, x.2 = 1 ∧ aget 0 b.mkey (x.1 / 64) = 0) ∧
      ∀ x ∈ (sectorsOf 0 0 (bodyW wr 0) 8).take 1, ∀ c ∈ findCtx b x.1, c.nodes = []) :=
  ⟨⟨head_of (by decide +kernel), by decide +kernel⟩, ⟨head_of (by decide +kernel), by decide +kernel⟩, head_of (by decide +kernel), by decide +kernel⟩
/-- The words of a kernel descriptor with one stage of 32 threads, and of a launch of it. -/
def kernelWords : List Nat := [2 ^ 56 + 2 * 2 ^ 32, 0x10000, 0, 2 ^ 32 + 32 * 2 ^ 16, 0, 0]
def launchWords : List Nat := [0x10100, 0, 0, 0, 0, 0, 0, 0, 11, 12, 0, 0, 0, 0, 0, 0]
/-- The device with that kernel at 0x10100, and the launch at 0x10800. -/
def kernelState (q : QSlot) : State := queueState q [(0x100, kernelWords), (0x800, launchWords)]
/-- A launch read from 128 bytes at an offset: whether it is accepted. -/
def launchAt (s : State) (off : Nat) : Option Bool :=
  match feRead (feNote s 0 0 off 128) 0 0 off 128 with
  | .ok bs => some (exOk (acceptLaunch (feNote s 0 0 off 128) 0 7 none bs))
  | .error _ => none
theorem launch_ok {s : State} {off : Nat} (h : launchAt s off = some true) : ∃ bs s2, feRead (feNote s 0 0 off 128) 0 0 off 128 = .ok bs ∧
    acceptLaunch (feNote s 0 0 off 128) 0 7 none bs = .ok s2 := by
  unfold launchAt at h
  split at h
  · rename_i bs hb
    obtain ⟨s2, h2⟩ := ex_ok (Option.some.inj h)
    exact ⟨bs, s2, hb, h2⟩
  · cases h
theorem launch_bad {s : State} {off : Nat} (h : launchAt s off = some false) : ∃ bs n, feRead (feNote s 0 0 off 128) 0 0 off 128 = .ok bs ∧
    acceptLaunch (feNote s 0 0 off 128) 0 7 none bs = .error n := by
  unfold launchAt at h
  split at h
  · rename_i bs hb
    cases ha : acceptLaunch (feNote s 0 0 off 128) 0 7 none bs with
    | ok s2 => rw [ha] at h; cases h
    | error n => exact ⟨bs, n, hb, ha⟩
  · cases h
/-- LaunchPackets: a body that is accepted, one whose descriptor is misaligned; a free prologue unit, none free, a misaligned entry. -/
theorem witness_LaunchPackets : let p := pktOf 1 launchWords
    let b := pktOf 1 (0x10104 :: launchWords.drop 1)
    let s := kernelState (queueWith [p])
    let l := pktOf 2 (0x10000 :: launchWords)
    let t := { kernelState (queueWith [l]) with trains := List.replicate 3 prologueTrain }
    let f := { kernelState (queueWith [l]) with trains := List.replicate 4 prologueTrain }
    let g := { idleState with trains := [{ prologueTrain with prol := some (3, 0, 15, 4095) }] }
    let c := { fetchCtx with dlq := [(0x10800#64, 7)] }
    let d := { kernelState (queueWith []) with ctxs := [c] }
    let e := { d with ctxs := [{ c with dlq := [(0x10100#64, 7)] }] }
    ((∃ rest, AtHead s 3 (queueWith [p]) p rest) ∧ bitsN p.hdr 0 8 = 1 ∧ ∃ s1, acceptLaunch s (queueWith [p]).ctx (queueWith [p]).prio (some 3) (bytesOf p.body) = .ok s1) ∧
    (Heads b [] ∧ acceptLaunch (queueState (queueWith [b]) []) 0 1 (some 3) (bytesOf b.body) = .error 0) ∧
    ((∃ rest, AtHead t 3 (queueWith [l]) l rest) ∧ bitsN l.hdr 0 8 = 2 ∧ bodyW l 0 % 4 = 0 ∧ (t.trains.filter (fun t => t.prol.isSome)).length = 3) ∧
    ((∃ rest, AtHead f 3 (queueWith [l]) l rest) ∧ (f.trains.filter (fun t => t.prol.isSome)).length = 4 ∧ Heads (pktOf 2 (0x10002 :: launchWords)) []) ∧
    findTrain g 2 = some { prologueTrain with prol := some (3, 0, 15, 4095) } ∧
    (findCtx d c.num = some c ∧ c.dlq = (0x10800#64, 7) :: [] ∧ ctxClosing d 0 = false ∧ ∃ bs s2, feRead (feNote { d with ctxs := [fetchCtx] } 0 0 0x10800 128) 0 0 0x10800 128 = .ok bs ∧
      acceptLaunch (feNote { d with ctxs := [fetchCtx] } 0 0 0x10800 128) 0 7 none bs = .ok s2) ∧
    ∃ bs n, feRead (feNote { e with ctxs := [fetchCtx] } 0 0 0x10100 128) 0 0 0x10100 128 = .ok bs ∧
      acceptLaunch (feNote { e with ctxs := [fetchCtx] } 0 0 0x10100 128) 0 7 none bs = .error n :=
  ⟨⟨head_of (by decide +kernel), by decide, ex_ok (by decide +kernel)⟩, ⟨heads_of (by decide +kernel), ex_err (by decide +kernel)⟩,
   ⟨head_of (by decide +kernel), by decide +kernel⟩, ⟨head_of (by decide +kernel), by decide +kernel, heads_of (by decide +kernel)⟩, by decide +kernel,
   (and3 (by decide +kernel) (launch_ok (by decide +kernel))), launch_bad (by decide +kernel)⟩
/-- LaunchesFromPrograms: a prologue run whose k registers describe that launch, with its fifteenth commit and its last still to come. -/
def commitTrain (n : Nat) : Train := { oneOf [] with prol := some (3, 0, n, 0), k := csetAll [] 0 (launchWords.map (BitVec.ofNat 64)) }
def commitState (n : Nat) : State := { kernelState (queueWith []) with trains := [commitTrain n], iss := some (issOf (commitTrain n)) }
@[inherit_doc commitTrain] theorem witness_commits : activeMask (issOf (commitTrain 14)) (commitTrain 14) ≠ 0#32 ∧ (commitTrain 14).prol = some (3, 0, 14, 0) ∧
    findQ (commitState 14) 3 = some (queueWith []) ∧ Issues .sysLcommit (commitState 14) (issOf (commitTrain 14)) (commitTrain 14) ∧
    Issues .sysLrepeat (commitState 14) (issOf (commitTrain 14)) (commitTrain 14) ∧ Issues .sysLrepeat (commitState 15) (issOf (commitTrain 15)) (commitTrain 15) ∧
    (∃ s1, acceptLaunch (commitState 14) 0 1 (some 3) (bytesOf ((List.range 16).map (cget (commitTrain 14).k))) = .ok s1) ∧
    (∃ s1, acceptLaunch (commitState 15) 0 1 (some 3) (bytesOf ((List.range 16).map (cget (commitTrain 15).k))) = .ok s1) ∧
    ((exGet (acceptLaunch (commitState 14) 0 1 (some 3) (bytesOf ((List.range 16).map (cget (commitTrain 14).k))))).bind (findQ · 3)).map (·.frozen) = some false :=
  (and3 (by decide +kernel) ⟨issues_of (by decide +kernel), issues_of (by decide +kernel), issues_of (by decide +kernel), ex_ok (by decide +kernel), ex_ok (by decide +kernel), by decide +kernel⟩)
/-- WakesAndWindows: no such slot; a slot in each state; windows that hold a packet, one at fault, and none; the stream at its written end, a reserved
type, a reserved bit, and a packet that ends with it. -/
theorem witness_WakesAndWindows : let q := { queueWith [] with busy := false }
    let n := { queueWith [pktOf 0 []] with busy := false }
    let e := { queueWith [{ pktOf 0 [] with err := 1 }] with busy := false }
    let r := { q with stack := [ringFrame 23] }
    let hd := fun (w : Nat) => queueState q [(0x1000 + 8 * 23, [w])]
    (∀ x, findQ (queueState q []) 4 = some x → x.ctx ≠ 0 ∨ x.state = 0) ∧ findQ (queueState q []) 3 = some q ∧
    (q.state = 1 ∧ q.frozen = false ∧ q.busy = false) ∧ findQ (queueState { q with frozen := true } []) 3 = some { q with frozen := true } ∧
    findQ (queueState { q with state := 2 } []) 3 = some { q with state := 2 } ∧
    (findQ (refill (queueState q []) 3 (q.wptr + 64)) 3).map (·.window.length) = some 16 ∧
    (findQ (refill (queueState { r with wptr := 23 } []) 3 (23 + 64)) 3).map (·.window) = some [] ∧
    ((findQ (refill (queueState n []) 3 (n.wptr + 64)) 3).bind (·.window.head?) = some (pktOf 0 [])) ∧
    ((findQ (refill (queueState e []) 3 (e.wptr + 64)) 3).bind (·.window.head?) = some { pktOf 0 [] with err := 1 }) ∧
    (r.stack = [ringFrame 23] ∧ 23 < r.wptr ∧ (r.base.toNat + 8 * 23 % 2 ^ r.z) % 2 ^ 64 = 0x110B8 ∧ 9 < 10 % 256 ∧ 2 ^ 25 / 2 ^ 25 % 2 ^ 39 ≠ 0 ∧
      (∃ bs, feRead (hd 10) 0 0 0x110B8 8 = .ok bs) ∧ (∃ bs, feRead (hd 6) 0 0 0x110B8 8 = .ok bs) ∧ bodyLen 6 = 0 ∧ 23 + 1 + 0 ≤ r.wptr ∧ r.wptr < 23 + 1 + 1 ∧ bodyLen 5 = 1) :=
  and8 (by decide +kernel) ⟨by decide +kernel, and5 (by decide +kernel) ⟨ex_ok (by decide +kernel), ex_ok (by decide +kernel), by decide +kernel⟩⟩
/-- WakesAndWindows: 65 queues that have something to process share 64 places, and the last one's event does not come. -/
theorem witness_ServedQueues : let q := queueWith [pktOf 0 []]
    let s := { idleState with queues := (List.range 65).map (fun n => { q with slot := n }), agenda := (List.range 65).map .packetNop }
    s.served.length ≤ 64 ∧ (∀ n < 65, (findQ s n).map (queueRuns s) = some true) ∧ (serve s).served = List.range 64 ∧
    eventQueue (.packetNop 64) = some 64 ∧ (serve s).agenda[64]? = some (.packetNop 64) := by decide +kernel
/-- The words of a queue descriptor: a ring of 4,096 bytes at 0x11000, at priority 7, with something to process. -/
def queueWords : List Nat := [0x11000, 12 * 2 ^ 32 + 7 * 2 ^ 16, 0, 4, 0, 0, 0, 0]
/-- The device with that descriptor at 0x10400. -/
def descState (ws : List Nat) : State := { idleState with mem := wordsAt idleState.mem [(0x400, ws)] }
/-- QueueMapping: a descriptor in order, one that was saved, one with a reserved bit, one above the context's priority; a slot that is busy, and one that is not. -/
theorem witness_QueueMapping : let s := descState queueWords
    let v := descState (queueWords.set 4 5)
    let low := { fetchCtx with budget := { fetchCtx.budget with dprio := 6#3 } }
    let b := queueWith [pktOf 0 []]
    (s.booted = true ∧ findCtx s 0 = some fetchCtx ∧ (0x10400#64).toNat % 64 = 0 ∧ 511 < 512 ∧ s.queues = [] ∧
      (∃ bs, feRead s 0 0 (0x10400#64).toNat 64 = .ok bs) ∧ (∃ q, queueOf fetchCtx 0x10400#64 511 (wordsB queueWords) = some q) ∧ wordAt (wordsB queueWords) 4 / 2 % 4 ≠ 2) ∧
    ((∃ bs, feRead v 0 0 (0x10400#64).toNat 64 = .ok bs) ∧ wordAt (wordsB (queueWords.set 4 5)) 4 / 2 % 4 = 2) ∧
    (low.budget.dprio.toNat < wordAt (wordsB queueWords) 1 / 2 ^ 16 % 8 ∧ queueOf low 0x10400#64 511 (wordsB queueWords) = none) ∧
    wordAt (wordsB (queueWords.set 4 (2 ^ 63))) 4 / 2 ^ 16 % 2 ^ 48 ≠ 0 ∧ queueOf fetchCtx 0x10400#64 511 (wordsB (queueWords.set 4 (2 ^ 63))) = none ∧
    (findQ (queueState b []) 3 = some b ∧ b.state = 1 ∧ b.busy = true ∧ b.watch = none) ∧
    findQ (queueState { b with busy := false } []) 3 = some { b with busy := false } ∧ findQ (queueState { b with state := 2 } []) 3 = some { b with state := 2 } ∧ b.heldWakes = [] :=
  ⟨(and5 (by decide +kernel) ⟨ex_ok (by decide +kernel), some_of (by decide +kernel), by decide +kernel⟩), ⟨ex_ok (by decide +kernel), by decide +kernel⟩, by decide +kernel⟩
/-- The description of a context with a number. -/
def specOf (n : Nat) : CtxSpec :=
  { num := n, budget := none, oskey := 1#32, thand := 0#64, spanPa := 0x140000, spanLen := 1, nmax := 2, nodePa := 0x300000, nodeOff := 0x20000, nodeKey := 0, tabs := [0x340000, 0x350000],
    owner := 7#64, ringOff := 0x10600#64, ringRecs := 64 }
/-- ContextRequests: the last number, the first beyond, one in use, a ring that is too small; a context with a team and a queue, and one whose queue is
idle and whose team has nothing under way. -/
theorem witness_ContextRequests : let s := { mxState (oneOf []) with queues := [queueWith []] }
    (s.booted = true ∧ (specOf 127).num < 128 ∧ findCtx s (specOf 127).num = none ∧ ringFits (specOf 127) = true ∧ (specOf 127).nmax ≠ 0 ∧ ringFits { specOf 127 with ringRecs := 63 } = false) ∧ 128 ≤ (specOf 128).num ∧ findCtx s (specOf 0).num ≠ none ∧
    (findCtx s fetchCtx.num = some fetchCtx ∧ s.teams = [mxTeam] ∧ mxTeam.ctx = fetchCtx.num ∧ mxTeam.life ≠ .spilled ∧ mxTeam ∈ formTeams s mxTeam) ∧
    (∀ q ∈ s.queues, ∀ o ∈ s.queues, q.slot = o.slot → q = o) ∧ s.cmds = [] ∧ s.tasks = [] ∧ ∀ q ∈ ({ s with queues := [{ queueWith [] with busy := false }] } : State).queues, q.busy = false := by decide +kernel
/-- ContextRequests, pages: a node table that is mapped below tables that are made, one for which the pages run out, none to map; a span
that names its tables, is not there, is no table; an entry that names a table, is not there, is a leaf; a key slot that the context loaded. -/
theorem witness_context_pages : let s := { mxState (oneOf []) with keys := [(5, 9)], keyCtx := [(5, 0)] }
    let made := fun (c : CtxSpec) => let x := newCtx c
      let s0 := zeroPages s (createHit s c) ({ nodePages x with key := c.nodeKey % 1024 } :: ctxPages s x)
      (mapNodes x c.nodeOff c.nodeKey (List.range ((32 * x.nmax + 65535) / 65536)) s0 c.tabs).isSome
    let new := { specOf 1 with spanPa := 0x500000, tabs := [0x340000, 0x350000, 0x360000, 0x370000] }
    let old := peekN s 0x130008 8
    made (specOf 1) = true ∧ made new = true ∧ made { new with tabs := [0x340000] } = false ∧ made { new with nmax := 0, tabs := [] } = true ∧
    (spanEntry s fetchCtx 0 % 8 = 1 ∧ spanEntry s (newCtx new) 0 % 8 = 0 ∧ (newCtx new).spanLen ≠ 0 ∧
      spanEntry { s with mem := csetAll s.mem 0x140000 (bytesN 16 (0x10 * 2 ^ 80 + 4)) } fetchCtx 0 % 8 = 4) ∧
    (peekN s 0x100000 8 % 4 = 1 ∧ peekN s 0x500000 8 % 2 = 0 ∧ old % 4 = 3) ∧
    afind s.keyCtx 5 = some fetchCtx.num := by decide +kernel
/-- BringUpAndHost: the mailbox before bring-up, after it, and a key message with a slot or a number out of range; a far access of one byte, to a mapped
offset and to the host's own memory, and an atomic; a write of the far side still to come. Whether a message verifies, and an image, is free. -/
theorem witness_BringUpAndHost : let m : KeyMsg := ⟨0, 1023, 1, [], 0#96, 0#512, 0#128, []⟩
    let s := { idleState with measure := List.replicate 64 1#8 }
    let a : HostAcc := ⟨13, false, 0, 0x10040#64, 8, .read⟩
    State.reset.booted = false ∧
    (s.booted = true ∧ findCtx s m.ctx = some fetchCtx ∧ m.slot < 1024 ∧ fetchCtx.lastSeq < m.seq ∧ keyInUse s (keyVersion s m.slot) = false ∧
      keyInUse { s with keys := [(1023, 5)], reqs := [{ storeReq (oneOf []) with keyIds := [keyVersion { s with keys := [(1023, 5)] } 1023] }] }
        (keyVersion { s with keys := [(1023, 5)] } 1023) = true) ∧
    (1024 ≤ ({ m with slot := 1024 } : KeyMsg).slot ∧ ({ m with seq := 0 } : KeyMsg).seq ≤ fetchCtx.lastSeq) ∧ s.measure.length = 64 ∧
    (hostLocs s a = some (kvOf 0x40 8) ∧ a.op = .read ∧ hostBehind s (kvOf 0x40 8) false = false ∧ hostBehind s (kvOf 0x40 4) true = false ∧
      hostBehind { s with reqs := [{ storeReq (oneOf []) with tr := 0, keys := (kvOf 0x40 8).map (·.1) }] } (kvOf 0x40 8) false = true ∧
      (∃ bs, readDie s 4 (kvOf 0x40 8) = .ok bs) ∧ ∃ bs, readHome s (kvOf 0x40 4) = .ok bs) ∧
    hostLocs s { a with op := .write [1#8] } = some (kvOf 0x40 1) ∧ hostLocs s { a with op := .atom .add .a32 1#128 0#128 } = some (kvOf 0x40 4) ∧ a.off.toNat % atomBytes .a32 = 0 ∧
    hostLocs s { a with own := true, port := 1, size := 1 } = some [(2 ^ 53 + 0x10040, 0)] ∧ 0 < hostSize { a with size := 1 } := by
  exact (and4 (by decide +kernel) ⟨(and5 (by decide +kernel) ⟨rd_ok (by decide +kernel), rd_ok (by decide +kernel)⟩), by decide +kernel⟩)
/-- A record of kind 4, with every field at its largest value. -/
def fullRec : ErrRec := ⟨255, 3, 31, 255, 255, 511, 7#64, 65535, 65535, 2 ^ 32 - 1, 2 ^ 64 - 1, [1#64, 2#64]⟩
/-- A page that lies beyond a link: its bytes, and a request for them. -/
def farReq (k : ReqKind) : Req := { mkReq 0 (issOf (oneOf [])) (oneOf []) 0 (slotAt (oneOf []) 0) 9 8 k .plain .none 0#80 [(2 ^ 52, 0)] [] [] with stage := .home }
/-- The device whose span 0 entry names a peer, with commands. -/
def farSpanState (l : List Cmd) : State := { cmdState l with mem := csetAll (cmdState l).mem 0x140000 (bytesN 16 (0x10 * 2 ^ 80 + 2)) }
/-- ErrorRecords: no record, one; a ring with a free record, one that the host has not read, none; a held record, of this unit and of none; a load and a
store beyond a link, a command from there, to there, both and neither; a slot that polls there. -/
theorem witness_ErrorRecords : let c := { fetchCtx with ringOff := 0x10600#64, ringRecs := 2 }
    let s := { idleState with ctxs := [c], errs := [fullRec] }
    let h : HeldRec := ⟨5, fullRec, 3, 2400000⟩
    let rl := farReq (.load .b64 0 none)
    let rs := farReq (.store [5#8])
    let on := fun (r : Req) => withReqs (oneOf []) [r]
    let src := cmdOf .pfill .running (some pfillBytes) 0#64
    let dst := cmdOf .fill .running (some (wordsB ([0, 0, 0x10000, 0, 1] ++ List.replicate 19 0))) 0#64
    (idleState.errs = [] ∧ s.errs = fullRec :: [] ∧ c.ringRecs ≠ 0 ∧ policyRead s 0 (c.ringOff.toNat + 64 * (policyRead s 0 (c.ringOff.toNat + 64 * 2) 8 % 2)) 8 = 0 ∧
      policyRead { s with mem := wordsAt s.mem [(0x600, [5])] } 0 (c.ringOff.toNat + 64 * (policyRead { s with mem := wordsAt s.mem [(0x600, [5])] } 0 (c.ringOff.toNat + 64 * 2) 8 % 2)) 8 ≠ 0) ∧
    (fullRec.kind < 256 ∧ fullRec.sev < 4 ∧ fullRec.socket < 32 ∧ fullRec.core < 256 ∧ fullRec.ctx < 256 ∧ fullRec.cause < 512 ∧ fullRec.span < 65536 ∧ fullRec.unit < 65536 ∧
      fullRec.code < 2 ^ 32 ∧ fullRec.time < 2 ^ 64) ∧
    (({ s with held := [h] } : State).held.find? (fun x => x.unit == h.unit && x.due == h.due) = some h ∧ (∀ x ∈ s.held, x.unit = 5 → x.due ≤ s.now) ∧
      (∀ x ∈ ({ s with held := [h], now := 2400000 } : State).held, x.unit = 5 → x.due ≤ 2400000) ∧ ∃ x ∈ ({ s with held := [h] } : State).held, x.unit = 5 ∧ s.now < x.due) ∧
    (findReq (on rl) rl.id = some rl ∧ (∃ k ∈ rl.keys, 2 ^ 52 ≤ k) ∧ rl.stage ≠ .applied ∧ rl.replied = false ∧ rl.kind = .load .b64 0 none) ∧
    (findReq (on rs) rs.id = some rs ∧ (∃ k ∈ rs.keys, 2 ^ 52 ≤ k) ∧ rs.stage ≠ .applied ∧ rs.replied = false ∧ rs.kind = .store [5#8] ∧ rs.core < 224) ∧
    (findReq (farSpanState [src]) src.id = none ∧ findCmd (farSpanState [src]) src.id = some src ∧ findTeam (farSpanState [src]) src.team = some mxTeam ∧ src.stage = .running ∧
      (∃ sp ∈ (cmdSpans src).1, farSpan (farSpanState [src]) mxTeam.ctx sp = true)) ∧
    (findCmd (farSpanState [dst]) dst.id = some dst ∧ (cmdSpans dst).1 = [] ∧ (∃ sp ∈ (cmdSpans dst).2, farSpan (farSpanState [dst]) mxTeam.ctx sp = true)) ∧
    (findCmd (cmdState [src]) src.id = some src ∧ ∀ sp ∈ (cmdSpans src).1 ++ (cmdSpans src).2, farSpan (cmdState [src]) mxTeam.ctx sp = false) := by decide +kernel
@[inherit_doc witness_ErrorRecords] theorem witness_far_access : let both := cmdOf .copy .running (some (wordsB [0x230 - 0x200, 0x10000, 0x8000, 0, 2] ++ copyBytes.drop 40)) 0#64
    let w := handled { oneOf [] with slots := { slotAt (oneOf []) 0 with st := .wait, wait := .watch false [] 0x10000#80 0#64 (some 9) } :: (oneOf []).slots.drop 1 }
    let pl := { stateOf w with reqs := [], cmds := [], tasks := [] }
    (findCmd (farSpanState [both]) 9 = some both ∧ (∃ sp ∈ (cmdSpans both).1, farSpan (farSpanState [both]) mxTeam.ctx sp = true) ∧ ∃ sp ∈ (cmdSpans both).2, farSpan (farSpanState [both]) mxTeam.ctx sp = true) ∧
    (findReq pl 9 = none ∧ findCmd pl 9 = none ∧ findTask pl 9 = none ∧ farPoll pl 9 = some (w, 0, 0x10000#80) ∧ findTrain pl w.uid = some w ∧
      (slotAt w 0).wait = .watch false [] 0x10000#80 0#64 (some 9) ∧ w.thand.getLsbD 40 = true ∧ w.inHand = false ∧ w.prol = none ∧ entryWaits pl w.uid = false ∧
      entryWaits { pl with reqs := [loadReq w] } w.uid = true) := by decide +kernel
/-- AuditsAndTests: a sample with nowhere to go, and one for another die. -/
theorem witness_AuditsAndTests : let v : Resv := ⟨0, 0, 0, 0, 1, 64, 0, [], []⟩
    let x : Sample := ⟨9, 0, 0, 1, 7#64, 8#64, ⟨plainRec, v, v, none⟩⟩
    let s := { idleState with samples := [x], margin := [(56, 0#64), (57, 0x8000#64), (1, 0x4000#64)] }
    (s.booted = true ∧ s.samples.find? (fun y => y.id == x.id) = some x ∧ replayPlace s x.core = some (57, 3) ∧ replayPlace { s with corAlive := 0#4 } x.core = none ∧
      replayPlace { s with corAlive := 1#4 } x.core = some (1, 2)) ∧
    (Config.replaySignature s.tick (shotSig x.shot) = x.sig ∨ Config.replaySignature s.tick (shotSig x.shot) ≠ x.sig) := ⟨by decide +kernel, Classical.em _⟩
/-- RepairsAndPlans: a core with its units, one with 256 dead banks, one with 28 good lanes, one with its last engine; a drain that has begun, on the core and
elsewhere on its die, with a team on the core. -/
theorem witness_RepairsAndPlans : let s := idleState
    let put := fun (c : Core) => { s with cores := [(223, c)] }
    let k := Core.reset
    let full := put { k with dead := List.range 255, retire := [255] }
    let few := put { k with lanes := 0x0FFFFFFF#32 }
    let last := { s with margin := [(223, 0x8000#64)] }
    let plan := { k with plan := some (0#64, 0#64), drain := some 0 }
    let there := { stateOf (oneOf []) with cores := [(0, { plan with retire := [2047] })] }
    (coreOf s 223 = k ∧ 2047 ∉ k.dead ∧ 2047 ∉ k.retire ∧ 7340032 ≤ (2048 - (k.dead.length + k.retire.length + 1)) * 4096 ∧
      2047 ∉ (coreOf full 223).dead ∧ 2047 ∉ (coreOf full 223).retire ∧ (2048 - ((coreOf full 223).dead.length + (coreOf full 223).retire.length + 1)) * 4096 < 7340032) ∧
    ((k.lanes &&& ~~~k.fuse).getLsbD 31 = true ∧ 28 ≤ goodLanes { k with lanes := k.lanes &&& ~~~(k.fuse ||| (1#32 <<< 31)) } ∧
      ((coreOf few 223).lanes &&& ~~~(coreOf few 223).fuse).getLsbD 27 = true ∧ goodLanes { coreOf few 223 with lanes := (coreOf few 223).lanes &&& ~~~((coreOf few 223).fuse ||| (1#32 <<< 27)) } < 28) ∧
    ((marginOf s 223).getLsbD (12 + 3) = true ∧ (marginOf last 223).getLsbD (12 + 3) = true ∧ fld (marginOf last 223) 12 4 = 2 ^ 3) ∧ k.fenced = false ∧
    (k.retire = [] ∧ (coreOf full 223).retire ≠ [] ∧ occupied full 223 = false ∧ (coreOf there 0).retire ≠ [] ∧ occupied there 0 = true) ∧
    (k.plan = none ∧ k.fuse = 0#32 ∧ plan.plan ≠ none ∧ plan.drain ≠ none ∧ ({ plan with drain := none } : Core).drain = none ∧
      (∃ o ∈ dieCores (dieOf 223), (coreOf ({ s with cores := [(222, plan)] } : State) o).drain ≠ none) ∧ (∀ o ∈ dieCores (dieOf 223), (coreOf s o).drain = none) ∧
      occupied (put plan) 223 = false ∧ (coreOf there 0).drain = some 0 ∧ there.now < 0 + drainCycles) ∧
    ((coreOf (put { k with fenced := true }) 223).fenced = true ∧ ({ s with corAlive := 7#4 } : State).corAlive.getLsbD (dieOf 223) = false) := by decide +kernel
/-- The word that a fetch reads. -/
def fetches (s : State) (t : Train) (pc : Pc) : Option Nat :=
  match fetchWord s t pc with
  | .word w _ _ => some w
  | .bad _ _ => none
theorem fetch_of {s : State} {t : Train} {pc : Pc} {w : Nat} (h : fetches s t pc = some w) : ∃ key ver, fetchWord s t pc = .word w key ver := by
  unfold fetches at h
  split at h
  · rename_i k v hk
    cases h
    exact ⟨k, v, hk⟩
  · cases h
/-- The device that stands at a word, its choice of run still to come or made. -/
def wordState (w : Nat) : State := fetchState State.reset w
def midState (w : Nat) : State := { wordState w with iss := some (issOf (fetchTrain 2 1)) }
/-- The device once its train has been chosen. -/
def chosenOf (s : State) : State :=
  match options s with
  | [.issue c p [u]] => noteChoice s c p u
  | _ => s
def chosen (w : Nat) : State := chosenOf (trackAble (advance (wordState w)))
def choosesB (s : State) (iss : Issue) : Bool :=
  match options s with
  | [.issue c p [u]] => decide (c = 0) && (escapeSlot (noteChoice s c p u) u).isNone && (match headSlot (noteChoice s c p u) u with
      | some x => decide (iss = issueOf u x)
      | none => false)
  | _ => false
theorem chooses_of {s : State} {iss : Issue} (h : choosesB s iss = true) :
    ∃ pipe u x, options s = [.issue 0 pipe [u]] ∧ chosenOf s = noteChoice s 0 pipe u ∧ escapeSlot (chosenOf s) u = none ∧
      headSlot (chosenOf s) u = some x ∧ iss = issueOf u x := by
  unfold choosesB at h
  split at h
  · rename_i c p u ho
    simp only [Bool.and_eq_true, decide_eq_true_eq, Option.isNone_iff_eq_none] at h
    obtain ⟨⟨rfl, he⟩, hh⟩ := h
    split at hh
    · rename_i x hx
      have hc : chosenOf s = noteChoice s 0 p u := by simp only [chosenOf, ho]
      exact ⟨p, u, x, ho, hc, hc ▸ he, hc ▸ hx, of_decide_eq_true hh⟩
    · cases hh
  · cases h
/-- StepRunsDecoded: a word that is next, by choice and in a chain; a prefix; a word that no table assigns; a guarded jump; a word of a prologue that is
admitted, and one that is not; an event that is due alone. -/
theorem witness_StepRunsDecoded : let t := fetchTrain 2 1
    let g := { t with slots := t.slots.map (fun x => { x with guard := ⟨2, false, 1#3⟩ }) }
    let p := { t with prol := some (3, 0, 0, 0) }
    let pro := fun (w : Nat) => { midState w with trains := [p] }
    (∀ w ∈ [0x00200000, 0x0A000001, 0xD8000000, 0x22007800], (∃ key ver, fetchWord (chosen w) t 0#40 = .word w key ver) ∧ (∃ key ver, fetchWord (advance (midState w)) t 0#40 = .word w key ver)) ∧
    NextWord (midState 0x00200000) (advance (midState 0x00200000)) (issOf t) t ∧ NextWord (wordState 0x00200000) (chosen 0x00200000) (issOf t) t ∧ (issOf t).wpc = 0#40 ∧
    (0x0A000001 / 2 ^ 27 = 1 ∧ decodeN none 0x0A000001 = .ok (.xim 1#20) ∧ (prefixKind (.xim 1#20)).bind (prefixFault (issOf t) t) = none) ∧
    (decodeN none 0x00200000 = .ok .sysNop ∧ placeFault (issOf t) t .sysNop = none ∧ decodeN none 0xD8000000 = .error 0 ∧
      decodeN none 0x22007800 = .ok (.jmpRet 30#7) ∧ placeFault (issOf g) g (.jmpRet 30#7) = some 18) ∧
    ((pro 0x00200000).iss = some (issOf t) ∧ findTrain (pro 0x00200000) 2 = some p ∧ (∃ key ver, fetchWord (advance (pro 0x00200000)) p 0#40 = .word 0x00200000 key ver) ∧
      (∃ key ver, fetchWord (advance (pro 0x22007800)) p 0#40 = .word 0x22007800 key ver) ∧ prologueOk .sysNop = true ∧ prologueOk (.jmpRet 30#7) = false) ∧
    (State.reset.iss = none ∧ agingDue (advance State.reset) = none ∧ State.reset.agenda = [.deviceBoot] ∧ options (trackAble (advance State.reset)) = [.agenda 0]) := by
  refine ⟨fun w hw => ?_, ⟨by decide +kernel, by decide, .inl ⟨rfl, rfl⟩⟩, ⟨by decide +kernel, by decide, .inr ⟨by decide, by decide +kernel, chooses_of (by decide +kernel)⟩⟩,
    by decide +kernel, ⟨by decide, ex_get (by decide +kernel), by decide +kernel⟩,
    ⟨ex_get (by decide +kernel), by decide +kernel, ex_err (by decide +kernel), ex_get (by decide +kernel), by decide +kernel⟩, ⟨by decide, by decide +kernel, fetch_of (by decide +kernel), fetch_of (by decide +kernel), by decide +kernel⟩, by decide +kernel⟩
  · simp only [List.mem_cons, List.not_mem_nil, or_false] at hw
    rcases hw with rfl | rfl | rfl | rfl <;> exact ⟨fetch_of (by decide +kernel), fetch_of (by decide +kernel)⟩
/-- What a step answers, where it is a next state. -/
def nextB : Host.Outcome State Fault Refusal → Bool
  | .next _ => true
  | _ => false
theorem next_of {o : Host.Outcome State Fault Refusal} (h : nextB o = true) : ∃ s', o = .next s' := by
  cases o <;> simp_all [nextB]
/-- ResetState, StepsKeepMemory, StepsKeepSlots: the first step answers a next state; memory in its form, of a device with a train of 32 slots, and a step of it. -/
theorem witness_ResetState : (∃ s', step State.reset = .next s') ∧ State.Inv State.reset ∧ State.Inv (wordState 0x00200000) ∧
    (∃ s', exec .sysNop (midState 0x00200000) = .next s') ∧ (∃ s', step (wordState 0x00200000) = .next s') ∧ ∀ t ∈ (wordState 0x00200000).trains, t.slots.length = 32 :=
  ⟨next_of (by decide +kernel), by unfold State.Inv; decide +kernel, by unfold State.Inv; decide +kernel, next_of (by decide +kernel), next_of (by decide +kernel), by decide +kernel⟩
/-- DecodedWords: words at the ends of what no table assigns, with the detail of each; among them the three of R96. -/
theorem witness_DecodedWords : ([(0xD8000000, 0), (0xFFFFFFFF, 0), (0x00000000, 1), (0x02000000, 1), (0x07FFFFFF, 1), (0x0B000000, 16), (0x0FFFFFFF, 16), (0x11600000, 1),
    (0x17E00000, 1), (0x18800000, 11), (0x18FFFFFF, 11), (0x25000000, 1), (0x27FFFFFF, 1), (0x38001400, 1), (0x3FFFFFFF, 1), (0x40030000, 10), (0x50000000, 11), (0x50FFFFFF, 11),
    (0x59E00000, 1), (0x5FFFFFFF, 1), (0x85800000, 1), (0x87FFFFFF, 1), (0xA8016000, 1), (0xA801E000, 1), (0xB6000000, 1), (0xB7FFFFFF, 1),
    (0x4C000000, 1), (0x4FFFFFFF, 1), (0x61400000, 1), (0x67FFFFFF, 1), (0x98018000, 6), (0x9FFFFFFF, 6), (0xA0014000, 6), (0xA7FFFFFF, 6), (0xB8800000, 1), (0xBFFFFFFF, 1), (0xC0A00000, 1), (0xC7FFFFFF, 1), (0xC8C00000, 1), (0xCFFFFFFF, 1), (0xD0C00000, 1), (0xD7FFFFFF, 1)] : List (Nat × Nat)).all
    (fun x => exErr (decodeN none x.1) == some x.2 && exErr (decodeN (some 0xFFFFF) x.1) == some x.2) = true ∧
    exErr (decodeN (some 6) 0x2F000000) = some 21 ∧ exErr (decodeN (some 0xFFFFF) 0x2F7FFFFF) = some 21 := by decide +kernel
/-- RoundsOnce: significands and exponents at both ends, and a sum that is not zero. -/
theorem witness_RoundsOnce : (1 : Nat) ≠ 0 ∧ (2 ^ 53 - 1) * (2 ^ 53 - 1) ≠ 0 ∧
    (-1 : Int) * (1 * 2 ^ ((-1074 : Int) - min (-1074) 971).toNat) + 1 * ((2 ^ 53 - 1) * 2 ^ ((971 : Int) - min (-1074) 971).toNat) ≠ 0 := by decide +kernel
/-- DecodeEncode: well-formed instructions with their fields at the ends of their ranges. -/
theorem witness_DecodeEncode : [Instr.sysTrap 31#5, .xim 0xFFFFF#20, .bra 7#3 true (BitVec.ofInt 43 (-2 ^ 42)), .jmpJmp (BitVec.ofInt 37 (-2 ^ 36)), .iopiAddi 127#7 127#7 (BitVec.ofInt 31 (-2 ^ 30)),
    .limmSets 119#7 3#2 0xFFFF#16, .ld .b128 true .plain 118#7 7#3 (BitVec.ofNat 28 (2 ^ 28 - 1)), .rep 3#2 3#2 3#2 true true true 63#6].all Instr.wf = true := by decide +kernel

/-! Ill-formed terms, one or more for each check of `Instr.wf`, and beside them the nearest term that is well-formed. -/

/-- Every term is refused. -/
def refusedAll (l : List Instr) : Bool := l.all (fun i => !i.wf)
/-- R71, R150, R161: pairs and groups that end beyond their file. -/
theorem test_wf_registers : refusedAll [.ld .b128 false .plain 95#7 0#3 0#28, .ldx .b128 false .plain 119#7 0#3 1#7 0#7, .st .b128 true .plain 120#7 0#3 0#28,
    .stx .b128 false .plain 126#7 0#3 1#7 0#7, .cvtBxPack .bx6 95#7 0#7, .cvtBxPack .bx4 0#7 89#7, .cvtBxUnpack .bx4 89#7 0#7, .cvtBxUnpack .bx9 0#7 94#7] = true ∧
    [Instr.ld .b128 false .plain 94#7 0#3 0#28, .cvtBxPack .bx6 94#7 88#7, .cvtBxUnpack .bx9 88#7 93#7, .st .b128 true .plain 127#7 0#3 0#28].all Instr.wf = true := by decide +kernel
/-- R51, R85, R88 to R90, R168: formats, conditions, operations and rounding modes that a form lacks. -/
theorem test_wf_forms : refusedAll [.fopAdd .f32 .rna 0#7 0#7 0#7, .fmaFnms .f64 .rna 0#7 0#7 0#7, .cmp 1#3 .flt (.int .w8) .set 0#7 0#7, .cmp 1#3 .test (.flt .f16) .set 0#7 0#7,
    .cmp 0#3 .eq (.int .w8) .set 0#7 0#7, .adrCmpa 0#3 0#3 0#3 .eq, .cvtFloatFloat .f16 .f16 .rn 0#7 0#7, .sfuExp2 .f64 0#7 0#7, .xlRed 0#7 0#7 .and (.f .f32) none,
    .xlScan true 0#7 0#7 .xor (.f .f16) none] = true ∧
    [Instr.cmp 1#3 .ford (.flt .f64) .andn 0#7 0#7, .sfuExp2 .bf16 0#7 0#7, .xlScan true 0#7 0#7 .max (.f .f16) none, .xlRed 0#7 0#7 .xor (.n .w8) none].all Instr.wf = true := by decide +kernel
/-- R76, R81, R82, R91, R93: a special register, mask register, branch, atom and allocation that no word encodes; and an event. -/
theorem test_wf_fields : refusedAll [.sysSrd 0#7 20#7 127#7, .sysSwr 127#7 127#7 127#7, .xlBal 0#7 0#3 (some 24#5), .bra 0#3 true 0#43, .atomAdd .a128 .scratch true 0#7 0#3 2#7,
    .atomSwap .a128 .scratch true 95#7 0#3 2#7, .atomSwap .a128 .scratch false 2#7 0#3 2#7, .atomCas .a128 .scratch true 0#7 0#3 95#7, .atomMinI .a32 .scratch false 1#7 0#3 2#7,
    .ctlOsalloc 1#7 97#7 .reg (.lapse 0), .deviceBoot, .taskStart 0] = true ∧
    [Instr.sysSrd 0#7 19#7 127#7, .xlBal 0#7 0#3 (some 23#5), .bra 0#3 false 0#43, .atomCas .a128 .scratch false 94#7 0#3 94#7, .ctlOsalloc 1#7 97#7 .scr (.strict 4)].all Instr.wf = true := by decide +kernel

/-! Steps of the other families, by hand from the rules. -/

/-- What a word of scratch holds after an instruction of the team of `heldState`. -/
def heldAfter (i : Instr) (t : Train) : State :=
  match exec i (heldState t) with
  | .next s => s
  | _ => State.reset
def trainIn (s : State) : Train := (findTrain s 2).getD (fetchTrain 0 0)
/-- R131: a branch, a call and a return. -/
theorem test_jumps : let at_ := fun (i : Instr) (r : List (Nat × Nat)) => (slotAt (after i (oneOf r)) 0).pc.toNat
    at_ (.bra 0#3 false 5#43) [] = 24 ∧ at_ (.bra 1#3 false 5#43) [] = 4 ∧ at_ (.bra 1#3 true 5#43) [] = 24 ∧ at_ (.jmpCall 30#7 7#37) [] = 32 ∧ regOf (after (.jmpCall 30#7 7#37) (oneOf [])) 0 30 = 4 ∧
    at_ (.jmpRet 30#7) [(30, 0x40)] = 0x40 ∧ at_ (.jmpCallr 30#7 30#7) [(30, 0x40)] = 0x40 ∧ regOf (after (.jmpCallr 30#7 30#7) (oneOf [(30, 0x40)])) 0 30 = 4 := by decide +kernel
/-- R418 to R420: entry at the software trap 10:5, with its frame; R423: the return from it. -/
theorem test_trap : let t := { handled (oneOf [(2, 5)]) with fflags := 3#5, k := [(7, 9#64)] }
    let u := after (.sysTrap 5#5) t
    let v := match exec .sysEret { stateOf t with trains := [u], iss := some (issOf u) } with
      | .next s => trainIn s
      | _ => t
    u.B = 96 ∧ u.inHand = true ∧ (slotAt u 0).pc = 0x1000#40 ∧ (slotAt u 1).st = .absent ∧ regOf u 0 (96 + 28) = 0x145 ∧ regOf u 0 (96 + 29) = 0 ∧ regOf u 0 (96 + 30) = 1 ∧
    regOf u 0 (96 + 31) = 0 ∧ regOf u 1 (96 + 28) = 0 ∧ regOf u 1 (96 + 30) = 3 ∧ regOf u 4 (96 + 29) = 9 ∧ regOf u 0 (96 + 16) = 4 ∧
    v.B = 0 ∧ v.inHand = false ∧ (slotAt v 0).pc = 4#40 ∧ regOf v 0 2 = 5 ∧ v.fflags = 3#5 := by decide +kernel
/-- R81, R144, R419: slot; coreid of core 73, which is in ring 2 of die 1 at position 1; a write of thand leaves its reserved bits 0. -/
theorem test_special : regOf (after (.sysSrd 1#7 2#7 127#7) (trainOf [])) 31 1 = 31 ∧
    cget (after (.sysSrd 97#7 5#7 127#7) { trainOf [] with core := 73 }).k 1 = 0x4549#64 ∧
    (match exec (.specialRegWrite 2 16#7 0 (BitVec.ofNat 64 (2 ^ 64 - 1))) (stateOf (trainOf [])) with
      | .next s => (trainIn s).thand
      | _ => 0#64) = 0x1FFFFFFFFFC#64 := by decide +kernel
/-- R228, R229: stores to scratch, the offset scaled by the size. -/
theorem test_scratch : let t := withA (oneOf [(1, 0x1122334455667788), (2, 0xFF)]) 0x100
    let m := fun (s : State) (a : Nat) => (cget ((findTeam s 1).getD (fetchTeam 0)).scratch a).toNat
    let s := heldAfter (.st .b32 true .plain 1#7 1#3 (BitVec.ofInt 28 (-4))) t
    let x := heldAfter (.stx .b16 true .plain 2#7 1#3 2#7 127#7) t
    m s 0xF0 = 0x88 ∧ m s 0xF3 = 0x55 ∧ m s 0xF4 = 0 ∧ m x (0x100 + 2 * 0xFE) = 0xFF := by decide +kernel
/-- R240: what an atomic leaves, at width 32. -/
theorem test_atom : [AtomOp.add, .minI, .minN, .maxI, .maxN, .and, .or, .xor, .swap].map (fun o => atomNew o .a32 0xFFFFFFFF 2 0) =
      [1, 0xFFFFFFFF, 2, 2, 0xFFFFFFFF, 2, 0xFFFFFFFF, 0xFFFFFFFD, 2] ∧
    atomNew .cas .a32 5 7 5 = 7 ∧ atomNew .cas .a32 5 7 6 = 5 ∧ atomNew .fadd .a32 0x3F800000 0x3F800000 0 = 0x40000000 := by decide +kernel
/-- R250, R251: bytes that complete a phase, one that runs over, and a read of the object. -/
theorem test_bo : let run := fun (i : Instr) (r : List (Nat × Nat)) => (match exec i (mxState (oneOf r)) with
      | .next s => s
      | _ => State.reset)
    let o := fun (s : State) => objOf ((findTeam s 1).getD (fetchTeam 0)) 0x40
    o (run (.boArrive 1#7 2#7) [(1, 0x40), (2, 3)]) = ⟨0, 0, 0, true⟩ ∧ o (run (.boArrive 1#7 2#7) [(1, 0x40), (2, 4)]) = ⟨0, 0, 9, true⟩ ∧
    o (run (.boExpect 1#7 2#7) [(1, 0x40), (2, 4)]) = ⟨9, 2, 0, false⟩ ∧ o (run (.boInit 1#7 2#7) [(1, 0x40), (2, 8)]) = ⟨8, 0, 0, false⟩ ∧
    regOf (trainIn (run (.boTest 3#7 1#7) [(1, 0x40)])) 0 3 = 2 * 2 ^ 32 := by decide +kernel
/-- R197: the one train of its team completes a phase; of two, the first arrives and waits. -/
theorem test_bar : let one := heldState (oneOf [])
    let two := { one with trains := one.trains ++ [fetchTrain 9 1] }
    let run := fun (i : Instr) (s : State) => (match exec i s with
      | .next s => s
      | _ => State.reset)
    let b := fun (s : State) => aget ⟨false, 0, none⟩ ((findTeam s 1).getD (fetchTeam 0)).bars 3
    b (run (.ctlBar 3#6 127#7) one) = ⟨true, 0, none⟩ ∧ b (run (.ctlBar 3#6 127#7) two) = ⟨false, 1, some 0⟩ ∧ b (run (.ctlBarr 3#6 127#7) two) = ⟨false, 1, some 0⟩ ∧
    (slotAt (trainIn (run (.ctlBar 3#6 127#7) two)) 0).st = .barrier ∧ (slotAt (trainIn (run (.ctlBarr 3#6 127#7) two)) 0).st = .ready ∧
    (slotAt (trainIn (run (.ctlBarw 3#6) two)) 0).st = .ready := by decide +kernel
/-- R268, R272: the request of spec/11 takes the place behind the two reservations that are held. -/
theorem test_reservation : let s := (match exec (.mxRes 98#7 96#7) (mxState (withK (oneOf []) [(0, 0x340000C02F000000)])) with
      | .next s => s
      | _ => State.reset)
    (((findTeam s 1).getD (fetchTeam 0)).resv.map (fun r => (r.num, r.kind, r.fmt, r.len, r.base)))[2]? = some (2, 0, 13, 3072, 6144) ∧ cget (trainIn s).k 2 = 2#64 := by decide +kernel
/-- R354, R355, R364: a wake has the window fetched; a WRITE packet stores its value at its offset; rpub takes the read pointer. -/
theorem test_packets : let w := pktOf 8 [0x10040, 0x1234]
    let s := (match exec (.packetWrite 3) (queueState (queueWith [w]) []) with
      | .next s => s
      | _ => State.reset)
    (cget s.mem 0x200040).toNat = 0x34 ∧ (cget s.mem 0x200041).toNat = 0x12 ∧ (cget s.mem 0x200500).toNat = 4 ∧ (findQ s 3).map (·.window) = some [] ∧ .packetWindowFetch 3 ∈ s.agenda := by decide +kernel

end Sys2Proof.Tests
end

section
/-! PROOFS. The place of a sub-element in its register and in memory (R40): a window of a stored list of bytes is a window of
the list, and a window of the bytes of a number is a range of its bits. -/

namespace Sys2Proof.Proofs
open Sys2Proof Sys2Proof.Machine Sys2Proof.Laws

/-- What is read from inside a stored list is that part of the list. -/
theorem cgetAll_csetAll_window {n : Nat} (c : Cells n) (a : Nat) {l : List (BitVec n)} {k m : Nat} (h : k + m ≤ l.length) :
    cgetAll (csetAll c a l) (a + k) m = (l.drop k).take m := by
  apply List.ext_getElem
  · simp only [cgetAll, List.length_map, List.length_range, List.length_take, List.length_drop]
    omega
  · intro j hj _
    have hjm : j < m := by simpa [cgetAll] using hj
    simp only [cgetAll, List.getElem_map, List.getElem_range, List.getElem_take, List.getElem_drop, Nat.add_assoc]
    exact cget_csetAll_in (by omega)

theorem drop_bytesN (n k x : Nat) : (bytesN n x).drop k = bytesN (n - k) (x >>> (8 * k)) := by
  induction k generalizing n x with
  | zero => rfl
  | succ k ih =>
    cases n with
    | zero => simp [bytesN]
    | succ n =>
      have hx : (x / 256) >>> (8 * k) = x >>> (8 * (k + 1)) := by
        rw [show 8 * (k + 1) = 8 + 8 * k by omega, Nat.shiftRight_add, Nat.shiftRight_eq_div_pow x 8]
      simp only [bytesN, List.drop_succ_cons, ih, hx, Nat.add_sub_add_right]

theorem take_bytesN {n m : Nat} (h : m ≤ n) (x : Nat) : (bytesN n x).take m = bytesN m x := by
  induction m generalizing n x with
  | zero => rfl
  | succ m ih =>
    cases n with
    | zero => omega
    | succ n => simp only [bytesN, List.take_succ_cons, ih (Nat.le_of_succ_le_succ h)]

/-- Bytes k to k + m - 1 of a stored number hold its bits [8(k + m) - 1 : 8k]. -/
theorem leN_stored_window (c : Cells 8) (a x : Nat) {n k m : Nat} (h : k + m ≤ n) :
    leN (cgetAll (csetAll c a (bytesN n x)) (a + k) m) = bitsN x (8 * k) (8 * m) := by
  rw [cgetAll_csetAll_window c a (by rwa [length_bytesN]), drop_bytesN, take_bytesN (by omega), leN_bytesN, bitsN]

theorem testBit_subN (r : Word) (w i j : Nat) :
    (subN r w i).testBit j = (decide (j < w) && r.getLsbD (w * i + j)) := by
  simp only [subN, bitsN, Nat.testBit_mod_two_pow, Nat.testBit_shiftRight, BitVec.getLsbD]

theorem eight_dvd_wbits (wd : Width) : 8 ∣ wbits wd := by cases wd <;> decide

/-- A register holds 8, 4, 2 or 1 sub-elements. -/
theorem wbits_counts (wd : Width) :
    (wbits wd = 8 ∨ wbits wd = 16 ∨ wbits wd = 32 ∨ wbits wd = 64) ∧
    (64 / wbits wd = 8 ∨ 64 / wbits wd = 4 ∨ 64 / wbits wd = 2 ∨ 64 / wbits wd = 1) := by
  cases wd <;> decide

/-- Sub-element i of a register stored at byte a is read w/8 bytes long from byte a + wi/8. -/
theorem leN_stored_subN (wd : Width) (r : Word) {i : Nat} (hi : i < 64 / wbits wd) (m : Cells 8) (a : Nat) :
    leN (cgetAll (csetAll m a (bytesN 8 r.toNat)) (a + wbits wd * i / 8) (wbits wd / 8)) = subN r (wbits wd) i := by
  have hend : wbits wd * (i + 1) ≤ 64 :=
    calc wbits wd * (i + 1) ≤ wbits wd * (64 / wbits wd) := Nat.mul_le_mul_left _ hi
      _ = 64 := Nat.mul_div_cancel' (wbits_dvd wd)
  obtain ⟨b, hb⟩ := eight_dvd_wbits wd
  have hwi : wbits wd * i = 8 * (b * i) := by rw [hb, Nat.mul_assoc]
  have hin : b * i + b ≤ 8 := by rw [Nat.mul_succ, hwi, hb] at hend; omega
  have hw8 : wbits wd / 8 = b := by omega
  have hwi8 : wbits wd * i / 8 = b * i := by omega
  rw [hwi8, hw8, leN_stored_window m a r.toNat hin, ← hwi, ← hb, subN]

/-- Settles O8: the bits by `testBit_subN`, the bytes by `leN_stored_subN`, the packing by `subN_packW`. -/
theorem subElements : Obligations.SubElements := by
  intro wd r i w hi
  obtain ⟨hwidth, hcount⟩ := wbits_counts wd
  refine ⟨hwidth, hcount, testBit_subN r w i, leN_stored_subN wd r hi, fun f hf => ?_⟩
  rw [subN_packW (wbits_dvd wd) f hi, Nat.mod_eq_of_lt (hf i)]

end Sys2Proof.Proofs
end

section
/-! PROOFS. The iop table (R115): each function of a sub-element, modulo 2^w, is the value that the table gives. Saturation is a
clamp, a rotation's halves do not overlap, and what is left is a bound below 2^w. -/

namespace Sys2Proof.Proofs
open Sys2Proof Sys2Proof.Machine Sys2Proof.Laws

theorem wbits_pos (wd : Width) : 0 < wbits wd := by cases wd <;> decide

theorem two_pow_pred {w : Nat} (hw : 0 < w) : 2 ^ w = 2 * 2 ^ (w - 1) := by
  rw [← Nat.pow_succ', Nat.succ_eq_add_one, Nat.sub_add_cancel hw]

theorem wrapN_natCast {w x : Nat} (h : x < 2 ^ w) : wrapN w x = x := by
  rw [wrapN, Int.emod_eq_of_lt (Int.natCast_nonneg x) (Int.ofNat_lt.2 h), Int.toNat_natCast]

theorem wrapN_add_two_pow (w : Nat) (x : Int) : wrapN w (x + (2 ^ w : Nat)) = wrapN w x := by
  rw [wrapN, Int.add_emod_right, wrapN]

/-- Two's complement of w bits reaches from -2^(w-1) to below 2^(w-1). -/
theorem natAbs_sInt_le {w u : Nat} (hw : 0 < w) (hu : u < 2 ^ w) : (sInt w u).natAbs ≤ 2 ^ (w - 1) := by
  have h2 := two_pow_pred hw
  unfold sInt
  split
  · omega
  · have : ((2 : Int) ^ w) = ((2 ^ w : Nat) : Int) := by push_cast; rfl
    omega

theorem subF_mod (w u : Nat) {v : Nat} (hv : v < 2 ^ w) : subF w u v % 2 ^ w = (u + (2 ^ w - v)) % 2 ^ w := by
  rw [subF, Nat.mod_mod, Nat.mod_eq_of_lt hv, Nat.add_sub_assoc (Nat.le_of_lt hv)]

theorem minI_mod {w u v : Nat} (hw : 0 < w) (hu : u < 2 ^ w) (hv : v < 2 ^ w) :
    minI w u v % 2 ^ w = wrapN w (min (sInt w u) (sInt w v)) := by
  rw [minI, Int.min_def]
  split
  · rw [wrapN_sInt w u hw hu, Nat.mod_eq_of_lt hu]
  · rw [wrapN_sInt w v hw hv, Nat.mod_eq_of_lt hv]

theorem maxI_mod {w u v : Nat} (hw : 0 < w) (hu : u < 2 ^ w) (hv : v < 2 ^ w) :
    maxI w u v % 2 ^ w = wrapN w (max (sInt w u) (sInt w v)) := by
  rw [maxI, Int.max_def]
  split
  · rw [wrapN_sInt w v hw hv, Nat.mod_eq_of_lt hv]
  · rw [wrapN_sInt w u hw hu, Nat.mod_eq_of_lt hu]

/-- Signed saturation (R42) clamps, and reads the clamped number modulo 2^w. -/
theorem satI_mod {w : Nat} (hw : 0 < w) (x : Int) :
    satI w x % 2 ^ w = wrapN w (max (-2 ^ (w - 1)) (min (2 ^ (w - 1) - 1) x)) := by
  have h2 := two_pow_pred hw
  have hpos : 0 < 2 ^ (w - 1) := Nat.two_pow_pos _
  have hcast : (2 : Int) ^ (w - 1) = (2 ^ (w - 1) : Nat) := by push_cast; rfl
  rw [hcast, satI]
  generalize hc : max (-((2 ^ (w - 1) : Nat) : Int)) (min ((2 ^ (w - 1) : Nat) - 1) x) = c
  split
  case isTrue hlow =>
    have hup : c + (2 ^ w : Nat) = (2 ^ (w - 1) : Nat) := by omega
    rw [← wrapN_add_two_pow, hup, wrapN_natCast (by omega), Nat.mod_eq_of_lt (by omega)]
  case isFalse hlow =>
    split
    case isTrue hhigh =>
      obtain rfl : c = (2 ^ (w - 1) - 1 : Nat) := by omega
      rw [wrapN_natCast (by omega), Nat.mod_eq_of_lt (by omega)]
    case isFalse hhigh =>
      obtain rfl : c = x := by omega
      exact wrapN_mod w c

theorem addsN_mod (w u v : Nat) : addsN w u v % 2 ^ w = min (u + v) (2 ^ w - 1) := by
  have hpos : 0 < 2 ^ w := Nat.two_pow_pos w
  have h : addsN w u v = min (u + v) (2 ^ w - 1) := by
    unfold addsN satN
    split
    · omega
    · split <;> omega
  rw [h, Nat.mod_eq_of_lt (by omega)]

theorem subsN_mod {w u : Nat} (v : Nat) (hu : u < 2 ^ w) : subsN w u v % 2 ^ w = u - v := by
  have h : subsN w u v = u - v := by
    unfold subsN satN
    split
    · omega
    · split <;> omega
  rw [h, Nat.mod_eq_of_lt (by omega)]

theorem shlF_mod (w u v : Nat) : shlF w u v % 2 ^ w = if w ≤ v % 256 then 0 else u * 2 ^ (v % 256) % 2 ^ w := by
  unfold shlF
  split
  · exact Nat.zero_mod _
  · exact Nat.mod_mod _ _

theorem shrF_mod {w u : Nat} (v : Nat) (hu : u < 2 ^ w) :
    shrF w u v % 2 ^ w = if w ≤ v % 256 then 0 else u / 2 ^ (v % 256) := by
  unfold shrF
  split
  · exact Nat.zero_mod _
  · exact Nat.mod_eq_of_lt (Nat.lt_of_le_of_lt (Nat.div_le_self _ _) hu)

theorem sarF_mod (w u v : Nat) : sarF w u v % 2 ^ w = wrapN w (sInt w u / 2 ^ min (v % 256) (w - 1)) := by
  rw [sarF, wrapN_mod]
  push_cast
  rfl

theorem mulhI_mod (w u v : Nat) : mulhI w u v % 2 ^ w = wrapN w (sInt w u * sInt w v / 2 ^ w) := by
  rw [mulhI, wrapN_mod]
  push_cast
  rfl

theorem mulhN_mod {w u v : Nat} (hu : u < 2 ^ w) (hv : v < 2 ^ w) : mulhN w u v % 2 ^ w = u * v / 2 ^ w := by
  rw [mulhN, Nat.mod_mod, Nat.mod_eq_of_lt (Nat.div_lt_of_lt_mul (Nat.mul_lt_mul'' hu hv))]

/-- The halves of a rotation by k do not overlap: one is a multiple of 2^k, the other is below it. -/
theorem rotate_lt {w k u : Nat} (hk : k ≤ w) (hu : u < 2 ^ w) : u * 2 ^ k % 2 ^ w + u / 2 ^ (w - k) < 2 ^ w := by
  have hsplit : 2 ^ w = 2 ^ (w - k) * 2 ^ k := by rw [← Nat.pow_add, Nat.sub_add_cancel hk]
  have hhigh : u * 2 ^ k % 2 ^ w = u % 2 ^ (w - k) * 2 ^ k := by rw [hsplit, Nat.mul_mod_mul_right]
  have hlow : u / 2 ^ (w - k) < 2 ^ k := Nat.div_lt_of_lt_mul (hsplit ▸ hu)
  have hrem : u % 2 ^ (w - k) + 1 ≤ 2 ^ (w - k) := Nat.mod_lt _ (Nat.two_pow_pos _)
  calc u * 2 ^ k % 2 ^ w + u / 2 ^ (w - k) < u % 2 ^ (w - k) * 2 ^ k + 2 ^ k := by rw [hhigh]; omega
    _ = (u % 2 ^ (w - k) + 1) * 2 ^ k := (Nat.succ_mul _ _).symm
    _ ≤ 2 ^ w := hsplit ▸ Nat.mul_le_mul_right _ hrem

theorem rolF_mod {w u : Nat} (v : Nat) (hw : 0 < w) (hu : u < 2 ^ w) :
    rolF w u v % 2 ^ w = u * 2 ^ (v % 256 % w) % 2 ^ w + u / 2 ^ (w - v % 256 % w) :=
  Nat.mod_eq_of_lt (rotate_lt (Nat.le_of_lt (Nat.mod_lt _ hw)) hu)

/-- A rotation to the right by n is one to the left by w - n. -/
theorem rorF_mod {w u : Nat} (v : Nat) (hw : 0 < w) (hu : u < 2 ^ w) :
    rorF w u v % 2 ^ w = u / 2 ^ (v % 256 % w) + u * 2 ^ (w - v % 256 % w) % 2 ^ w := by
  have hn : v % 256 % w ≤ w := Nat.le_of_lt (Nat.mod_lt _ hw)
  have h := rotate_lt (Nat.sub_le w (v % 256 % w)) hu
  rw [Nat.sub_sub_self hn, Nat.add_comm] at h
  exact Nat.mod_eq_of_lt h

theorem avgN_mod {w u v : Nat} (hu : u < 2 ^ w) (hv : v < 2 ^ w) : avgN w u v % 2 ^ w = (u + v + 1) / 2 :=
  Nat.mod_eq_of_lt (by unfold avgN; omega)

theorem absF_mod {w u : Nat} (hw : 0 < w) (hu : u < 2 ^ w) : absF w u % 2 ^ w = (sInt w u).natAbs := by
  have hle := natAbs_sInt_le hw hu
  have hlt : 2 ^ (w - 1) < 2 ^ w := Nat.pow_lt_pow_right (by decide) (Nat.sub_lt hw (by decide))
  rw [absF, wrapN_mod, wrapN_natCast (Nat.lt_of_le_of_lt hle hlt)]

/-- Settles O9: `vecOp` in all its forms by `elems2`, `elems1` and `vecOp_word`, each row of the table by the lemma of its
function. -/
theorem iopForms : Obligations.IopForms := by
  refine ⟨fun w d a b => ?_, fun d a b => ?_⟩
  · have hw := wbits_pos w
    exact ⟨elems2 (exec_iopAdd w d a b) fun _ _ => Nat.mod_mod _ _,
      elems2 (exec_iopSub w d a b) fun v hv => subF_mod _ (v a) (hv b),
      elems2 (exec_iopMul w d a b) fun _ _ => Nat.mod_mod _ _,
      elems2 (exec_iopMinI w d a b) fun _ hv => minI_mod hw (hv a) (hv b),
      elems2 (exec_iopMaxI w d a b) fun _ hv => maxI_mod hw (hv a) (hv b),
      elems2 (exec_iopMinN w d a b) fun _ hv => Nat.mod_eq_of_lt (Nat.lt_of_le_of_lt (Nat.min_le_left _ _) (hv a)),
      elems2 (exec_iopMaxN w d a b) fun _ hv => Nat.mod_eq_of_lt (Nat.max_lt.2 ⟨hv a, hv b⟩),
      elems2 (exec_iopAddsI w d a b) fun _ _ => satI_mod hw _,
      elems2 (exec_iopSubsI w d a b) fun _ _ => satI_mod hw _,
      elems2 (exec_iopAddsN w d a b) fun v _ => addsN_mod _ (v a) (v b),
      elems2 (exec_iopSubsN w d a b) fun v hv => subsN_mod (v b) (hv a),
      elems2 (exec_iopShl w d a b) fun v _ => shlF_mod _ (v a) (v b),
      elems2 (exec_iopShr w d a b) fun v hv => shrF_mod (v b) (hv a),
      elems2 (exec_iopSar w d a b) fun v _ => sarF_mod _ (v a) (v b),
      elems2 (exec_iopMulhI w d a b) fun v _ => mulhI_mod _ (v a) (v b),
      elems2 (exec_iopMulhN w d a b) fun _ hv => mulhN_mod (hv a) (hv b),
      elems2 (exec_iopRol w d a b) fun v hv => rolF_mod (v b) hw (hv a),
      elems2 (exec_iopRor w d a b) fun v hv => rorF_mod (v b) hw (hv a),
      elems2 (exec_iopAvgN w d a b) fun _ hv => avgN_mod (hv a) (hv b),
      elems1 (exec_iopAbs w d a) fun _ hv => absF_mod hw (hv a)⟩
  · exact ⟨vecOp_word (exec_iopAnd d a b), vecOp_word (exec_iopOr d a b), vecOp_word (exec_iopXor d a b),
      vecOp_word (exec_iopAndn d a b)⟩

end Sys2Proof.Proofs
end

section
/-! PROOFS. cmp (R124, R125): what it does to the predicate and the flags in all its forms, and each float condition as one on
the order of the exact values, which is none exactly where an operand is a NaN. -/

namespace Sys2Proof.Proofs
open Sys2Proof Sys2Proof.Machine Sys2Proof.Laws

/-- cmp of integers, for a condition that `r` says. -/
theorem cmp_int_pred {p : R3} {w : Width} {m : Combine} {a b : Reg} {c : Cond} {r : Nat → Nat → Bool}
    (hr : ∀ u v, icond c (wbits w) u v = r u v) :
    VecPred (.cmp p c (.int w) m a b) p
      (fun rd x => combine m (slotPred x p) (r (subN (rd a) (wbits w) 0) (subN (rd b) (wbits w) 0))) (fun _ => 0#5) := by
  obtain rfl : icond c (wbits w) = r := funext fun u => funext (hr u)
  exact vecSlotFlag_pred (exec_cmp p c (.int w) m a b)

theorem icond_ne (w u v : Nat) : icond .ne w u v = decide (u ≠ v) := decide_not.symm

theorem icond_test (w u v : Nat) : icond .test w u v = decide (u &&& v ≠ 0) := decide_not.symm

/-- cmp of floats, for a condition that `r` says and operands that `inv` calls invalid. -/
theorem cmp_flt_pred {p : R3} {f : Fmt} {m : Combine} {a b : Reg} {c : Cond} {r inv : FVal → FVal → Bool}
    (hr : ∀ u v, fcond c u v = r u v)
    (hi : ∀ u v, cmpFlags c (u.isNan || v.isNan) (u.isSig || v.isSig) = if inv u v then 16#5 else 0#5) :
    let val := fun (x : Word) => unpack (fpOf f) (subN x (fbits f) 0)
    VecPred (.cmp p c (.flt f) m a b) p
      (fun rd x => combine m (slotPred x p) (r (val (rd a)) (val (rd b))))
      (fun rd => if inv (val (rd a)) (val (rd b)) then 16#5 else 0#5) := by
  obtain rfl : fcond c = r := funext fun u => funext (hr u)
  simp only [← hi]
  exact vecSlotFlag_pred (exec_cmp p c (.flt f) m a b)

/-- Values are unordered exactly where one is a NaN. -/
theorem isNone_cmpV (u v : FVal) : (cmpV u v).isNone = (u.isNan || v.isNan) := by
  cases u <;> cases v <;> rfl

/-- The table of float conditions (R125), by the order of the exact values. -/
def orderHolds (c : Cond) (o : Option Ordering) : Bool :=
  match c with
  | .feq => decide (o = some .eq)
  | .fne => decide (o ≠ some .eq)
  | .flt => decide (o = some .lt)
  | .fle => decide (o = some .lt ∨ o = some .eq)
  | .fgt => decide (o = some .gt)
  | .fge => decide (o = some .gt ∨ o = some .eq)
  | .fun_ => o.isNone
  | .ford => !o.isNone
  | _ => false

theorem fcond_eq_orderHolds (c : Cond) (u v : FVal) : fcond c u v = orderHolds c (cmpV u v) := by
  unfold fcond
  rcases cmpV u v with _ | _ | _ | _ <;> cases c <;> rfl

theorem fcond_fun (u v : FVal) : fcond .fun_ u v = (u.isNan || v.isNan) :=
  (fcond_eq_orderHolds .fun_ u v).trans (isNone_cmpV u v)

theorem fcond_ford (u v : FVal) : fcond .ford u v = !(u.isNan || v.isNan) :=
  (fcond_eq_orderHolds .ford u v).trans (congrArg (!·) (isNone_cmpV u v))

/-- Settles O12: what changes and what stands by `cmp_int_pred` and `cmp_flt_pred`; an integer condition is the model's own,
a float condition that of the table. -/
theorem comparisons : Obligations.Comparisons := by
  refine ⟨fun p w m a b => ?_, fun p f m a b => ?_⟩
  · exact ⟨cmp_int_pred fun _ _ => rfl, cmp_int_pred (icond_ne _),
      cmp_int_pred fun _ _ => rfl, cmp_int_pred fun _ _ => rfl, cmp_int_pred fun _ _ => rfl, cmp_int_pred fun _ _ => rfl,
      cmp_int_pred fun _ _ => rfl, cmp_int_pred fun _ _ => rfl, cmp_int_pred fun _ _ => rfl, cmp_int_pred fun _ _ => rfl,
      cmp_int_pred (icond_test _)⟩
  · exact ⟨cmp_flt_pred (fcond_eq_orderHolds .feq) fun _ _ => rfl, cmp_flt_pred (fcond_eq_orderHolds .fne) fun _ _ => rfl,
      cmp_flt_pred (fcond_eq_orderHolds .flt) fun _ _ => rfl, cmp_flt_pred (fcond_eq_orderHolds .fle) fun _ _ => rfl,
      cmp_flt_pred (fcond_eq_orderHolds .fgt) fun _ _ => rfl, cmp_flt_pred (fcond_eq_orderHolds .fge) fun _ _ => rfl,
      cmp_flt_pred fcond_fun fun _ _ => rfl, cmp_flt_pred fcond_ford fun _ _ => rfl⟩

end Sys2Proof.Proofs
end
